-- ==== Sys2Proof/Word.lean ====
section
/-! DEFINITION. The word and byte types of the Lyroth (R4, R5). -/

namespace Sys2Proof

/-- A 64-bit register value or virtual address. -/
abbrev Word := BitVec 64

/-- One byte of memory. -/
abbrev Byte := BitVec 8

end Sys2Proof
end

