-- ==== Sys2Proof/Config.lean ====
section
/-! DEFINITION. The values the manual leaves free: constants without a body, so that nothing can be proved of their values. -/

namespace Sys2Proof.Config

/-- Contents of a register the manual calls undefined: `s8`-`s23` after a `call` (R14), a register freed by
`chfree` (R253). The argument is the counter `State.fresh`. DESIGN CHOICE, log 7. -/
opaque freeWord : Nat → Word

/-- What a read through the host aperture returns (R341): outside the module. Arguments: bus address of the byte and the
counter `State.fresh`. DESIGN CHOICE, log 13. -/
opaque hostByte : Nat → Nat → Byte

/-- What a read of another module's host or alias aperture returns (R332): outside the module. Arguments: physical address and the
counter `State.fresh`. DESIGN CHOICE, log 13. -/
opaque peerByte : Nat → Nat → Byte

/-- Whether an instruction cache still holds a halfword that memory no longer equals (R270), and which one a full cache gives up. Log 9. -/
opaque icacheKeeps : Nat → Nat → Bool
opaque icacheVictim : Nat → Nat

/-- Which translation a full TLB, or a full set of one, gives up (R336). Log 38. -/
opaque tlbVictim : Nat → Nat

/-- Whether a halfword that cannot be fetched counts as 4 bytes long when a handler's queue is formed (R316). Log 18. -/
opaque unfetchedIsLong : Word → Bool

/-- The output of a loaded copy-core routine (R238): a function of the loaded image, the argument and the input bytes. Log 21. -/
opaque routine : Word → BitVec 24 → List Byte → List Byte

/-- How many granules a copy-core routine writes before it fails mid-stream, or none where it does not fail (R238). Log 21. -/
opaque routineFails : Word → BitVec 24 → List Byte → Option Nat

/-- SHAKE256 with 64 bytes of output (R361, R362): another standard. Log 22. -/
opaque shake256 : List Byte → List Byte

/-- Falcon-1024 verification of a signature over a digest by a public key (R361, R362): another standard. Log 22. -/
opaque falconVerify : List Byte → List Byte → List Byte → Bool

/-- The key hash in fuses (R362). Log 22. -/
opaque fusedKeyHash : List Byte

/-- The device serial number, the signature of the device identity key over bytes, and that key's Ifemon certificate (R364, R379): each as
the device holds it. Log 22. -/
opaque serial : List Byte
opaque deviceSign : List Byte → List Byte
opaque certificate : List Byte

/-- The identity register (R339). Log 35. -/
opaque identity : Word

/-- What flash holds of an image when power is lost while it is being written (R378). Log 22. -/
opaque tornFlash : List Byte → List Byte

/-- CRC-64 over bytes (R349): its polynomial is not given. Log 36. -/
opaque crc64 : List Byte → BitVec 64

/-- Where in canopy the recovery staging region lies (R363); the model aligns it to its size and keeps it in canopy. Log 22. -/
opaque stagingBase : Nat

/-- The image in SPI NOR flash at reset (R362), as bytes. Log 22. -/
opaque flashImage : List Byte

/-- The physical address of the root table that the forester sets for a tenant (R331); the model aligns it and keeps it in canopy. Log 23. -/
opaque rootBase : Nat → Nat → Nat

/-- The sub-mesh that the head forester assigns to a launch (R291): cores, by core number. Arguments: tenant and `lid`. Log 23. -/
opaque subMesh : Nat → Nat → List Nat

/-- The scratchpad and scale-memory addresses the forester grants a launch (R47): any value; made a multiple of the unit and
fitted by the model. Arguments: lid and counter. Log 23. -/
opaque windowBase : Nat → Nat → Nat

/-- The first address of the register stack, and the address of the context extension, that the forester gives a unit at its first bind
(R328). Arguments: lid, unit and counter. Log 23. -/
opaque stackBase : Nat → Nat → Nat → Word
opaque extensionBase : Nat → Nat → Nat → Word

/-- Where the forester maps a launch's clearing map for its tenant, and the first of the canopy pages that it gives the map and the page tables
that the mapping may need (R302); the model aligns them and fits them to what is unused. Argument: lid. Log 23. -/
opaque mapBase : Nat → Word
opaque mapFrame : Nat → Nat

/-- Whether an append fills the log area that the forester has given a phase (R121). Arguments: job, phase, entries. Log 23. -/
opaque logFills : Nat → Nat → Nat → Bool

/-- The fields 32 to 119 that `trav` leaves in a ray record whose depths or stack count lie outside R225: undefined, but a function of
the record (R227). Log 24. -/
opaque travUndefined : List Byte → Nat

end Sys2Proof.Config
end

