-- ==== Sys2Proof/Syntax.lean ====
section
/-! DEFINITION. The instructions and steps of the Lyroth: one constructor per row of spec/opcode_table.json. -/

namespace Sys2Proof

/-- A scalar register field (R151): 0-7 are `g0`-`g7`, 8-31 are `s0`-`s23`. -/
abbrev Reg := Fin 32
/-- A pointer register `p0`-`p15` (R151). -/
abbrev PReg := Fin 16
/-- A condition register `c0`-`c3` (R151). -/
abbrev CReg := Fin 4
/-- A lazy-uniform register `z0`-`z7` (R151). -/
abbrev ZReg := Fin 8
/-- An accumulator tile name `m0`-`m3` (R151). -/
abbrev MReg := Fin 4
/-- A tensor-table entry `d0`-`d63` (R151). -/
abbrev DReg := Fin 64

/-- Operation width (R161). -/
inductive Width | w64 | w32 | w16 | w8
  deriving DecidableEq, Repr

/-- Vector element type (R165). -/
inductive VType | i8 | u8 | i16 | i32 | f32 | f16 | bf16 | f8e5 | f8e4 | u16 | u32
  deriving DecidableEq, Repr

/-- Rounding mode (R86). -/
inductive Round | rne | rtz | rdn | rup | sr
  deriving DecidableEq, Repr

/-- Scalar compare condition (R162). -/
inductive Cond | eq | ne | lt | ltu | le | leu
  deriving DecidableEq, Repr

/-- Vector compare condition (R211). -/
inductive VCond | eq | ne | lt | le | gt | ge
  deriving DecidableEq, Repr

/-- Second operand of a 16-bit ALU form (R154): a register or a 5-bit immediate. -/
inductive Src16 | reg (r : Reg) | imm (v : BitVec 5)
  deriving DecidableEq, Repr

/-- The special registers of R152. -/
inductive SReg
  | cid | tid | gid | did | mid | lid | cyc | vl | flags | qtier | cmdst | spbase | splim | scbase | sclim
  | wsp | wlim | mcfg | xcfg | status | evcode | evaddr | epc0 | epc1 | epc2 | eann | uentry | wdlim
  | svec | sarea | sscratch
  deriving DecidableEq, Repr

/-- A place: die, core within the die, and slot (0-7 primary, 8-11 understory bank) (R7, R252). -/
structure Place where
  did : Fin 16
  cid : Fin 256
  slot : Fin 12
  deriving DecidableEq, Repr

/-- A core of the module (R7). -/
structure CoreId where
  did : Fin 16
  cid : Fin 256
  deriving DecidableEq, Repr

/-- Ticket class (R75). -/
inductive EngClass | matrix | copy | coll
  deriving DecidableEq, Repr

/-- How a command ends (R77): the status, and for an error how many destination granules were delivered. -/
inductive CmdEnd | ok | mcheck (delivered : Nat) | tenant (delivered : Nat)
  deriving DecidableEq, Repr

/-- The forms of a barrier (R262), also the scopes of a fence (R261). -/
inductive BarForm | core | grove | die | package | system | launch
  deriving DecidableEq, Repr

/-- A launch ring, which is one job of a tenant: virtual function and ring number (R342). -/
structure JobId where
  vf : Fin 16
  ring : Fin 16
  deriving DecidableEq, Repr

/-- Where a launch record comes from (R343): the next entry of a ring, whose eight words the forester reads from host memory, or
the head of a die's queue of device launches (R251). -/
inductive LaunchSource | ring (j : JobId) (ws : List Word) | device (d : Fin 16)
  deriving DecidableEq, Repr

/-- A level of the work hierarchy (R18). -/
inductive WorkObj
  | unit (l : BitVec 32) (k : Nat) | launch (l : BitVec 32) | graph (j : JobId) (tag : Nat) | phase (j : JobId) (p : Nat) | job (j : JobId)
  deriving DecidableEq, Repr

/-- A flit (R349). -/
structure Flit where
  lc : BitVec 2
  seq : BitVec 12
  ack : BitVec 12
  nak : Bool
  ddie : BitVec 4
  sdie : BitVec 4
  tenant : BitVec 4
  payload : List Byte
  crc : BitVec 64
  deriving DecidableEq, Repr

/-- A part that has power states (R372). -/
inductive Part | coreC1 (c : CoreId) | coreC2 (c : CoreId) | grove (d : Fin 16) (g : Fin 16) | die (d : Fin 16)
  deriving DecidableEq, Repr

/-- Where a read from outside goes: an offset in the BAR0 or in the BAR2 of a function (R338); an offset of the PF that the I3C target reads;
or the identification code of boundary scan (R377). -/
inductive BarOffset | bar0 (off : Nat) | bar2 (off : Nat) | i3c (off : Nat) | idcode
  deriving DecidableEq, Repr

/-- What a clock step goes by: the clock asked for, in sixteenths, and a die's flux in W/cm² and power in mW (R374). -/
structure ClockInput where
  k : Nat
  flux : Nat
  power : Nat
  deriving DecidableEq, Repr

/-- A write of the release unit's control register, and the nanoseconds since the release clock was last read (R133). -/
structure EnableWrite where
  word : Word
  elapsed : Nat
  deriving DecidableEq, Repr

/-- A reading of a die's hottest junction, in sixteenths of a degree (R375). -/
structure Junction where
  did : Fin 16
  sixteenths : Nat
  deriving DecidableEq, Repr

/-- The guarded fields of a launch ring (R342). -/
inductive RingField | rbase | lsize | cbase | gbase
  deriving DecidableEq, Repr

/-- The guarded registers of the release unit, offsets 0x008-0x028 (R359). -/
inductive RelField | bases | basens | period | tlead | format
  deriving DecidableEq, Repr

/-- The registers of an alias aperture other than its enable (R348). -/
inductive ApField | src | pitch | nbc | nbr | esize
  deriving DecidableEq, Repr

/-- What a register write names: a register or field with no behaviour of its own (R339, R342, R359, R370), the control word of a slot-table
entry (R293), a launch's pending block as the forester writes it (R302), or, by its offset, any register that BAR0 of a function shows, with the
nanoseconds since the release clock was last read. The last four are settings that no offset shows: the size of a BAR2, corrected errors to be counted, self-refresh, the modules of the system. -/
inductive PlainReg
  | mid | ringVec (j : JobId) | ringErr (j : JobId) | relErr | relPorts | relStream (p : Fin 4) | relSsrc (p : Fin 4) | stageLen
  | mailArg (k : Fin 32) | mailOp | slotControl (p : Place) | schedBlock (l : BitVec 32) (ext w1 : Word)
  | graph (g : Fin 4096) | priceStep | tier | margin | goodFrames | ageLimit (j : JobId) | bar0 (f : Fin 17) (off elapsed : Nat)
  | bar2Size (f : Fin 17) | corrected (d : Fin 16) (m : Fin 3) | selfRefresh (d : Fin 16) | system
  deriving DecidableEq, Repr

/-- Every row of the opcode table: the instructions, then the steps of hardware, forester, host and peers. -/
inductive Instr where
  /-- `mov` (R154). -/
  | mov16 (d : Reg) (x : Src16)
  /-- `add` (R154). -/
  | add16 (d : Reg) (x : Src16)
  /-- `sub` (R154). -/
  | sub16 (d : Reg) (x : Src16)
  /-- `and` (R154). -/
  | and16 (d : Reg) (x : Src16)
  /-- `or` (R154). -/
  | or16 (d : Reg) (x : Src16)
  /-- `xor` (R154). -/
  | xor16 (d : Reg) (x : Src16)
  /-- `shl` (R154). -/
  | shl16 (d : Reg) (x : Src16)
  /-- `shr` (R154). -/
  | shr16 (d : Reg) (x : Src16)
  /-- `sra` (R154). -/
  | sra16 (d : Reg) (x : Src16)
  /-- `mul` (R154). -/
  | mul16 (d : Reg) (x : Src16)
  /-- `min` (R154). -/
  | min16 (d : Reg) (x : Src16)
  /-- `max` (R154). -/
  | max16 (d : Reg) (x : Src16)
  /-- `ldw` (R155). -/
  | ldw16 (d : Reg) (a : Reg) (post : Bool)
  /-- `stw` (R155). -/
  | stw16 (d : Reg) (a : Reg) (post : Bool)
  /-- `ldd` (R155). -/
  | ldd16 (d : Reg) (a : Reg) (post : Bool)
  /-- `std` (R155). -/
  | std16 (d : Reg) (a : Reg) (post : Bool)
  /-- `add` (R178). -/
  | add (w : Width) (d : Reg) (a : Reg) (b : Reg)
  /-- `sub` (R178). -/
  | sub (w : Width) (d : Reg) (a : Reg) (b : Reg)
  /-- `mul` (R178). -/
  | mul (w : Width) (d : Reg) (a : Reg) (b : Reg)
  /-- `mulh` (R178). -/
  | mulh (w : Width) (d : Reg) (a : Reg) (b : Reg)
  /-- `mulhu` (R178). -/
  | mulhu (w : Width) (d : Reg) (a : Reg) (b : Reg)
  /-- `div` (R180). -/
  | div (w : Width) (d : Reg) (a : Reg) (b : Reg)
  /-- `divu` (R180). -/
  | divu (w : Width) (d : Reg) (a : Reg) (b : Reg)
  /-- `rem` (R180). -/
  | rem (w : Width) (d : Reg) (a : Reg) (b : Reg)
  /-- `remu` (R180). -/
  | remu (w : Width) (d : Reg) (a : Reg) (b : Reg)
  /-- `and` (R178). -/
  | and (d : Reg) (a : Reg) (b : Reg)
  /-- `or` (R178). -/
  | or (d : Reg) (a : Reg) (b : Reg)
  /-- `xor` (R178). -/
  | xor (d : Reg) (a : Reg) (b : Reg)
  /-- `andn` (R178). -/
  | andn (d : Reg) (a : Reg) (b : Reg)
  /-- `orn` (R178). -/
  | orn (d : Reg) (a : Reg) (b : Reg)
  /-- `shl` (R178). -/
  | shl (w : Width) (d : Reg) (a : Reg) (b : Reg)
  /-- `shr` (R178). -/
  | shr (w : Width) (d : Reg) (a : Reg) (b : Reg)
  /-- `sra` (R178). -/
  | sra (w : Width) (d : Reg) (a : Reg) (b : Reg)
  /-- `rol` (R178). -/
  | rol (w : Width) (d : Reg) (a : Reg) (b : Reg)
  /-- `ror` (R178). -/
  | ror (w : Width) (d : Reg) (a : Reg) (b : Reg)
  /-- `min` (R178). -/
  | min (w : Width) (d : Reg) (a : Reg) (b : Reg)
  /-- `max` (R178). -/
  | max (w : Width) (d : Reg) (a : Reg) (b : Reg)
  /-- `minu` (R178). -/
  | minu (w : Width) (d : Reg) (a : Reg) (b : Reg)
  /-- `maxu` (R178). -/
  | maxu (w : Width) (d : Reg) (a : Reg) (b : Reg)
  /-- `clz` (R178). -/
  | clz (w : Width) (d : Reg) (a : Reg)
  /-- `ctz` (R178). -/
  | ctz (w : Width) (d : Reg) (a : Reg)
  /-- `popc` (R178). -/
  | popc (w : Width) (d : Reg) (a : Reg)
  /-- `sext` (R178). -/
  | sext (w : Width) (d : Reg) (a : Reg)
  /-- `zext` (R178). -/
  | zext (w : Width) (d : Reg) (a : Reg)
  /-- `bfx` (R179). -/
  | bfx (d : Reg) (a : Reg) (b : Reg)
  /-- `bfxu` (R179). -/
  | bfxu (d : Reg) (a : Reg) (b : Reg)
  /-- `bfi` (R179). -/
  | bfi (d : Reg) (a : Reg) (b : Reg)
  /-- `bswap` (R178). -/
  | bswap (w : Width) (d : Reg) (a : Reg)
  /-- `addi` (R181). -/
  | addi (d : Reg) (a : Reg) (i : BitVec 15)
  /-- `andi` (R181). -/
  | andi (d : Reg) (a : Reg) (i : BitVec 15)
  /-- `ori` (R181). -/
  | ori (d : Reg) (a : Reg) (i : BitVec 15)
  /-- `xori` (R181). -/
  | xori (d : Reg) (a : Reg) (i : BitVec 15)
  /-- `shli` (R181). -/
  | shli (w : Width) (d : Reg) (a : Reg) (n : BitVec 6)
  /-- `shri` (R181). -/
  | shri (w : Width) (d : Reg) (a : Reg) (n : BitVec 6)
  /-- `srai` (R181). -/
  | srai (w : Width) (d : Reg) (a : Reg) (n : BitVec 6)
  /-- `cmpi.cc` (R183). -/
  | cmpi (q : Cond) (c : CReg) (a : Reg) (i : BitVec 15)
  /-- `cmp.cc` (R183). -/
  | cmp (q : Cond) (w : Width) (c : CReg) (a : Reg) (b : Reg)
  /-- `li` (R182). -/
  | li (d : Reg) (i : BitVec 20)
  /-- `lui` (R182). -/
  | lui (d : Reg) (i : BitVec 20)
  /-- `lea` (R182). -/
  | lea (d : Reg) (i : BitVec 20)
  /-- `ldb` (R188). -/
  | ldb (d : Reg) (a : Reg) (i : BitVec 15)
  /-- `ldbu` (R188). -/
  | ldbu (d : Reg) (a : Reg) (i : BitVec 15)
  /-- `ldh` (R188). -/
  | ldh (d : Reg) (a : Reg) (i : BitVec 15)
  /-- `ldhu` (R188). -/
  | ldhu (d : Reg) (a : Reg) (i : BitVec 15)
  /-- `ldw` (R188). -/
  | ldw (d : Reg) (a : Reg) (i : BitVec 15)
  /-- `ldwu` (R188). -/
  | ldwu (d : Reg) (a : Reg) (i : BitVec 15)
  /-- `ldd` (R188). -/
  | ldd (d : Reg) (a : Reg) (i : BitVec 15)
  /-- `stb` (R188). -/
  | stb (d : Reg) (a : Reg) (i : BitVec 15)
  /-- `sth` (R188). -/
  | sth (d : Reg) (a : Reg) (i : BitVec 15)
  /-- `stw` (R188). -/
  | stw (d : Reg) (a : Reg) (i : BitVec 15)
  /-- `std` (R188). -/
  | std (d : Reg) (a : Reg) (i : BitVec 15)
  /-- `ld.acq` (R189). -/
  | ldAcq (w : Width) (d : Reg) (a : Reg)
  /-- `ld.fe` (R190). -/
  | ldFe (w : Width) (d : Reg) (a : Reg)
  /-- `ld.fek` (R190). -/
  | ldFek (w : Width) (d : Reg) (a : Reg)
  /-- `st.rel` (R189). -/
  | stRel (w : Width) (d : Reg) (a : Reg)
  /-- `st.fill` (R190). -/
  | stFill (w : Width) (d : Reg) (a : Reg)
  /-- `tlook` (R191). -/
  | tlook (d : Reg) (a : Reg)
  /-- `tinst` (R191). -/
  | tinst (a : Reg) (b : Reg) (k : BitVec 5)
  /-- `tdrop` (R191). -/
  | tdrop (a : Reg)
  /-- `bt` (R194). -/
  | bt (c : CReg) (i : BitVec 21)
  /-- `bf` (R194). -/
  | bf (c : CReg) (i : BitVec 21)
  /-- `bt.n` (R194). -/
  | btN (c : CReg) (i : BitVec 21)
  /-- `bf.n` (R194). -/
  | bfN (c : CReg) (i : BitVec 21)
  /-- `jmp` (R195). -/
  | jmp (i : BitVec 25)
  /-- `call` (R196). -/
  | call (i : BitVec 25)
  /-- `jmpr` (R195). -/
  | jmpr (a : Reg)
  /-- `callr` (R196). -/
  | callr (a : Reg)
  /-- `ret` (R196). -/
  | ret
  /-- `rep` (R198). -/
  | rep (n : BitVec 10)
  /-- `repr` (R199). -/
  | repr (a : Reg)
  /-- `end` (R21). -/
  | endUnit
  /-- `yield` (R201). -/
  | yield
  /-- `nop` (R201). -/
  | nop
  /-- `trap` (R202). -/
  | trap (code : BitVec 8)
  /-- `brk` (R203). -/
  | brk
  /-- `pset` (R186). -/
  | pset (p : PReg) (a : Reg)
  /-- `pget` (R186). -/
  | pget (d : Reg) (p : PReg)
  /-- `padd` (R186). -/
  | padd (p : PReg) (a : Reg)
  /-- `pstr` (R186). -/
  | pstr (p : PReg) (a : Reg)
  /-- `cand` (R184). -/
  | cand (c : CReg) (x : CReg) (y : CReg)
  /-- `cor` (R184). -/
  | cor (c : CReg) (x : CReg) (y : CReg)
  /-- `cxor` (R184). -/
  | cxor (c : CReg) (x : CReg) (y : CReg)
  /-- `cset` (R184). -/
  | cset (c : CReg) (a : Reg)
  /-- `cget` (R184). -/
  | cget (d : Reg) (x : CReg)
  /-- `sel` (R185). -/
  | sel (d : Reg) (a : Reg) (b : Reg) (c : CReg)
  /-- `vadd` (R209). -/
  | vaddInt (sat : Bool) (t : VType) (d : PReg) (a : PReg) (b : PReg)
  /-- `vsub` (R209). -/
  | vsubInt (sat : Bool) (t : VType) (d : PReg) (a : PReg) (b : PReg)
  /-- `vmul` (R209). -/
  | vmulInt (sat : Bool) (t : VType) (d : PReg) (a : PReg) (b : PReg)
  /-- `vmin` (R209). -/
  | vminInt (t : VType) (d : PReg) (a : PReg) (b : PReg)
  /-- `vmax` (R209). -/
  | vmaxInt (t : VType) (d : PReg) (a : PReg) (b : PReg)
  /-- `vabs` (R209). -/
  | vabsInt (sat : Bool) (t : VType) (d : PReg) (a : PReg)
  /-- `vneg` (R209). -/
  | vnegInt (sat : Bool) (t : VType) (d : PReg) (a : PReg)
  /-- `vand` (R209). -/
  | vand (t : VType) (d : PReg) (a : PReg) (b : PReg)
  /-- `vor` (R209). -/
  | vor (t : VType) (d : PReg) (a : PReg) (b : PReg)
  /-- `vxor` (R209). -/
  | vxor (t : VType) (d : PReg) (a : PReg) (b : PReg)
  /-- `vshl` (R209). -/
  | vshl (t : VType) (d : PReg) (a : PReg) (b : PReg)
  /-- `vshr` (R209). -/
  | vshr (t : VType) (d : PReg) (a : PReg) (b : PReg)
  /-- `vsra` (R209). -/
  | vsra (t : VType) (d : PReg) (a : PReg) (b : PReg)
  /-- `vadd` (R210). -/
  | vaddFp (m : Round) (t : VType) (d : PReg) (a : PReg) (b : PReg)
  /-- `vsub` (R210). -/
  | vsubFp (m : Round) (t : VType) (d : PReg) (a : PReg) (b : PReg)
  /-- `vmul` (R210). -/
  | vmulFp (m : Round) (t : VType) (d : PReg) (a : PReg) (b : PReg)
  /-- `vmin` (R210). -/
  | vminFp (t : VType) (d : PReg) (a : PReg) (b : PReg)
  /-- `vmax` (R210). -/
  | vmaxFp (t : VType) (d : PReg) (a : PReg) (b : PReg)
  /-- `vabs` (R210). -/
  | vabsFp (t : VType) (d : PReg) (a : PReg)
  /-- `vneg` (R210). -/
  | vnegFp (t : VType) (d : PReg) (a : PReg)
  /-- `vdiv` (R210). -/
  | vdiv (m : Round) (t : VType) (d : PReg) (a : PReg) (b : PReg)
  /-- `vsqrt` (R210). -/
  | vsqrt (m : Round) (t : VType) (d : PReg) (a : PReg)
  /-- `vfma` (R210). -/
  | vfma (m : Round) (t : VType) (d : PReg) (a : PReg) (b : PReg)
  /-- `vfms` (R210). -/
  | vfms (m : Round) (t : VType) (d : PReg) (a : PReg) (b : PReg)
  /-- `vcmp` (R211). -/
  | vcmp (q : VCond) (t : VType) (d : PReg) (a : PReg) (b : PReg)
  /-- `vsel` (R211). -/
  | vsel (t : VType) (d : PReg) (a : PReg) (b : PReg)
  /-- `vmov` (R211). -/
  | vmov (t : VType) (d : PReg) (a : PReg)
  /-- `vbcast` (R211). -/
  | vbcast (t : VType) (d : PReg) (a : PReg)
  /-- `vcvt` (R212). -/
  | vcvt (sat : Bool) (f : VType) (m : Round) (t : VType) (d : PReg) (a : PReg) (z : ZReg)
  /-- `vqnt` (R213). -/
  | vqnt (m : Round) (t : VType) (d : PReg) (a : PReg) (z : ZReg)
  /-- `vdeq` (R214). -/
  | vdeq (m : Round) (t : VType) (d : PReg) (a : PReg)
  /-- `vplane.i8` (R215). -/
  | vplane (join : Bool) (d : PReg) (a : PReg)
  /-- `vrsum` (R216). -/
  | vrsum (m : Round) (t : VType) (d : PReg) (a : PReg)
  /-- `vrmax` (R216). -/
  | vrmax (t : VType) (d : PReg) (a : PReg)
  /-- `vrmin` (R216). -/
  | vrmin (t : VType) (d : PReg) (a : PReg)
  /-- `vidx` (R217). -/
  | vidx (t : VType) (d : PReg)
  /-- `vgath` (R217). -/
  | vgath (t : VType) (d : PReg) (a : PReg) (b : PReg)
  /-- `vscat` (R217). -/
  | vscat (t : VType) (d : PReg) (a : PReg) (b : PReg)
  /-- `vperm` (R217). -/
  | vperm (t : VType) (d : PReg) (a : PReg) (b : PReg)
  /-- `edge.f32` (R221). -/
  | edge (d : PReg) (a : PReg) (b : PReg)
  /-- `boxt.f32` (R222). -/
  | boxt (d : PReg) (a : PReg) (b : PReg)
  /-- `txdec` (R223). -/
  | txdec (t : VType) (d : PReg) (a : PReg) (b : PReg)
  /-- `trav.f32` (R226). -/
  | trav (d : PReg) (a : PReg)
  /-- `lznew` (R218). -/
  | lznew (z : ZReg) (a : Reg) (b : Reg)
  /-- `lzmov` (R218). -/
  | lzmov (z : ZReg) (y : ZReg)
  /-- `lzcpl` (R218). -/
  | lzcpl (z : ZReg) (y : ZReg)
  /-- `lzlt` (R218). -/
  | lzlt (c : CReg) (y : ZReg) (b : Reg)
  /-- `lzlt2` (R218). -/
  | lzlt2 (c : CReg) (y : ZReg) (x : ZReg)
  /-- `lzbern` (R218). -/
  | lzbern (c : CReg) (y : ZReg) (b : Reg)
  /-- `lzbits` (R218). -/
  | lzbits (d : Reg) (y : ZReg) (k : BitVec 6)
  /-- `lzst` (R220). -/
  | lzst (a : Reg) (z : ZReg)
  /-- `lzld` (R220). -/
  | lzld (z : ZReg) (a : Reg)
  /-- `mma.i` (R232). -/
  | mmaI (sat : Bool) (tk : Reg) (m : MReg) (da : DReg) (db : DReg)
  /-- `mma.s` (R232). -/
  | mmaS (tk : Reg) (m : MReg) (da : DReg) (db : DReg)
  /-- `gmm` (R235). -/
  | gmm (tk : Reg) (m : MReg) (da : DReg) (db : DReg)
  /-- `gath` (R234). -/
  | gath (tk : Reg) (da : DReg)
  /-- `mmz` (R236). -/
  | mmz (tk : Reg) (m : MReg)
  /-- `mmld` (R236). -/
  | mmld (tk : Reg) (m : MReg) (da : DReg)
  /-- `mmst` (R236). -/
  | mmst (free : Bool) (tk : Reg) (da : DReg) (m : MReg)
  /-- `cpy` (R237). -/
  | cpy (tk : Reg) (da : DReg) (db : DReg)
  /-- `cpyt` (R237). -/
  | cpyt (tk : Reg) (da : DReg) (db : DReg)
  /-- `cpyx` (R238). -/
  | cpyx (tk : Reg) (da : DReg) (db : DReg)
  /-- `cpym` (R239). -/
  | cpym (tk : Reg) (m : MReg) (da : DReg) (db : DReg)
  /-- `coll.ar` (R241). -/
  | collAr (tk : Reg) (da : DReg) (db : DReg)
  /-- `coll.rs` (R241). -/
  | collRs (tk : Reg) (da : DReg) (db : DReg)
  /-- `coll.ag` (R241). -/
  | collAg (tk : Reg) (da : DReg) (db : DReg)
  /-- `cwait` (R242). -/
  | cwait (r : Reg)
  /-- `nextt` (R245). -/
  | nextt (d : Reg) (b : Reg)
  /-- `tdone` (R246). -/
  | tdone (a : Reg)
  /-- `tgive` (R246). -/
  | tgive (a : Reg)
  /-- `schw` (R247). -/
  | schw (a : Reg)
  /-- `schr` (R247). -/
  | schr (a : Reg)
  /-- `lyrnew` (R139). -/
  | lyrnew (d : Reg)
  /-- `lyrfree` (R139). -/
  | lyrfree (a : Reg)
  /-- `lyrset` (R130). -/
  | lyrset (k : BitVec 3) (a : Reg) (b : Reg)
  /-- `lyrget` (R248). -/
  | lyrget (k : BitVec 3) (d : Reg) (a : Reg)
  /-- `lyrcommit` (R136). -/
  | lyrcommit (d : Reg) (a : Reg) (b : Reg)
  /-- `lyrsplit` (R139). -/
  | lyrsplit (d : Reg) (a : Reg)
  /-- `lyrmerge` (R140). -/
  | lyrmerge (a : Reg) (b : Reg)
  /-- `lyrdep` (R138). -/
  | lyrdep (k : BitVec 3) (d : Reg) (a : Reg) (b : Reg)
  /-- `lyrord` (R141). -/
  | lyrord (d : Reg) (a : Reg) (b : Reg)
  /-- `pose` (R131). -/
  | pose (a : Reg) (b : Reg)
  /-- `rls` (R145). -/
  | rls (d : Reg) (a : Reg) (b : Reg)
  /-- `tdset` (R229). -/
  | tdset (e : DReg) (d : Reg) (a : Reg) (b : Reg)
  /-- `tdget` (R229). -/
  | tdget (e : DReg) (d : Reg) (k : BitVec 5)
  /-- `tdinv` (R229). -/
  | tdinv (e : DReg)
  /-- `lnch` (R251). -/
  | lnch (d : Reg) (a : Reg)
  /-- `chbind` (R253). -/
  | chbind (g : Reg) (a : Reg)
  /-- `chfree` (R253). -/
  | chfree (g : Reg)
  /-- `snd` (R254). -/
  | snd (a : Reg) (b : Reg)
  /-- `snd.e` (R255). -/
  | sndE (a : Reg) (b : Reg)
  /-- `amo.add` (R257). -/
  | amoAdd (word : Bool) (a : Reg) (b : Reg)
  /-- `amo.min` (R257). -/
  | amoMin (word : Bool) (a : Reg) (b : Reg)
  /-- `amo.max` (R257). -/
  | amoMax (word : Bool) (a : Reg) (b : Reg)
  /-- `amo.minu` (R257). -/
  | amoMinu (word : Bool) (a : Reg) (b : Reg)
  /-- `amo.maxu` (R257). -/
  | amoMaxu (word : Bool) (a : Reg) (b : Reg)
  /-- `amo.and` (R257). -/
  | amoAnd (word : Bool) (a : Reg) (b : Reg)
  /-- `amo.or` (R257). -/
  | amoOr (word : Bool) (a : Reg) (b : Reg)
  /-- `amo.xor` (R257). -/
  | amoXor (word : Bool) (a : Reg) (b : Reg)
  /-- `logadd.f32` (R259). -/
  | logaddF32 (d : Reg) (a : Reg) (b : Reg)
  /-- `phend` (R260). -/
  | phend
  /-- `fence.core` (R261). -/
  | fenceCore
  /-- `fence.grove` (R261). -/
  | fenceGrove
  /-- `fence.die` (R261). -/
  | fenceDie
  /-- `fence.package` (R261). -/
  | fencePackage
  /-- `fence.system` (R261). -/
  | fenceSystem
  /-- `bar.core` (R262). -/
  | barCore
  /-- `bar.grove` (R262). -/
  | barGrove
  /-- `bar.die` (R262). -/
  | barDie
  /-- `bar.package` (R262). -/
  | barPackage
  /-- `bar.system` (R262). -/
  | barSystem
  /-- `bar.launch` (R262). -/
  | barLaunch
  /-- `gang` (R263). -/
  | gang (a : Reg)
  /-- `gjoin` (R28). -/
  | gjoin
  /-- `gquit` (R29). -/
  | gquit
  /-- `hvlend` (R265). -/
  | hvlend (a : Reg) (b : Reg)
  /-- `hvreclaim` (R266). -/
  | hvreclaim (a : Reg) (b : Reg)
  /-- `rfe` (R317). -/
  | rfe
  /-- `tlbinv.page` (R269). -/
  | tlbinvPage (a : Reg)
  /-- `tlbinv.tenant` (R269). -/
  | tlbinvTenant (a : Reg)
  /-- `tlbinv.all` (R269). -/
  | tlbinvAll
  /-- `icinv` (R270). -/
  | icinv
  /-- `ctxsv` (R271). -/
  | ctxsv (a : Reg)
  /-- `ctxld` (R271). -/
  | ctxld (a : Reg)
  /-- `wflush` (R272). -/
  | wflush
  /-- `sig` (R273). -/
  | sig (a : Reg) (b : Reg)
  /-- `idle` (R274). -/
  | idle
  /-- `mfsr` (R267). -/
  | mfsr (d : Reg) (n : SReg)
  /-- `mtsr` (R267). -/
  | mtsr (n : SReg) (a : Reg)
  /-- WINDOW_SPILL (R15). -/
  | windowSpill (p : Place)
  /-- WINDOW_FILL (R15). -/
  | windowFill (p : Place)
  /-- SEAT (R31). -/
  | seat (c : CoreId)
  /-- FORWARDED_INSTRUCTION (R25). -/
  | forwardedInstruction (p : Place)
  /-- MEMORY_ACCESS_PERFORMED (R65). -/
  | memoryAccessPerformed (p : Place)
  /-- DIVIDE_COMPLETE (R180). -/
  | divideComplete (p : Place)
  /-- DIGIT_BLOCK (R106). -/
  | digitBlock (p : Place)
  /-- VECTOR_GROUP (R80). -/
  | vectorGroup (p : Place)
  /-- PAGE_WALK (R336). -/
  | pageWalk (tn : Fin 16) (va : Word)
  /-- ENGINE_DELIVERY (R53). -/
  | engineDelivery (c : CoreId) (k : EngClass)
  /-- COMMAND_RETIRE (R76). -/
  | commandRetire (c : CoreId) (k : EngClass) (e : CmdEnd)
  /-- CPYM_PRODUCT (R239). -/
  | cpymProduct (c : CoreId)
  /-- REMOTE_ATOMIC_ARRIVAL (R258). -/
  | remoteAtomicArrival (n : Nat) (bad : Bool)
  /-- MESSAGE_ARRIVAL (R72). -/
  | messageArrival (n : Nat)
  /-- TENANT (R254). -/
  | tenantDrop (n : Nat)
  /-- BARRIER_RELEASE (R262). -/
  | barrierRelease (l : BitVec 32) (f : BarForm) (k : Nat)
  /-- RECLAIM_CLEAR (R266). -/
  | reclaimClear (c : CoreId)
  /-- LOG_EXTEND (R121). -/
  | logExtend (j : JobId)
  /-- LATCH_SAMPLE (R320). -/
  | latchSample (p : Place)
  /-- PREEMPT (R322). -/
  | preempt (p : Place)
  /-- REVOKE (R36). -/
  | revoke (p : Place)
  /-- SIGNAL (R273). -/
  | signal (p : Place)
  /-- DEBUG (R311). -/
  | debugRequest (p : Place) (arrives : Bool)
  /-- ASYNC_MCHECK (R327). -/
  | asyncMcheck (p : Place) (arrives : Option Word)
  /-- WATCHDOG (R326). -/
  | watchdog (p : Place)
  /-- PROBE (R325). -/
  | probe (p : Place)
  /-- BIND (R294). -/
  | bind (p : Place)
  /-- FORCED_STOP (R294). -/
  | forcedStop (p : Place)
  /-- COOPERATIVE_STOP (R294). -/
  | cooperativeStop (p : Place)
  /-- STOP_WITH_DISCARD (R294). -/
  | stopWithDiscard (p : Place)
  /-- WITHDRAW (R294). -/
  | withdraw (p : Place)
  /-- BIND_RECORD_WRITE (R292). -/
  | bindRecordWrite (p : Place) (w0 w1 w2 w3 : Word)
  /-- SECOND_VICTIM (R295). -/
  | secondVictim (p : Place)
  /-- AGE_LIMIT (R296). -/
  | ageLimit (l : BitVec 32)
  /-- LAUNCH_ADMISSION (R291). -/
  | launchAdmission (src : LaunchSource)
  /-- CLOSE_PHASE (R344). -/
  | closePhase (j : JobId)
  /-- RETIRE_JOB (R344). -/
  | retireJob (j : JobId)
  /-- PHASE_BOUNDARY (R127). -/
  | phaseBoundary (j : JobId)
  /-- COMPLETION (R299). -/
  | completion (o : WorkObj)
  /-- CANCEL (R300). -/
  | cancel (o : WorkObj)
  /-- RERENDER_REQUEST (R309). -/
  | rerenderRequest (elapsed : Nat)
  /-- QUALITY_STEP (R310). -/
  | qualityStep (work elapsed : Nat)
  /-- FRAME_EVALUATION (R134). -/
  | frameEvaluation
  /-- FRAME_DEADLINE (R146). -/
  | frameDeadline
  /-- FRAME_RELEASE (R360). -/
  | frameRelease
  /-- PTP_SYNC (R358). -/
  | ptpSync (off : Int)
  /-- HOLDOVER (R358). -/
  | holdover
  /-- INBOUND_READ (R340, R377). -/
  | inboundRead (f : Fin 17) (x : BarOffset) (n : Nat)
  /-- INBOUND_WRITE (R365). -/
  | inboundWrite (f : Fin 17) (off : Nat) (bs : List Byte)
  /-- APERTURE_READ_TIMEOUT (R341). -/
  | apertureReadTimeout (p : Place)
  /-- FLIT_RECEIVE (R350). -/
  | flitReceive (d : Fin 16) (f : Flit)
  /-- LINK_DOWN (R350). -/
  | linkDown (d : Fin 16)
  /-- LINK_RETRAIN (R351). -/
  | linkRetrain (d : Fin 16)
  /-- POWER_STATE_ENTRY (R372). -/
  | powerStateEntry (x : Part)
  /-- POWER_STATE_EXIT (R372). -/
  | powerStateExit (x : Part)
  /-- CLOCK_STEP (R374). -/
  | clockStep (d : Fin 16) (x : ClockInput)
  /-- THERMAL_TRIP (R375). -/
  | thermalTrip (x : Junction)
  /-- SCRUB_PASS (R377). -/
  | scrubPass (d : Fin 16) (lpddr : Bool) (found : List Nat)
  /-- BOOT (R362). -/
  | boot (fromHost : Bool)
  /-- RECOVERY_PUSH (R363). -/
  | recoveryPush (len : Nat)
  /-- TAIL_WRITE (R342). -/
  | tailWrite (j : JobId) (v : BitVec 32)
  /-- RING_ENABLE (R342). -/
  | ringEnable (j : JobId) (v : Word)
  /-- RING_CONFIG_WRITE (R342). -/
  | ringConfigWrite (j : JobId) (f : RingField) (v : Word)
  /-- COLLECTIVE_SET_WRITE (R346). -/
  | collectiveSetWrite (vf : Fin 16) (k : Fin 256) (v : Word)
  /-- CLR (R346). -/
  | clr (vf : Fin 16) (k : Fin 256)
  /-- B2VA_WRITE (R340). -/
  | b2vaWrite (f : Fin 17) (v : Word)
  /-- HAPBASE_WRITE (R341). -/
  | hapbaseWrite (v : Word)
  /-- LTOL_WRITE (R373). -/
  | ltolWrite (f : Fin 17) (v : BitVec 32)
  /-- RELEASE_ENABLE (R133). -/
  | releaseEnable (x : EnableWrite)
  /-- RELEASE_CONFIG_WRITE (R359). -/
  | releaseConfigWrite (f : RelField) (v : Word)
  /-- APERTURE_ENABLE (R348). -/
  | apertureEnable (d : Fin 16) (a : Fin 8) (v : Word)
  /-- APERTURE_CONFIG_WRITE (R348). -/
  | apertureConfigWrite (d : Fin 16) (a : Fin 8) (f : ApField) (v : Word)
  /-- SET_POWER_CAP (R374). -/
  | setPowerCap (watts : Word)
  /-- CREATE_TENANT (R380). -/
  | createTenant (tn rect : Word)
  /-- RESIZE_TENANT (R380). -/
  | resizeTenant (tn rect : Word)
  /-- DESTROY_TENANT (R380). -/
  | destroyTenant (tn : Word) (noDrain : Bool)
  /-- STAGE_IMAGE (R378). -/
  | stageImage (addr len : Word)
  /-- COMMIT_STAGED_IMAGE (R378). -/
  | commitStagedImage
  /-- RAISE_FUSED_MINIMUM (R378). -/
  | raiseFusedMinimum (v : Word)
  /-- ATTESTATION_REPORT (R379). -/
  | attestationReport (nonce : List Word) (addr : Word)
  /-- LOAD_COPY_CORE_ROUTINE (R307). -/
  | loadCopyCoreRoutine (img idx tn : Word)
  /-- SET_CORE_SUPERVISOR (R314). -/
  | setCoreSupervisor (tn entry : Word)
  /-- REGISTER_WRITE (R339). -/
  | registerWrite (r : PlainReg) (v : Word)
  /-- PARKING_COMPLETE (R32). -/
  | parkingComplete (p : Place)
  /-- SCHEDULE_SERVICE (R245). -/
  | scheduleService (p : Place)
  /-- LAYER_TABLE_PERFORMED (R248). -/
  | layerTablePerformed (p : Place)
  /-- PERMIT_INSTALLED (R253). -/
  | permitInstalled (p : Place)
  /-- ICINV_COMPLETE (R270). -/
  | icinvComplete (p : Place)
  /-- TLB_ACKNOWLEDGEMENT (R269). -/
  | tlbAcknowledgement (p : Place)
  deriving DecidableEq, Repr

end Sys2Proof
end

