-- ==== Sys2Proof/Machine/Tasks.lean ====
section
/-! DEFINITION. The steps of hardware, firmware, host and peers as data, so that a state can list those that happen next: one constructor
for each row of the opcode table that has no encoding, with that row's operands. -/

namespace Sys2Proof.Machine

/-- A step of the machine other than an issued instruction. -/
inductive Task where
  | windowSpill (p : Place)
  | windowFill (p : Place)
  | seat (c : CoreId)
  | forwardedInstruction (p : Place)
  | memoryAccessPerformed (p : Place)
  | divideComplete (p : Place)
  | digitBlock (p : Place)
  | vectorGroup (p : Place)
  | pageWalk (tn : Fin 16) (va : Word)
  | engineDelivery (c : CoreId) (k : EngClass)
  | commandRetire (c : CoreId) (k : EngClass) (e : CmdEnd)
  | cpymProduct (c : CoreId)
  | remoteAtomicArrival (n : Nat) (bad : Bool)
  | messageArrival (n : Nat)
  | tenantDrop (n : Nat)
  | barrierRelease (l : BitVec 32) (f : BarForm) (k : Nat)
  | reclaimClear (c : CoreId)
  | logExtend (j : JobId)
  | latchSample (p : Place)
  | preempt (p : Place)
  | revoke (p : Place)
  | signal (p : Place)
  | debugRequest (p : Place) (arrives : Bool)
  | asyncMcheck (p : Place) (arrives : Option Word)
  | watchdog (p : Place)
  | probe (p : Place)
  | bind (p : Place)
  | forcedStop (p : Place)
  | cooperativeStop (p : Place)
  | stopWithDiscard (p : Place)
  | withdraw (p : Place)
  | bindRecordWrite (p : Place) (w0 w1 w2 w3 : Word)
  | secondVictim (p : Place)
  | ageLimit (l : BitVec 32)
  | launchAdmission (src : LaunchSource)
  | closePhase (j : JobId)
  | retireJob (j : JobId)
  | phaseBoundary (j : JobId)
  | completion (o : WorkObj)
  | cancel (o : WorkObj)
  | rerenderRequest (elapsed : Nat)
  | qualityStep (work elapsed : Nat)
  | frameEvaluation
  | frameDeadline
  | frameRelease
  | ptpSync (off : Int)
  | holdover
  | inboundRead (f : Fin 17) (x : BarOffset) (n : Nat)
  | inboundWrite (f : Fin 17) (off : Nat) (bs : List Byte)
  | apertureReadTimeout (p : Place)
  | flitReceive (d : Fin 16) (f : Flit)
  | linkDown (d : Fin 16)
  | linkRetrain (d : Fin 16)
  | powerStateEntry (x : Part)
  | powerStateExit (x : Part)
  | clockStep (d : Fin 16) (x : ClockInput)
  | thermalTrip (x : Junction)
  | scrubPass (d : Fin 16) (lpddr : Bool) (found : List Nat)
  | boot (fromHost : Bool)
  | recoveryPush (len : Nat)
  | tailWrite (j : JobId) (v : BitVec 32)
  | ringEnable (j : JobId) (v : Word)
  | ringConfigWrite (j : JobId) (f : RingField) (v : Word)
  | collectiveSetWrite (vf : Fin 16) (k : Fin 256) (v : Word)
  | clr (vf : Fin 16) (k : Fin 256)
  | b2vaWrite (f : Fin 17) (v : Word)
  | hapbaseWrite (v : Word)
  | ltolWrite (f : Fin 17) (v : BitVec 32)
  | releaseEnable (x : EnableWrite)
  | releaseConfigWrite (f : RelField) (v : Word)
  | apertureEnable (d : Fin 16) (a : Fin 8) (v : Word)
  | apertureConfigWrite (d : Fin 16) (a : Fin 8) (f : ApField) (v : Word)
  | setPowerCap (watts : Word)
  | createTenant (tn rect : Word)
  | resizeTenant (tn rect : Word)
  | destroyTenant (tn : Word) (noDrain : Bool)
  | stageImage (addr len : Word)
  | commitStagedImage
  | raiseFusedMinimum (v : Word)
  | attestationReport (nonce : List Word) (addr : Word)
  | loadCopyCoreRoutine (img idx tn : Word)
  | setCoreSupervisor (tn entry : Word)
  | registerWrite (r : PlainReg) (v : Word)
  | parkingComplete (p : Place)
  | scheduleService (p : Place)
  | layerTablePerformed (p : Place)
  | permitInstalled (p : Place)
  | icinvComplete (p : Place)
  | tlbAcknowledgement (p : Place)
  deriving DecidableEq, Repr

end Sys2Proof.Machine
end

