-- ==== Sys2Proof/Machine/State.lean ====
section
/-! DEFINITION. The state of a Lyroth L16 module as plain data, the state after reset, and the ways a step can stop.
A structure's default field values are its values at reset. -/

namespace Sys2Proof.Machine

/-- Data kept for some numbers only: pairs with strictly rising keys. -/
abbrev Sparse (α : Type) := List (Nat × α)

/-! ### A thread -/

/-- An entry of the PC queue (R192). -/
structure QEntry where
  addr : Word := 0
  annul : Bool := false
  deriving DecidableEq, Repr

/-- The PC queue (R192), with the repeat count pending for the entry at `e0` (R198, R200) and the length of the instruction at
`e2`, whose first halfword every step fetches before it has any effect (R193). `entered` tells that an event has formed the queue and no
step of it has come since (R316, R321). -/
structure PcQueue where
  e0 : QEntry := {}
  e1 : QEntry := {}
  e2 : QEntry := {}
  e2long : Bool := false
  repLeft : Nat := 0
  repDone : Nat := 0
  entered : Bool := false
  deriving DecidableEq, Repr

/-- An operation in flight that keeps a thread out of rotation (R13, R324). -/
inductive FlightOp
  /-- An access outside the scratchpad, performed; its thread not yet back (R65). -/
  | memory
  /-- A load whose data is outside the module, beyond the host aperture (R341) or in an aperture of another module (R332): physical and
  virtual address, bytes. -/
  | hostLoad (pa : Nat) (va : Word) (n : Nat)
  /-- The page walks of an engine command (R13, R228). -/
  | walk
  | divide
  | digit
  | vector
  | schedule
  | layer
  | permit
  | icinv
  | context
  deriving DecidableEq, Repr

/-- What a thread out of rotation waits for (R13, R323, R324). -/
inductive Wait
  /-- `ld.fe` (`consumes`) or `ld.fek` on an empty granule (R54), with the scratchpad address and the bytes it loads. -/
  | granule (g : Nat) (consumes : Bool) (addr n : Nat)
  /-- A load that has been performed, with its data; the instruction completes on the thread's next turn. -/
  | got (data : Nat)
  | boundReg (g : Reg)
  | credit (dst : Place) (reg : Nat)
  | ticket
  | barrier (f : BarForm)
  /-- `gang`, with its rectangle and the register that gives it. -/
  | gang (rect : BitVec 8) (a : Reg)
  | gjoin
  | commands
  | window
  /-- `wflush` between two of its spills (R272, R312). -/
  | flush
  | classQueue
  | tile
  | evaluation
  | signalLatch
  | accesses
  | release
  /-- `tlbinv`, whether every TLB has acknowledged, and the engine commands that hold an invalidated translation (R269): launch, unit,
  class, number. -/
  | tlb (acked : Bool) (ks : List (BitVec 32 × BitVec 16 × EngClass × Nat))
  | launchQueue
  | logSpace
  | atomicEntry
  /-- A scratchpad access that a range lock or a clearing holds (R35, R50, R79): its ranges, as address, bytes and whether they are written. -/
  | locked (rs : List (Nat × Nat × Bool))
  /-- A vector stream whose group `k` runs next, with the flags of the groups before it (R205, R208). -/
  | group (k : Nat) (flags : BitVec 5)
  | idle
  deriving DecidableEq, Repr

/-- Whether a thread is in rotation (R13). -/
inductive Rotation
  | ready
  | inFlight (op : FlightOp)
  | waiting (w : Wait)
  deriving DecidableEq, Repr

/-- A pointer register (R51). -/
structure Ptr where
  addr : BitVec 20 := 0
  stride : BitVec 16 := 0
  deriving DecidableEq, Repr

/-- A lazy-uniform register (R101); `n` counts cached digits. -/
structure ZVar where
  key : BitVec 32 := 0
  index : BitVec 48 := 0
  inv : Bool := false
  n : Nat := 0
  cache : Word := 0
  deriving DecidableEq, Repr

/-- Registers of a thread: globals, the current window, the own registers of the older resident windows (newest first) and the
window depth (R14, R15), pointers, conditions, variates. `spillFails` tells that a background spill of the oldest resident window has failed
(R16). -/
structure Regs where
  g : Vector Word 8 := Vector.replicate 8 0
  win : Vector Word 24 := Vector.replicate 24 0
  olds : List (Vector Word 16) := []
  spillFails : Bool := false
  depth : Nat := 1
  p : Vector Ptr 16 := Vector.replicate 16 {}
  c : Vector Bool 4 := Vector.replicate 4 false
  z : Vector ZVar 8 := Vector.replicate 8 {}
  deriving DecidableEq, Repr

/-- Special registers of a thread (R152). `status` (R315) is held as its fields; `harv` and `gst` stand with the identity and the gang. -/
structure Sregs where
  vl : BitVec 16 := 1
  flags : BitVec 5 := 0
  mcfg : BitVec 32 := 0
  xcfg : BitVec 32 := 0
  cmdst : Word := 0
  qtier : BitVec 3 := 7
  wsp : Word := 0
  wlim : Word := 0
  rept : BitVec 11 := 0
  repc : BitVec 11 := 0
  ue : Bool := false
  se : Bool := false
  ppl : Bool := false
  pl : Bool := false
  evcode : BitVec 8 := 0
  evaddr : Word := 0
  epc0 : Word := 0
  epc1 : Word := 0
  epc2 : Word := 0
  eann : BitVec 3 := 0
  uentry : Word := 0
  hasUentry : Bool := false
  wdlim : BitVec 32 := 0x40000000
  svec : Word := 0
  sarea : Word := 0
  sscratch : Word := 0
  deriving DecidableEq, Repr

/-- What a bind gives a thread (R292), its watchdog count (R39), its place as a harvest context (R31, R32), and the cycle of its last
turn (R11). `bankedAt` orders binds and parkings. -/
structure Ident where
  lid : BitVec 32 := 0
  unit : BitVec 16 := 0
  tenant : BitVec 4 := 0
  cls : BitVec 2 := 0
  harv : Bool := false
  wdcount : Nat := 0
  seat : Option (Fin 8) := none
  parking : Bool := false
  bankedAt : Nat := 0
  lastTurn : Option Nat := none
  deriving DecidableEq, Repr

/-- A bound register (R72, R74). -/
structure Binding where
  reg : Reg
  sender : Place
  full : Bool
  held : Word
  deriving DecidableEq, Repr

/-- Channel state of a thread: bindings, messages in the open packet (R255), turns blocked in one channel wait (R325). -/
structure Chans where
  binds : List Binding := []
  pkt : Nat := 0
  waitTurns : Nat := 0
  deriving DecidableEq, Repr

/-- A tensor-table entry (R66). -/
structure TEntry where
  w0 : Word := 0
  w1 : Word := 0
  w2 : Word := 0
  deriving DecidableEq, Repr

/-- The gather record (R234). -/
structure GatherRec where
  entry : DReg
  words : TEntry
  pa : Nat
  deriving DecidableEq, Repr

/-- Counts of one ticket class (R75): commands issued and retired, and the last one whose error was reported. -/
structure ClassSeq where
  issued : Nat := 0
  retired : Nat := 0
  reported : Nat := 0
  deriving DecidableEq, Repr

/-- Engine state of a thread. -/
structure Engines where
  matrix : ClassSeq := {}
  copy : ClassSeq := {}
  coll : ClassSeq := {}
  gather : Option GatherRec := none
  tens : Sparse TEntry := []
  deriving DecidableEq, Repr

/-- A request latch (R320). `kept` tells that a save area holds the request (R328). -/
structure Latch where
  pending : Bool := false
  eligible : Bool := false
  kept : Bool := false
  deriving DecidableEq, Repr

/-- Requests and deferred events of a thread (R312, R320, R322); `discard` is whether the stop asked
for is one with discard (R294); `stopping` is whether the current handler is that of PREEMPT or REVOKE, and `saved` whether it has saved to
`sarea`; `late` are the flags of commands that retired since (R89). -/
structure Latches where
  preempt : Latch := {}
  revoke : Latch := {}
  signal : Latch := {}
  dbg : Latch := {}
  mcheck : Latch := {}
  sigv : Word := 0
  mcka : Word := 0
  coop : Bool := false
  watchdog : Bool := false
  drop : Option Word := none
  stopping : Bool := false
  discard : Bool := false
  saved : Bool := false
  late : BitVec 5 := 0
  deriving DecidableEq, Repr

/-- Gang state (R315 `gst`). -/
inductive GangState | none | leader | attached | detached
  deriving DecidableEq, Repr

/-- An instruction forwarded to a follower (R25): the instruction, the leader's queue when it issued, and, of a branch or an indirect jump, how
the leader decided it (R27). -/
structure Forward where
  instr : Instr
  queue : PcQueue
  verdict : Option Word
  deriving DecidableEq, Repr

/-- Gang membership of a thread (R24 to R29, R263). `now` is the forwarded instruction being executed. -/
structure Gang where
  state : GangState := .none
  rect : BitVec 8 := 0
  buf : List Forward := []
  now : Option Forward := Option.none
  deriving DecidableEq, Repr

/-- A vector stream of a thread: the first cycle in which the thread may be back in rotation (R80, R207), the cycles it is out of rotation after
that for subnormals and digits (R91, R106), and what its groups have read for a write that comes after them all, by scratchpad address (R205,
R216). -/
structure Stream where
  away : Nat := 0
  toll : Nat := 0
  lanes : List (Nat × List Byte) := []
  deriving DecidableEq, Repr

/-- A thread: what one slot or bank holds (R7). `held` is the instruction that waits, is in flight or is repeated, and goes on without being
fetched again (R13, R200). -/
structure Thread where
  bound : Bool := false
  rot : Rotation := .ready
  held : Option Instr := none
  pcq : PcQueue := {}
  rf : Regs := {}
  sr : Sregs := {}
  id : Ident := {}
  ch : Chans := {}
  eng : Engines := {}
  lat : Latches := {}
  gang : Gang := {}
  stream : Stream := {}
  deriving DecidableEq, Repr

/-! ### A core -/

/-- A launch's windows on a core (R47). -/
structure Window where
  lid : BitVec 32
  spBase : Nat
  spLim : Nat
  scBase : Nat
  scLim : Nat
  deriving DecidableEq, Repr

/-- A valid tag-table entry (R57): launch, virtual base, log2 of the size, scratchpad base. -/
structure Tag where
  lid : BitVec 32
  va : Word
  k : Nat
  sp : Nat
  deriving DecidableEq, Repr

/-- A lent range (R265). -/
structure Lent where
  owner : BitVec 32
  borrower : BitVec 32
  base : Nat
  len : Nat
  deriving DecidableEq, Repr

/-- The owner of a physical tile (R61); `name` is none from the issue of `mmst.free` (R236). -/
structure TileOwner where
  lid : BitVec 32
  unit : BitVec 16
  name : Option MReg
  deriving DecidableEq, Repr

/-- A permit (R253): held for a slot of this core, toward a register of a receiver. -/
structure Permit where
  slot : Fin 12
  dst : Place
  reg : Nat
  credit : Bool
  deriving DecidableEq, Repr

/-- Where an engine command writes: scratchpad, scale memory, or a virtual address. -/
inductive Target | spad (a : Nat) | scale (a : Nat) | virt (a : Word)
  deriving DecidableEq, Repr

/-- A piece of an engine command's output: where it goes and its bytes. -/
structure Piece where
  target : Target
  bytes : List Byte
  deriving DecidableEq, Repr

/-- A page that a command's extent translated to at its issue (R228): its physical address and kind, and the first virtual address
and size of the leaf. -/
structure PageHold where
  pa : Nat := 0
  kind : Nat := 0
  base : Nat := 0
  size : Nat := 0
  deriving DecidableEq, Repr

/-- The collective set a command was issued under (R240, R343): virtual function, set, whether compressed; and how many commands of the set with
its match key the module has issued before it, modulo 65,536. -/
structure CollUse where
  vf : Nat
  set : Nat
  compressed : Bool
  nth : Nat
  deriving DecidableEq, Repr

/-- An engine command in flight (R76), with everything latched at its issue (R228): its number in its ticket, the issuing unit, the
instruction, the tensor entries of its operands and of the scales of A and B, the configuration registers, the tile, `gmm`'s counts, the
gather record, the collective set, and the pages of its virtual extents. `src` are the scratchpad ranges it still has to read and `dst`
the scratchpad granules it has not delivered yet (R79). `out` is what remains to be delivered, or none before the sources have been read;
`delivered` counts granules; `done` tells that `cpym`'s product has been performed or discarded. -/
structure Cmd where
  cls : EngClass
  seq : Nat
  place : Place
  lid : BitVec 32
  unit : BitVec 16
  tenant : BitVec 4
  op : Instr
  da : TEntry
  db : TEntry
  sa : TEntry
  sb : TEntry
  mcfg : BitVec 32
  xcfg : BitVec 32
  tile : Option (Fin 4)
  counts : List Nat
  gather : Option GatherRec
  coll : Option CollUse
  pages : Sparse PageHold
  src : List (Nat × Nat)
  dst : List Nat
  out : Option (List Piece)
  delivered : Nat
  status : BitVec 8
  flags : BitVec 5
  done : Bool
  deriving DecidableEq, Repr

/-- A completion record in a core's inbox (R76, R77): a unit's command that ended with an error not yet reported, or whose flags a saved
unit has yet to receive. -/
structure Inbox where
  lid : BitVec 32
  unit : BitVec 16
  cls : EngClass
  seq : Nat
  status : BitVec 8
  count : Nat
  flags : BitVec 5
  deriving DecidableEq, Repr

/-- A cached leaf translation (R336): the die it was walked on, tenant, first virtual address, size, and the leaf entry. -/
structure TlbEntry where
  die : Nat
  tenant : BitVec 4
  va : Nat
  size : Nat
  leaf : Word
  deriving DecidableEq, Repr

/-- A scratchpad byte that the groups of a stream of `vgath` have overwritten, as they found it: by slot or bank and address (R217). -/
structure Found where
  slot : Nat
  addr : Nat
  byte : Byte
  deriving DecidableEq, Repr

/-- A core (R2). `vnext` is the first cycle in which its vector unit runs a further group, `lastVector` the place
served last (R80); `tlb` is its L1 TLB (R336); `icache` lists the halfwords of its instruction cache by half their physical address (R270);
`empties` holds the numbers of the empty granules (R53); `clearing` the ranges still being cleared (R266), `reclaims` those of a launch that
has left, which the copies of their borrower still hold (R265); `bad` the granules with an uncorrectable error (R327); `found` the bytes that
a `vgath` between two groups has overwritten itself (R217). -/
structure Core where
  cyc : Word := 0
  spad : Sparse Byte := []
  empties : List Nat := []
  windows : List Window := []
  tags : List Tag := []
  lents : List Lent := []
  clearing : List (Nat × Nat) := []
  reclaims : List Lent := []
  owners : Vector (Option TileOwner) 4 := Vector.replicate 4 none
  tiles : Vector (Sparse (BitVec 32)) 4 := Vector.replicate 4 []
  scale : Sparse Byte := []
  permits : List Permit := []
  cmds : List Cmd := []
  lastBank : Nat := 3
  vnext : Nat := 0
  lastVector : Nat := 0
  tlb : List TlbEntry := []
  icache : Sparse Nat := []
  bad : List Nat := []
  found : List Found := []
  deriving DecidableEq, Repr

/-! ### The module -/

/-- A slot-table entry (R292, R293): the bind record, `err`, `why`, `state`. -/
structure Slot where
  w0 : Word := 0
  w1 : Word := 0
  w2 : Word := 0
  w3 : Word := 0
  err : Bool := false
  why : BitVec 8 := 0
  state : BitVec 4 := 0
  deriving DecidableEq, Repr

/-- A completion record (R298). -/
structure Record where
  expect : BitVec 32 := 0
  ended : BitVec 32 := 0
  cancelled : BitVec 32 := 0
  cmderr : BitVec 32 := 0
  lost : BitVec 32 := 0
  mflags : BitVec 5 := 0
  refused : Bool := false
  incomplete : Bool := false
  cancel : Bool := false
  done : Bool := false
  merged : Word := 0
  deriving DecidableEq, Repr

/-- The fields of a schedule block that a commit replaces (R243). -/
structure SchedGeom where
  tile : BitVec 12 := 0
  order : BitVec 8 := 0
  place : Word := 0
  deriving DecidableEq, Repr

/-- A launch's schedule block (R243), with the physical address of its clearing map (R302) and the grains' states (00 open where none is listed). -/
structure Sched where
  ext : Word := 0
  dims : Nat := 1
  gen : BitVec 32 := 0
  geom : SchedGeom := {}
  pend : Option SchedGeom := none
  map : Word := 0
  mapPa : Nat := 0
  grains : Sparse (BitVec 2) := []
  deriving DecidableEq, Repr

/-- What the forester has copied of a core for a launch that was pre-empted whole (R42): the core, its window's bytes with the empty and the
bad granules, its region of scale memory, its tiles. -/
structure CoreImage where
  core : Nat
  spad : Sparse Byte
  empties : List Nat
  bad : List Nat
  scale : Sparse Byte
  tiles : List (TileOwner × Sparse (BitVec 32))
  deriving DecidableEq, Repr

/-- A launch (R19, R343), from admission until its completion record is done: what its record gave; its sub-mesh as core numbers; the first
scratchpad and scale-memory address of its windows once one is granted (R258); its schedule block; the units bound so far and those that
have ended or been cancelled; the address of its completion record. `order` is its place in the order of admission (R296); `stops` are the
units being cancelled and not counted yet, `cancelling` tells that the launch is (R300); `whole` that it has been pre-empted whole, `images`
are the copies of its cores and `moves` the cores they have been put on (R42). -/
structure Launch where
  lid : BitVec 32 := 0
  job : Nat := 0
  phase : Nat := 0
  graph : Nat := 0
  tenant : BitVec 4 := 0
  entry : Word := 0
  arg : Word := 0
  units : Nat := 1
  cls : BitVec 2 := 0
  wdlim : BitVec 32 := 0
  scratch : Nat := 0
  scale : Nat := 0
  tens : List TEntry := []
  trap : Word := 0
  hasTrap : Bool := false
  waits : List Nat := []
  cset : Nat := 0
  compressed : Bool := false
  wstack : Nat := 0
  qtier : BitVec 3 := 7
  mesh : List Nat := []
  bases : Option (Nat × Nat) := none
  sched : Sched := {}
  seen : List Nat := []
  gone : List Nat := []
  recAt : Option Word := none
  record : Record := {}
  aged : Bool := false
  order : Nat := 0
  stops : List Nat := []
  cancelling : Bool := false
  whole : Bool := false
  images : List CoreImage := []
  moves : List (Nat × Nat) := []
  deriving DecidableEq, Repr

/-- A unit's current claim and seal count (R245, R246, R301), with the geometry of the claim's generation. -/
structure Claim where
  lid : BitVec 32
  unit : BitVec 16
  gen : BitVec 32
  geom : SchedGeom
  origin : Word
  mask : Word
  seals : BitVec 32
  deriving DecidableEq, Repr

/-- A log entry (R121, R259, R301): physical address, key, value, the appending unit with its current claim (generation and origin) and seal
count, whether it is still open, whether it is to be discarded. -/
structure LogEntry where
  pa : Nat
  key : BitVec 32
  val : BitVec 32
  lid : BitVec 32
  unit : BitVec 16
  claim : Option (BitVec 32 × Word)
  seals : BitVec 32
  opened : Bool
  discarded : Bool
  deriving DecidableEq, Repr

/-- A phase of a job (R260, R345); `known` is whether the job's record counts it, `merged` whether its boundary has run. -/
structure Phase where
  closed : Bool := false
  known : Bool := false
  merged : Bool := false
  cancelled : Bool := false
  log : List LogEntry := []
  logFull : Bool := false
  record : Record := {}
  deriving DecidableEq, Repr

/-- A graph with a tag (R345): its phase and its launches, oldest first. -/
structure GraphRec where
  phase : Nat := 0
  members : List (BitVec 32) := []
  closed : Bool := false
  cancelled : Bool := false
  record : Record := {}
  deriving DecidableEq, Repr

/-- A job (R18): its latest phase not yet closed, the phase whose boundary comes next, its phases by number, its graphs by tag, whether its
retirement has been asked for. -/
structure Job where
  tenant : BitVec 4 := 0
  current : Nat := 0
  boundary : Nat := 0
  phases : Sparse Phase := []
  graphs : Sparse GraphRec := []
  retired : Bool := false
  cancelled : Bool := false
  record : Record := {}
  deriving DecidableEq, Repr

/-- A launch ring's registers (R342), its job's age limit in nanoseconds (R296), and the tiers of the requests not yet taken: each holds for
the entries up to a tail (R147). -/
structure Ring where
  rbase : Word := 0
  err : Bool := false
  vec : BitVec 8 := 0
  ien : Bool := false
  en : Bool := false
  lsize : BitVec 5 := 0
  head : BitVec 32 := 0
  tail : BitVec 32 := 0
  cbase : Word := 0
  gbase : Word := 0
  ageLimit : Word := 1000000
  tiers : List (BitVec 32 × BitVec 3) := []
  deriving DecidableEq, Repr

/-- A barrier episode (R262): participants and arrivals, as unit indices; `inst` numbers the core, grove, die or module. `released` is none
until the barrier completes, and then the units that have arrived and not returned yet. -/
structure Episode where
  lid : BitVec 32
  form : BarForm
  inst : Nat
  parts : List Nat
  arrived : List Nat
  released : Option (List Nat)
  deriving DecidableEq, Repr

/-- The operations of a bank atomic (R257). -/
inductive AmoOp | add | min | max | minu | maxu | and | or | xor
  deriving DecidableEq, Repr

/-- A remote atomic in flight (R258). -/
structure Amo where
  op : AmoOp
  word : Bool
  src : Place
  lid : BitVec 32
  unit : BitVec 16
  tenant : BitVec 4
  core : Nat
  addr : Nat
  val : Word
  deriving DecidableEq, Repr

/-- A channel message in flight (R254), with the unit that sent it. -/
structure Msg where
  src : Place
  lid : BitVec 32
  unit : BitVec 16
  tenant : BitVec 4
  dst : Place
  reg : Nat
  val : Word
  deriving DecidableEq, Repr

/-- A receiver that has moved (R256): what the sender at a place calls by an old place and a register is at a new place. -/
structure Renamed where
  src : Place
  old : Place
  reg : Nat
  new : Place
  deriving DecidableEq, Repr

/-- A layer record (R129) and its tenant; `deps` are slots 0 to 3. -/
structure Layer where
  tenant : BitVec 4 := 0
  price : BitVec 16 := 0xFFFF
  err : BitVec 16 := 0
  age : BitVec 16 := 0
  id : BitVec 16 := 0
  zmax : BitVec 32 := 0x3F800000
  zmin : BitVec 32 := 0x3F800000
  tx : BitVec 32 := 0
  ty : BitVec 32 := 0
  tz : BitVec 32 := 0
  okey : BitVec 32 := 0x3F800000
  vres : BitVec 16 := 0
  lit : BitVec 16 := 0
  eprice : BitVec 16 := 0xFFFF
  graph : BitVec 12 := 0
  fresh : Bool := false
  state : BitVec 2 := 2
  img : Word := 0
  deps : Vector (BitVec 32) 4 := Vector.replicate 4 0xFFFF0000
  deriving DecidableEq, Repr

/-- A pose (R250). -/
structure Pose where
  cx : BitVec 32 := 0
  cy : BitVec 32 := 0
  cz : BitVec 32 := 0
  f : BitVec 32 := 0x3F800000
  deriving DecidableEq, Repr

/-- A re-render request (R308). -/
structure Request where
  id : BitVec 16
  err : BitVec 16
  tier : BitVec 3
  graph : BitVec 12
  frame : Word
  deriving DecidableEq, Repr

/-- A registered render graph (R309): its declared run time in nanoseconds and its launch records. -/
structure RenderGraph where
  runTime : Nat := 0
  records : List (List Word) := []
  deriving DecidableEq, Repr

/-- The layer table and quality settings (R131 to R134, R147, R310), with the margin in 256ths of the period: the layers that are not free, the
pose history (newest first), the poses held for frames to come, the last evaluated frame, the tier and price step in force and those of the
next evaluation; the frames released one after another with time to spare, whether the last frame was missed and has not raised the quality
step yet, and the evaluations whose quality step is due. -/
structure Layers where
  table : Sparse Layer := []
  hist : List (Nat × Pose) := []
  held : Sparse Pose := []
  last : Option Int := none
  pstep : BitVec 4 := 0
  pstepNext : BitVec 4 := 0
  tier : BitVec 3 := 7
  tierNext : BitVec 3 := 7
  quality : BitVec 4 := 0
  good : Nat := 0
  spareCount : Nat := 32
  margin : Nat := 64
  pinned : Bool := false
  missed : Bool := false
  stepsDue : Nat := 0
  requests : List Request := []
  graphs : Sparse RenderGraph := []
  deriving DecidableEq, Repr

/-- A frame buffer handed over (R145): its address, its tenant, the nanoseconds that were left to the frame's deadline. None has the address
of no buffer. -/
structure FrameBuf where
  va : Word := 0xFFFFFFFFFFFFFFFF
  tenant : BitVec 4 := 0
  left : Int := 0
  deriving DecidableEq, Repr

/-- A frame whose deadline has passed and that is to leave: its buffer, and whether that buffer is streamed again (R146). -/
structure DueFrame where
  frame : Nat
  buf : FrameBuf
  again : Bool
  deriving DecidableEq, Repr

/-- A frame as it has left (R357): the Ethernet ports that carried it and its lines, first line first. -/
structure Streamed where
  frame : Nat
  ports : BitVec 4
  lines : List (List Byte)
  deriving DecidableEq, Repr

/-- The release unit (R359, R145, R146) and its clock (R358). `due` lists the frames whose deadline has passed and that are to leave,
`streamed` those that have left; `passed` is the last frame whose deadline has passed. -/
structure Release where
  err : Bool := false
  ports : BitVec 4 := 0
  hold : Bool := false
  lock : Bool := false
  en : Bool := false
  bases : BitVec 48 := 0
  basens : BitVec 30 := 0
  period : Word := 0
  tlead : BitVec 32 := 1000000
  format : Word := 0
  miss : BitVec 32 := 0
  plate : BitVec 32 := 0
  last : Word := 0
  stream : Vector Word 4 := Vector.replicate 4 0
  ssrc : Vector (BitVec 32) 4 := Vector.replicate 4 0
  handed : Sparse FrameBuf := []
  due : List DueFrame := []
  lastBuf : Option FrameBuf := none
  streamed : List Streamed := []
  passed : Option Int := none
  offset : Int := 0
  goodSyncs : Nat := 0
  now : Nat := 0
  deriving DecidableEq, Repr

/-- A collective set (R346). -/
structure CollSet where
  valid : Bool := false
  members : BitVec 16 := 0
  deriving DecidableEq, Repr

/-- The residuals of one rank, set and match key (R356): one FP32 value per element, zero where none is listed. -/
structure Resid where
  vf : Nat
  set : Nat
  space : Nat
  base : Word
  vals : Sparse (BitVec 32)
  deriving DecidableEq, Repr

/-- An alias aperture (R348). -/
structure Aperture where
  src : BitVec 52 := 0
  en : Bool := false
  nbc : BitVec 16 := 0
  pitch : BitVec 32 := 0
  nbr : BitVec 16 := 0
  esize : BitVec 2 := 0
  deriving DecidableEq, Repr

/-- What the forester's error log records. -/
inductive ErrEntry
  | doubleEvent (p : Place) (code : BitVec 8) (addr : Word)
  | retiredDebug (p : Place)
  | retiredMcheck (p : Place) (addr : Word)
  | waitCycle (ps : List Word)
  | atomicMcheck (core addr : Nat)
  | mergeMcheck (pa : Nat)
  | scrub (pa : Nat)
  deriving DecidableEq, Repr

/-- The attributes of a request through the host aperture (R341): the function whose requester ID it carries, and whether it carries the
relaxed-ordering attribute. -/
structure Requester where
  fn : Nat := 16
  relaxed : Bool := false
  deriving DecidableEq, Repr

/-- A byte of a posted write to the host: its bus address and the attributes of its request (R341). -/
structure Posted where
  bus : Nat
  byte : Byte
  by_ : Requester
  deriving DecidableEq, Repr

/-- A non-posted read through the host aperture: its first bus address, its bytes, and its attributes (R341). -/
structure HostRead where
  bus : Nat
  n : Nat
  by_ : Requester
  deriving DecidableEq, Repr

/-- Host-side registers and queues (R338 to R341, R347, R373); functions are numbered VF 0 to 15, then the PF as 16. `bar2` holds the sizes
of BAR2, as the power of two of GiB, where they are not 64 GiB (log 34), `system` the modules of the system (R351, log 36), `i3c` the in-band
interrupts raised (R375). -/
structure HostIf where
  mid : BitVec 4 := 0
  hapbase : Word := 0
  b2va : Sparse Word := []
  b2drop : Sparse (BitVec 32) := []
  ltol : Sparse (BitVec 32) := []
  system : BitVec 16 := 0xFFFF
  i3c : Nat := 0
  bar2 : Sparse Nat := []
  posted : List Posted := []
  reads : List HostRead := []
  peerWrites : List (Nat × Byte) := []
  replies : List (List Byte) := []
  msix : List (Nat × Nat) := []
  errlog : List ErrEntry := []
  deriving DecidableEq, Repr

/-- What a mailbox command in progress still waits for: the end of a tenant's launches, those on cores that a tenant gives up, the
groves where a routine of that index is in use (R307, R380), or the flash that is being written (R378). -/
inductive MailWait
  | destroy (tn : Nat)
  | resize (tn x y w h : Nat)
  | routine (idx : Nat) (id : Word) (groves : List Nat)
  | commit (img : List Byte)
  deriving DecidableEq, Repr

/-- The mailbox (R370), the power cap (R374) and the loaded copy-core routines (R307). -/
structure Mailbox where
  op : BitVec 16 := 0
  busy : Bool := false
  result : BitVec 8 := 0
  detail : BitVec 16 := 0
  args : Vector Word 32 := Vector.replicate 32 0
  waits : Option MailWait := none
  cap : Nat := 5600
  routines : Sparse Word := []
  deriving DecidableEq, Repr

/-- Boot and update state (R362, R363, R378): `image` is the running image, `stageLen` the length of the staged image in its register;
`fromHost` is whether the boot strap selects the host. -/
structure Boot where
  state : BitVec 4 := 0
  cause : BitVec 8 := 0
  image : List Byte := []
  flash : Option (List Byte) := none
  stageLen : Nat := 0
  verified : Bool := false
  fromHost : Bool := false
  fusedMin : Nat := 0
  deriving DecidableEq, Repr

/-- What an RV64GC core holds for its programs (PRESUMED, log 22): `x1` to `x31`, the program counter, the floating-point registers and their
control register, and the address reserved for a store-conditional. -/
structure Rv64 where
  x : Vector Word 31 := Vector.replicate 31 0
  pc : Word := 0
  f : Vector Word 32 := Vector.replicate 32 0
  fcsr : BitVec 8 := 0
  reserved : Option Word := none
  deriving DecidableEq, Repr

/-- The forester of a die (R2): an RV64GC core with 512 KiB of private SRAM, bytes 0 to 0x7FFFF. Its program is the image; what it does to the
module is given by the steps of the table. -/
structure Forester where
  cpu : Rv64 := {}
  sram : Sparse Byte := []
  deriving DecidableEq, Repr

/-- The copy core of a grove (R2): an RV64GCV core with 512-bit vectors (PRESUMED, log 22). Its programs are the routines of `cpyx` (R238,
R307). -/
structure CopyCore where
  cpu : Rv64 := {}
  v : Vector (BitVec 512) 32 := Vector.replicate 32 0
  vstart : Word := 0
  vl : Word := 0
  vtype : Word := 0
  vcsr : BitVec 3 := 0
  deriving DecidableEq, Repr

/-- The engine command that a flit belongs to: core, class, number in its ticket. -/
structure CmdKey where
  core : Nat
  cls : EngClass
  seq : Nat
  deriving DecidableEq, Repr

/-- A flit that waits for a slot of its port, with its command. -/
structure Outgoing where
  flit : Flit
  cmd : Option CmdKey
  deriving DecidableEq, Repr

/-- An Ewesan port (R349 to R352): its sequence numbers, the replay buffer, what has been sent, the flits not yet acknowledged that belong to a
command, those that wait for a slot by their class, the next slot of its frame, and the bulk slots since the last that management took, up to
63. -/
structure Port where
  txSeq : BitVec 12 := 0
  rxSeq : BitVec 12 := 0
  replay : List Flit := []
  sent : List Flit := []
  owed : List (BitVec 12 × CmdKey) := []
  realTime : List Outgoing := []
  bulk : List Outgoing := []
  management : List Outgoing := []
  slot : Nat := 0
  sinceManaged : Nat := 63
  retries : Nat := 0
  down : Bool := false
  deriving DecidableEq, Repr

/-- Telemetry counters of a die (R376). -/
structure Telemetry where
  tmax : BitVec 16 := 0
  flux : BitVec 16 := 0
  power : BitVec 32 := 0
  cesp : BitVec 32 := 0
  cecn : BitVec 32 := 0
  cedr : BitVec 32 := 0
  ue : BitVec 32 := 0
  retry : BitVec 32 := 0
  scrub : BitVec 32 := 0
  deriving DecidableEq, Repr

/-- Power states (R372), as numbers of cores, groves and dies, the dies whose LPDDR 6 is in self-refresh, and clock steps (R374; 16 where none is
listed). -/
structure Power where
  c1 : List Nat := []
  c2 : List Nat := []
  g2 : List Nat := []
  d1 : List Nat := []
  refresh : List Nat := []
  clock : Sparse Nat := []
  stopped : Bool := false
  deriving DecidableEq, Repr

/-- A tenant (R304, R314, R331): its rectangle if it exists, the supervisor entry register, the physical address of its root table. -/
structure Tenant where
  live : Bool := false
  x0 : Nat := 0
  y0 : Nat := 0
  w : Nat := 0
  h : Nat := 0
  entry : Word := 0
  root : Option Nat := none
  deriving DecidableEq, Repr

/-- A device launch waiting in a die's queue (R251): its job, phase, tier and record, the `lid` given to it, whether it has been cancelled. -/
structure DeviceReq where
  job : Nat
  phase : Nat
  lid : BitVec 32
  tier : BitVec 3
  words : List Word
  cancelled : Bool := false
  deriving DecidableEq, Repr

/-- A unit whose context is saved, with the place it left, its save area, the rectangle of its gang if it is in one (R29, R256, R322), and its
register stack: first address, limit, windows spilled (R15). `image` tells that the cores of its launch have been copied since (R42), `leads`
that it leads its gang, `drop` the descriptor of a dropped message that it has yet to be told of (R305). -/
structure Saved where
  lid : BitVec 32
  unit : BitVec 16
  tenant : BitVec 4
  place : Place
  sarea : Word
  gang : Option (BitVec 8)
  stack : Nat × Nat × Nat := (0, 0, 0)
  image : Bool := false
  leads : Bool := false
  drop : Option Word := none
  deriving DecidableEq, Repr

/-- Work and scheduling of the module. `inbox` holds the completion records of every core, `stamp` counts binds and parkings.
`overlaid` tells, by launch and unit, how many of its oldest spilled windows a program has stored over (R17). `irqs` are the
dispatch interrupts raised, by the place whose entry became empty (R294); `lastGrant` the order of the launch of each class granted a slot
last (R296); `records` the completion records of launches without one at an address of the host (R297), by `lid`; `renamed` the receivers that
have moved (R256); `reserved` the slots being emptied for a unit that waits, with its launch (R295); `blocks` what the released schedule blocks
of launches that have completed hold (R282, R303). -/
structure Work where
  saved : List Saved := []
  stamp : Nat := 0
  slots : Sparse Slot := []
  launches : Sparse Launch := []
  nextLid : Nat := 1
  deviceQ : Sparse (List DeviceReq) := []
  jobs : Sparse Job := []
  rings : Sparse Ring := []
  claims : List Claim := []
  episodes : List Episode := []
  amos : List Amo := []
  inbox : List Inbox := []
  msgs : List Msg := []
  overlaid : Sparse Nat := []
  irqs : List Place := []
  lastGrant : Sparse Nat := []
  records : Sparse Record := []
  renamed : List Renamed := []
  reserved : List (Place × BitVec 32) := []
  blocks : Sparse Sched := []
  deriving DecidableEq, Repr

/-- What has arrived from another module for a collective (R240, R349): the sending module, the match key, which command with that key it is
for, and the bytes of one flit. -/
structure Arrival where
  mid : Nat
  vf : Nat
  set : Nat
  space : Nat
  base : Word
  nth : Nat
  bytes : List Byte
  deriving DecidableEq, Repr

/-- How many commands with a match key the module has issued (R240), modulo 65,536. -/
structure KeyCount where
  vf : Nat
  set : Nat
  space : Nat
  base : Word
  count : Nat
  deriving DecidableEq, Repr

/-- The module outside its cores. `tlb` holds the last-level TLBs of its dies (R336), `bad` holds the first addresses of the protected words of physical memory
with an uncorrectable error (R327). -/
structure Module where
  tenants : Sparse Tenant := []
  tlb : List TlbEntry := []
  apertures : Sparse Aperture := []
  bad : List Nat := []
  work : Work := {}
  layers : Layers := {}
  rel : Release := {}
  csets : Sparse CollSet := []
  resids : List Resid := []
  peers : List Arrival := []
  keys : List KeyCount := []
  host : HostIf := {}
  mail : Mailbox := {}
  boot : Boot := {}
  foresters : Sparse Forester := []
  copyCores : Sparse CopyCore := []
  ports : Sparse Port := []
  tele : Sparse Telemetry := []
  power : Power := {}
  deriving DecidableEq, Repr

/-- The machine. The thread and the core in focus (whose turn is modelled next) stand in `th` and `core`; every other bound
thread and touched core is listed under its number. `agenda` holds the steps of hardware, firmware, host and peers that happen
before the next issue. `fresh` counts the free values used. -/
structure State where
  agenda : List Task := []
  here : Place := ⟨0, 0, 0⟩
  th : Thread := {}
  core : Core := {}
  others : Sparse Thread := []
  cores : Sparse Core := []
  mem : List Host.Cell := []
  sys : Module := {}
  fresh : Nat := 0
  deriving DecidableEq, Repr

/-- The machine right after reset: no thread bound, no tenant, nothing in memory (R293, R304, R362). Log 2 names every value the
spec does not give. -/
def State.reset : State := {}

/-- Reasons for the machine to stop. -/
inductive Fault
  /-- Raised by `step` while the thermal trip holds the module and no reset is next (R375): every die clock is stopped. Safe: the spec gives
  the stop. -/
  | thermalStop
  deriving DecidableEq, Repr

/-- Reasons for having no meaning. -/
inductive Refusal
  /-- Raised by an arm of `exec` whose instruction has no meaning yet. Safe: nothing can be proved about the instruction. -/
  | notModelled (mnemonic : String)
  deriving DecidableEq, Repr

/-- What an instruction or a step answers. -/
abbrev Out := Host.Outcome State Fault Refusal

end Sys2Proof.Machine
end

