-- ==== Sys2Proof/Machine/Bits.lean ====
section
/-! DEFINITION. Sparse data in canonical form, bit fields, extensions, byte order (R4), and the numbering of places and cores (R7, R8). -/

namespace Sys2Proof.Machine

/-! ### Sparse data -/

/-- The datum listed for `k`, or `d`. The keys rise strictly, so the search stops at the first key above `k`. -/
def sparseGet {α : Type} (d : α) : Sparse α → Nat → α
  | [], _ => d
  | (i, v) :: t, k => if k < i then d else if k = i then v else sparseGet d t k

/-- Put `v` at `k`; writing `d` removes the entry, so that equal data are equal lists. -/
def sparsePut {α : Type} [DecidableEq α] (d : α) : Sparse α → Nat → α → Sparse α
  | [], k, v => if v = d then [] else [(k, v)]
  | (i, w) :: t, k, v =>
    if k < i then (if v = d then (i, w) :: t else (k, v) :: (i, w) :: t)
    else if k = i then (if v = d then t else (k, v) :: t)
    else (i, w) :: sparsePut d t k v

/-- Change every listed datum by its key and value; one that becomes `d` is no longer listed. -/
def sparseMap {α : Type} [DecidableEq α] (d : α) (f : Nat → α → α) : Sparse α → Sparse α
  | [] => []
  | (i, v) :: t => if f i v = d then sparseMap d f t else (i, f i v) :: sparseMap d f t

/-- Canonical form above a bound: keys rise strictly from `lo` on, and no entry equals `d`. -/
def sparseWfFrom {α : Type} [DecidableEq α] (d : α) : Nat → Sparse α → Bool
  | _, [] => true
  | lo, (i, v) :: t => decide (lo ≤ i) && decide (v ≠ d) && sparseWfFrom d (i + 1) t

/-- Canonical form. -/
def sparseWf {α : Type} [DecidableEq α] (d : α) (m : Sparse α) : Bool := sparseWfFrom d 0 m

/-- The `n` bytes from address `a` on; an unlisted byte reads as zero (log 1). -/
def bytesAt (m : Sparse Byte) (a : Nat) : Nat → List Byte
  | 0 => []
  | n + 1 => sparseGet 0 m a :: bytesAt m (a + 1) n

/-- Store bytes from address `a` on. -/
def putBytes (m : Sparse Byte) (a : Nat) : List Byte → Sparse Byte
  | [] => m
  | b :: t => putBytes (sparsePut 0 m a b) (a + 1) t

/-- The canonical form of memory: addresses strictly rising, no byte listed that an unlisted address reads as. -/
def Memory.wf (m : List Host.Cell) : Bool := sparseWf (0 : Byte) m

/-- Insert a number into a strictly rising list. -/
def insertNat (n : Nat) : List Nat → List Nat
  | [] => [n]
  | i :: t => if n < i then n :: i :: t else if n = i then i :: t else i :: insertNat n t

/-! ### Bytes and words, little-endian (R4) -/

/-- The number that bytes hold. -/
def ofBytes : List Byte → Nat
  | [] => 0
  | b :: t => b.toNat + 256 * ofBytes t

/-- The `n` low bytes of a number. -/
def toBytes : Nat → Nat → List Byte
  | 0, _ => []
  | n + 1, v => BitVec.ofNat 8 v :: toBytes n (v / 256)

/-- A word from bytes. -/
def wordOf (bs : List Byte) : Word := BitVec.ofNat 64 (ofBytes bs)

/-- The bytes of a word. -/
def wordBytes (w : Word) : List Byte := toBytes 8 w.toNat

/-- The low `w` bits of `v`, sign-extended to 64. -/
def sextBits (w : Nat) (v : Nat) : Word := (BitVec.ofNat w v).signExtend 64

/-- The low `w` bits of `v`, zero-extended to 64. -/
def zextBits (w : Nat) (v : Nat) : Word := (BitVec.ofNat w v).setWidth 64

/-- Bits `hi : lo` of a word. -/
def bitsOf (x : Word) (hi lo : Nat) : Nat := (x.toNat / 2 ^ lo) % 2 ^ (hi + 1 - lo)

/-- One bit of a word as 0 or 1. -/
def bitNat (b : Bool) : Nat := if b then 1 else 0

/-! ### Places and cores -/

/-- The number of a core in the module: 256 to a die. -/
def coreNum (c : CoreId) : Nat := c.did.val * 256 + c.cid.val

/-- The core of a number. -/
def coreOf (n : Nat) : CoreId :=
  ⟨⟨n / 256 % 16, Nat.mod_lt _ (by decide)⟩, ⟨n % 256, Nat.mod_lt _ (by decide)⟩⟩

/-- The core of a place. -/
def placeCore (p : Place) : CoreId := ⟨p.did, p.cid⟩

/-- The number of a place: the slot-table entry within the module, 12 to a core. -/
def placeNum (p : Place) : Nat := (p.did.val * 256 + p.cid.val) * 12 + p.slot.val

/-- The place of a number. -/
def placeOf (n : Nat) : Place :=
  ⟨⟨n / 3072 % 16, Nat.mod_lt _ (by decide)⟩, ⟨n / 12 % 256, Nat.mod_lt _ (by decide)⟩, ⟨n % 12, Nat.mod_lt _ (by decide)⟩⟩

/-- The column of a core in the module's grid (R8). -/
def gridX (core : Nat) : Nat := 16 * (core / 256 % 4) + 4 * (core / 16 % 4) + core % 4

/-- The row of a core in the module's grid (R8). -/
def gridY (core : Nat) : Nat := 16 * (core / 1024) + 4 * (core / 64 % 4) + core / 4 % 4

/-- The core at a point of the grid (R8). -/
def coreAt (x y : Nat) : Nat :=
  (4 * (y / 16) + x / 16) * 256 + (4 * (y / 4 % 4) + x / 4 % 4) * 16 + 4 * (y % 4) + x % 4

/-- A job's number. -/
def jobNum (j : JobId) : Nat := j.vf.val * 16 + j.ring.val

/-- Word 2 of a tensor-table entry without its reserved bits, which read as 0 (R4, R66). -/
def entryBits (w : Word) : Word := w &&& 0xFFFFFFFFFFFFF001

/-- The place descriptor of a place (R252). -/
def descriptor (mid : BitVec 4) (p : Place) (reg : Nat) : Word :=
  BitVec.ofNat 64 (mid.toNat * 2 ^ 20 + p.did.val * 2 ^ 16 + p.cid.val * 2 ^ 8 + p.slot.val * 16 + reg)

end Sys2Proof.Machine
end

