-- ==== Sys2Proof/Machine/Physical.lean ====
section
/-! DEFINITION. Access to threads and cores by place; physical memory and its map (R332), alias apertures (R70, R348), and words with
uncorrectable errors (R327). -/

namespace Sys2Proof.Machine

/-! ### Setters -/

def State.withTh (s : State) (t : Thread) : State := { s with th := t }
def State.withCore (s : State) (c : Core) : State := { s with core := c }
def State.withMem (s : State) (m : List Host.Cell) : State := { s with mem := m }
def State.withSys (s : State) (m : Module) : State := { s with sys := m }
def State.withWork (s : State) (w : Work) : State := { s with sys := { s.sys with work := w } }
def State.withRf (s : State) (r : Regs) : State := { s with th := { s.th with rf := r } }
def State.withSr (s : State) (r : Sregs) : State := { s with th := { s.th with sr := r } }
def State.withEng (s : State) (e : Engines) : State := { s with th := { s.th with eng := e } }
def State.withHost (s : State) (h : HostIf) : State := { s with sys := { s.sys with host := h } }
def State.withLayers (s : State) (l : Layers) : State := { s with sys := { s.sys with layers := l } }
def State.withRel (s : State) (r : Release) : State := { s with sys := { s.sys with rel := r } }

/-! ### Threads and cores by number -/

/-- The thread at a place: the one in focus, or the one listed. -/
def State.thr (s : State) (p : Place) : Thread :=
  if p = s.here then s.th else sparseGet {} s.others (placeNum p)

/-- Replace the thread at a place. -/
def State.putThr (s : State) (p : Place) (t : Thread) : State :=
  if p = s.here then { s with th := t } else { s with others := sparsePut {} s.others (placeNum p) t }

/-- The number of the core in focus. -/
def State.hereCore (s : State) : Nat := coreNum (placeCore s.here)

/-- A core by number: the one in focus, or the one listed. -/
def State.coreBy (s : State) (c : Nat) : Core :=
  if c = s.hereCore then s.core else sparseGet {} s.cores c

/-- Replace a core. -/
def State.putCore (s : State) (c : Nat) (k : Core) : State :=
  if c = s.hereCore then { s with core := k } else { s with cores := sparsePut {} s.cores c k }

/-- Move the focus to a place: the thread and core in focus go back to the lists. -/
def State.focus (s : State) (p : Place) : State :=
  if p = s.here then s
  else
    let others := sparsePut {} s.others (placeNum s.here) s.th
    let cores := sparsePut {} s.cores s.hereCore s.core
    let c := coreNum (placeCore p)
    { s with
      here := p
      th := sparseGet {} others (placeNum p)
      others := sparsePut {} others (placeNum p) {}
      core := sparseGet {} cores c
      cores := sparsePut {} cores c {} }

/-- Change every core. -/
def mapCores (s : State) (f : Core → Core) : State := { s with core := f s.core, cores := sparseMap {} (fun _ k => f k) s.cores }

/-- The places of all bound threads, in ascending place number. -/
def State.boundPlaces (s : State) : List Place :=
  let o := (s.others.filter fun e => e.2.bound).map (·.1)
  (if s.th.bound then insertNat (placeNum s.here) o else o).map placeOf

/-- The places of the bound threads of one core. -/
def State.placesOn (s : State) (c : Nat) : List Place :=
  s.boundPlaces.filter fun p => coreNum (placeCore p) = c

/-- A launch by identifier; one with no units where none is listed. -/
def State.launch (s : State) (l : BitVec 32) : Launch := sparseGet {} s.sys.work.launches l.toNat

/-- Replace a launch. -/
def State.putLaunch (s : State) (l : BitVec 32) (x : Launch) : State :=
  s.withWork { s.sys.work with launches := sparsePut {} s.sys.work.launches l.toNat x }

/-- A tenant by number. -/
def State.tenant (s : State) (t : BitVec 4) : Tenant := sparseGet {} s.sys.tenants t.toNat

/-- Whether a core lies in a tenant's rectangle (R304). -/
def inRect (t : Tenant) (core : Nat) : Bool :=
  t.live && decide (t.x0 ≤ gridX core ∧ gridX core < t.x0 + t.w ∧ t.y0 ≤ gridY core ∧ gridY core < t.y0 + t.h)

/-! ### Physical memory (R332) -/

/-- What a 52-bit physical address names. -/
inductive PaKind
  | dram
  | host (bus : Nat)
  | alias_ (aperture off : Nat)
  | none
  deriving DecidableEq, Repr

/-- The map of R332 over bits 47:0; bits 51:48 give the module. -/
def paKind (pa : Nat) : PaKind :=
  let a := pa % 2 ^ 48
  if a < 0xC00000000 then .dram
  else if 0x1000000000 ≤ a ∧ a < 0x9000000000 then .dram
  else if 0x10000000000 ≤ a ∧ a < 0x20000000000 then .host (a - 0x10000000000)
  else if 0x20000000000 ≤ a ∧ a < 0x22000000000 then
    .alias_ ((a - 0x20000000000) / 0x40000000) ((a - 0x20000000000) % 0x40000000)
  else .none

/-- Whether a physical address is canopy (R332). -/
def isCanopy (pa : Nat) : Bool := decide (pa % 2 ^ 48 < 0xC00000000)

/-- The die of a physical address in canopy or LPDDR 6 (R332). -/
def dieOfPa (pa : Nat) : BitVec 4 :=
  let a := pa % 2 ^ 48
  BitVec.ofNat 4 (if a < 0xC00000000 then a / 0xC0000000 else (a - 0x1000000000) / 0x800000000)

/-- Bytes per element of an alias aperture (R348). -/
def Aperture.elem (a : Aperture) : Nat := if a.esize = 2 then 2 else 1

/-- The bytes an alias aperture covers (R348). -/
def Aperture.cover (a : Aperture) : Nat := a.nbr.toNat * a.nbc.toNat * 16384 * a.elem

/-- The source byte of byte `o` of an alias aperture (R70). -/
def Aperture.source (a : Aperture) (o : Nat) : Nat :=
  let e := a.elem
  let bs := 16384 * e
  let blk := o / bs
  let w := o % bs
  let i := w / e / 128
  let j := w / e % 128
  let br := blk / a.nbc.toNat
  let bc := blk % a.nbc.toNat
  a.src.toNat + (128 * br + j) * a.pitch.toNat + (128 * bc + i) * e + w % e

/-- Where a physical byte has its home (R64, R70, R332): memory, the host, the host or alias aperture of another module, or nowhere. -/
inductive Home | mem (pa : Nat) | host (bus : Nat) | peer (pa : Nat) | none
  deriving DecidableEq, Repr

/-- Whether bits 51:48 of a physical address name this module (R332). -/
def ownModule (s : State) (pa : Nat) : Bool := decide (pa / 2 ^ 48 = s.sys.host.mid.toNat)

/-- The home of a physical byte. -/
def homeOf (s : State) (pa : Nat) : Home :=
  match paKind pa with
  | .dram => .mem pa
  | .host o => if ownModule s pa then .host (s.sys.host.hapbase.toNat + o) else .peer pa
  | .alias_ n o =>
    if !ownModule s pa then .peer pa
    else
      let a := sparseGet {} s.sys.apertures n
      if a.en && decide (o < a.cover) then .mem (a.source o) else .none
  | .none => .none

/-- A byte of physical memory; a byte beyond the host aperture or in another module's apertures is not this module's (log 13), one without
a home reads zero. -/
def physByte (s : State) (pa : Nat) : Byte :=
  match homeOf s pa with
  | .mem a => sparseGet 0 s.mem a
  | .host b => Config.hostByte b s.fresh
  | .peer a => Config.peerByte a s.fresh
  | .none => 0

/-- Bytes of physical memory. -/
def physBytes (s : State) (pa : Nat) : Nat → List Byte
  | 0 => []
  | n + 1 => physByte s pa :: physBytes s (pa + 1) n

/-- The attributes of a request under a leaf (R341): the requester ID of the virtual function of the tenant that owns it, and the
relaxed-ordering attribute unless its kind is SO. -/
def requesterOf (tenant : BitVec 4) (kind : Nat) : Requester := ⟨tenant.toNat, decide (kind ≠ 1)⟩

/-- Write one byte at its home; a byte for the host joins the posted writes, with the attributes of its request (R341). -/
def putPhysByte (s : State) (w : Requester) (pa : Nat) (b : Byte) : State :=
  match homeOf s pa with
  | .mem a => { s with mem := sparsePut 0 s.mem a b }
  | .host o => s.withHost { s.sys.host with posted := s.sys.host.posted ++ [⟨o, b, w⟩] }
  | .peer a => s.withHost { s.sys.host with peerWrites := s.sys.host.peerWrites ++ [(a, b)] }
  | .none => s

/-- Write bytes at their homes. -/
def putPhys (s : State) (w : Requester) (pa : Nat) : List Byte → State
  | [] => s
  | b :: t => putPhys (putPhysByte s w pa b) w (pa + 1) t

/-- The protected word that holds a physical byte: 16 bytes of canopy, 32 bytes of LPDDR 6 (R327). -/
def protectedSize (pa : Nat) : Nat := if isCanopy pa then 16 else 32

/-- The bytes of a run of physical addresses. -/
def runFrom (pa n : Nat) : List Nat := (List.range n).map (pa + ·)

/-- The homes in memory of listed physical addresses: an alias byte's home is its source (R70). -/
def memHomes (s : State) (pas : List Nat) : List Nat :=
  pas.filterMap fun pa => match homeOf s pa with | .mem a => some a | _ => none

/-- Whether a byte lies in a protected word. -/
def inWord (g a : Nat) : Bool := decide (g ≤ a ∧ a < g + protectedSize g)

/-- Whether bytes overwrite a protected word whole. -/
def coversWord (hs : List Nat) (g : Nat) : Bool := (runFrom g (protectedSize g)).all hs.contains

/-- Whether an access to listed addresses meets a protected word with an uncorrectable error (R327). -/
def runBad (s : State) (pas : List Nat) : Bool := s.sys.bad.any fun g => (memHomes s pas).any (inWord g)

/-- Whether a store to listed addresses meets such a word that it does not overwrite whole. -/
def runPartlyBad (s : State) (pas : List Nat) : Bool :=
  s.sys.bad.any fun g => (memHomes s pas).any (inWord g) && !coversWord (memHomes s pas) g

/-- A store to listed addresses writes new check bits to every protected word that it overwrites whole. -/
def healRun (s : State) (pas : List Nat) : State :=
  s.withSys { s.sys with bad := s.sys.bad.filter fun g => !coversWord (memHomes s pas) g }

/-- An uncorrectable error has been met on a die, which counts it (R376, log 38). -/
def metError (s : State) (d : Nat) : State :=
  let t := sparseGet {} s.sys.tele d
  s.withSys { s.sys with tele := sparsePut {} s.sys.tele d { t with ue := t.ue + 1 } }

/-- A read of physical bytes meets an uncorrectable error where one of them lies in such a word: the die of the first counts it (R376, log 38). -/
def metReading (s : State) (pas : List Nat) : State :=
  match (memHomes s pas).find? fun a => s.sys.bad.any fun g => inWord g a with
  | some a => metError s (dieOfPa a).toNat
  | none => s

/-- A write of physical bytes meets one where it overwrites a part of such a word (R376, log 38). -/
def metWriting (s : State) (pas : List Nat) : State :=
  match (memHomes s pas).find? fun a => s.sys.bad.any fun g => inWord g a && !coversWord (memHomes s pas) g with
  | some a => metError s (dieOfPa a).toNat
  | none => s

/-- The same for `n` bytes from an address on. -/
def anyBad (s : State) (pa n : Nat) : Bool := runBad s (runFrom pa n)
def partlyBad (s : State) (pa n : Nat) : Bool := runPartlyBad s (runFrom pa n)
def healBad (s : State) (pa n : Nat) : State := healRun s (runFrom pa n)

/-- The byte that a read from outside or by the forester returns; one in a word with an uncorrectable error is free (log 7). -/
def inboundByte (s : State) (pa : Nat) : Byte :=
  if anyBad s pa 1 then (Config.freeWord (s.fresh + pa)).setWidth 8 else physByte s pa

end Sys2Proof.Machine
end

