-- ==== Sys2Proof/Machine/Flits.lean ====
section
/-! DEFINITION. The Ewesan ports (R349 to R352): flits, the slots that send them, messages between modules; and what an access does where its
bytes have their homes (R349, R352, R372). -/

namespace Sys2Proof.Machine

/-- The port on a die (R349). -/
def State.port (s : State) (d : Nat) : Port := sparseGet {} s.sys.ports d

/-- Replace a port. -/
def State.putPort (s : State) (d : Nat) (p : Port) : State := s.withSys { s.sys with ports := sparsePut {} s.sys.ports d p }

/-- Whether the port toward a module is down. -/
def portDown (s : State) (m : Nat) : Bool := (s.port m).down

/-- Whether the port on a die joins another module of the system: not the spare, nor toward a module that is not there (R351). -/
def portUsed (s : State) (d : Nat) : Bool := decide (d ≠ s.sys.host.mid.toNat) && s.sys.host.system.getLsbD d

/-- Whether nothing can be sent to a module now: its port is down, or unused (R351). -/
def portClosed (s : State) (m : Nat) : Bool := portDown s m || !portUsed s m

/-! ### Flits (R349) -/

/-- Bytes 0 to 7 of a flit. -/
def flitHead (f : Flit) : Nat :=
  f.lc.toNat * 2 ^ 62 + f.seq.toNat * 2 ^ 50 + f.ack.toNat * 2 ^ 38 + bitNat f.nak * 2 ^ 37 + f.ddie.toNat * 2 ^ 33 + f.sdie.toNat * 2 ^ 29
    + f.tenant.toNat * 2 ^ 25

/-- Bytes 0 to 247 of a flit. -/
def flitBytes (f : Flit) : List Byte := toBytes 8 (flitHead f) ++ f.payload

/-- A flit with the CRC of its bytes. -/
def sealFlit (f : Flit) : Flit := { f with crc := Config.crc64 (flitBytes f) }

/-- Whether a flit is whole and passes its CRC. -/
def flitGood (f : Flit) : Bool := decide (f.payload.length = 240) && decide (f.crc = Config.crc64 (flitBytes f))

/-- The 240 bytes of a payload; what a message leaves over is zero. -/
def fullPayload (bs : List Byte) : List Byte := bs.take 240 ++ List.replicate (240 - bs.length) 0

/-! ### Slots (R350, R352) -/

/-- A flit is sent: it gets its sequence number and joins the replay buffer, which keeps the last 1,024. -/
def transmit (p : Port) (o : Outgoing) : Port :=
  let f := sealFlit { o.flit with seq := p.txSeq, ack := p.rxSeq - 1 }
  { p with
    txSeq := p.txSeq + 1
    replay := (p.replay ++ [f]).drop (p.replay.length + 1 - 1024)
    sent := p.sent ++ [f]
    owed := p.owed ++ (o.cmd.map fun k => (p.txSeq, k)).toList }

/-- The traffic flit that a slot carries: slot 0 of a frame prefers real-time flits, the others bulk ones. -/
def pickTraffic (p : Port) (slot : Nat) : Option (Outgoing × Port) :=
  match decide (slot = 0), p.realTime, p.bulk with
  | true, o :: t, _ => some (o, { p with realTime := t })
  | true, [], o :: t => some (o, { p with bulk := t })
  | false, _, o :: t => some (o, { p with bulk := t })
  | false, o :: t, [] => some (o, { p with realTime := t })
  | _, [], [] => none

/-- One slot of a port passes: management takes at most one bulk slot in 64. -/
def sendSlot (p : Port) : Port :=
  let bulkSlot := decide (p.slot ≠ 0)
  let q := { p with slot := (p.slot + 1) % 8, sinceManaged := if bulkSlot then Nat.min 63 (p.sinceManaged + 1) else p.sinceManaged }
  match bulkSlot && decide (p.sinceManaged = 63), p.management with
  | true, o :: t => transmit { q with management := t, sinceManaged := 0 } o
  | _, _ => match pickTraffic q p.slot with
    | some (o, r) => transmit r o
    | none => q

/-- Whether a port has a flit waiting. -/
def Port.waits (p : Port) : Bool := !p.realTime.isEmpty || !p.bulk.isEmpty || !p.management.isEmpty

/-- A slot of every port that is up and has a flit waiting passes (log 36). -/
def sendSlots (s : State) : State :=
  if s.sys.ports.any fun e => e.2.waits && !e.2.down then
    s.withSys { s.sys with ports := sparseMap {} (fun _ p => if p.waits && !p.down then sendSlot p else p) s.sys.ports }
  else s

/-- A flit joins those that wait for a slot of a port, in its lane class. -/
def queueFlit (s : State) (d : Nat) (o : Outgoing) : State :=
  let p := s.port d
  s.putPort d (if o.flit.lc = 0 then { p with realTime := p.realTime ++ [o] }
    else if o.flit.lc = 1 then { p with bulk := p.bulk ++ [o] }
    else { p with management := p.management ++ [o] })

/-- Whether a command has a flit that waits for a slot or for its acknowledgement. -/
def owesFlits (s : State) (k : CmdKey) : Bool :=
  s.sys.ports.any fun e => (e.2.owed.any fun x => decide (x.2 = k)) || (e.2.realTime ++ e.2.bulk).any fun o => decide (o.cmd = some k)

/-- What is still owed after an acknowledgement: the sequence numbers that follow it. -/
def acknowledged (p : Port) (ack : BitVec 12) : Port :=
  { p with owed := p.owed.filter fun x => decide ((x.1 - ack - 1).toNat < (p.txSeq - ack - 1).toNat) }

/-! ### Messages between modules -/

/-- What a message is for: a collective's exchange, a write of memory, a read of memory, the answer to one (log 36). -/
inductive MessageKind | coll | write | read | answer
  deriving DecidableEq, Repr

/-- The number of a message's kind in its payload (log 36). -/
def MessageKind.code : MessageKind → Nat
  | .coll => 1
  | .write => 2
  | .read => 3
  | .answer => 4

/-- A message to another module: the receiving module, its die, the sending die, lane class and tenant; its kind, with the virtual function, set
and space of a collective's match key and the number of the command with that key; whether its access has the relaxed-ordering attribute (R341);
the command it belongs to, if any (log 36). -/
structure Envelope where
  mid : Nat
  ddie : BitVec 4
  sdie : BitVec 4
  lc : BitVec 2
  tenant : BitVec 4
  kind : MessageKind
  vf : Nat := 0
  set : Nat := 0
  space : Nat := 0
  nth : Nat := 0
  relaxed : Bool := false
  cmd : Option CmdKey

/-- Bytes of data in a flit, after the 16 bytes that name its message. -/
def flitData : Nat := 224

/-- Flits that `n` bytes take. -/
def flitsFor (n : Nat) : Nat := (n + flitData - 1) / flitData

/-- The payload of a flit of a message: kind, length, match key with the command's number, attribute, and the key's base or the address of the
data. A read asks for as many bytes and carries none. -/
def messagePayload (e : Envelope) (base : Word) (bs : List Byte) : List Byte :=
  fullPayload (toBytes 1 e.kind.code ++ toBytes 1 bs.length ++ toBytes 1 e.vf ++ toBytes 1 e.set ++ toBytes 1 e.space ++ toBytes 2 e.nth
    ++ toBytes 1 (bitNat e.relaxed) ++ wordBytes base ++ if e.kind = .read then [] else bs)

/-- Send bytes to another module, `n` flits of them: traffic for module n leaves through the port on die n (R349). -/
def sendMessage (s : State) (e : Envelope) (base : Word) (bs : List Byte) : Nat → State
  | 0 => s
  | n + 1 =>
    let f : Flit :=
      { lc := e.lc, seq := 0, ack := 0, nak := false, ddie := e.ddie, sdie := e.sdie, tenant := e.tenant
        payload := messagePayload e base (bs.take flitData), crc := 0 }
    let next := if e.kind = .coll then base else base + BitVec.ofNat 64 flitData
    sendMessage (queueFlit s e.mid ⟨f, e.cmd⟩) e next (bs.drop flitData) n

/-! ### Accesses at their homes -/

/-- Whose access it is: whether it writes, its lane class, tenant and die, the command it belongs to, if any, and the attributes of its requests
through the host aperture (R341). -/
structure Sender where
  write : Bool
  lc : BitVec 2 := 1
  tenant : BitVec 4
  sdie : BitVec 4
  cmd : Option CmdKey := none
  by_ : Requester

/-- The address that an access of another module's memory or apertures names there; none where the byte is this module's (R332). -/
def remoteAddr (s : State) (pa : Nat) : Option Nat :=
  match homeOf s pa with
  | .mem a => if ownModule s a then none else some a
  | .peer a => some a
  | _ => none

/-- Bytes at addresses of other modules, as runs of consecutive addresses within one module. -/
def remoteRuns (s : State) : List Nat → List Byte → List (Nat × List Byte)
  | pa :: t, b :: bs =>
    let r := remoteRuns s t bs
    match remoteAddr s pa, r with
    | none, _ => r
    | some a, (c, l) :: u => if c = a + 1 ∧ c / 2 ^ 48 = a / 2 ^ 48 then (a, b :: l) :: u else (a, [b]) :: r
    | some a, [] => [(a, [b])]
  | _, _ => []

/-- What an access has in other modules leaves as flits (R349): the bytes of a write, or requests for those of a read. -/
def sendAway (s : State) (x : Sender) (pas : List Nat) (bs : List Byte) : State :=
  (remoteRuns s pas bs).foldl (fun s r =>
    if portUsed s (r.1 / 2 ^ 48) then
      sendMessage s ⟨r.1 / 2 ^ 48, dieOfPa r.1, x.sdie, x.lc, x.tenant, if x.write then .write else .read, 0, 0, 0, 0, x.by_.relaxed, x.cmd⟩
        (BitVec.ofNat 64 r.1) r.2 (flitsFor r.2.length)
    else s) s

/-- A die whose memory has work leaves D1, and its LPDDR 6 self-refresh (R372). -/
def wakeDie (s : State) (d : Nat) (lpddr : Bool) : State :=
  let w := s.sys.power
  if w.d1.contains d || (lpddr && w.refresh.contains d) then
    s.withSys { s.sys with power := { w with
      d1 := w.d1.filter (· ≠ d)
      refresh := if lpddr then w.refresh.filter (· ≠ d) else w.refresh } }
  else s

/-- The die of this module whose memory an access reaches wakes (R372). -/
def wakeHome (s : State) (a : Nat) : State := if ownModule s a then wakeDie s (dieOfPa a).toNat (!isCanopy a) else s

/-- The dies that hold bytes at some addresses wake (R372). -/
def wakeHomes (s : State) (pas : List Nat) : State := (memHomes s pas).foldl wakeHome s

/-- The bytes beyond the host aperture among listed addresses, as runs of consecutive bus addresses: first address and length. -/
def hostRuns (s : State) : List Nat → List (Nat × Nat)
  | [] => []
  | pa :: t =>
    let r := hostRuns s t
    match homeOf s pa, r with
    | .host b, (c, n) :: u => if c = b + 1 then (b, n + 1) :: u else (b, 1) :: r
    | .host b, [] => [(b, 1)]
    | _, _ => r

/-- A read of bytes beyond the host aperture is a non-posted read, with the attributes of its request (R341). -/
def requestHost (s : State) (x : Sender) (pas : List Nat) : State :=
  s.withHost { s.sys.host with reads := s.sys.host.reads ++
    if x.write then [] else (hostRuns s pas).map fun r => ⟨r.1, r.2, x.by_⟩ }

/-- An access reaches the homes of its bytes: their dies wake, what lies in other modules travels through the ports, and reads of what lies
beyond the host aperture are requested there. -/
def reach (s : State) (x : Sender) (pas : List Nat) (bs : List Byte) : State := sendAway (requestHost (wakeHomes s pas) x pas) x pas bs

/-- A read of physical bytes reaches their homes. -/
def reachRead (s : State) (x : Sender) (pas : List Nat) : State := reach s x pas (List.replicate pas.length 0)

/-- The sender of an access of the core in focus for a function, with the attributes of a request (R352: bulk); the PF's and the forester's has
tenant 0 (log 36). -/
def coreSender (s : State) (write : Bool) (w : Requester) : Sender :=
  { write := write, tenant := if w.fn < 16 then BitVec.ofNat 4 w.fn else 0, sdie := BitVec.ofNat 4 s.here.did.val, by_ := w }

/-- Whether some bytes lie in a module to which nothing can be sent (R351). -/
def outOfReach (s : State) (pas : List Nat) : Bool := (pas.filterMap (remoteAddr s)).any fun a => portClosed s (a / 2 ^ 48)

end Sys2Proof.Machine
end

