-- ==== Sys2Proof/Machine/Memory.lean ====
section
/-! DEFINITION. Page tables and TLBs (R331 to R337), and the checks and performance of one memory access (R47 to R50, R65, R187). -/

namespace Sys2Proof.Machine

/-! ### Translation (R331 to R337) -/

/-- A synchronous event: its code and `evaddr` (R311). -/
structure Ev where
  code : BitVec 8
  addr : Word
  deriving DecidableEq, Repr

def evIllegal : BitVec 8 := 0x01
def evPriv : BitVec 8 := 0x02
def evAlign : BitVec 8 := 0x03
def evXlate : BitVec 8 := 0x04
def evPerm : BitVec 8 := 0x05
def evKind : BitVec 8 := 0x06
def evFeproto : BitVec 8 := 0x07
def evWinstack : BitVec 8 := 0x08
def evLzlimit : BitVec 8 := 0x09
def evChan : BitVec 8 := 0x0A
def evOperand : BitVec 8 := 0x0B
def evCmderr : BitVec 8 := 0x0C
def evWaitcycle : BitVec 8 := 0x0D
def evWatchdog : BitVec 8 := 0x0E
def evTenant : BitVec 8 := 0x0F
def evMcheck : BitVec 8 := 0x10
def evSwtrap : BitVec 8 := 0x20
def evPreempt : BitVec 8 := 0x40
def evRevoke : BitVec 8 := 0x41
def evSignal : BitVec 8 := 0x42
def evDebug : BitVec 8 := 0x43
def evAsyncMcheck : BitVec 8 := 0x44

/-- The three rights of a leaf (R335). -/
inductive Access | read | write | fetch
  deriving DecidableEq, Repr

/-- Bits 63:52 equal bit 51 (R331). -/
def canonical (va : Word) : Bool := decide (bitsOf va 63 51 = 0 ∨ bitsOf va 63 51 = 0x1FFF)

/-- A leaf's fields (R334). -/
def leafTenant (e : Word) : Nat := bitsOf e 55 52
def leafFrame (e : Word) : Nat := bitsOf e 51 12 * 4096
def leafKind (e : Word) : Nat := bitsOf e 11 10

/-- Reserved bits of an entry (R334). -/
def entryReserved (e : Word) : Bool := decide (bitsOf e 63 56 ≠ 0) || e.getLsbD 9 || decide (bitsOf e 7 6 ≠ 0)

/-- Whether an entry, valid and without reserved bits, names a next table (R334): its leaf-only fields must be 0. -/
def tableOk (e : Word) : Bool :=
  e.getLsbD 0 && !entryReserved e && !e.getLsbD 1
    && decide (leafTenant e = 0 ∧ leafKind e = 0) && !e.getLsbD 8

/-- The rules of R335 on a leaf of `size` bytes, but for the group rule of 64 KiB pages. -/
def leafOk (e : Word) (size : Nat) (small : Bool) : Bool :=
  e.getLsbD 0 && !entryReserved e && e.getLsbD 1 && decide (leafKind e ≠ 3)
    && (e.getLsbD 2 || !e.getLsbD 3) && decide (leafFrame e % size = 0) && (small || !e.getLsbD 8)
    && (match paKind (leafFrame e) with
        | .none => false
        | .alias_ _ _ => decide (leafKind e = 2)
        | _ => true)

/-- A page-table entry, read at its home. -/
def pte (s : State) (table idx : Nat) : Word := wordOf (physBytes s (table + 8 * idx) 8)

/-- Entry `i` of a 64 KiB group is what entry 0 makes it (R333): the same but for the frame, which follows on. -/
def groupOk (s : State) (table first : Nat) : Nat → Bool
  | 0 => true
  | i + 1 =>
    decide (pte s table (first + i) = pte s table first + BitVec.ofNat 64 (4096 * i)) && groupOk s table first i

/-- What a walk finds: a leaf with the first virtual address (as 52 bits) and the size of its page, a failure, or bad memory. -/
inductive Walk | leaf (base size : Nat) (e : Word) | fail | bad
  deriving DecidableEq, Repr

/-- Level 0 of a walk. -/
def walk0 (s : State) (table v : Nat) : Walk :=
  let i := v / 4096 % 512
  if anyBad s (table + 8 * i) 8 then .bad else
  let e := pte s table i
  if !leafOk e 4096 true then .fail
  else if e.getLsbD 8 then
    let g := i / 16 * 16
    if anyBad s (table + 8 * g) 128 then .bad
    else if decide (leafFrame (pte s table g) % 65536 = 0) && groupOk s table g 16 then .leaf (v / 65536 * 65536) 65536 (pte s table g)
    else .fail
  else .leaf (v / 4096 * 4096) 4096 e

/-- Level 1 of a walk. -/
def walk1 (s : State) (table v : Nat) : Walk :=
  let i := v / 2097152 % 512
  if anyBad s (table + 8 * i) 8 then .bad else
  let e := pte s table i
  if leafOk e 2097152 false then .leaf (v / 2097152 * 2097152) 2097152 e
  else if tableOk e && decide (paKind (leafFrame e) = .dram) then walk0 s (leafFrame e) v
  else .fail

/-- Level 2 of a walk. -/
def walk2 (s : State) (table v : Nat) : Walk :=
  let i := v / 1073741824 % 512
  if anyBad s (table + 8 * i) 8 then .bad else
  let e := pte s table i
  if leafOk e 1073741824 false then .leaf (v / 1073741824 * 1073741824) 1073741824 e
  else if tableOk e && decide (paKind (leafFrame e) = .dram) then walk1 s (leafFrame e) v
  else .fail

/-- The entries that a walk reads for an address, from a table down, by the lowest bit that each level's index has in the address (R333). -/
def entryChain (s : State) (v : Nat) : List Nat → Nat → List Nat
  | [], _ => []
  | b :: t, table =>
    let a := table + 8 * (if b = 39 then v / 2 ^ b else v / 2 ^ b % 512)
    let e := wordOf (physBytes s a 8)
    a :: if !anyBad s a 8 && tableOk e && decide (paKind (leafFrame e) = .dram) then entryChain s v t (leafFrame e) else []

/-- The physical bytes that a walk of a tenant's tables reads. -/
def walkPas (s : State) (tenant : BitVec 4) (va : Word) : List Nat :=
  match (s.tenant tenant).root with
  | none => []
  | some root => (entryChain s (va.toNat % 2 ^ 52) [39, 30, 21, 12] root).flatMap fun a => runFrom a 8

/-- A page-table walk from the tenant's root (R333, R335): VA[51:39] indexes the root, where no leaf may stand. -/
def walkRoot (s : State) (tenant : BitVec 4) (va : Word) : Walk :=
  match (s.tenant tenant).root with
  | none => .fail
  | some root =>
    let v := va.toNat % 2 ^ 52
    let i := v / 549755813888
    if anyBad s (root + 8 * i) 8 then .bad else
    let e := pte s root i
    if tableOk e && decide (paKind (leafFrame e) = .dram) then walk2 s (leafFrame e) v else .fail

/-- Whether a cached translation is of a tenant's address. -/
def TlbEntry.covers (t : TlbEntry) (tenant : BitVec 4) (va : Word) : Bool :=
  decide (t.tenant = tenant ∧ t.va ≤ va.toNat % 2 ^ 52 ∧ va.toNat % 2 ^ 52 < t.va + t.size)

/-- The cached translation that an access of the core in focus uses: its L1 TLB's, or else its die's last-level TLB's (R336). -/
def cachedLeaf (s : State) (tenant : BitVec 4) (va : Word) : Option TlbEntry :=
  match s.core.tlb.find? fun t => t.covers tenant va with
  | some t => some t
  | none => s.sys.tlb.find? fun t => decide (t.die = s.here.did.val) && t.covers tenant va

/-- The translation of an address: a cached one, or else a walk (R336). -/
def findLeaf (s : State) (tenant : BitVec 4) (va : Word) : Walk :=
  match cachedLeaf s tenant va with
  | some t => .leaf t.va t.size t.leaf
  | none => walkRoot s tenant va

/-- The set of the L1 TLB that holds a translation: which of the 64 the spec does not say (DESIGN CHOICE, log 38). -/
def TlbEntry.set (t : TlbEntry) : Nat := t.va / t.size % 64

/-- Put a translation into a TLB whose entries that compete with it are at most `cap`; a full TLB gives one of those up, a free choice (log 38). -/
def insertTlb (cap victim : Nat) (competes : TlbEntry → Bool) (t : TlbEntry) (l : List TlbEntry) : List TlbEntry :=
  let rivals := l.filter competes
  if rivals.length < cap then l ++ [t]
  else match rivals[victim % cap]? with
    | some v => l.filter (fun x => !decide (x = v)) ++ [t]
    | none => l ++ [t]

/-- A walk's leaf enters the die's last-level TLB, of 10,240 entries (R2, R336). -/
def fillLast (s : State) (t : TlbEntry) : State :=
  s.withSys { s.sys with tlb := insertTlb 10240 (Config.tlbVictim s.fresh) (fun x => decide (x.die = t.die)) t s.sys.tlb }

/-- A translation enters the L1 TLB of the core in focus, of 6 ways and 64 sets (R2, R336). -/
def fillL1 (s : State) (t : TlbEntry) : State :=
  s.withCore { s.core with tlb := insertTlb 6 (Config.tlbVictim (s.fresh + 1)) (fun x => decide (x.set = t.set)) t s.core.tlb }

/-- An access fills the TLBs with its leaf (R336), which a walk reads at the homes of the tables (R337); no walk caches a failure or a table
entry. -/
def fillTlb (s : State) (tenant : BitVec 4) (va : Word) : State :=
  if s.core.tlb.any fun t => t.covers tenant va then s
  else match cachedLeaf s tenant va with
    | some t => fillL1 { s with fresh := s.fresh + 2 } t
    | none =>
      match walkRoot s tenant va with
      | .leaf base size e =>
        let t : TlbEntry := ⟨s.here.did.val, tenant, base, size, e⟩
        let s := reachRead s (coreSender s false (requesterOf tenant 0)) (walkPas s tenant va)
        fillL1 (fillLast { s with fresh := s.fresh + 2 } t) t
      | _ => s

/-- The scratchpad address a local-window address names, or none (R49). -/
def localAddr (va : Word) : Option Nat :=
  if 0xFFFFFFFFFFF00000 ≤ va.toNat then some (va.toNat - 0xFFFFFFFFFFF00000) else none

/-- An access of `n` bytes, at most a page, fills the TLBs with the leaves of its first and its last byte. -/
def fillRun (s : State) (tenant : BitVec 4) (va : Word) (n : Nat) : State :=
  fillTlb (fillTlb s tenant va) tenant (va + BitVec.ofNat 64 (n - 1))

/-- Whether an access of the core in focus has to walk the tables for a leaf, which then keeps its thread out of rotation (R336). -/
def walksFor (s : State) (tenant : BitVec 4) (va : Word) : Bool :=
  canonical va && (localAddr va).isNone && (cachedLeaf s tenant va).isNone
    && (match walkRoot s tenant va with | .leaf .. => true | _ => false)

/-- Drop translations from every TLB of the module (R269, R306). -/
def dropTlb (s : State) (hit : TlbEntry → Bool) : State :=
  let s := mapCores s fun c => { c with tlb := c.tlb.filter fun e => !hit e }
  s.withSys { s.sys with tlb := s.sys.tlb.filter fun e => !hit e }

/-- Whether a leaf permits an access (R335). -/
def leafPermits (e : Word) (tenant : BitVec 4) (super : Bool) (acc : Access) : Bool :=
  decide (leafTenant e = tenant.toNat)
    && (match acc with | .read => e.getLsbD 2 | .write => e.getLsbD 3 | .fetch => e.getLsbD 4)
    && (super || e.getLsbD 5)

/-- Translate an address and check the access (R331, R335): the physical address and page kind, or the event. A local-window address is
never translated (R49); where only a translated address will do, a fetch or a spill, it fails as one without a leaf (log 43). -/
def translate (s : State) (tenant : BitVec 4) (super : Bool) (acc : Access) (va : Word) : Except Ev (Nat × Nat) :=
  if !canonical va || (localAddr va).isSome then .error ⟨evXlate, va⟩ else
  match findLeaf s tenant va with
  | .fail => .error ⟨evXlate, va⟩
  | .bad => .error ⟨evMcheck, va⟩
  | .leaf base _ e =>
    let pa := leafFrame e + (va.toNat % 2 ^ 52 - base)
    if homeOf s pa = .none then .error ⟨evXlate, va⟩
    else if leafPermits e tenant super acc then .ok (pa, leafKind e)
    else .error ⟨evPerm, va⟩

/-- The halfword that the instruction cache of the core in focus holds of a physical address, if it holds one (R2, R270). -/
def cachedHalf (c : Core) (pa : Nat) : Option Nat :=
  let h := sparseGet 65536 c.icache (pa / 2)
  if h < 65536 then some h else none

/-- A halfword as a fetch reads it. One that the cache still holds is used; whether a cached halfword that memory no longer equals is still
there is a free choice until an `icinv` (R270, log 9). None for bad memory. -/
def fetchAt (s : State) (pa : Nat) : Option Nat :=
  let m := ofBytes (physBytes s pa 2)
  match cachedHalf s.core pa with
  | some h =>
    if decide (h = m) || Config.icacheKeeps pa s.fresh then some h
    else if anyBad s pa 2 then none else some m
  | none => if anyBad s pa 2 then none else some m

/-- The first halfword of the instruction at an address, with execute permission (R149, R193). -/
def fetchHalf (s : State) (t : Thread) (super : Bool) (va : Word) : Except Ev Nat :=
  match translate s t.id.tenant super .fetch va with
  | .error e => .error e
  | .ok (pa, _) =>
    match fetchAt s pa with
    | some h => .ok h
    | none => .error ⟨evMcheck, va⟩

/-- A fetch leaves its leaf in the TLBs and its halfword in the instruction cache, of 32 KiB (R2, R270, R336). A full cache gives up a
halfword of free choice (log 9). -/
def fetched (s : State) (va : Word) : State :=
  match translate s s.th.id.tenant s.th.sr.pl .fetch va with
  | .error _ => s
  | .ok (pa, kind) =>
    match fetchAt s pa with
    | none => s
    | some h =>
      let s := reachRead (fillTlb s s.th.id.tenant va) (coreSender s false (requesterOf s.th.id.tenant kind)) [pa, pa + 1]
      let held := s.core.icache
      let room := if held.length < 16384 then held else held.eraseIdx (Config.icacheVictim s.fresh % 16384)
      s.withCore { s.core with icache := sparsePut 65536 room (pa / 2) h }

/-! ### Scratchpad (R47 to R54) -/

/-- A thread's window: an owner's is its launch's on its core, a harvest context's is empty (R47). -/
def windowOf (c : Core) (t : Thread) : Window :=
  if t.id.harv then ⟨t.id.lid, 0, 0, 0, 0⟩
  else (c.windows.find? fun w => decide (w.lid = t.id.lid)).getD ⟨t.id.lid, 0, 0, 0, 0⟩

/-- Whether a scratchpad byte may be reached by an owner thread: in its window, and not lent (R49, R265). -/
def spadAllowed (c : Core) (t : Thread) (a : Nat) : Bool :=
  let w := windowOf c t
  decide (w.spBase ≤ a ∧ a < w.spLim) && !(c.lents.any fun l => decide (l.base ≤ a ∧ a < l.base + l.len))

/-- The first of `n` bytes from `a` on that the thread may not reach. -/
def spadFirstBad (c : Core) (t : Thread) (a : Nat) : Nat → Option Nat
  | 0 => none
  | n + 1 => if spadAllowed c t a then spadFirstBad c t (a + 1) n else some a

/-- Whether an engine command in flight holds a granule locked against every access but `ld.fe` and `ld.fek`: a destination granule
not yet delivered (R79). -/
def dstLocked (c : Core) (g : Nat) : Bool := c.cmds.any fun k => k.dst.contains g

/-- Whether an engine command in flight holds a granule locked against writes: a source it has not read yet (R79). -/
def srcLocked (c : Core) (g : Nat) : Bool :=
  c.cmds.any fun k => k.src.any fun r => decide (r.1 / 16 ≤ g ∧ 16 * g < r.1 + r.2)

/-- Whether two ranges overlap. -/
def rangeMeets (base len : Nat) (r : Nat × Nat) : Bool := decide (r.1 < base + len ∧ base < r.1 + r.2)

/-- Whether a granule is being cleared by a reclaim (R35, R266). -/
def beingCleared (c : Core) (g : Nat) : Bool := c.clearing.any fun r => decide (r.1 / 16 ≤ g ∧ 16 * g < r.1 + r.2)

/-- Whether an access to `n` scratchpad bytes stalls on a range lock (R79) or on a range still being cleared (R35). -/
def spadStalls (c : Core) (a n : Nat) (isWrite : Bool) : Bool :=
  (List.range ((a + n - 1) / 16 + 1 - a / 16)).any fun i =>
    let g := a / 16 + i
    dstLocked c g || beingCleared c g || (isWrite && srcLocked c g)

/-- Whether any of `n` scratchpad bytes lies in a granule with an uncorrectable error (R327). -/
def spadBad (c : Core) (a n : Nat) : Bool := c.bad.any fun g => decide (a < 16 * (g + 1) ∧ 16 * g < a + n)

/-- The bytes a stream has overwritten itself, but for `n` that are stored to now (R119, R217). -/
def foundBut (c : Core) (a n : Nat) : List Found := c.found.filter fun x => !decide (a ≤ x.addr ∧ x.addr < a + n)

/-- Write scratchpad bytes; a granule overwritten whole gets new check bits (R327). -/
def spadStore (c : Core) (a : Nat) (bs : List Byte) : Core :=
  { c with
    spad := putBytes c.spad a bs
    bad := c.bad.filter fun g => !decide (a ≤ 16 * g ∧ 16 * (g + 1) ≤ a + bs.length)
    found := foundBut c a bs.length }

/-! ### Runs of bytes -/

/-- The physical addresses of `n` bytes from `va` on, each page translated at its first byte used. -/
def physRun (s : State) (tenant : BitVec 4) (super : Bool) (acc : Access) : Word → Option Nat → Nat → Except Ev (List Nat)
  | _, _, 0 => .ok []
  | va, prev, n + 1 =>
    let here : Except Ev Nat :=
      match prev with
      | some p => if va.toNat % 4096 = 0 then (translate s tenant super acc va).map (·.1) else .ok (p + 1)
      | none => (translate s tenant super acc va).map (·.1)
    match here with
    | .error e => .error e
    | .ok pa =>
      match physRun s tenant super acc (va + 1) (some pa) n with
      | .error e => .error e
      | .ok t => .ok (pa :: t)

/-- Write bytes to listed physical addresses. -/
def putRun (s : State) (w : Requester) : List Nat → List Byte → State
  | pa :: pt, b :: bt => putRun (putPhysByte s w pa b) w pt bt
  | _, _ => s

/-- Store bytes at listed physical addresses: protected words overwritten whole get new check bits (R327). -/
def storeRun (s : State) (w : Requester) (pas : List Nat) (bs : List Byte) : State :=
  putRun (healRun (reach s (coreSender s true w) pas bs) pas) w pas bs

/-- The attributes of a tenant's request at a virtual address. -/
def requesterAt (s : State) (tenant : BitVec 4) (va : Word) : Requester :=
  match findLeaf s tenant va with
  | .leaf _ _ e => requesterOf tenant (leafKind e)
  | _ => requesterOf tenant 0

/-- An agent outside the cores reads physical bytes at their homes (R349, R372), and an uncorrectable error that it meets is counted (R376). -/
def agentReads (s : State) (w : Requester) (pas : List Nat) : State := metReading (reachRead s (coreSender s false w) pas) pas

/-- The addresses at which the pages of `n` bytes from `va` on are translated: the first byte's, then the start of each further page. -/
def runPages (va : Word) (n : Nat) : List Word :=
  let off := va.toNat % 4096
  (List.range (if n = 0 then 0 else (off + n + 4095) / 4096)).map fun i => if i = 0 then va else va - BitVec.ofNat 64 off + BitVec.ofNat 64 (4096 * i)

/-- The walks of an agent outside the cores for `n` bytes from `va` on: each table that they read is read at its home (R337, R349, R372). -/
def agentWalks (s : State) (tenant : BitVec 4) (va : Word) (n : Nat) : State :=
  (runPages va n).foldl (fun s a =>
    if (cachedLeaf s tenant a).isSome then s else agentReads s (requesterOf tenant 0) (walkPas s tenant a)) s

/-- Store bytes at a virtual address of a tenant as the forester or the schedule unit does, where it translates; otherwise nothing. -/
def storeVirtual (s : State) (tenant : BitVec 4) (va : Word) (bs : List Byte) : State :=
  match physRun s tenant true .read va none bs.length with
  | .ok pas => storeRun (metWriting (agentWalks s tenant va bs.length) pas) (requesterAt s tenant va) pas bs
  | .error _ => agentWalks s tenant va bs.length

/-- Bytes at a tenant's address as the forester reads them, where they translate; one with an uncorrectable error is free. -/
def readVirtual (s : State) (tenant : BitVec 4) (va : Word) (n : Nat) : Option (List Byte) :=
  match physRun s tenant true .read va none n with
  | .ok pas => some (pas.map (inboundByte s))
  | .error _ => none

/-- What such a read does besides its value. -/
def readTouched (s : State) (tenant : BitVec 4) (va : Word) (n : Nat) : State :=
  match physRun s tenant true .read va none n with
  | .ok pas => agentReads (agentWalks s tenant va n) (requesterAt s tenant va) pas
  | .error _ => agentWalks s tenant va n

/-! ### Register stacks (R15, R17) -/

/-- The windows of a thread that are spilled (R15). -/
def spilledWindows (t : Thread) : Nat := t.rf.depth - 1 - t.rf.olds.length

/-- A thread's register stack: its first address, its limit, and the windows spilled there. -/
def stackOf (t : Thread) : Nat × Nat × Nat := (t.sr.wsp.toNat - 128 * spilledWindows t, t.sr.wlim.toNat, spilledWindows t)

/-- The key of a unit. -/
def unitKey (lid : BitVec 32) (unit : BitVec 16) : Nat := lid.toNat * 65536 + unit.toNat

/-- A program has stored `n` bytes at an address: where they meet a unit's register stack, what the windows spilled there hold is undefined
(R17). -/
def overlay (n : Nat) (va : Word) (s : State) (u : BitVec 32 × BitVec 16 × Nat × Nat × Nat) : State :=
  if decide (u.2.2.1 < va.toNat + n ∧ va.toNat < u.2.2.2.1) && decide (sparseGet 0 s.sys.work.overlaid (unitKey u.1 u.2.1) < u.2.2.2.2) then
    s.withWork { s.sys.work with overlaid := sparsePut 0 s.sys.work.overlaid (unitKey u.1 u.2.1) u.2.2.2.2 }
  else s

/-- The register stacks of a tenant's units that are bound or saved. -/
def tenantStacks (s : State) (tenant : BitVec 4) : List (BitVec 32 × BitVec 16 × Nat × Nat × Nat) :=
  ((s.boundPlaces.map s.thr).filter fun t => decide (t.id.tenant = tenant)).map (fun t => (t.id.lid, t.id.unit, stackOf t))
    ++ (s.sys.work.saved.filter fun u => decide (u.tenant = tenant)).map fun u => (u.lid, u.unit, u.stack)

/-- A store of a tenant's program at a virtual address outside the local window. -/
def markStacks (s : State) (tenant : BitVec 4) (va : Word) (n : Nat) : State := (tenantStacks s tenant).foldl (overlay n va) s

/-! ### One access of a thread -/

/-- Where an access goes: scratchpad bytes of the core, physical bytes, or, for a store of a harvest context that the tag table serves, a
scratchpad slot and its home (R34, R49, R341). -/
inductive Loc | spad (a : Nat) | phys (pa kind : Nat) | tag (a pa kind : Nat)
  deriving DecidableEq, Repr

/-- The tag-table entry of a launch that covers an address (R57). -/
def tagFor (c : Core) (lid : BitVec 32) (va : Word) : Option Tag :=
  c.tags.find? fun g => decide (g.lid = lid ∧ g.va.toNat ≤ va.toNat ∧ va.toNat < g.va.toNat + 2 ^ g.k)

/-- The tag-table slot that serves a harvest context's access to canopy (R34), as a scratchpad address. -/
def harvestSlot (s : State) (va : Word) (pa : Nat) : Option Nat :=
  if s.th.id.harv && isCanopy pa then
    (tagFor s.core s.th.id.lid va).map fun g => g.sp + (va.toNat - g.va.toNat)
  else none

/-- Whether a scratchpad access of `n` bytes meets an uncorrectable error that it has to report: a read, or a store that does not overwrite
a granule whole (R187, R327). -/
def spadReports (c : Core) (acc : Access) (a n : Nat) : Bool := (decide (acc = .read) || decide (n < 16)) && spadBad c a n

/-- Whether an access to `n` physical bytes meets an uncorrectable error that it has to report. -/
def physReports (s : State) (acc : Access) (pa n : Nat) : Bool :=
  if acc = .write then partlyBad s pa n else anyBad s pa n

/-- Where a translated access of `n` bytes goes: a harvest context's load from a slot of the tag table reads the slot alone, its store
writes slot and home (R34). -/
def placeAccess (s : State) (acc : Access) (va : Word) (pa kind n : Nat) : Except Ev Loc :=
  match harvestSlot s va pa with
  | some a =>
    if spadReports s.core acc a n || (decide (acc = .write) && physReports s acc pa n) then .error ⟨evMcheck, va⟩
    else .ok (if acc = .write then .tag a pa kind else .spad a)
  | none => if physReports s acc pa n then .error ⟨evMcheck, va⟩ else .ok (.phys pa kind)

/-- The checks of R187 on an access of `n` bytes by the thread in focus, in their order: where it goes, or the event. -/
def locate (s : State) (acc : Access) (va : Word) (n : Nat) (needLocal : Bool := false) : Except Ev Loc :=
  if va.toNat % n ≠ 0 then .error ⟨evAlign, va⟩ else
  match localAddr va with
  | some a =>
    match spadFirstBad s.core s.th a n with
    | some _ => .error ⟨evPerm, BitVec.ofNat 64 a⟩
    | none => if spadReports s.core acc a n then .error ⟨evMcheck, va⟩ else .ok (.spad a)
  | none =>
    if needLocal then .error ⟨evKind, va⟩ else
    match translate s s.th.id.tenant s.th.sr.pl acc va with
    | .error e => .error e
    | .ok (pa, kind) => placeAccess s acc va pa kind n

/-- An access outside the local window fills the TLBs with its leaf (R336). -/
def touch (s : State) (va : Word) : State := if (localAddr va).isSome then s else fillTlb s s.th.id.tenant va

/-- The same for a store of `n` bytes, which may also meet a register stack (R17). -/
def touchStore (s : State) (va : Word) (n : Nat) : State :=
  if (localAddr va).isSome then s else markStacks (fillTlb s s.th.id.tenant va) s.th.id.tenant va n

/-- A load's bytes are read at their homes (R349, R372). -/
def reachLoad (s : State) (n : Nat) : Loc → State
  | .phys pa kind => reachRead s (coreSender s false (requesterOf s.th.id.tenant kind)) (runFrom pa n)
  | _ => s

/-- What a load does besides its value: its leaf is in the TLBs (R336), and its bytes are read at their homes. -/
def touchLoad (s : State) (va : Word) (n : Nat) (loc : Loc) : State := reachLoad (touch s va) n loc

/-- The bytes a load returns. -/
def loadBytes (s : State) (n : Nat) : Loc → List Byte
  | .spad a | .tag a _ _ => bytesAt s.core.spad a n
  | .phys pa _ => physBytes s pa n

/-- Write physical bytes; protected words overwritten whole get new check bits (R327). -/
def storePhys (s : State) (w : Requester) (pa : Nat) (bs : List Byte) : State :=
  putPhys (healBad (reach s (coreSender s true w) (runFrom pa bs.length) bs) pa bs.length) w pa bs

/-- Perform a store; a harvest context's store through the tag table also writes through to its home (R34). -/
def storeBytes (s : State) (bs : List Byte) : Loc → State
  | .spad a => s.withCore (spadStore s.core a bs)
  | .phys pa kind => storePhys s (requesterOf s.th.id.tenant kind) pa bs
  | .tag a pa kind =>
    let s' := storePhys s (requesterOf s.th.id.tenant kind) pa bs
    s'.withCore (spadStore s'.core a bs)

/-- The physical address of an access whose data is outside the module: beyond the host aperture (R341), or in an aperture of another
module (R332). -/
def isHostLoc (s : State) : Loc → Option Nat
  | .phys pa _ => match homeOf s pa with | .host _ | .peer _ => some pa | _ => none
  | _ => none

/-- The scratchpad bytes of an access, which may stall (R35, R79): address, number, whether they are written. -/
def locRanges (n : Nat) (isWrite : Bool) : Loc → List (Nat × Nat × Bool)
  | .spad a | .tag a _ _ => [(a, n, isWrite)]
  | .phys _ _ => []

/-- Whether scratchpad ranges stall an access. -/
def rangesStall (c : Core) (rs : List (Nat × Nat × Bool)) : Bool := rs.any fun r => decide (0 < r.2.1) && spadStalls c r.1 r.2.1 r.2.2

/-- Whether an access stalls (R79, R35). -/
def locStalls (s : State) (n : Nat) (isWrite : Bool) (l : Loc) : Bool := rangesStall s.core (locRanges n isWrite l)

/-- Whether an access takes its thread out of rotation (R65): scratchpad accesses do not. -/
def locRotation : Loc → Rotation
  | .spad _ => .ready
  | _ => .inFlight .memory

/-- The rotation that a load at an address leaves: one that a slot of the tag table serves (R34) is out of rotation while its leaf is walked
(R336). -/
def loadRotation (s : State) (va : Word) (loc : Loc) : Rotation :=
  if decide (locRotation loc = .ready) && walksFor s s.th.id.tenant va then .inFlight .walk else locRotation loc

/-- A store on an SO page is a release (R116). -/
def locReleases : Loc → Bool
  | .spad _ => false
  | .phys _ kind | .tag _ _ kind => decide (kind = 1)

/-- Whether a page kind orders (R117): accesses on UN pages do not. -/
def locOrders : Loc → Bool
  | .spad _ => true
  | .phys _ kind | .tag _ _ kind => decide (kind ≠ 2)

end Sys2Proof.Machine
end

