-- ==== Sys2Proof/Machine/Grains.lean ====
section
/-! DEFINITION. Grains, tiles and claims of the schedule unit (R22, R243 to R246). -/

namespace Sys2Proof.Machine

/-- The extent of dimension `d` (R243). -/
def extent (b : Sched) (d : Nat) : Nat := bitsOf b.ext (16 * d + 15) (16 * d)

/-- The tile extent of dimension `d` (R243). -/
def tileExtent (g : SchedGeom) (d : Nat) : Nat := g.tile.toNat / 2 ^ (3 * d) % 8 + 1

/-- The dimension at traversal position `k` (R243). -/
def dimAt (g : SchedGeom) (k : Nat) : Nat := g.order.toNat / 4 ^ k % 4

/-- The dimensions from the fastest traversal position to the slowest (R244). -/
def fastToSlow (g : SchedGeom) (dims : Nat) : List Nat := ((List.range dims).map (dimAt g)).reverse

/-- The digits of `n` in mixed radix, fastest first, with what is left over: pairs of dimension and digit. -/
def digits (radix : Nat → Nat) : List Nat → Nat → List (Nat × Nat) × Nat
  | [], n => ([], n)
  | d :: t, n =>
    let r := digits radix t (n / radix d)
    ((d, n % radix d) :: r.1, r.2)

/-- The digit of a dimension; 0 where it has none. -/
def digitOf (l : List (Nat × Nat)) (d : Nat) : Nat := ((l.find? fun p => decide (p.1 = d)).map (·.2)).getD 0

/-- A tile origin packed as R244 says. -/
def packOrigin (f : Nat → Nat) : Word :=
  BitVec.ofNat 64 (f 0 + f 1 * 2 ^ 16 + f 2 * 2 ^ 32 + f 3 * 2 ^ 48)

/-- The number of tiles along a dimension. -/
def tilesAlong (b : Sched) (g : SchedGeom) (d : Nat) : Nat := (extent b d + tileExtent g d - 1) / tileExtent g d

/-- The origin of the `n`-th tile in traversal order, or none beyond the last (R244). -/
def tileOrigin (b : Sched) (g : SchedGeom) (n : Nat) : Option Word :=
  let r := digits (tilesAlong b g) (fastToSlow g b.dims) n
  if r.2 = 0 then some (packOrigin fun d => digitOf r.1 d * tileExtent g d) else none

/-- The number of tiles. -/
def tileCount (b : Sched) (g : SchedGeom) : Nat := (fastToSlow g b.dims).foldl (fun n d => n * tilesAlong b g d) 1

/-- The grain of mask bit `bit` in the tile of an origin, or none where the bit stands for no grain (R243, R244). -/
def grainOf (b : Sched) (g : SchedGeom) (origin : Word) (bit : Nat) : Option Nat :=
  let r := digits (tileExtent g) (fastToSlow g b.dims) bit
  let x (d : Nat) : Nat := bitsOf origin (16 * d + 15) (16 * d) + digitOf r.1 d
  if r.2 = 0 && decide (x 0 < extent b 0 ∧ x 1 < extent b 1 ∧ x 2 < extent b 2 ∧ x 3 < extent b 3) then
    some (x 0 + extent b 0 * (x 1 + extent b 1 * (x 2 + extent b 2 * x 3)))
  else none

/-- The grains of a mask. -/
def grainsOfMask (b : Sched) (g : SchedGeom) (origin mask : Word) : List Nat :=
  (List.range 64).filterMap fun i => if mask.getLsbD i then grainOf b g origin i else none

/-- The mask of a tile's grains whose state satisfies a test. -/
def maskWhere (b : Sched) (g : SchedGeom) (origin : Word) (p : BitVec 2 → Bool) : Word :=
  BitVec.ofNat 64 (((List.range 64).map fun i =>
    match grainOf b g origin i with
    | some k => if p (sparseGet 0 b.grains k) then 2 ^ i else 0
    | none => 0).sum)

/-- The first tile in traversal order that holds a grain whose state satisfies a test. -/
def firstTile (b : Sched) (g : SchedGeom) (p : BitVec 2 → Bool) : Option Word :=
  ((List.range (tileCount b g)).filterMap (tileOrigin b g)).find? fun o => decide (maskWhere b g o p ≠ 0)

/-- Grain states: 00 open, 01 claimed, 10 cleared, 11 handed over (R243). -/
def setGrains (b : Sched) (v : BitVec 2) : List Nat → Sched
  | [] => b
  | k :: t => setGrains { b with grains := sparsePut 0 b.grains k v } v t

/-- The byte of the clearing map that holds a grain's state (R243). -/
def mapByte (b : Sched) (k : Nat) : Byte :=
  let q := k / 4 * 4
  BitVec.ofNat 8 ((sparseGet 0 b.grains q).toNat + 4 * (sparseGet 0 b.grains (q + 1)).toNat
    + 16 * (sparseGet 0 b.grains (q + 2)).toNat + 64 * (sparseGet 0 b.grains (q + 3)).toNat)

/-- Write the map bytes of grains to memory, whose die wakes (R372). -/
def writeMap (s : State) (l : Launch) (ks : List Nat) : State :=
  { wakeHomes s (ks.map fun k => l.sched.mapPa + k / 4) with mem := ks.foldl (fun m k => putBytes m (l.sched.mapPa + k / 4) [mapByte l.sched k]) s.mem }

/-! ### Allocating and mapping a clearing map (R302) -/

/-- The number of grains: the product of the extents (R291). -/
def grainCount (b : Sched) : Nat := extent b 0 * extent b 1 * extent b 2 * extent b 3

/-- Memory with a range set to zero. -/
def clearBytes (m : List Host.Cell) (a n : Nat) : List Host.Cell := m.filter fun e => !decide (a ≤ e.1 ∧ e.1 < a + n)

/-- The size of the staging region. -/
def stageSize : Nat := 0x10000000

/-- Where the staging region lies in canopy (R363, log 22). -/
def stagingPa (s : State) : Nat := s.sys.host.mid.toNat * 2 ^ 48 + Config.stagingBase % 192 * 0x10000000

/-- What a page-table entry names: a table, or a leaf with its first virtual address; and its bytes in physical memory (R333). -/
structure Mapped where
  leaf : Bool
  va : Nat := 0
  pa : Nat
  size : Nat

/-- The entries of a table that are not all zero, by index. -/
def entriesIn (m : List Host.Cell) (table n : Nat) : List Nat :=
  (m.filter fun c => decide (table ≤ c.1 ∧ c.1 < table + 8 * n)).foldl (fun l c => insertNat ((c.1 - table) / 8) l) []

/-- What the tables from one on name, whose entries span `4096 * 512 ^ level` bytes from a virtual address on; level 3 is the root (R333). -/
def mappedBy (m : List Host.Cell) : Nat → Nat → Nat → List Mapped
  | 0, table, v => (entriesIn m table 512).filterMap fun i =>
    let e := wordOf (bytesAt m (table + 8 * i) 8)
    if leafOk e 4096 true then some ⟨true, v + 4096 * i, leafFrame e, 4096⟩ else none
  | l + 1, table, v => (entriesIn m table (if l = 2 then 8192 else 512)).flatMap fun i =>
    let e := wordOf (bytesAt m (table + 8 * i) 8)
    let span := 4096 * 512 ^ (l + 1)
    if decide (l < 2) && leafOk e span false then [⟨true, v + span * i, leafFrame e, span⟩]
    else if tableOk e && decide (paKind (leafFrame e) = .dram) then ⟨false, 0, leafFrame e, 4096⟩ :: mappedBy m l (leafFrame e) (v + span * i)
    else []

/-- What a tenant's tables name. -/
def tenantMapped (s : State) (t : Tenant) : List Mapped := match t.root with | some r => mappedBy s.mem 3 r 0 | none => []

/-- The bytes of a launch's clearing map (R302). -/
def mapBytes (l : Launch) : Nat := (grainCount l.sched + 3) / 4

/-- The physical ranges in use, each as its first address and its length: root tables, what tables name, the staging region, and the clearing
maps of the launches that are not complete. -/
def usedRanges (s : State) : List (Nat × Nat) :=
  (s.sys.tenants.flatMap fun e => (e.2.root.toList.map fun r => (r, 65536)) ++ (tenantMapped s e.2).map fun x => (x.pa, x.size))
    ++ (stagingPa s, stageSize) :: s.sys.work.launches.map fun e => (e.2.sched.mapPa, mapBytes e.2)

/-- Whether a range has no byte in common with some others. -/
def apart (used : List (Nat × Nat)) (a n : Nat) : Bool := used.all fun r => decide (r.1 + r.2 ≤ a ∨ a + n ≤ r.1)

/-- The first multiple of `unit` that is no less than an address. -/
def roundUp (unit a : Nat) : Nat := (a + unit - 1) / unit * unit

/-- Where a range of `n` bytes goes that keeps apart from those in use and ends by `top`: the place named, where it fits; else the lowest that
does, from `base` on. -/
def placeRange (used : List (Nat × Nat)) (unit base top named n : Nat) : Option Nat :=
  (named :: base :: used.map fun r => roundUp unit (r.1 + r.2)).find? fun a => decide (base ≤ a ∧ a + n ≤ top) && apart used a n

/-- Where a range of canopy of this module goes, of which a place is named (DESIGN CHOICE, log 23). -/
def placeCanopy (s : State) (unit named n : Nat) : Option Nat :=
  let base := s.sys.host.mid.toNat * 2 ^ 48
  placeRange (usedRanges s) unit base (base + 0xC00000000) named n

/-- A canopy page of this module by number. -/
def canopyPage (s : State) (n : Nat) : Nat := s.sys.host.mid.toNat * 2 ^ 48 + n % 0xC00000 * 4096

/-- The next table that an entry of a table names; where it names none, a new one, empty, is linked there. -/
def linkTable (m : List Host.Cell) (table idx new : Nat) : List Host.Cell × Nat :=
  let e := wordOf (bytesAt m (table + 8 * idx) 8)
  if tableOk e then (m, leafFrame e)
  else (putBytes (clearBytes m new 4096) (table + 8 * idx) (wordBytes (BitVec.ofNat 64 (new + 1))), new)

/-- Memory with a leaf for a virtual page in the tables from a root on; `new` are pages for tables that are missing (R333, R334). -/
def mapPage (m : List Host.Cell) (root : Nat) (va leaf : Word) (new : Nat → Nat) : List Host.Cell :=
  let v := va.toNat % 2 ^ 52
  let t2 := linkTable m root (v / 549755813888) (new 0)
  let t1 := linkTable t2.1 t2.2 (v / 1073741824 % 512) (new 1)
  let t0 := linkTable t1.1 t1.2 (v / 2097152 % 512) (new 2)
  putBytes t0.1 (t0.2 + 8 * (v / 4096 % 512)) (wordBytes leaf)

/-- A leaf of kind RC that the tenant may read and not write. -/
def mapLeaf (tenant : BitVec 4) (frame : Nat) : Word := BitVec.ofNat 64 (tenant.toNat * 2 ^ 52 + frame + 0x27)

/-- The pages of a clearing map. -/
def mapPages (l : Launch) : Nat := (mapBytes l + 4095) / 4096

/-- Where a launch's clearing map goes: its virtual address, where its tenant maps nothing, and its physical one, with unused canopy for the pages of
the map and, behind them, for three tables a page (R302; DESIGN CHOICE, log 23). None while there is no room. -/
def mapPlace (s : State) (l : Launch) : Option (Word × Nat) :=
  let n := 4096 * mapPages l
  let leaves := (tenantMapped s (s.tenant l.tenant)).filterMap fun x => if x.leaf then some (x.va, x.size) else none
  match placeRange leaves 4096 4096 (2 ^ 51) ((Config.mapBase l.lid.toNat).toNat % 2 ^ 51 / 4096 * 4096) n,
      placeCanopy s 4096 (canopyPage s (Config.mapFrame l.lid.toNat)) (4 * n) with
  | some va, some pa => some (BitVec.ofNat 64 va, pa)
  | _, _ => none

/-- What the forester touches for a launch's clearing map: its pages, and the tables that map them. -/
def mapTouched (s : State) (l : Launch) : List Nat :=
  (List.range (mapPages l)).flatMap fun i =>
    (l.sched.mapPa + 4096 * i) :: walkPas s l.tenant (l.sched.map + BitVec.ofNat 64 (4096 * i))

/-- The clearing map of a launch: ⌈G/4⌉ bytes of canopy, all grains open, mapped into its tenant (R302). The dies that hold it and the tables wake
(R372). -/
def openMap (s : State) (l : Launch) : State :=
  let m := clearBytes s.mem l.sched.mapPa (mapBytes l)
  let u : State := { s with mem := match (s.tenant l.tenant).root with
    | none => m
    | some root => (List.range (mapPages l)).foldl (fun m i =>
        mapPage m root (l.sched.map + BitVec.ofNat 64 (4096 * i)) (mapLeaf l.tenant (l.sched.mapPa + 4096 * i))
          fun k => l.sched.mapPa + 4096 * (mapPages l + 3 * i + k)) m }
  wakeHomes u (mapTouched u l)

/-- Set grains of a launch to a state and write the map. -/
def markGrains (s : State) (lid : BitVec 32) (v : BitVec 2) (ks : List Nat) : State :=
  let l := s.launch lid
  let l' := { l with sched := setGrains l.sched v ks }
  writeMap (s.putLaunch lid l') l' ks

/-- The current claim of a unit. -/
def claimOf (s : State) (lid : BitVec 32) (unit : BitVec 16) : Option Claim :=
  s.sys.work.claims.find? fun c => decide (c.lid = lid ∧ c.unit = unit)

/-- Replace or remove the claim of a unit. -/
def putClaim (s : State) (lid : BitVec 32) (unit : BitVec 16) (c : Option Claim) : State :=
  s.withWork { s.sys.work with
    claims := (s.sys.work.claims.filter fun c => !decide (c.lid = lid ∧ c.unit = unit)) ++ c.toList }

/-- Change the log entries of a unit in every phase of every job. -/
def mapLogOf (s : State) (lid : BitVec 32) (unit : BitVec 16) (f : LogEntry → LogEntry) : State :=
  let fix (e : LogEntry) : LogEntry := if e.lid = lid ∧ e.unit = unit then f e else e
  s.withWork { s.sys.work with
    jobs := s.sys.work.jobs.map fun j =>
      (j.1, { j.2 with phases := j.2.phases.map fun p => (p.1, { p.2 with log := p.2.log.map fix }) }) }

/-- `nextt`, `tdone` and `tgive` seal the unit's open log entries (R301). -/
def sealLog (s : State) (lid : BitVec 32) (unit : BitVec 16) : State := mapLogOf s lid unit fun e => { e with opened := false }

/-- Cancelling a unit: its claimed grains become handed over, its open log entries are marked discarded (R23, R301, R303). -/
def handOver (s : State) (lid : BitVec 32) (unit : BitVec 16) : State :=
  let s := match claimOf s lid unit with
    | some c => putClaim (markGrains s lid 3 (grainsOfMask (s.launch lid).sched c.geom c.origin c.mask)) lid unit none
    | none => s
  mapLogOf s lid unit fun e => if e.opened then { e with discarded := true } else e

end Sys2Proof.Machine
end

