-- ==== Sys2Proof/Machine/Records.lean ====
section
/-! DEFINITION. Completion records in memory (R298, R344, R345) and the vectors raised to the host (R347). -/

namespace Sys2Proof.Machine

/-- The 32 bytes of a completion record (R298). -/
def recordBytes (r : Record) : List Byte :=
  toBytes 8 (r.expect.toNat * 2 ^ 32 + r.ended.toNat)
    ++ toBytes 8 (r.cancelled.toNat * 2 ^ 32 + r.cmderr.toNat)
    ++ toBytes 8 (r.lost.toNat * 2 ^ 32 + r.mflags.toNat * 2 ^ 8 + bitNat r.refused * 8 + bitNat r.incomplete * 4
        + bitNat r.cancel * 2 + bitNat r.done)
    ++ wordBytes r.merged

/-- Write a completion record at a tenant's address. -/
def writeRecord (s : State) (tenant : BitVec 4) (va : Word) (r : Record) : State := storeVirtual s tenant va (recordBytes r)

/-- Keep the completion record of a launch that has its own in the forester's area (R297). -/
def keepRecord (s : State) (lid : BitVec 32) (r : Record) : State :=
  s.withWork { s.sys.work with records := sparsePut {} s.sys.work.records lid.toNat r }

/-- Replace a launch and bring its completion record up to date, in memory where it has an address there. -/
def putRecorded (s : State) (lid : BitVec 32) (l : Launch) : State :=
  match l.recAt with
  | some va => writeRecord (s.putLaunch lid l) l.tenant va l.record
  | none => keepRecord (s.putLaunch lid l) lid l.record

/-- A job by number. -/
def State.job (s : State) (j : Nat) : Job := sparseGet {} s.sys.work.jobs j

/-- Replace a job. -/
def State.putJob (s : State) (j : Nat) (x : Job) : State :=
  s.withWork { s.sys.work with jobs := sparsePut {} s.sys.work.jobs j x }

/-- A ring by its job's number. -/
def State.ring (s : State) (j : Nat) : Ring := sparseGet {} s.sys.work.rings j

/-- Replace a ring. -/
def State.putRing (s : State) (j : Nat) (r : Ring) : State :=
  s.withWork { s.sys.work with rings := sparsePut {} s.sys.work.rings j r }

/-- A phase of a job. -/
def Job.phase (j : Job) (p : Nat) : Phase := sparseGet {} j.phases p

/-- Replace a phase. -/
def Job.putPhase (j : Job) (p : Nat) (x : Phase) : Job := { j with phases := sparsePut {} j.phases p x }

/-- A graph of a job by tag. -/
def Job.graph (j : Job) (g : Nat) : GraphRec := sparseGet {} j.graphs g

/-- Replace a graph. -/
def Job.putGraph (j : Job) (g : Nat) (x : GraphRec) : Job := { j with graphs := sparsePut {} j.graphs g x }

/-- The tenant of a job: virtual function v serves tenant v (R338), and its rings are jobs 16·v on. -/
def jobTenant (j : Nat) : BitVec 4 := BitVec.ofNat 4 (j / 16)

/-- Where the records of a job, a phase and a graph lie (R345). -/
def jobRecordAt (r : Ring) : Word := r.gbase
def phaseRecordAt (r : Ring) (p : Nat) : Word := r.gbase + BitVec.ofNat 64 (0x20 + 0x20 * (p % 63))
def graphRecordAt (r : Ring) (g : Nat) : Word := r.gbase + BitVec.ofNat 64 (0x800 + 0x20 * g)

/-- Write the records of a job and of one of its phases. -/
def writeJob (s : State) (j : Nat) : State := writeRecord s (jobTenant j) (jobRecordAt (s.ring j)) (s.job j).record
def writePhase (s : State) (j p : Nat) : State := writeRecord s (jobTenant j) (phaseRecordAt (s.ring j) p) ((s.job j).phase p).record

/-- Write the record of a graph with a tag of 1 to 65,535; the graph of a re-render request has none (log 32). -/
def writeGraph (s : State) (j g : Nat) : State :=
  if g < 65536 then writeRecord s (jobTenant j) (graphRecordAt (s.ring j) g) ((s.job j).graph g).record else s

/-- Raise a vector of a function (R347). -/
def raiseVector (s : State) (fn vec : Nat) : State := s.withHost { s.sys.host with msix := s.sys.host.msix ++ [(fn, vec)] }

/-- Raise the vector of a job's ring where a record sets done and the ring asks for it (R342, R347). A virtual function has vectors 0 to 119
(R338): no other is raised (log 35). -/
def raiseRing (s : State) (j : Nat) : State := if (s.ring j).ien && decide ((s.ring j).vec.toNat < 120) then raiseVector s (j / 16) (s.ring j).vec.toNat else s

/-- The bound thread of a unit. -/
def placeOfUnit (s : State) (lid : BitVec 32) (unit : BitVec 16) : Option Place :=
  s.boundPlaces.find? fun p => decide ((s.thr p).id.lid = lid ∧ (s.thr p).id.unit = unit)

/-- Whether the foresters run: the boot ROM holds every other one in reset until the image of the first runs (R362). -/
def foresters (s : State) : Bool := decide (s.sys.boot.state = 3)

/-- Whether a launch is still known. -/
def hasLaunch (s : State) (lid : BitVec 32) : Bool := s.sys.work.launches.any fun e => decide (e.1 = lid.toNat)

end Sys2Proof.Machine
end

