-- ==== Sys2Proof/Machine/Ops.lean ====
section
/-! DEFINITION. The shared operations of a thread: registers and bound registers (R72, R151), the PC queue's step (R192), waiting,
windows (R14 to R16), a unit leaving its place (R21, R294), taking an event (R316, R319) and returning from one (R317). -/

namespace Sys2Proof.Machine

/-! ### Request latches (R320) -/

/-- A request reaches its latch: no save area holds it. -/
def Latch.arrive (l : Latch) : Latch := { l with pending := true, kept := false }

/-- A save area holds what is pending in a latch (R328). -/
def Latch.saved (l : Latch) : Latch := { l with kept := l.pending }

/-- A latch after a save area has been loaded: a request that no area holds stays; otherwise it is the area's (R271, R321). -/
def Latch.loaded (l : Latch) (area : Bool) : Latch := if l.pending && !l.kept then l else { pending := area }

/-- The latch of a thread takes an asynchronous machine check (R320, R327). -/
def pendMcheck (t : Thread) (addr : Word) : Thread := { t with lat := { t.lat with mcheck := t.lat.mcheck.arrive, mcka := addr } }

/-! ### Registers (R151) -/

/-- A register's own contents: `g0` reads zero. -/
def rawReg (r : Regs) (x : Reg) : Word :=
  if h : x.val < 8 then (if x.val = 0 then 0 else r.g[x.val]) else r.win[x.val - 8]'(by omega)

/-- Write a register; a write to `g0` is discarded. -/
def putReg (r : Regs) (x : Reg) (v : Word) : Regs :=
  if h : x.val < 8 then (if x.val = 0 then r else { r with g := r.g.set x.val v })
  else { r with win := r.win.set (x.val - 8) v (by omega) }

/-- The binding of a register, if it is bound (R72). -/
def bindingOf (t : Thread) (x : Reg) : Option Binding := t.ch.binds.find? fun b => decide (b.reg = x)

/-- Whether a register is bound. -/
def isBound (t : Thread) (x : Reg) : Bool := (bindingOf t x).isSome

/-- What an instruction reads from a register: the held message of a bound one (R72). -/
def State.reg (s : State) (x : Reg) : Word :=
  match bindingOf s.th x with
  | some b => b.held
  | none => rawReg s.th.rf x

/-- The first bound register of a list that is empty. -/
def emptySource (t : Thread) (xs : List Reg) : Option Reg :=
  xs.find? fun x => match bindingOf t x with | some b => !b.full | none => false

/-- A condition register; `c0` is true (R184). -/
def condReg (r : Regs) (c : CReg) : Bool := if c = 0 then true else r.c[c.val]

/-- Write a register of the thread in focus. -/
def State.setReg (s : State) (x : Reg) (v : Word) : State := s.withRf (putReg s.th.rf x v)

/-- Write a condition register of the thread in focus. -/
def State.setCond (s : State) (c : CReg) (v : Bool) : State := s.withRf { s.th.rf with c := s.th.rf.c.set c.val v }

/-- Write a pointer register. -/
def State.setPtr (s : State) (p : PReg) (v : Ptr) : State := s.withRf { s.th.rf with p := s.th.rf.p.set p.val v }

/-- A pointer register. -/
def State.ptr (s : State) (p : PReg) : Ptr := s.th.rf.p[p.val]

/-- Write a lazy-uniform register. -/
def State.setZ (s : State) (z : ZReg) (v : ZVar) : State := s.withRf { s.th.rf with z := s.th.rf.z.set z.val v }

/-- A lazy-uniform register. -/
def State.zreg (s : State) (z : ZReg) : ZVar := s.th.rf.z[z.val]

/-- OR flags into the thread's sticky flags (R89). -/
def State.orFlags (s : State) (f : BitVec 5) : State := s.withSr { s.th.sr with flags := s.th.sr.flags ||| f }

/-- Rewrite words `k`, `k + step`, …, `n` of them, of an area in a tenant's memory. -/
def rewriteWords (s : State) (tenant : BitVec 4) (area : Word) (f : Word → Word) (k step : Nat) : Nat → State
  | 0 => s
  | n + 1 =>
    let va := area + BitVec.ofNat 64 (8 * k)
    let s := match readVirtual s tenant va 8 with
      | some bs => storeVirtual (readTouched s tenant va 8) tenant va (wordBytes (f (wordOf bs)))
      | none => s
    rewriteWords s tenant area f (k + step) step n

/-- The permit records in the context extension of a saved unit (R329) change. -/
def rewritePermits (f : Word → Word) (s : State) (u : Saved) : State :=
  match readVirtual s u.tenant (u.sarea + 0x10) 8 with
  | some bs => rewriteWords (readTouched s u.tenant (u.sarea + 0x10) 8) u.tenant (wordOf bs &&& 0xFFFFFFFFFFFFF800) f 192 1 64
  | none => s

/-- The permit of a channel changes, or goes: at the sender's core, or in the context of a saved sender (R253, R256). -/
def changePermit (s : State) (receiver : Place) (b : Binding) (f : Permit → Option Permit) (g : Word → Word) : State :=
  let c := coreNum (placeCore b.sender)
  let k := s.coreBy c
  let s := s.putCore c { k with permits := k.permits.filterMap fun p =>
    if p.slot = b.sender.slot ∧ p.dst = receiver ∧ p.reg = b.reg.val then f p else some p }
  let d := descriptor s.sys.host.mid receiver b.reg.val
  (s.sys.work.saved.filter fun u => decide (u.place = b.sender)).foldl
    (rewritePermits fun w => if w &&& 0x8000000000FFFFFF = d ||| 0x8000000000000000 then g w else w) s

/-- The credit of a channel returns to its permit when the receiver takes the message (R254). -/
def returnCredit (s : State) (receiver : Place) (b : Binding) : State :=
  changePermit s receiver b (fun p => some { p with credit := true }) (· ||| 0x100000000)

/-- Take the message of one bound register: the register becomes empty and the credit returns (R72). -/
def takeMsg (s : State) (x : Reg) : State :=
  match bindingOf s.th x with
  | none => s
  | some b =>
    if b.full then
      returnCredit (s.withTh { s.th with ch := { s.th.ch with
        binds := s.th.ch.binds.map fun c => if c.reg = x then { c with full := false } else c } }) s.here b
    else s

/-- Take the messages of an instruction's bound sources, once for each register however often it is named (R72). -/
def takeMsgs (s : State) (xs : List Reg) : State := xs.foldl takeMsg s

/-! ### The PC queue (R192) -/

/-- The length of the instruction at `e2` (R149), latched by the step. -/
def e2Len (q : PcQueue) : Word := if q.e2long then 4 else 2

/-- The address after `e2`: what follows in sequence (R192), and a call's return address (R196). -/
def seqNext (q : PcQueue) : Word := q.e2.addr + e2Len q

/-- The queue after a step of R192. -/
def stepQueue (q : PcQueue) (taken : Option Word) (annul : Bool) : PcQueue :=
  { e0 := { q.e1 with annul := q.e1.annul || annul }
    e1 := { q.e2 with annul := q.e2.annul || annul }
    e2 := ⟨taken.getD (seqNext q), false⟩ }

/-- The watchdog count after an instruction has executed: not counted at supervisor level (R39). -/
def countOne (t : Thread) : Nat := if t.sr.se then t.id.wdcount else t.id.wdcount + 1

/-- A thread after an executed instruction: the queue's step, the watchdog count (R39) and its deferred event (R326), and whether
the thread is out of rotation (R13). -/
def retireTh (t : Thread) (rot : Rotation) (taken : Option Word) (annul : Bool) : Thread :=
  { t with
    pcq := stepQueue t.pcq taken annul
    rot := rot
    id := { t.id with wdcount := countOne t }
    ch := { t.ch with waitTurns := 0 }
    lat := { t.lat with watchdog := t.lat.watchdog || (!t.sr.se && decide (t.sr.wdlim.toNat ≤ countOne t)) } }

/-- The instruction has executed and falls through. -/
def finish (s : State) (rot : Rotation := .ready) : Out := .next (s.withTh (retireTh s.th rot none false))

/-- The instruction has executed and transfers control. -/
def finishJump (s : State) (taken : Option Word) (annul : Bool) : Out :=
  .next (s.withTh (retireTh s.th .ready taken annul))

/-- Whether a wait is a channel wait (R325). -/
def channelWait : Wait → Bool
  | .boundReg _ | .credit _ _ => true
  | _ => false

/-- The instruction waits: nothing of it has happened, and it issues again (R323). A channel wait counts the turns it has been blocked in
that one wait (R325). -/
def waitOn (w : Wait) (s : State) : Out :=
  .next (s.withTh { s.th with
    rot := .waiting w
    ch := { s.th.ch with waitTurns := if !channelWait w then 0 else if s.th.rot = .waiting w then s.th.ch.waitTurns + 1 else 1 } })

/-- A scratchpad access waits while its ranges are held (R35, R50, R79); otherwise it goes on. -/
def unlessStalled (rs : List (Nat × Nat × Bool)) (s : State) (k : Out) : Out :=
  if rangesStall s.core rs then waitOn (.locked rs) s else k

/-! ### Windows (R14 to R16) -/

/-- The own registers of the current window: `s0` to `s15`. -/
def ownRegs (w : Vector Word 24) : Vector Word 16 := Vector.ofFn fun i : Fin 16 => w[i.val]

/-- The window a `call` enters: `s0`-`s7` are the caller's `s16`-`s23`; the rest is free (R14, log 7). -/
def calleeWindow (w : Vector Word 24) (fresh : Nat) : Vector Word 24 :=
  Vector.ofFn fun i : Fin 24 => if h : i.val < 8 then w[i.val + 16] else Config.freeWord (fresh + i.val)

/-- The window a `ret` returns to: its own registers, and the shared ones. -/
def callerWindow (own : Vector Word 16) (w : Vector Word 24) : Vector Word 24 :=
  Vector.ofFn fun i : Fin 24 => if h : i.val < 16 then own[i.val] else w[i.val - 16]

/-- The bytes of a window's own registers. -/
def windowBytes (v : Vector Word 16) : List Byte := (v.toList.map wordBytes).flatten

/-- A window's own registers from 128 bytes. -/
def windowOfBytes (bs : List Byte) : Vector Word 16 :=
  Vector.ofFn fun i : Fin 16 => wordOf ((bs.drop (8 * i.val)).take 8)

/-- The outcome of a spill or fill. -/
inductive WindowMove | moved (s : State) | event (e : Ev) | impossible
  deriving Repr

/-- Whether a unit has remote atomics that have not been performed. -/
def amosOutstanding (s : State) (lid : BitVec 32) (unit : BitVec 16) : Bool := s.sys.work.amos.any fun m => decide (m.lid = lid ∧ m.unit = unit)

/-- Spill the oldest resident window of a thread to `wsp` (R15, R16); `limit` is whether `wlim` binds. -/
def spillOldest (s : State) (p : Place) (limit : Bool) : WindowMove :=
  let t := s.thr p
  match t.rf.olds.getLast? with
  | none => .impossible
  | some w =>
    if limit && decide (t.sr.wlim.toNat < t.sr.wsp.toNat + 128) then .event ⟨evWinstack, t.sr.wsp⟩ else
    match physRun s t.id.tenant t.sr.pl .write t.sr.wsp none 128 with
    | .error e => .event e
    | .ok pas =>
      if runPartlyBad s pas then .event ⟨evMcheck, t.sr.wsp⟩ else
      .moved ((storeRun (fillRun s t.id.tenant t.sr.wsp 128) (requesterAt s t.id.tenant t.sr.wsp) pas (windowBytes w)).putThr p
        { t with rf := { t.rf with olds := t.rf.olds.dropLast, spillFails := false }, sr := { t.sr with wsp := t.sr.wsp + 128 } })

/-- Whether a spill at `wsp` is held back by the thread's remote atomics: a store on an SO page is a release (R116, R335). -/
def spillHeld (s : State) (p : Place) : Bool :=
  let t := s.thr p
  amosOutstanding s t.id.lid t.id.unit && [t.sr.wsp, t.sr.wsp + 127].any fun va =>
    match translate s t.id.tenant t.sr.pl .write va with
    | .ok (_, kind) => decide (kind = 1)
    | .error _ => false

/-- Whether a spill at `wsp` has to walk the tables, which keeps its thread out of rotation (R13, R336). -/
def spillWalks (s : State) : Bool := [s.th.sr.wsp, s.th.sr.wsp + 127].any (walksFor s s.th.id.tenant)

/-- A window about to be filled: what its bytes hold, or free values where a program has stored over it (R17, log 7). -/
def filledWindow (s : State) (t : Thread) (bs : List Byte) : Vector Word 16 :=
  if spilledWindows t ≤ sparseGet 0 s.sys.work.overlaid (unitKey t.id.lid t.id.unit) then Vector.ofFn fun i => Config.freeWord (s.fresh + i.val)
  else windowOfBytes bs

/-- The newest spilled window of a unit is spilled no more. -/
def unspilled (s : State) (t : Thread) : State :=
  let k := unitKey t.id.lid t.id.unit
  if spilledWindows t ≤ sparseGet 0 s.sys.work.overlaid k then
    { s.withWork { s.sys.work with overlaid := sparsePut 0 s.sys.work.overlaid k (spilledWindows t - 1) } with fresh := s.fresh + 16 }
  else s

/-- Fill the window below the oldest resident one from `wsp` − 128 (R15). An uncorrectable error leaves it unfilled (R327). -/
def fillOldest (s : State) (p : Place) : WindowMove :=
  let t := s.thr p
  if t.rf.depth ≤ t.rf.olds.length + 1 then .impossible else
  match physRun s t.id.tenant t.sr.pl .read (t.sr.wsp - 128) none 128 with
  | .error e => .event e
  | .ok pas =>
    if runBad s pas then .event ⟨evMcheck, t.sr.wsp - 128⟩
    else
      .moved ((unspilled (reachRead (fillRun s t.id.tenant (t.sr.wsp - 128) 128)
          (coreSender s false (requesterAt s t.id.tenant (t.sr.wsp - 128))) pas) t).putThr p
        { t with
          rf := { t.rf with olds := t.rf.olds ++ [filledWindow s t (pas.map (physByte s))], spillFails := false }
          sr := { t.sr with wsp := t.sr.wsp - 128 } })

/-! ### Gangs (R24 to R29) -/

/-- Whether two threads are members of one gang: one grove, one slot, one launch, one rectangle. -/
def sameGang (s : State) (p q : Place) : Bool :=
  let a := s.thr p
  let b := s.thr q
  decide (p ≠ q ∧ p.did = q.did ∧ p.cid.val / 16 = q.cid.val / 16 ∧ p.slot = q.slot ∧ a.id.lid = b.id.lid
    ∧ a.gang.rect = b.gang.rect ∧ a.gang.state ≠ .none ∧ b.gang.state ≠ .none)

/-- The other members of a thread's gang. -/
def gangMates (s : State) (p : Place) : List Place := s.boundPlaces.filter (sameGang s p)

/-- Change the gang state of a thread. -/
def setGang (s : State) (p : Place) (f : Gang → Gang) : State :=
  let t := s.thr p
  s.putThr p { t with gang := f t.gang }

/-- Every attached follower of a leader detaches (R27, R29). -/
def detachFollowers (s : State) (p : Place) : State :=
  if (s.thr p).gang.state = .leader then
    (gangMates s p).foldl (fun s q => setGang s q fun g =>
      if g.state = .attached then { g with state := .detached, buf := [] } else g) s
  else s

/-- Saved units that were members of the gang of a leader, in its slot and grove, belong to no gang any more (R264). -/
def releaseSaved (s : State) (p : Place) (lid : BitVec 32) (rect : BitVec 8) : State :=
  let mate (u : Saved) : Bool := decide (u.lid = lid ∧ u.gang = some rect ∧ u.place.slot = p.slot ∧ u.place.did = p.did
    ∧ u.place.cid.val / 16 = p.cid.val / 16)
  s.withWork { s.sys.work with saved := s.sys.work.saved.map fun u => if mate u then { u with gang := none } else u }

/-- A thread in no gang. What was forwarded to it and not executed yet it fetches for itself (R27). -/
def outOfGang (g : Gang) : Gang := { g with state := .none, rect := 0, buf := [] }

/-- A member leaves its gang; when the leader does, the gang dissolves (R29). Every follower then fetches for itself; its `gst` reads 00, as
it is in no gang any more (log 45). -/
def leaveGang (s : State) (p : Place) : State :=
  let t := s.thr p
  let s' := if t.gang.state = .leader then
      releaseSaved ((gangMates s p).foldl (fun s q => setGang s q outOfGang) s) p t.id.lid t.gang.rect
    else s
  if t.gang.state = .none then s' else setGang s' p outOfGang

/-! ### A unit leaves its place -/

/-- Add to the forester's error log, which raises PF vector 2 (R347). -/
def logError (s : State) (e : ErrEntry) : State :=
  s.withHost { s.sys.host with errlog := s.sys.host.errlog ++ [e], msix := s.sys.host.msix ++ [(16, 2)] }

/-- Free one binding of a thread: its permit goes, and a message in flight for it is discarded (R253). -/
def freeBinding (s : State) (receiver : Place) (b : Binding) : State :=
  let s := changePermit s receiver b (fun _ => none) (fun _ => 0)
  s.withWork { s.sys.work with
    renamed := s.sys.work.renamed.filter fun r => !decide (r.new = receiver ∧ r.reg = b.reg.val ∧ r.src = b.sender)
    msgs := s.sys.work.msgs.filter fun m => !decide (m.dst = receiver ∧ m.reg = b.reg.val ∧ m.src = b.sender) }

/-- Take back a lent range: tag-table entries into it go, it stops being lent, and its clearing begins (R35, R266). -/
def reclaimRange (c : Core) (l : Lent) : Core :=
  { c with
    tags := c.tags.filter fun g => !decide (g.sp < l.base + l.len ∧ l.base < g.sp + 2 ^ g.k)
    lents := c.lents.filter fun m => !decide (m = l)
    clearing := c.clearing ++ [(l.base, l.len)] }

/-- A core without a launch's tag-table entries (R59). -/
def withoutTags (lid : BitVec 32) (c : Core) : Core := { c with tags := c.tags.filter fun g => !decide (g.lid = lid) }

/-- What a launch leaves on a core when its last unit there ends (R59): what it has lent is to be reclaimed (R265). -/
def launchLeavesCore (c : Core) (lid : BitVec 32) : Core :=
  { withoutTags lid c with
    reclaims := c.reclaims ++ c.lents.filter fun l => decide (l.owner = lid) && !c.reclaims.contains l }

/-- The slot-table entry of a place. -/
def State.slot (s : State) (p : Place) : Slot := sparseGet {} s.sys.work.slots (placeNum p)

/-- Write the slot-table entry of a place (R293). -/
def putSlot (s : State) (p : Place) (f : Slot → Slot) : State :=
  s.withWork { s.sys.work with
    slots := sparsePut {} s.sys.work.slots (placeNum p) (f (sparseGet {} s.sys.work.slots (placeNum p))) }

/-- The entry becomes empty with a cause (R293), which raises the dispatch interrupt (R294). -/
def emptySlot (s : State) (p : Place) (why : BitVec 8) : State :=
  let s := putSlot s p fun e => { e with state := 0, why := why }
  s.withWork { s.sys.work with irqs := s.sys.work.irqs ++ [p] }

/-- Where a thread's launch has no other thread on its core, it leaves the core (R59, R265). -/
def lastUnitEffects (s : State) (p : Place) : State :=
  let lid := (s.thr p).id.lid
  let c := coreNum (placeCore p)
  if (s.placesOn c).any fun q => decide (q ≠ p ∧ (s.thr q).id.lid = lid) then s
  else s.putCore c (launchLeavesCore (s.coreBy c) lid)

/-- The tiles of a unit are freed (R61). -/
def freeTiles (s : State) (c : Nat) (lid : BitVec 32) (unit : BitVec 16) : State :=
  let k := s.coreBy c
  s.putCore c { k with owners := k.owners.map fun o =>
    match o with
    | some x => if x.lid = lid ∧ x.unit = unit then none else some x
    | none => none }

/-- A place that no thread is bound at any more: its registers and its tensor table keep what they held (R279, R283). -/
def unbound (t : Thread) : Thread :=
  { t with bound := false, rot := .ready, held := none, ch := {}, lat := {}, gang := {}, eng := { tens := t.eng.tens }, stream := {} }

/-- A unit's run is over: bindings, tiles and gang membership end (R253, R61, R29), its launch may leave the core, and the slot holds
no thread. -/
def unitOver (s : State) (p : Place) (why : BitVec 8) : State :=
  let t := s.thr p
  let s := t.ch.binds.foldl (fun s b => freeBinding s p b) s
  let s := leaveGang s p
  let s := freeTiles s (coreNum (placeCore p)) t.id.lid t.id.unit
  emptySlot ((lastUnitEffects s p).putThr p (unbound (s.thr p))) p why

/-- Count a unit that has ended in its launch's record (R298). One that ends before a stop with discard takes effect has ended (R321). -/
def countUnit (s : State) (lid : BitVec 32) (unit : BitVec 16) : State :=
  let l := s.launch lid
  putRecorded s lid { l with
    gone := insertNat unit.toNat l.gone, stops := l.stops.filter fun u => !decide (u = unit.toNat), record := { l.record with ended := l.record.ended + 1 } }

/-- Every engine command in flight in the module. -/
def allCommands (s : State) : List Cmd := s.core.cmds ++ (s.cores.map fun c => c.2.cmds).flatten

/-- Whether a launch that satisfies a test has units that are cancelled and not counted yet. -/
def stopsPending (s : State) (f : Launch → Bool) : Bool := s.sys.work.launches.any fun e => f e.2 && !e.2.stops.isEmpty

/-- The cancel bit of a cancelled graph, phase and job is set once every unit cancelled in it has been counted (R300). -/
def settleAbove (s : State) (jn g p : Nat) : State :=
  let x := (s.job jn).graph g
  let s := if x.cancelled && !x.record.cancel && !stopsPending s fun l => decide (l.job = jn ∧ l.graph = g) then
      writeGraph (s.putJob jn ((s.job jn).putGraph g { x with record := { x.record with cancel := true } })) jn g
    else s
  let x := (s.job jn).phase p
  let s := if x.cancelled && !x.record.cancel && !stopsPending s fun l => decide (l.job = jn ∧ l.phase = p) then
      writePhase (s.putJob jn ((s.job jn).putPhase p { x with record := { x.record with cancel := true } })) jn p
    else s
  let j := s.job jn
  if j.cancelled && !j.record.cancel && !stopsPending s fun l => decide (l.job = jn) then
    writeJob (s.putJob jn { j with record := { j.record with cancel := true } }) jn
  else s

/-- Count the units of a launch that are cancelled, each once its thread has stopped and every engine command it issued has completed, and
then set the cancel bits (R300 steps 3 and 4). -/
def settleStops (s : State) (lid : BitVec 32) : State :=
  let l := s.launch lid
  let busy (u : Nat) : Bool := (placeOfUnit s lid (BitVec.ofNat 16 u)).isSome
    || (allCommands s).any fun c => decide (c.lid = lid ∧ c.unit.toNat = u)
  let out := l.stops.filter fun u => !busy u
  let rest := l.stops.filter busy
  let cancel := l.record.cancel || (l.cancelling && rest.isEmpty)
  if out.isEmpty && (cancel == l.record.cancel) then s
  else
    let s := putRecorded s lid { l with
      stops := rest
      gone := out.foldl (fun g u => insertNat u g) l.gone
      record := { l.record with cancelled := l.record.cancelled + BitVec.ofNat 32 out.length, cancel := cancel } }
    settleAbove s l.job l.graph l.phase

/-- Stop with discard (R294, R303): the claims are handed over, open log entries discarded, and the unit counts as cancelled once its engine
commands have completed. -/
def discardUnit (s : State) (p : Place) : State :=
  let t := s.thr p
  let s := unitOver (handOver s t.id.lid t.id.unit) p 0x03
  let l := s.launch t.id.lid
  settleStops (s.putLaunch t.id.lid { l with stops := insertNat t.id.unit.toNat l.stops }) t.id.lid

/-! ### Taking an event and returning from one -/

/-- Whether the instruction at an address is 4 bytes long, where its first halfword can be fetched; otherwise a free value (R316, log 18). -/
def handlerLong (s : State) (t : Thread) (super : Bool) (a : Word) : Bool :=
  match fetchHalf s t super a with
  | .ok h => decide (h % 2 = 1)
  | .error _ => Config.unfetchedIsLong a

/-- The length of the instruction at a handler's address. -/
def handlerLen (s : State) (t : Thread) (super : Bool) (a : Word) : Word := if handlerLong s t super a then 4 else 2

/-- Whether an event goes to the core supervisor, and not to the launch's user trap entry (R313). -/
def toSupervisor (t : Thread) (code : BitVec 8) (addr : Word) : Bool :=
  !(decide (code = evSwtrap ∧ addr.toNat < 128) && t.sr.hasUentry)

/-- Clear bit 0, which `epc0`-`epc2` do not hold (R318). -/
def even (w : Word) : Word := w &&& 0xFFFFFFFFFFFFFFFE

/-- The queue of a handler at `h` (R316). DESIGN CHOICE (log 18): `svec` and `uentry` may be odd after an `mtsr`; the address is kept as it is, and
the bytes there are fetched. -/
def handlerQueue (s : State) (t : Thread) (super : Bool) (h : Word) : PcQueue :=
  let b := h + handlerLen s t super h
  { e0 := ⟨h, false⟩, e1 := ⟨b, false⟩, e2 := ⟨b + handlerLen s t super b, false⟩, entered := true }

/-- The special registers on entry to a handler (R316). -/
def entrySregs (t : Thread) (code : BitVec 8) (addr : Word) : Sregs :=
  let q := t.pcq
  let r : Sregs := { t.sr with
    epc0 := even q.e0.addr, epc1 := even q.e1.addr, epc2 := even q.e2.addr
    eann := BitVec.ofNat 3 (bitNat q.e0.annul + 2 * bitNat q.e1.annul + 4 * bitNat q.e2.annul)
    repc := if q.repLeft = 0 then t.sr.repc else BitVec.ofNat 11 q.repLeft
    rept := if q.repLeft = 0 then t.sr.rept else BitVec.ofNat 11 q.repDone
    evcode := code, evaddr := addr }
  if toSupervisor t code addr then { r with ppl := t.sr.pl, pl := true, se := true } else { r with ue := true }

/-- A thread that enters the handler of an event (R316): the queue and its annul bits are saved, the status changes, and the queue
is the handler's. Registers, windows, pointers, conditions, variates and `flags` do not change. An attached follower detaches. -/
def enterHandler (s : State) (t : Thread) (code : BitVec 8) (addr : Word) : Thread :=
  let r := entrySregs t code addr
  { t with
    rot := .ready
    held := none
    sr := r
    pcq := handlerQueue s t r.pl (if toSupervisor t code addr then t.sr.svec else t.sr.uentry)
    id := { t.id with wdcount := if code = evWatchdog then 0 else t.id.wdcount }
    ch := { t.ch with waitTurns := 0 }
    lat := { t.lat with saved := false, late := 0, stopping := decide (code = evPreempt ∨ code = evRevoke) }
    gang := { t.gang with state := if t.gang.state = .attached then .detached else t.gang.state, now := none, buf := [] } }

/-- Take an event at a place (R316). In a handler it is a double event: the unit stops with discard, and code and address are
reported (R319). Every follower of a leader detaches (R27). -/
def takeEvent (s : State) (p : Place) (code : BitVec 8) (addr : Word) : State :=
  let t := s.thr p
  if t.sr.se || t.sr.ue then logError (discardUnit s p) (.doubleEvent p code addr)
  else (detachFollowers s p).putThr p (enterHandler (s.focus p) t code addr)

/-- A core that work arrives at leaves its power state, and so do its grove and its die (R372). -/
def wakeCore (s : State) (c : Nat) : State :=
  let w := s.sys.power
  s.withSys { s.sys with power := { w with
    c1 := w.c1.filter (· ≠ c), c2 := w.c2.filter (· ≠ c), g2 := w.g2.filter (· ≠ c / 16), d1 := w.d1.filter (· ≠ c / 256) } }

/-- An instruction raises a precise event (R177). -/
def raise (code : BitVec 8) (addr : Word) (s : State) : Out := .next (takeEvent s s.here code addr)

/-- Raise an event given as code and address. -/
def raiseEv (e : Ev) (s : State) : Out := raise e.code e.addr (if e.code = evMcheck then metError s s.here.did.val else s)

/-- Return from an event (R317): PRIV at user level outside a user trap handler; the status goes back, the queue is the saved one,
and a saved repeat count becomes pending again. `addr` is the address of the instruction's first halfword (R159). -/
def returnFromEvent (s : State) : Out :=
  let r := s.th.sr
  if !r.pl && !r.ue then raise evPriv s.th.pcq.e0.addr s
  else
    let r' : Sregs := if r.pl then { r with pl := r.ppl, se := false } else { r with ue := false }
    let t := retireTh s.th .ready none false
    .next (s.withTh { t with
      lat := { t.lat with saved := false, late := 0, stopping := false }
      sr := { r' with repc := 0, rept := 0 }
      pcq := { e0 := ⟨r.epc0, r.eann.getLsbD 0⟩, e1 := ⟨r.epc1, r.eann.getLsbD 1⟩, e2 := ⟨r.epc2, r.eann.getLsbD 2⟩
               repLeft := r.repc.toNat, repDone := if r.repc = 0 then 0 else r.rept.toNat } })

/-! ### The shapes of an instruction -/

/-- The register rules every instruction meets first (R72, R177): a bound destination raises CHAN with its number; an empty bound
source holds the thread. Otherwise the instruction goes on. DESIGN CHOICE (log 44): the spec does not order CHAN, that wait and the
instruction's other checks, and CHAN comes first. -/
def withRegs (srcs dsts : List Reg) (s : State) (k : Out) : Out :=
  match dsts.find? (isBound s.th) with
  | some d => raise evChan (BitVec.ofNat 64 d.val) s
  | none =>
    match emptySource s.th srcs with
    | some x => waitOn (.boundReg x) s
    | none => k

/-- An instruction of fixed latency that reads registers and writes one (R12). -/
def regOp (srcs : List Reg) (d : Reg) (v : Word) (s : State) (rot : Rotation := .ready) : Out :=
  withRegs srcs [d] s (finish ((takeMsgs s srcs).setReg d v) rot)

/-- An instruction that reads registers and writes a condition. -/
def condOp (srcs : List Reg) (c : CReg) (v : Bool) (s : State) : Out :=
  withRegs srcs [] s (finish ((takeMsgs s srcs).setCond c v))

/-- An instruction that checks something of its own before it reads registers for good. -/
def orRaise {α : Type} (r : Except Ev α) (s : State) (k : α → Out) : Out :=
  match r with
  | .ok a => k a
  | .error e => raiseEv e s

/-- OPERAND without a tensor entry (R311). -/
def operandError : Ev := ⟨evOperand, 0⟩

end Sys2Proof.Machine
end

