-- ==== Sys2Proof/WellFormed.lean ====
section
/-! DEFINITION. Which instruction terms are instructions: the limits of R151, R155, R158 and the encoding tables (R154-R171). -/

namespace Sys2Proof

/-- Width in bits (R161). -/
def Width.bits : Width → Nat
  | .w64 => 64 | .w32 => 32 | .w16 => 16 | .w8 => 8

/-- Integer element types (R165). -/
def VType.isInt : VType → Bool
  | .i8 | .u8 | .i16 | .i32 | .u16 | .u32 => true
  | .f32 | .f16 | .bf16 | .f8e5 | .f8e4 => false

/-- Types of the floating-point element operations (R210). -/
def VType.isArith : VType → Bool
  | .f32 | .f16 | .bf16 => true
  | .i8 | .u8 | .i16 | .i32 | .u16 | .u32 | .f8e5 | .f8e4 => false

/-- Types of `vqnt` and `vdeq` (R213, R214). -/
def VType.isQuant : VType → Bool
  | .i8 | .u8 | .i16 | .u16 | .f8e5 | .f8e4 | .f16 | .bf16 => true
  | .i32 | .u32 | .f32 => false

/-- Whether an instruction term is an instruction: an encoding that breaks one of these limits raises ILLEGAL (R158). The steps of
the table carry no encoding and have no limit here. -/
def Instr.wf : Instr → Bool
  | .mov16 d x => !(d == 0 && x == .reg 0)
  | .add16 _ _ => true
  | .sub16 _ _ => true
  | .and16 _ _ => true
  | .or16 _ _ => true
  | .xor16 _ _ => true
  | .shl16 _ _ => true
  | .shr16 _ _ => true
  | .sra16 _ _ => true
  | .mul16 _ _ => true
  | .min16 _ _ => true
  | .max16 _ _ => true
  | .ldw16 d a post => !(post && d == a)
  | .stw16 _ _ _ => true
  | .ldd16 d a post => !(post && d == a)
  | .std16 _ _ _ => true
  | .add _ _ _ _ => true
  | .sub _ _ _ _ => true
  | .mul _ _ _ _ => true
  | .mulh _ _ _ _ => true
  | .mulhu _ _ _ _ => true
  | .div _ _ _ _ => true
  | .divu _ _ _ _ => true
  | .rem _ _ _ _ => true
  | .remu _ _ _ _ => true
  | .and _ _ _ => true
  | .or _ _ _ => true
  | .xor _ _ _ => true
  | .andn _ _ _ => true
  | .orn _ _ _ => true
  | .shl _ _ _ _ => true
  | .shr _ _ _ _ => true
  | .sra _ _ _ _ => true
  | .rol _ _ _ _ => true
  | .ror _ _ _ _ => true
  | .min _ _ _ _ => true
  | .max _ _ _ _ => true
  | .minu _ _ _ _ => true
  | .maxu _ _ _ _ => true
  | .clz _ _ _ => true
  | .ctz _ _ _ => true
  | .popc _ _ _ => true
  | .sext w _ _ => w != .w64
  | .zext w _ _ => w != .w64
  | .bfx _ _ _ => true
  | .bfxu _ _ _ => true
  | .bfi _ _ _ => true
  | .bswap w _ _ => w != .w8
  | .addi _ _ _ => true
  | .andi _ _ _ => true
  | .ori _ _ _ => true
  | .xori _ _ _ => true
  | .shli w _ _ n => decide (n.toNat < w.bits)
  | .shri w _ _ n => decide (n.toNat < w.bits)
  | .srai w _ _ n => decide (n.toNat < w.bits)
  | .cmpi _ c _ _ => c != 0
  | .cmp _ _ c _ _ => c != 0
  | .li _ _ => true
  | .lui _ _ => true
  | .lea _ _ => true
  | .ldb _ _ _ => true
  | .ldbu _ _ _ => true
  | .ldh _ _ _ => true
  | .ldhu _ _ _ => true
  | .ldw _ _ _ => true
  | .ldwu _ _ _ => true
  | .ldd _ _ _ => true
  | .stb _ _ _ => true
  | .sth _ _ _ => true
  | .stw _ _ _ => true
  | .std _ _ _ => true
  | .ldAcq _ _ _ => true
  | .ldFe _ _ _ => true
  | .ldFek _ _ _ => true
  | .stRel _ _ _ => true
  | .stFill _ _ _ => true
  | .tlook _ _ => true
  | .tinst _ _ _ => true
  | .tdrop _ => true
  | .bt _ _ => true
  | .bf _ _ => true
  | .btN _ _ => true
  | .bfN _ _ => true
  | .jmp _ => true
  | .call _ => true
  | .jmpr _ => true
  | .callr _ => true
  | .ret => true
  | .rep _ => true
  | .repr _ => true
  | .endUnit => true
  | .yield => true
  | .nop => true
  | .trap _ => true
  | .brk => true
  | .pset _ _ => true
  | .pget _ _ => true
  | .padd _ _ => true
  | .pstr _ _ => true
  | .cand c _ _ => c != 0
  | .cor c _ _ => c != 0
  | .cxor c _ _ => c != 0
  | .cset c _ => c != 0
  | .cget _ _ => true
  | .sel _ _ _ _ => true
  | .vaddInt _ t _ _ _ => t.isInt
  | .vsubInt _ t _ _ _ => t.isInt
  | .vmulInt _ t _ _ _ => t.isInt
  | .vminInt t _ _ _ => t.isInt
  | .vmaxInt t _ _ _ => t.isInt
  | .vabsInt _ t _ _ => t.isInt
  | .vnegInt _ t _ _ => t.isInt
  | .vand t _ _ _ => t.isInt
  | .vor t _ _ _ => t.isInt
  | .vxor t _ _ _ => t.isInt
  | .vshl t _ _ _ => t.isInt
  | .vshr t _ _ _ => t.isInt
  | .vsra t _ _ _ => t.isInt
  | .vaddFp m t _ _ _ => t.isArith && m != .sr
  | .vsubFp m t _ _ _ => t.isArith && m != .sr
  | .vmulFp m t _ _ _ => t.isArith && m != .sr
  | .vminFp t _ _ _ => t.isArith
  | .vmaxFp t _ _ _ => t.isArith
  | .vabsFp t _ _ => t.isArith
  | .vnegFp t _ _ => t.isArith
  | .vdiv m t _ _ _ => t.isArith && m != .sr
  | .vsqrt m t _ _ => t.isArith && m != .sr
  | .vfma m t _ _ _ => t.isArith && m != .sr
  | .vfms m t _ _ _ => t.isArith && m != .sr
  | .vcmp _ _ _ _ _ => true
  | .vsel _ _ _ _ => true
  | .vmov _ _ _ => true
  | .vbcast _ _ _ => true
  | .vcvt _ _ m _ _ _ z => (m == .sr || z == 0)
  | .vqnt m t _ _ z => t.isQuant && (m == .sr || z == 0)
  | .vdeq m t _ _ => t.isQuant && m != .sr
  | .vplane _ _ _ => true
  | .vrsum m t _ _ => m != .sr && (!t.isInt || m == .rne)
  | .vrmax _ _ _ => true
  | .vrmin _ _ _ => true
  | .vidx _ _ => true
  | .vgath _ _ _ _ => true
  | .vscat _ _ _ _ => true
  | .vperm _ _ _ _ => true
  | .edge _ _ _ => true
  | .boxt _ _ _ => true
  | .txdec t _ _ _ => (t == .f32 || t == .f16 || t == .bf16 || t == .u8)
  | .trav _ _ => true
  | .lznew _ _ _ => true
  | .lzmov _ _ => true
  | .lzcpl _ _ => true
  | .lzlt c _ _ => c != 0
  | .lzlt2 c _ _ => c != 0
  | .lzbern c _ _ => c != 0
  | .lzbits _ _ _ => true
  | .lzst _ _ => true
  | .lzld _ _ => true
  | .mmaI _ _ _ _ _ => true
  | .mmaS _ _ _ _ => true
  | .gmm _ _ _ _ => true
  | .gath _ _ => true
  | .mmz _ _ => true
  | .mmld _ _ _ => true
  | .mmst _ _ _ _ => true
  | .cpy _ _ _ => true
  | .cpyt _ _ _ => true
  | .cpyx _ _ _ => true
  | .cpym _ _ _ _ => true
  | .collAr _ _ _ => true
  | .collRs _ _ _ => true
  | .collAg _ _ _ => true
  | .cwait _ => true
  | .nextt d b => !(d == b && d != 0)
  | .tdone _ => true
  | .tgive _ => true
  | .schw _ => true
  | .schr _ => true
  | .lyrnew _ => true
  | .lyrfree _ => true
  | .lyrset _ _ _ => true
  | .lyrget _ _ _ => true
  | .lyrcommit _ _ _ => true
  | .lyrsplit _ _ => true
  | .lyrmerge _ _ => true
  | .lyrdep _ _ _ _ => true
  | .lyrord _ _ _ => true
  | .pose _ _ => true
  | .rls _ _ _ => true
  | .tdset _ _ _ _ => true
  | .tdget _ _ k => decide (k.toNat < 3)
  | .tdinv _ => true
  | .lnch _ _ => true
  | .chbind g _ => decide (1 ≤ g.val ∧ g.val ≤ 6)
  | .chfree g => decide (1 ≤ g.val ∧ g.val ≤ 6)
  | .snd _ _ => true
  | .sndE _ _ => true
  | .amoAdd _ _ _ => true
  | .amoMin _ _ _ => true
  | .amoMax _ _ _ => true
  | .amoMinu _ _ _ => true
  | .amoMaxu _ _ _ => true
  | .amoAnd _ _ _ => true
  | .amoOr _ _ _ => true
  | .amoXor _ _ _ => true
  | .logaddF32 _ _ _ => true
  | .phend => true
  | .fenceCore => true
  | .fenceGrove => true
  | .fenceDie => true
  | .fencePackage => true
  | .fenceSystem => true
  | .barCore => true
  | .barGrove => true
  | .barDie => true
  | .barPackage => true
  | .barSystem => true
  | .barLaunch => true
  | .gang _ => true
  | .gjoin => true
  | .gquit => true
  | .hvlend _ _ => true
  | .hvreclaim _ _ => true
  | .rfe => true
  | .tlbinvPage _ => true
  | .tlbinvTenant _ => true
  | .tlbinvAll => true
  | .icinv => true
  | .ctxsv _ => true
  | .ctxld _ => true
  | .wflush => true
  | .sig _ _ => true
  | .idle => true
  | .mfsr _ _ => true
  | .mtsr _ _ => true
  | .windowSpill _ => true
  | .windowFill _ => true
  | .seat _ => true
  | .forwardedInstruction _ => true
  | .memoryAccessPerformed _ => true
  | .divideComplete _ => true
  | .digitBlock _ => true
  | .vectorGroup _ => true
  | .pageWalk _ _ => true
  | .engineDelivery _ _ => true
  | .commandRetire _ _ _ => true
  | .cpymProduct _ => true
  | .remoteAtomicArrival _ _ => true
  | .messageArrival _ => true
  | .tenantDrop _ => true
  | .barrierRelease _ _ _ => true
  | .reclaimClear _ => true
  | .logExtend _ => true
  | .latchSample _ => true
  | .preempt _ => true
  | .revoke _ => true
  | .signal _ => true
  | .debugRequest _ _ => true
  | .asyncMcheck _ _ => true
  | .watchdog _ => true
  | .probe _ => true
  | .bind _ => true
  | .forcedStop _ => true
  | .cooperativeStop _ => true
  | .stopWithDiscard _ => true
  | .withdraw _ => true
  | .bindRecordWrite _ _ _ _ _ => true
  | .secondVictim _ => true
  | .ageLimit _ => true
  | .launchAdmission _ => true
  | .closePhase _ => true
  | .retireJob _ => true
  | .phaseBoundary _ => true
  | .completion _ => true
  | .cancel _ => true
  | .rerenderRequest _ => true
  | .qualityStep _ _ => true
  | .frameEvaluation => true
  | .frameDeadline => true
  | .frameRelease => true
  | .ptpSync _ => true
  | .holdover => true
  | .inboundRead _ _ _ => true
  | .inboundWrite _ _ _ => true
  | .apertureReadTimeout _ => true
  | .flitReceive _ _ => true
  | .linkDown _ => true
  | .linkRetrain _ => true
  | .powerStateEntry _ => true
  | .powerStateExit _ => true
  | .clockStep _ _ => true
  | .thermalTrip _ => true
  | .scrubPass _ _ _ => true
  | .boot _ => true
  | .recoveryPush _ => true
  | .tailWrite _ _ => true
  | .ringEnable _ _ => true
  | .ringConfigWrite _ _ _ => true
  | .collectiveSetWrite _ _ _ => true
  | .clr _ _ => true
  | .b2vaWrite _ _ => true
  | .hapbaseWrite _ => true
  | .ltolWrite _ _ => true
  | .releaseEnable _ => true
  | .releaseConfigWrite _ _ => true
  | .apertureEnable _ _ _ => true
  | .apertureConfigWrite _ _ _ _ => true
  | .setPowerCap _ => true
  | .createTenant _ _ => true
  | .resizeTenant _ _ => true
  | .destroyTenant _ _ => true
  | .stageImage _ _ => true
  | .commitStagedImage => true
  | .raiseFusedMinimum _ => true
  | .attestationReport _ _ => true
  | .loadCopyCoreRoutine _ _ _ => true
  | .setCoreSupervisor _ _ => true
  | .registerWrite _ _ => true
  | .parkingComplete _ => true
  | .scheduleService _ => true
  | .layerTablePerformed _ => true
  | .permitInstalled _ => true
  | .icinvComplete _ => true
  | .tlbAcknowledgement _ => true

/-- An instruction term that is an instruction. -/
abbrev Instr.WellFormed (i : Instr) : Prop := i.wf = true

end Sys2Proof
end

