-- ==== Sys2Proof/Machine/Operands.lean ====
section
/-! DEFINITION. Scalar operand forms and integer results: widths (R161), immediates (R92), the operations of R154, R178, R179 and
division (R82). -/

namespace Sys2Proof.Machine

/-- An immediate of a logical operation is zero-extended, of an arithmetic one sign-extended (R92). -/
def immSigned {n : Nat} (i : BitVec n) : Word := i.signExtend 64
def immUnsigned {n : Nat} (i : BitVec n) : Word := i.setWidth 64

/-- The low bits of a register at an operation's width. -/
def low (w : Width) (x : Word) : Nat := x.toNat % 2 ^ w.bits

/-- The low bits of a register at an operation's width, as a signed number. -/
def lowInt (w : Width) (x : Word) : Int := (BitVec.ofNat w.bits x.toNat).toInt

/-- A W-bit result sign-extended to 64 bits. -/
def sextW (w : Width) (v : Nat) : Word := sextBits w.bits v

/-- A W-bit result zero-extended to 64 bits. -/
def zextW (w : Width) (v : Nat) : Word := zextBits w.bits v

/-- A W-bit result given as a signed number, sign-extended. -/
def sextInt (w : Width) (v : Int) : Word := (BitVec.ofInt w.bits v).signExtend 64

def addW (w : Width) (a b : Word) : Word := sextW w (low w a + low w b)
def subW (w : Width) (a b : Word) : Word := sextW w (low w a + (2 ^ w.bits - low w b))
def mulW (w : Width) (a b : Word) : Word := sextW w (low w a * low w b)

/-- The high half of the signed product. -/
def mulhW (w : Width) (a b : Word) : Word := sextInt w (lowInt w a * lowInt w b / 2 ^ w.bits)

/-- The high half of the unsigned product. -/
def mulhuW (w : Width) (a b : Word) : Word := zextW w (low w a * low w b / 2 ^ w.bits)

/-- Signed quotient: truncated; all ones for a zero divisor; the dividend for the least value over −1 (R82). -/
def divW (w : Width) (a b : Word) : Word :=
  if lowInt w b = 0 then sextInt w (-1) else sextInt w ((lowInt w a).tdiv (lowInt w b))

/-- Unsigned quotient: all ones for a zero divisor (R82). -/
def divuW (w : Width) (a b : Word) : Word :=
  if low w b = 0 then zextW w (2 ^ w.bits - 1) else zextW w (low w a / low w b)

/-- Signed remainder, with the dividend's sign; the dividend for a zero divisor (R82). -/
def remW (w : Width) (a b : Word) : Word :=
  if lowInt w b = 0 then sextInt w (lowInt w a) else sextInt w ((lowInt w a).tmod (lowInt w b))

/-- Unsigned remainder; the dividend for a zero divisor (R82). -/
def remuW (w : Width) (a b : Word) : Word :=
  if low w b = 0 then zextW w (low w a) else zextW w (low w a % low w b)

/-- Shifts by `n` of a W-bit value (R178): a left or logical right shift by W or more gives 0. -/
def shlW (w : Width) (a : Word) (n : Nat) : Word := sextW w (low w a * 2 ^ n)
def shrW (w : Width) (a : Word) (n : Nat) : Word := zextW w (low w a / 2 ^ n)
def sraW (w : Width) (a : Word) (n : Nat) : Word := sextInt w (lowInt w a / 2 ^ (Nat.min n (w.bits - 1)))

/-- Rotations by `n mod W` (R178). -/
def rolW (w : Width) (a : Word) (n : Nat) : Word :=
  let k := n % w.bits
  sextW w (low w a * 2 ^ k + low w a / 2 ^ (w.bits - k))
def rorW (w : Width) (a : Word) (n : Nat) : Word := rolW w a (w.bits - n % w.bits)

def minW (w : Width) (a b : Word) : Word := sextInt w (min (lowInt w a) (lowInt w b))
def maxW (w : Width) (a b : Word) : Word := sextInt w (max (lowInt w a) (lowInt w b))
def minuW (w : Width) (a b : Word) : Word := zextW w (min (low w a) (low w b))
def maxuW (w : Width) (a b : Word) : Word := zextW w (max (low w a) (low w b))

/-- Leading zeros of the `n` low bits. -/
def leadingZeros (v : Nat) : Nat → Nat
  | 0 => 0
  | n + 1 => if v.testBit n then 0 else leadingZeros v n + 1

/-- Trailing zeros of the bits from `i` on, `n` of them. -/
def trailingZeros (v : Nat) (i : Nat) : Nat → Nat
  | 0 => 0
  | n + 1 => if v.testBit i then 0 else trailingZeros v (i + 1) n + 1

/-- Ones among the `n` low bits. -/
def onesCount (v : Nat) : Nat → Nat
  | 0 => 0
  | n + 1 => onesCount v n + bitNat (v.testBit n)

def clzW (w : Width) (a : Word) : Word := BitVec.ofNat 64 (leadingZeros a.toNat w.bits)
def ctzW (w : Width) (a : Word) : Word := BitVec.ofNat 64 (trailingZeros a.toNat 0 w.bits)
def popcW (w : Width) (a : Word) : Word := BitVec.ofNat 64 (onesCount a.toNat w.bits)

/-- Bytes in reverse order. -/
def bswapW (w : Width) (a : Word) : Word := zextW w (ofBytes (toBytes (w.bits / 8) a.toNat).reverse)

/-- The field a `bfx`, `bfxu` or `bfi` names (R179): its position, and its length cut at bit 63. -/
def fieldPos (b : Word) : Nat := bitsOf b 5 0
def fieldLen (b : Word) : Nat := Nat.min (bitsOf b 11 6 + 1) (64 - fieldPos b)

def bfxW (a b : Word) : Word := sextBits (fieldLen b) (a.toNat / 2 ^ fieldPos b)
def bfxuW (a b : Word) : Word := zextBits (fieldLen b) (a.toNat / 2 ^ fieldPos b)

/-- Insert a field into the old value of the destination (R179). -/
def bfiW (old a b : Word) : Word :=
  let p := fieldPos b
  let n := fieldLen b
  BitVec.ofNat 64 (old.toNat % 2 ^ p + a.toNat % 2 ^ n * 2 ^ p + old.toNat / 2 ^ (p + n) * 2 ^ (p + n))

/-- A scalar compare (R183). -/
def compareW (q : Cond) (w : Width) (a b : Word) : Bool :=
  match q with
  | .eq => decide (low w a = low w b)
  | .ne => decide (low w a ≠ low w b)
  | .lt => decide (lowInt w a < lowInt w b)
  | .ltu => decide (low w a < low w b)
  | .le => decide (lowInt w a ≤ lowInt w b)
  | .leu => decide (low w a ≤ low w b)

/-- The immediate of a compare: zero-extended for the unsigned relations (R92, R183). -/
def compareImm (q : Cond) (i : BitVec 15) : Word :=
  match q with
  | .ltu | .leu => immUnsigned i
  | _ => immSigned i

/-- The second operand of a 16-bit ALU form: a register, or a signed or unsigned immediate (R154). -/
def src16Signed (s : State) : Src16 → Word
  | .reg r => s.reg r
  | .imm v => immSigned v
def src16Unsigned (s : State) : Src16 → Word
  | .reg r => s.reg r
  | .imm v => immUnsigned v

/-- The registers a 16-bit form's second operand reads. -/
def src16Regs : Src16 → List Reg
  | .reg r => [r]
  | .imm _ => []

/-- A shift amount: bits 5:0 (R154, R178). -/
def shiftBits (x : Word) : Nat := x.toNat % 64

/-- A PC-relative target: the instruction's own address plus a displacement in halfwords (R157). -/
def relTarget {n : Nat} (s : State) (d : BitVec n) : Word := s.th.pcq.e0.addr + immSigned d * 2

end Sys2Proof.Machine
end

