-- ==== Sys2Proof/Machine/Access.lean ====
section
/-! DEFINITION. Loads and stores (R155, R187 to R190) and the tag table (R57, R58, R191). -/

namespace Sys2Proof.Machine

/-- Whether the thread in focus has remote atomics that are not performed yet (R258). A release waits for them (R111, R120). -/
def atomicsOutstanding (s : State) : Bool := amosOutstanding s s.th.id.lid s.th.id.unit

/-- A release at system scope: every earlier access of the thread is performed first (R111). -/
def releaseFirst (s : State) (k : Out) : Out := if atomicsOutstanding s then waitOn .release s else k

/-- A loaded value of `n` bytes, extended to 64 bits. -/
def extend (n : Nat) (signed : Bool) (v : Nat) : Word := if signed then sextBits (8 * n) v else zextBits (8 * n) v

/-- Write the loaded value, and step the address register of a post-incrementing form (R155). -/
def loadResult (s : State) (d a : Reg) (ea : Word) (n : Nat) (signed post : Bool) (v : Nat) : State :=
  let s := (takeMsgs s [a]).setReg d (extend n signed v)
  if post then s.setReg a (ea + BitVec.ofNat 64 n) else s

/-- The data of a load of the thread in focus that has been performed already. -/
def gotData (s : State) : Option Nat :=
  match s.th.rot with
  | .waiting (.got v) => some v
  | _ => none

/-- Read `n` bytes at an address of the thread in focus (R187): the checks, the stall, the TLB fill; then what is done with the bytes, given
the rotation that the access leaves (R65). Where the data is outside the module (R332, R341) the access stays in flight, and the instruction
goes on with the data on the thread's next turn. -/
def withBytes (ea : Word) (n : Nat) (s : State) (k : State → Rotation → List Byte → Out) : Out :=
  match gotData s with
  | some v => k s .ready (toBytes n v)
  | none => orRaise (locate s .read ea n) s fun loc =>
    unlessStalled (locRanges n false loc) s <|
      let rot := loadRotation s ea loc
      let s := touchLoad s ea n loc
      match isHostLoc s loc with
      | some pa => .next (s.withTh { s.th with rot := .inFlight (.hostLoad pa ea n) })
      | none => k s rot (loadBytes s n loc)

/-- A load of `n` bytes (R187, R188). -/
def loadOp (n : Nat) (signed : Bool) (d a : Reg) (off : Word) (post : Bool) (s : State) : Out :=
  withRegs [a] (if post then [d, a] else [d]) s <|
    let ea := s.reg a + off
    withBytes ea n s fun s rot bs => finish (loadResult s d a ea n signed post (ofBytes bs)) rot

/-- A store of the `n` low bytes of the data register (R187, R188). -/
def storeOp (n : Nat) (d a : Reg) (off : Word) (post : Bool) (s : State) : Out :=
  withRegs [a, d] (if post then [a] else []) s <|
    let ea := s.reg a + off
    orRaise (locate s .write ea n) s fun loc =>
      unlessStalled (locRanges n true loc) s <|
        if locReleases loc && atomicsOutstanding s then waitOn .release s
        else
          let s1 := storeBytes (takeMsgs (touchStore s ea n) [a, d]) (toBytes n (s.reg d).toNat) loc
          finish (if post then s1.setReg a (ea + BitVec.ofNat 64 n) else s1) (locRotation loc)

/-- Bytes of a width. -/
def widthBytes (w : Width) : Nat := w.bits / 8

/-- 16-bit `ldw` (R155). -/
def execLdw16 (d a : Reg) (post : Bool) (s : State) : Out :=
  loadOp 4 true d a 0 post s

/-- 16-bit `stw` (R155). -/
def execStw16 (d a : Reg) (post : Bool) (s : State) : Out :=
  storeOp 4 d a 0 post s

/-- 16-bit `ldd` (R155). -/
def execLdd16 (d a : Reg) (post : Bool) (s : State) : Out :=
  loadOp 8 true d a 0 post s

/-- 16-bit `std` (R155). -/
def execStd16 (d a : Reg) (post : Bool) (s : State) : Out :=
  storeOp 8 d a 0 post s

/-- `ldb` (R188). -/
def execLdb (d a : Reg) (i : BitVec 15) (s : State) : Out :=
  loadOp 1 true d a (immSigned i) false s

/-- `ldbu` (R188). -/
def execLdbu (d a : Reg) (i : BitVec 15) (s : State) : Out :=
  loadOp 1 false d a (immSigned i) false s

/-- `ldh` (R188). -/
def execLdh (d a : Reg) (i : BitVec 15) (s : State) : Out :=
  loadOp 2 true d a (immSigned i) false s

/-- `ldhu` (R188). -/
def execLdhu (d a : Reg) (i : BitVec 15) (s : State) : Out :=
  loadOp 2 false d a (immSigned i) false s

/-- `ldw` (R188). -/
def execLdw (d a : Reg) (i : BitVec 15) (s : State) : Out :=
  loadOp 4 true d a (immSigned i) false s

/-- `ldwu` (R188). -/
def execLdwu (d a : Reg) (i : BitVec 15) (s : State) : Out :=
  loadOp 4 false d a (immSigned i) false s

/-- `ldd` (R188). -/
def execLdd (d a : Reg) (i : BitVec 15) (s : State) : Out :=
  loadOp 8 true d a (immSigned i) false s

/-- `stb` (R188). -/
def execStb (d a : Reg) (i : BitVec 15) (s : State) : Out :=
  storeOp 1 d a (immSigned i) false s

/-- `sth` (R188). -/
def execSth (d a : Reg) (i : BitVec 15) (s : State) : Out :=
  storeOp 2 d a (immSigned i) false s

/-- `stw` (R188). -/
def execStw (d a : Reg) (i : BitVec 15) (s : State) : Out :=
  storeOp 4 d a (immSigned i) false s

/-- `std` (R188). -/
def execStd (d a : Reg) (i : BitVec 15) (s : State) : Out :=
  storeOp 8 d a (immSigned i) false s

/-- `ld.acq` (R189): a load, sign-extended, and an acquire; what the thread does later happens later (log 8). -/
def execLdAcq (w : Width) (d a : Reg) (s : State) : Out :=
  loadOp (widthBytes w) true d a 0 false s

/-- `st.rel` (R189): a store that is a release, but for one on a UN page (R117). -/
def execStRel (w : Width) (d a : Reg) (s : State) : Out :=
  withRegs [a, d] [] s <|
    orRaise (locate s .write (s.reg a) (widthBytes w)) s fun loc =>
      if locOrders loc && atomicsOutstanding s then waitOn .release s
      else storeOp (widthBytes w) d a 0 false s

/-! ### Full/empty granules (R53, R54, R190) -/

/-- Set a granule full or empty. -/
def setGranule (c : Core) (g : Nat) (empty : Bool) : Core :=
  { c with empties := if empty then insertNat g c.empties else c.empties.filter fun x => decide (x ≠ g) }

/-- Whether the thread in focus is blocked on a granule already (R54). -/
def blockedHere (s : State) (g : Nat) : Bool :=
  match s.th.rot with
  | .waiting (.granule h ..) => decide (h = g)
  | _ => false

/-- Whether another thread of the core is blocked in `ld.fe` on a granule (R54). -/
def feBlocked (s : State) (g : Nat) : Bool :=
  (s.placesOn s.hereCore).any fun p =>
    decide (p ≠ s.here) && (match (s.thr p).rot with | .waiting (.granule h true ..) => decide (h = g) | _ => false)

/-- `ld.fe` (`consumes`) and `ld.fek`. -/
def granuleLoad (consumes : Bool) (w : Width) (d a : Reg) (s : State) : Out :=
  withRegs [a] [d] s <|
    let ea := s.reg a
    let n := widthBytes w
    match gotData s with
    | some v => finish (loadResult s d a ea n true false v)
    | none => orRaise (locate s .read ea n (needLocal := true)) s fun loc =>
      match loc with
      | .phys .. | .tag .. => raise evKind ea s
      | .spad x =>
        let g := x / 16
        if beingCleared s.core g then waitOn (.locked [(x, n, false)]) s
        else if s.core.empties.contains g then
          if feBlocked s g && !blockedHere s g then raise evFeproto ea s else waitOn (.granule g consumes x n) s
        else
          let s1 := loadResult s d a ea n true false (ofBytes (bytesAt s.core.spad x n))
          finish (if consumes then s1.withCore (setGranule s1.core g true) else s1)

/-- A thread blocked on a granule has its data: it completes on its next turn (R54). -/
def releaseBlocked (c : Core) (s : State) (p : Place) (x n : Nat) : State :=
  s.putThr p { s.thr p with rot := .waiting (.got (ofBytes (bytesAt c.spad x n))) }

/-- A granule has been filled: every thread blocked on it reads the value, and the granule is empty again if one was an `ld.fe` (R54). -/
def fillGranule (s : State) (core g : Nat) : State :=
  let c := s.coreBy core
  let blocked := (s.placesOn core).filterMap fun p =>
    match (s.thr p).rot with
    | .waiting (.granule h fe x n) => if h = g then some (p, fe, x, n) else none
    | _ => none
  let s := s.putCore core (setGranule c g (blocked.any fun b => b.2.1))
  blocked.foldl (fun s b => releaseBlocked c s b.1 b.2.2.1 b.2.2.2) s

/-- `ld.fe` (R190). -/
def execLdFe (w : Width) (d a : Reg) (s : State) : Out :=
  granuleLoad true w d a s

/-- `ld.fek` (R190). -/
def execLdFek (w : Width) (d a : Reg) (s : State) : Out :=
  granuleLoad false w d a s

/-- `st.fill`: stalls while the granule is locked, raises FEPROTO on a full one (R190). -/
def execStFill (w : Width) (d a : Reg) (s : State) : Out :=
  withRegs [a, d] [] s <|
    let ea := s.reg a
    let n := widthBytes w
    orRaise (locate s .write ea n (needLocal := true)) s fun loc =>
      match loc with
      | .phys .. | .tag .. => raise evKind ea s
      | .spad x =>
        unlessStalled (locRanges n true loc) s <|
        if !s.core.empties.contains (x / 16) then raise evFeproto ea s
        else
          let s1 := storeBytes (takeMsgs s [a, d]) (toBytes n (s.reg d).toNat) loc
          finish (fillGranule s1 s.hereCore (x / 16))

/-! ### The tag table -/

/-- The scratchpad range of a tag-table entry lies where R57 allows: an owner's window, or a range lent to the harvest launch. -/
def tagRangeOk (s : State) (sp n : Nat) : Bool :=
  if s.th.id.harv then s.core.lents.any fun l => decide (l.borrower = s.th.id.lid ∧ l.base ≤ sp ∧ sp + n ≤ l.base + l.len)
  else let w := windowOf s.core s.th; decide (w.spBase ≤ sp ∧ sp + n ≤ w.spLim)

/-- Whether a `tinst` is refused (R58). -/
def tagRefused (s : State) (va sp : Word) (k : Nat) : Bool :=
  decide (k < 6 ∨ 12 < k) || decide (va.toNat % 2 ^ k ≠ 0 ∨ sp.toNat % 2 ^ k ≠ 0) || !tagRangeOk s sp.toNat (2 ^ k)
    || (s.core.tags.any fun g => decide (g.lid = s.th.id.lid ∧ g.va.toNat < va.toNat + 2 ^ k ∧ va.toNat < g.va.toNat + 2 ^ g.k))
    || decide (256 ≤ s.core.tags.length)

/-- `tlook` (R58, R191). -/
def execTlook (d a : Reg) (s : State) : Out :=
  regOp [a] d (match tagFor s.core s.th.id.lid (s.reg a) with
    | some g => BitVec.ofNat 64 (g.sp + ((s.reg a).toNat - g.va.toNat))
    | none => 0xFFFFFFFFFFFFFFFF) s

/-- `tinst` (R58, R191). -/
def execTinst (a b : Reg) (k : BitVec 5) (s : State) : Out :=
  withRegs [a, b] [] s <|
    if tagRefused s (s.reg a) (s.reg b) k.toNat then raiseEv operandError s
    else
      let s1 := takeMsgs s [a, b]
      finish (s1.withCore { s1.core with
        tags := s1.core.tags ++ [⟨s.th.id.lid, s.reg a, k.toNat, (s.reg b).toNat⟩] })

/-- `tdrop` (R58, R191). -/
def execTdrop (a : Reg) (s : State) : Out :=
  withRegs [a] [] s <|
    let s1 := takeMsgs s [a]
    let hit (g : Tag) : Bool :=
      decide (g.lid = s.th.id.lid ∧ g.va.toNat ≤ (s.reg a).toNat ∧ (s.reg a).toNat < g.va.toNat + 2 ^ g.k)
    finish (s1.withCore { s1.core with tags := s1.core.tags.filter fun g => !hit g })

end Sys2Proof.Machine
end

