-- ==== Sys2Proof/Machine/Context.lean ====
section
/-! DEFINITION. Special registers as words (R152, R315), place descriptors (R252), and a thread's context in its save area and context
extension (R328 to R330). -/

namespace Sys2Proof.Machine

/-! ### Place descriptors (R252) -/

/-- The place a descriptor names. -/
def placeOfDesc (w : Word) : Place :=
  ⟨⟨bitsOf w 19 16 % 16, Nat.mod_lt _ (by decide)⟩, ⟨bitsOf w 15 8 % 256, Nat.mod_lt _ (by decide)⟩,
   ⟨bitsOf w 7 4 % 12, Nat.mod_lt _ (by decide)⟩⟩

/-- The receiving register a descriptor names. -/
def descReg (w : Word) : Nat := bitsOf w 2 0

/-- Whether a value obeys R252, its reg field between `lo` and `hi`. -/
def descOk (w : Word) (lo hi : Nat) : Bool :=
  decide (bitsOf w 63 24 = 0 ∧ bitsOf w 3 3 = 0 ∧ bitsOf w 7 4 < 12 ∧ lo ≤ descReg w ∧ descReg w ≤ hi)

/-! ### Routers (R304, R305) -/

/-- The cores whose routers a mesh message passes, X before Y. -/
def meshPath (a b : Nat) : List Nat :=
  let between (u v : Nat) : List Nat := (List.range ((if u < v then v - u else u - v) + 1)).map fun i => if u < v then u + i else u - i
  (between (gridX a) (gridX b)).map (fun x => coreAt x (gridY a)) ++ (between (gridY a) (gridY b)).map fun y => coreAt (gridX b) y

/-- Whether every router on the way between two cores belongs to a tenant. -/
def pathInside (s : State) (tenant : BitVec 4) (a b : Nat) : Bool := (meshPath a b).all (inRect (s.tenant tenant))

/-- Whether the place of a descriptor lies in the tenant of the thread in focus. -/
def descInTenant (s : State) (w : Word) : Bool :=
  decide (bitsOf w 23 20 = s.sys.host.mid.toNat) && inRect (s.tenant s.th.id.tenant) (coreNum (placeCore (placeOfDesc w)))

/-! ### Special registers (R152) -/

/-- The gang state's code in `status` (R315). -/
def gangCode : GangState → Nat
  | .none => 0
  | .leader => 1
  | .attached => 2
  | .detached => 3

/-- `status` as a word (R315). -/
def statusWord (t : Thread) : Word :=
  let r := t.sr
  BitVec.ofNat 64 (r.rept.toNat * 2 ^ 27 + r.repc.toNat * 2 ^ 16 + bitNat t.id.harv * 2 ^ 8 + gangCode t.gang.state * 2 ^ 6
    + bitNat r.ue * 2 ^ 5 + bitNat r.se * 2 ^ 4 + bitNat r.ppl * 2 + bitNat r.pl)

/-- Whether a thread's `epc0` to `epc2` are undefined: an attached follower's, outside a handler (R26). -/
def epcUndefined (t : Thread) : Bool := decide (t.gang.state = .attached) && !t.sr.se && !t.sr.ue

/-- What `mfsr` reads (R152, R267). Where R26 leaves `epc0` to `epc2` undefined they are free values (log 7). -/
def readSreg (s : State) (n : SReg) : Word :=
  let r := s.th.sr
  let w := windowOf s.core s.th
  match n with
  | .cid => BitVec.ofNat 64 s.here.cid.val
  | .tid => BitVec.ofNat 64 s.here.slot.val
  | .gid => BitVec.ofNat 64 (s.here.cid.val / 16)
  | .did => BitVec.ofNat 64 s.here.did.val
  | .mid => s.sys.host.mid.setWidth 64
  | .lid => s.th.id.lid.setWidth 64
  | .cyc => s.core.cyc
  | .vl => r.vl.setWidth 64
  | .flags => r.flags.setWidth 64
  | .qtier => r.qtier.setWidth 64
  | .cmdst => r.cmdst
  | .spbase => BitVec.ofNat 64 w.spBase
  | .splim => BitVec.ofNat 64 w.spLim
  | .scbase => BitVec.ofNat 64 w.scBase
  | .sclim => BitVec.ofNat 64 w.scLim
  | .wsp => r.wsp
  | .wlim => r.wlim
  | .mcfg => r.mcfg.setWidth 64
  | .xcfg => r.xcfg.setWidth 64
  | .status => statusWord s.th
  | .evcode => r.evcode.setWidth 64
  | .evaddr => r.evaddr
  | .epc0 => if epcUndefined s.th then Config.freeWord s.fresh else r.epc0
  | .epc1 => if epcUndefined s.th then Config.freeWord (s.fresh + 1) else r.epc1
  | .epc2 => if epcUndefined s.th then Config.freeWord (s.fresh + 2) else r.epc2
  | .eann => r.eann.setWidth 64
  | .uentry => r.uentry
  | .wdlim => r.wdlim.setWidth 64
  | .svec => r.svec
  | .sarea => r.sarea
  | .sscratch => r.sscratch

/-- Whether a level may read a special register (R152). -/
def sregReadable (super : Bool) : SReg → Bool
  | .svec | .sarea | .sscratch => super
  | _ => true

/-- Whether a level may write a special register (R152). -/
def sregWritable (super : Bool) : SReg → Bool
  | .vl | .flags | .mcfg | .xcfg | .evcode | .evaddr | .epc0 | .epc1 | .epc2 | .eann => true
  | .wsp | .wlim | .status | .uentry | .svec | .sarea | .sscratch => super
  | _ => false

/-- `mcfg` without its reserved bits, which read as 0 (R4, R230). -/
def mcfgBits (v : Word) : BitVec 32 := v.setWidth 32 &&& 0x7777

/-- What `mtsr` writes: the bits of the register's width; of `status` the RW fields (R315); bit 0 of `epc0`-`epc2` stays 0 (R318). -/
def writeSreg (r : Sregs) (n : SReg) (v : Word) : Sregs :=
  match n with
  | .vl => { r with vl := v.setWidth 16 }
  | .flags => { r with flags := v.setWidth 5 }
  | .mcfg => { r with mcfg := mcfgBits v }
  | .xcfg => { r with xcfg := v.setWidth 32 }
  | .evcode => { r with evcode := v.setWidth 8 }
  | .evaddr => { r with evaddr := v }
  | .epc0 => { r with epc0 := even v }
  | .epc1 => { r with epc1 := even v }
  | .epc2 => { r with epc2 := even v }
  | .eann => { r with eann := v.setWidth 3 }
  | .wsp => { r with wsp := v }
  | .wlim => { r with wlim := v }
  | .status => { r with rept := (v >>> 27).setWidth 11, repc := (v >>> 16).setWidth 11, ue := v.getLsbD 5, ppl := v.getLsbD 1 }
  | .uentry => { r with uentry := v }
  | .svec => { r with svec := v }
  | .sarea => { r with sarea := v }
  | .sscratch => { r with sscratch := v }
  | _ => r

/-! ### The save area (R328) -/

/-- The sequence number of a count of commands (R75): from 1 on, modulo 2^28, skipping 0. -/
def seqOf (n : Nat) : Nat := if n = 0 then 0 else (n - 1) % 268435455 + 1

/-- The identity of a `z` register as a 128-bit number (R107), with `n` coded in bits 82:81 (R328). -/
def zIdentity (z : ZVar) : Nat := z.key.toNat + z.index.toNat * 2 ^ 32 + bitNat z.inv * 2 ^ 80
def zSaved (z : ZVar) : Nat := zIdentity z + (if z.n = 32 then 1 else if z.n = 64 then 2 else 0) * 2 ^ 81

/-- A class's sequence record. -/
def seqWord (c : ClassSeq) : Word := BitVec.ofNat 64 (seqOf c.reported * 2 ^ 28 + seqOf c.issued)

/-- A bound register's record, word `k` of three. -/
def bindWord (mid : BitVec 4) (b : Option Binding) (k : Nat) : Word :=
  match b with
  | none => 0
  | some b => match k with
    | 0 => BitVec.ofNat 64 (b.reg.val % 8 + 8 * bitNat b.full)
    | 1 => descriptor mid b.sender 0
    | _ => b.held

/-- The word at offset 8·k of the save area that `ctxsv` writes (R328); `x` is the area's own xarea word. -/
def areaWord (s : State) (x : Word) (k : Nat) : Word :=
  let t := s.th
  let r := t.sr
  let c := claimOf s t.id.lid t.id.unit
  if k = 0 then r.wsp else if k = 1 then r.wlim else if k = 2 then x else if k = 3 then 0x101
  else if k = 4 then r.epc0 else if k = 5 then r.epc1 else if k = 6 then r.epc2 else if k = 7 then r.eann.setWidth 64
  else if k = 8 then statusWord t else if k = 9 then r.evcode.setWidth 64 else if k = 10 then r.evaddr
  else if k = 11 then r.flags.setWidth 64 else if k = 12 then BitVec.ofNat 64 (r.xcfg.toNat * 2 ^ 32 + r.mcfg.toNat)
  else if k = 13 then BitVec.ofNat 64 (t.ch.pkt * 2 ^ 24 + (bitNat (condReg t.rf 3) * 4 + bitNat (condReg t.rf 2) * 2
    + bitNat (condReg t.rf 1)) * 2 ^ 16 + r.vl.toNat)
  else if k = 14 then BitVec.ofNat 64 (gangCode t.gang.state * 2 ^ 8 + t.gang.rect.toNat) else if k = 15 then r.cmdst
  else if k = 16 then seqWord t.eng.matrix else if k = 17 then seqWord t.eng.copy else if k = 18 then seqWord t.eng.coll
  else if k = 19 then BitVec.ofNat 64 (t.id.wdcount % 2 ^ 32)
  else if k = 20 then (c.map (·.origin)).getD 0 else if k = 21 then (c.map (·.mask)).getD 0
  else if k = 22 then (c.map fun c => BitVec.ofNat 64 (c.seals.toNat * 2 ^ 32 + c.gen.toNat)).getD 0
  else if k = 23 then (if c.isSome then 1 else 0)
  else if k = 24 then (t.eng.gather.map (·.words.w0)).getD 0 else if k = 25 then (t.eng.gather.map (·.words.w1)).getD 0
  else if k = 26 then (t.eng.gather.map (·.words.w2)).getD 0
  else if k = 27 then (t.eng.gather.map fun g => BitVec.ofNat 64 (2 ^ 63 + g.pa * 2 ^ 8 + g.entry.val)).getD 0
  else if k = 28 then BitVec.ofNat 64 (bitNat t.lat.signal.pending * 4 + bitNat t.lat.mcheck.pending * 2 + bitNat t.lat.dbg.pending)
  else if k = 29 then t.lat.sigv else if k = 30 then t.lat.mcka else if k = 31 then BitVec.ofNat 64 (t.rf.depth % 2 ^ 32)
  else if h : k < 39 then
    let x : Reg := ⟨(k - 31) % 32, Nat.mod_lt _ (by decide)⟩
    if isBound t x then 0 else rawReg t.rf x
  else if k = 39 then 0
  else if k < 52 then bindWord s.sys.host.mid t.ch.binds[(k - 40) / 3]? ((k - 40) % 3)
  else if h : k < 68 then
    let p := t.rf.p[(k - 52) % 16]'(Nat.mod_lt _ (by decide))
    BitVec.ofNat 64 (p.stride.toNat * 2 ^ 20 + p.addr.toNat)
  else if h : k < 92 then
    let z := t.rf.z[(k - 68) / 3 % 8]'(Nat.mod_lt _ (by decide))
    if (k - 68) % 3 = 0 then BitVec.ofNat 64 (zSaved z) else if (k - 68) % 3 = 1 then BitVec.ofNat 64 (zSaved z / 2 ^ 64)
    else z.cache
  else if h : k < 116 then t.rf.win[(k - 92) % 24]'(Nat.mod_lt _ (by decide))
  else 0

/-- The bytes of words `k`, `k + 1`, …, `n` of them. -/
def wordsBytes (f : Nat → Word) (k : Nat) : Nat → List Byte
  | 0 => []
  | n + 1 => wordBytes (f k) ++ wordsBytes f (k + 1) n

/-- Word `k` of a run of bytes. -/
def wordAt (bs : List Byte) (k : Nat) : Word := wordOf ((bs.drop (8 * k)).take 8)

/-- A pointer register from its 64-bit value (R51). -/
def ptrOf (w : Word) : Ptr := { addr := w.setWidth 20, stride := (w >>> 20).setWidth 16 }

/-- A `z` register from its saved words. -/
def zOf (a b c : Word) : ZVar :=
  let n := if bitsOf b 18 17 = 1 then 32 else if bitsOf b 18 17 = 2 then 64 else 0
  { key := a.setWidth 32, index := BitVec.ofNat 48 (bitsOf a 63 32 + bitsOf b 15 0 * 2 ^ 32), inv := b.getLsbD 16
    n := n, cache := if n = 0 then 0 else c }

/-- A bound register from its record, where the record is used. -/
def bindOf (a b c : Word) : List Binding :=
  if bitsOf a 2 0 = 0 then [] else [⟨⟨bitsOf a 2 0 % 32, Nat.mod_lt _ (by decide)⟩, placeOfDesc b, a.getLsbD 3, c⟩]

/-- How many commands of a unit and class have not retired. -/
def inFlightOf (s : State) (lid : BitVec 32) (unit : BitVec 16) (k : EngClass) : Nat :=
  ((allCommands s).filter fun c => decide (c.lid = lid ∧ c.unit = unit ∧ c.cls = k)).length

/-- A class's counts from its record: what was issued has retired, but for the commands still in flight. -/
def seqOfWord (old : ClassSeq) (flight : Nat) (w : Word) : ClassSeq :=
  { old with issued := bitsOf w 27 0, retired := bitsOf w 27 0 - flight, reported := bitsOf w 55 28 }

/-- A tensor-table entry of the extension (R329). -/
def extEntry (ext : List Byte) (d : Nat) : TEntry := ⟨wordAt ext (3 * d), wordAt ext (3 * d + 1), entryBits (wordAt ext (3 * d + 2))⟩

/-- A thread loaded from its area and extension (R328 to R330): one window resident. The claim fields are not read. DESIGN CHOICE (log 14): a
request that reached the thread after its context was saved stays pending, while a message that did gives way to what the area holds. -/
def loadContext (flight : EngClass → Nat) (t : Thread) (a ext : List Byte) : Thread :=
  let w := wordAt a
  { t with
    rf := {
      g := Vector.ofFn fun i : Fin 8 => if i.val = 0 then 0 else w (31 + i.val)
      win := Vector.ofFn fun i : Fin 24 => w (92 + i.val)
      olds := []
      depth := bitsOf (w 31) 31 0
      p := Vector.ofFn fun i : Fin 16 => ptrOf (w (52 + i.val))
      c := Vector.ofFn fun i : Fin 4 => decide (i.val ≠ 0) && (w 13).getLsbD (15 + i.val)
      z := Vector.ofFn fun i : Fin 8 => zOf (w (68 + 3 * i.val)) (w (69 + 3 * i.val)) (w (70 + 3 * i.val)) }
    sr := { t.sr with
      wsp := w 0, wlim := w 1
      epc0 := even (w 4), epc1 := even (w 5), epc2 := even (w 6), eann := (w 7).setWidth 3
      rept := (w 8 >>> 27).setWidth 11, repc := (w 8 >>> 16).setWidth 11
      ue := (w 8).getLsbD 5, se := (w 8).getLsbD 4, ppl := (w 8).getLsbD 1, pl := (w 8).getLsbD 0
      evcode := (w 9).setWidth 8, evaddr := w 10, flags := (w 11).setWidth 5
      xcfg := (w 12 >>> 32).setWidth 32, mcfg := mcfgBits (w 12)
      vl := (w 13).setWidth 16, cmdst := w 15 }
    id := { t.id with wdcount := bitsOf (w 19) 31 0 }
    ch := {
      pkt := bitsOf (w 13) 29 24
      binds := bindOf (w 40) (w 41) (w 42) ++ bindOf (w 43) (w 44) (w 45) ++ bindOf (w 46) (w 47) (w 48)
        ++ bindOf (w 49) (w 50) (w 51) }
    eng := { t.eng with
      matrix := seqOfWord t.eng.matrix (flight .matrix) (w 16)
      copy := seqOfWord t.eng.copy (flight .copy) (w 17)
      coll := seqOfWord t.eng.coll (flight .coll) (w 18)
      gather := if (w 27).getLsbD 63 then
          some ⟨⟨bitsOf (w 27) 5 0 % 64, Nat.mod_lt _ (by decide)⟩, ⟨w 24, w 25, w 26⟩, bitsOf (w 27) 11 8⟩
        else none
      tens := (List.range 64).foldl (fun m d => sparsePut {} m d (extEntry ext d)) [] }
    lat := { t.lat with
      signal := t.lat.signal.loaded ((w 28).getLsbD 2), mcheck := t.lat.mcheck.loaded ((w 28).getLsbD 1)
      dbg := t.lat.dbg.loaded ((w 28).getLsbD 0)
      sigv := if t.lat.signal.pending && !t.lat.signal.kept then t.lat.sigv else w 29
      mcka := if t.lat.mcheck.pending && !t.lat.mcheck.kept then t.lat.mcka else w 30 }
    gang := { t.gang with
      state := if bitsOf (w 14) 9 8 = 1 then .leader else if bitsOf (w 14) 9 8 = 0 then .none else .detached
      rect := (w 14).setWidth 8 } }

/-- A permit's record in the extension (R329). -/
def permitWord (mid : BitVec 4) (p : Permit) : Word :=
  descriptor mid p.dst p.reg + BitVec.ofNat 64 (bitNat p.credit * 2 ^ 32 + 2 ^ 63)

/-- The words of the context extension (R329): the tensor table, then the permits held for the thread's slot. -/
def extWord (s : State) (k : Nat) : Word :=
  if k < 192 then
    let e := sparseGet {} s.th.eng.tens (k / 3)
    if k % 3 = 0 then e.w0 else if k % 3 = 1 then e.w1 else e.w2
  else
    (((s.core.permits.filter fun p => decide (p.slot = s.here.slot))[k - 192]?).map (permitWord s.sys.host.mid)).getD 0

/-- The permits of an extension, for a slot. -/
def extPermits (slot : Fin 12) (ext : List Byte) : List Permit :=
  (List.range 64).filterMap fun i =>
    let w := wordAt ext (192 + i)
    if w.getLsbD 63 then some ⟨slot, placeOfDesc w, descReg w, w.getLsbD 32⟩ else none

/-- Where an area lies: aligned, translated for the supervisor, in canopy (R271), or the event. -/
def areaAddr (s : State) (acc : Access) (va : Word) (n : Nat) : Except Ev Nat :=
  if va.toNat % n ≠ 0 then .error ⟨evAlign, va⟩
  else if (localAddr va).isSome then .error ⟨evKind, va⟩
  else match translate s s.th.id.tenant true acc va with
    | .error e => .error e
    | .ok (pa, _) =>
      if !isCanopy pa then .error ⟨evKind, va⟩
      else if decide (acc = .read) && anyBad s pa n then .error ⟨evMcheck, va⟩
      else .ok pa

/-- The accesses to a save area and its extension fill the TLBs (R336). -/
def areaTouched (s : State) (va x : Word) : State := fillTlb (fillTlb s s.th.id.tenant va) s.th.id.tenant x

/-- Spill every resident window but the current one, without the limit of `wlim` (R330). -/
def spillAll (s : State) (p : Place) : Nat → Except Ev State
  | 0 => .ok s
  | n + 1 =>
    match spillOldest s p false with
    | .moved s' => spillAll s' p n
    | .event e => .error e
    | .impossible => .ok s

/-- `ctxsv` to an area (R328 to R330): the windows, the area, the extension. It reads `xarea` in the area's header, which may meet an
uncorrectable error (R327). -/
def saveContext (s : State) (va : Word) : Except Ev State :=
  match areaAddr s .write va 1024 with
  | .error e => .error e
  | .ok pa =>
    let x := wordOf (physBytes s (pa + 16) 8) &&& 0xFFFFFFFFFFFFF800
    if anyBad s (pa + 16) 8 then .error ⟨evMcheck, va⟩ else
    match areaAddr s .write x 2048 with
    | .error e => .error e
    | .ok xpa =>
      match spillAll (reachRead (areaTouched s va x) (coreSender s false (requesterOf s.th.id.tenant 0)) (runFrom (pa + 16) 8)) s.here 3 with
      | .error e => .error e
      | .ok s1 =>
        let w := requesterOf s.th.id.tenant 0
        .ok (storePhys (storePhys s1 w pa (wordsBytes (areaWord s1 x) 0 128)) w xpa (wordsBytes (extWord s1) 0 256))

/-- `ctxld` from an area (R328 to R330). DESIGN CHOICE (log 14): the permits of the slot are those of the extension, not what was installed or
returned since the context was saved. -/
def restoreContext (s : State) (va : Word) : Except Ev State :=
  match areaAddr s .read va 1024 with
  | .error e => .error e
  | .ok pa =>
    let x := wordOf (physBytes s (pa + 16) 8) &&& 0xFFFFFFFFFFFFF800
    match areaAddr s .read x 2048 with
    | .error e => .error e
    | .ok xpa =>
      let ext := physBytes s xpa 2048
      let s := reachRead (areaTouched s va x) (coreSender s false (requesterOf s.th.id.tenant 0)) (runFrom pa 1024 ++ runFrom xpa 2048)
      let s1 := s.withTh (loadContext (inFlightOf s s.th.id.lid s.th.id.unit) s.th (physBytes s pa 1024) ext)
      .ok (s1.withCore { s1.core with
        permits := (s1.core.permits.filter fun p => !decide (p.slot = s.here.slot)) ++ extPermits s.here.slot ext })

end Sys2Proof.Machine
end

