-- ==== Sys2Proof/Machine/Launch.lean ====
section
/-! DEFINITION. Launch records, `lnch` and the admission of launches (R251, R291, R302, R342 to R345). -/

namespace Sys2Proof.Machine

/-! ### The launch record (R343) -/

/-- A launch record: eight words. -/
abbrev LaunchRec := List Word

/-- Word `k` of a record. -/
def recWord (r : LaunchRec) (k : Nat) : Word := (r[k]?).getD 0

def recEntry (r : LaunchRec) : Word := recWord r 0 &&& 0xFFFFFFFFFFFFFFFE
def recUnits (r : LaunchRec) : Nat := if bitsOf (recWord r 2) 63 32 = 0 then 1 else bitsOf (recWord r 2) 63 32
def recClass (r : LaunchRec) : Nat := bitsOf (recWord r 2) 31 30
def recDims (r : LaunchRec) : Nat := bitsOf (recWord r 2) 29 28 + 1
def recWdlim (r : LaunchRec) : BitVec 32 :=
  let k := bitsOf (recWord r 2) 27 24
  if k = 0 then 0x40000000 else BitVec.ofNat 32 (2 ^ (k + 16))
def recScratch (r : LaunchRec) : Nat := bitsOf (recWord r 2) 23 12
def recScale (r : LaunchRec) : Nat := bitsOf (recWord r 2) 11 2
def recGrain (r : LaunchRec) (d : Nat) : Nat := bitsOf (recWord r 3) (16 * d + 15) (16 * d)
def recSched (r : LaunchRec) : Word := recWord r 4 &&& 0xFFFFFFFFFFFFFFE0
def recTens (r : LaunchRec) : Word := recWord r 5 &&& 0xFFFFFFFFFFFFFF80
def recCount (r : LaunchRec) : Nat := bitsOf (recWord r 5) 6 0
def recTrap (r : LaunchRec) : Word := recWord r 6 &&& 0xFFFFFFFFFFFFFFFE
def recHasTrap (r : LaunchRec) : Bool := (recWord r 6).getLsbD 0
def recTag (r : LaunchRec) : Nat := bitsOf (recWord r 7) 63 48
def recWaits (r : LaunchRec) (i : Nat) : Bool := (recWord r 7).getLsbD (32 + i)
def recSet (r : LaunchRec) : Nat := bitsOf (recWord r 7) 31 24
def recCompressed (r : LaunchRec) : Bool := (recWord r 7).getLsbD 23
def recTenant (r : LaunchRec) : Nat := bitsOf (recWord r 7) 22 19
def recStack (r : LaunchRec) : Nat := bitsOf (recWord r 7) 15 0

/-- Whether a record is free of reserved bits and values (R343, R344; log 30). -/
def recordOk (r : LaunchRec) : Bool :=
  decide (recEntry r ≠ 0) && !(recWord r 0).getLsbD 0 && decide (bitsOf (recWord r 2) 1 0 = 0 ∧ bitsOf (recWord r 4) 4 0 = 0)
    && decide (bitsOf (recWord r 7) 18 16 = 0) && decide (recScratch r ≤ 3072 ∧ recScale r ≤ 512 ∧ recCount r ≤ 64)
    && (List.range 4).all fun d => decide (d < recDims r) == decide (recGrain r d ≠ 0)

/-! ### `lnch` (R251) -/

/-- Words from bytes. -/
def wordsOf (bs : List Byte) : Nat → List Word
  | 0 => []
  | n + 1 => wordOf (bs.take 8) :: wordsOf (bs.drop 8) n

/-- Whether a record may be requested by the thread in focus. -/
def lnchOk (s : State) (r : LaunchRec) : Bool :=
  recordOk r && decide (recClass r ≠ 0 ∧ recTenant r = s.th.id.tenant.toNat)
    && (decide (recSet r = 0) || decide (recSet r = (s.launch s.th.id.lid).cset))

/-- The device launches that wait on a die. -/
def deviceQueue (s : State) (d : Nat) : List DeviceReq := sparseGet [] s.sys.work.deviceQ d

/-- Replace the device launches of a die. -/
def putDeviceQueue (s : State) (d : Nat) (q : List DeviceReq) : State :=
  s.withWork { s.sys.work with deviceQ := sparsePut [] s.sys.work.deviceQ d q }

/-- The job's latest phase not yet closed, which a launch requested now belongs to: the issuer's, or a later one if that is closed (R260). -/
def requestPhase (s : State) (j : Nat) : Nat := (s.job j).current

/-- Request a device launch: it gets its `lid` and its tier, and waits in the die's queue (R147, R251). -/
def requestLaunch (s : State) (r : LaunchRec) : State :=
  let l := s.launch s.th.id.lid
  let d := s.here.did.val
  let q : DeviceReq :=
    { job := l.job, phase := requestPhase s l.job, lid := BitVec.ofNat 32 s.sys.work.nextLid, tier := s.sys.layers.tier, words := r }
  let s := putDeviceQueue s d (deviceQueue s d ++ [q])
  s.withWork { s.sys.work with nextLid := s.sys.work.nextLid + 1 }

/-- `lnch`. -/
def execLnch (d a : Reg) (s : State) : Out :=
  withRegs [a] [d] s <|
    let ea := s.reg a
    withBytes ea 64 s fun s rot bs =>
      let r := wordsOf bs 8
      if !lnchOk s r then raiseEv operandError s
      else if 64 ≤ (deviceQueue s s.here.did.val).length then waitOn .launchQueue s
      else releaseFirst s <|
        finish ((requestLaunch (takeMsgs s [a]) r).setReg d (BitVec.ofNat 64 (s.sys.work.nextLid % 2 ^ 32))) rot

/-! ### Admission (R291, R302) -/

/-- The block of `.sched` in memory (R243, R343): dimensions from `dims` on have extent and tile extent 1, and order digits 0. DESIGN CHOICE
(log 26): the spec names no check of this block at admission, and there is none; a block that `schw` would refuse is used as it stands. -/
def schedOfBytes (dims : Nat) (bs : List Byte) : Sched :=
  let w (k : Nat) : Word := wordOf ((bs.drop (8 * k)).take 8)
  let e (d : Nat) : Nat := if d < dims then bitsOf (w 0) (16 * d + 15) (16 * d) else 1
  let keep : BitVec 12 := BitVec.ofNat 12 (2 ^ (3 * dims) - 1)
  { ext := packOrigin e, dims := dims, geom := { tile := (w 1 >>> 8).setWidth 12 &&& keep, order := (w 1).setWidth 8 &&& BitVec.ofNat 8 (4 ^ dims - 1), place := w 2 } }

/-- Tensor initialisers, 24 bytes each (R343). -/
def tensOfBytes (bs : List Byte) : Nat → List TEntry
  | 0 => []
  | n + 1 =>
    ⟨wordOf (bs.take 8), wordOf ((bs.drop 8).take 8), entryBits (wordOf ((bs.drop 16).take 8))⟩ :: tensOfBytes (bs.drop 24) n

/-- The cores of a tenant's rectangle in row-major order of the grid. -/
def rectCores (t : Tenant) : List Nat :=
  ((List.range t.h).map fun y => (List.range t.w).map fun x => coreAt (t.x0 + x) (t.y0 + y)).flatten

/-- The sub-mesh the forester grants: the cores it names inside the tenant's rectangle, or all of that (R304, log 23). -/
def grantedMesh (s : State) (tenant : BitVec 4) (lid : BitVec 32) : List Nat :=
  let all := rectCores (s.tenant tenant)
  let named := all.filter (Config.subMesh tenant.toNat lid.toNat).contains
  if named.isEmpty then all else named

/-- Whether the members of a collective set include the module (R344). -/
def setOk (s : State) (vf set : Nat) : Bool :=
  let c := sparseGet {} s.sys.csets (vf * 256 + set)
  decide (set = 0) || (c.valid && c.members.getLsbD s.sys.host.mid.toNat)

/-- Whether a tenant may be given launches: it exists and has a core supervisor (R291, R314). -/
def tenantServed (s : State) (t : BitVec 4) : Bool := (s.tenant t).live && (s.tenant t).entry.getLsbD 0

/-- What the forester's reads of a launch's block and initialisers do besides their values. -/
def dataRead (s : State) (r : LaunchRec) : State :=
  let t := BitVec.ofNat 4 (recTenant r)
  readTouched (readTouched s t (recSched r) 32) t (recTens r) (24 * recCount r)

/-- What memory gives a launch: its block and its tensor initialisers. -/
def launchData (s : State) (r : LaunchRec) : Option (Sched × List TEntry) :=
  let t := BitVec.ofNat 4 (recTenant r)
  match readVirtual s t (recSched r) 32, readVirtual s t (recTens r) (24 * recCount r) with
  | some b, some e => some (schedOfBytes (recDims r) b, tensOfBytes e (recCount r))
  | _, _ => none

/-- The launches that a launch waits for (R343), given the earlier ones of its graph, oldest first. -/
def waitedFor (r : LaunchRec) (earlier : List (BitVec 32)) : List Nat :=
  (earlier.reverse.mapIdx fun i l => (i, l)).filterMap fun x => if x.1 < 16 && recWaits r x.1 then some x.2.toNat else none

/-- The launch a record gives, but for the place of its clearing map. -/
def launchOf (s : State) (r : LaunchRec) (lid : BitVec 32) (job phase : Nat) (tier : BitVec 3) (recAt : Option Word)
    (b : Sched) (ts : List TEntry) : Launch :=
  let t := BitVec.ofNat 4 (recTenant r)
  { lid := lid, job := job, phase := phase, graph := recTag r, tenant := t, entry := recEntry r, arg := recWord r 1
    units := recUnits r, cls := BitVec.ofNat 2 (recClass r), wdlim := recWdlim r, scratch := recScratch r * 256
    scale := recScale r * 64, tens := ts, trap := recTrap r, hasTrap := recHasTrap r
    waits := waitedFor r ((s.job job).graph (recTag r)).members
    cset := recSet r, compressed := recCompressed r, wstack := if recStack r = 0 then 4096 else recStack r * 128, qtier := tier
    mesh := grantedMesh s t lid
    sched := b
    order := s.sys.work.stamp
    recAt := recAt
    record := { expect := BitVec.ofNat 32 (recUnits r) } }

/-- Whether a launch's job, phase or graph has been cancelled, which cancels it as well (R300). -/
def bornCancelled (s : State) (l : Launch) : Bool :=
  let j := s.job l.job
  l.cancelling || j.cancelled || (j.phase l.phase).cancelled || (decide (l.graph ≠ 0) && (j.graph l.graph).cancelled)

/-- Count a new launch in the records above it: a graph of its own, or one more member of its graph (R298, R345). A graph that was cancelled
before its first member was admitted stays so, and one that begins in a cancelled phase or job is cancelled with it (R300). -/
def countMember (s : State) (l : Launch) : State :=
  let j := s.job l.job
  let p := j.phase l.phase
  let old := j.graph l.graph
  let newGraph := decide (l.graph = 0 ∨ old.record.expect = 0 ∨ old.record.done = true)
  let j := if p.known then j else { j with record := { j.record with expect := j.record.expect + 1 } }
  let p := { p with known := true, record := if newGraph then { p.record with expect := p.record.expect + 1 } else p.record }
  let j := j.putPhase l.phase p
  let early := old.cancelled && decide (old.record.expect = 0)
  let g : GraphRec := if newGraph then
      { phase := l.phase, cancelled := early || p.cancelled || j.cancelled, record := { cancel := early && old.record.cancel } }
    else old
  let j := if l.graph = 0 then j else
    j.putGraph l.graph { g with members := g.members ++ [l.lid], record := { g.record with expect := g.record.expect + 1 } }
  let s := writePhase (writeJob (s.putJob l.job j) l.job) l.job l.phase
  if l.graph = 0 then s else writeGraph s l.job l.graph

/-- Admit a launch, its clearing map at a place (R302). A launch of a cancelled object has every unit cancelled. -/
def admitLaunch (s : State) (l : Launch) (at_ : Word × Nat) : State :=
  let l := { l with sched := { l.sched with map := at_.1, mapPa := at_.2 } }
  let s := openMap (countMember s l) l
  let s := s.withWork { s.sys.work with stamp := s.sys.work.stamp + 1 }
  if bornCancelled s l then
    settleAbove (putRecorded s l.lid { l with
      gone := List.range l.units, record := { l.record with cancelled := l.record.expect, cancel := true } }) l.job l.graph l.phase
  else putRecorded s l.lid l

/-- The completion record of a refused launch (R291, R344). -/
def refusedRecord (units : Nat) : Record := { expect := BitVec.ofNat 32 units, refused := true, done := true }

/-- Write the record of a refused launch: at its address, or among those of the forester's area (R297). -/
def writeRefused (s : State) (tenant : BitVec 4) (recAt : Option Word) (lid : BitVec 32) (units : Nat) : State :=
  match recAt with
  | some va => writeRecord s tenant va (refusedRecord units)
  | none => keepRecord s lid (refusedRecord units)

/-- The forester admits a record or refuses it (R291). A block or initialisers that it cannot read refuse the launch as well (log 30). One that was
cancelled while it waited is not refused: it is admitted as such, and counted so, also where its tenant is being removed (R300, R380). None
while there is no room for its clearing map. -/
def admitRecord (s : State) (r : LaunchRec) (lid : BitVec 32) (job phase : Nat) (tier : BitVec 3) (recAt : Option Word)
    (cancelled : Bool := false) : Option (State × Bool) :=
  let t := BitVec.ofNat 4 (recTenant r)
  let data := launchData s r
  let s := dataRead s r
  match if cancelled then some (data.getD ({}, [])) else data with
  | some (b, ts) =>
    if !cancelled && (!tenantServed s t || decide (2 ^ 28 < grainCount b)) then some (writeRefused s t recAt lid (recUnits r), false)
    else
      let l := { launchOf s r lid job phase tier recAt b ts with cancelling := cancelled }
      (mapPlace s l).map fun at_ => (admitLaunch s l at_, true)
  | none => some (writeRefused s t recAt lid (recUnits r), false)

/-! ### Rings (R342, R344, R345) -/

/-- Whether the ring of a job has an entry to read. -/
def ringReady (r : Ring) : Bool := r.en && decide (r.head ≠ r.tail)

/-- The address of the completion record of the ring's next entry (R344). -/
def entryRecordAt (r : Ring) : Word := r.cbase + BitVec.ofNat 64 (32 * (r.head.toNat % 2 ^ r.lsize.toNat))

/-- The ring's head passes its next entry. -/
def consumeEntry (s : State) (j : Nat) : State :=
  let r := s.ring j
  s.putRing j { r with head := r.head + 1, tiers := r.tiers.filter fun x => !decide (x.1 = r.head + 1) }

/-- The tier of the ring's next entry: the module's when the tail passed it (R147). -/
def entryTier (s : State) (r : Ring) : BitVec 3 := ((r.tiers.head?).map (·.2)).getD s.sys.layers.tier

/-- Close the membership of every graph of a job but the one with a tag (R345). -/
def closeGraphs (j : Job) (except : Nat) : Job :=
  { j with graphs := j.graphs.map fun g => (g.1, if g.1 = except then g.2 else { g.2 with closed := true }) }

/-- Close the current phase of a job: the next one begins (R260, R344). -/
def closeCurrent (s : State) (jn : Nat) : State :=
  let j := closeGraphs (s.job jn) 0
  let p := j.phase j.current
  let j := if p.known then j else { j with record := { j.record with expect := j.record.expect + 1 } }
  writeJob (s.putJob jn { j.putPhase j.current { p with closed := true, known := true } with current := j.current + 1 }) jn

/-- Whether the record place of the current phase or of a graph is still held by an earlier phase or graph (R345). -/
def placeHeld (j : Job) (tag : Nat) : Bool :=
  (decide (63 ≤ j.current) && (j.phase (j.current - 63)).known && !(j.phase (j.current - 63)).record.done
    && !(j.phase j.current).known)
    || (decide (tag ≠ 0) && (let g := j.graph tag
        decide (g.record.expect ≠ 0) && !g.record.done && (g.closed || decide (g.phase ≠ j.current))))

/-- Refuse a ring entry with a tag, or a control entry: it is consumed, its record has refused and done set (R344), and it closes the
membership of every other graph (R345). -/
def refuseEntry (s : State) (j tag : Nat) : State :=
  let s := s.putJob j (closeGraphs (s.job j) tag)
  raiseRing (consumeEntry (writeRefused s (jobTenant j) (some (entryRecordAt (s.ring j))) 0 0) j) j

/-- A control entry with operation 1 (R344). One that closes an empty phase takes a place for that phase's record, and waits for it (R345). -/
def controlClose (s : State) (j : Nat) : State := if placeHeld (s.job j) 0 then s else consumeEntry (closeCurrent s j) j

/-- A control entry with operation 2 (R344). -/
def controlRetire (s : State) (j : Nat) : State :=
  let s := s.putJob j { closeGraphs (s.job j) 0 with retired := true }
  consumeEntry s j

/-- Take a launch entry of a ring whose words the forester has read. -/
def takeEntry (s : State) (j : Nat) (r : LaunchRec) : State :=
  let tag := recTag r
  if placeHeld (s.job j) tag then s
  else if !recordOk r || decide (recTenant r ≠ (jobTenant j).toNat) || !setOk s (j / 16) (recSet r) then refuseEntry s j tag
  else
    let u := s.putJob j (closeGraphs (s.job j) tag)
    let lid := BitVec.ofNat 32 u.sys.work.nextLid
    match admitRecord u r lid j (u.job j).current (entryTier u (u.ring j)) (some (entryRecordAt (u.ring j))) with
    | none => s
    | some x =>
      let s1 := consumeEntry x.1 j
      if x.2 then s1.withWork { s1.sys.work with nextLid := s1.sys.work.nextLid + 1 } else raiseRing s1 j

/-- LAUNCH_ADMISSION: the next entry of a ring, a control entry included, or the oldest device launch of a die. -/
def execLaunchAdmission (src : LaunchSource) (s : State) : Out :=
  if !foresters s then .next s else
  match src with
  | .ring j ws =>
    let n := jobNum j
    if !ringReady (s.ring n) then .next s
    else if recWord ws 0 = 0 then
      let op := bitsOf (recWord ws 1) 7 0
      .next (if op = 1 then controlClose s n else if op = 2 then controlRetire s n else refuseEntry s n 0)
    else .next (takeEntry s n ws)
  | .device d =>
    match deviceQueue s d.val with
    | [] => .next s
    | q :: t => .next (((admitRecord (putDeviceQueue s d.val t) q.words q.lid q.job q.phase q.tier none q.cancelled).map (·.1)).getD s)

/-- CLOSE_PHASE: the ring's next entry is a control entry 0x01 (R344). -/
def execClosePhase (j : JobId) (s : State) : Out :=
  .next (if foresters s && ringReady (s.ring (jobNum j)) then controlClose s (jobNum j) else s)

/-- RETIRE_JOB: the ring's next entry is a control entry 0x02 (R344). -/
def execRetireJob (j : JobId) (s : State) : Out :=
  .next (if foresters s && ringReady (s.ring (jobNum j)) then controlRetire s (jobNum j) else s)

end Sys2Proof.Machine
end

