-- ==== Sys2Proof/Machine/Channels.lean ====
section
/-! DEFINITION. Channels (R72 to R74, R125, R252 to R256), router checks (R305) and probes for wait cycles (R325). -/

namespace Sys2Proof.Machine

/-! ### Binding (R253) -/

/-- The permit of a sender's slot toward a register of a receiver. -/
def permitFor (c : Core) (slot : Fin 12) (dst : Place) (reg : Nat) : Option Permit :=
  c.permits.find? fun p => decide (p.slot = slot ∧ p.dst = dst ∧ p.reg = reg)

/-- The adjacent core in the direction of a neighbour port `g1`-`g4`: north, east, south, west (R7, R73). -/
def neighbour (core : Nat) (g : Nat) : Option Nat :=
  let x := gridX core
  let y := gridY core
  if g = 1 then (if y = 0 then none else some (coreAt x (y - 1)))
  else if g = 2 then (if x = 63 then none else some (coreAt (x + 1) y))
  else if g = 3 then (if y = 63 then none else some (coreAt x (y + 1)))
  else (if x = 0 then none else some (coreAt (x - 1) y))

/-- Whether a sender's place obeys R73 for register `g` of the thread in focus. -/
def portOk (s : State) (g : Nat) (q : Place) : Bool :=
  decide (4 < g) || (decide (neighbour s.hereCore g = some (coreNum (placeCore q))) && decide (q.slot = s.here.slot))

/-- `chbind`. A router that drops the permit on its way is the last check (R305). -/
def execChbind (g a : Reg) (s : State) : Out :=
  match emptySource s.th [a] with
  | some x => waitOn (.boundReg x) s
  | none =>
    let d := s.reg a
    let q := placeOfDesc d
    let c := coreNum (placeCore q)
    if !descOk d 0 0 then raiseEv operandError s
    else if !descInTenant s d then raise evTenant d s
    else if isBound s.th g || decide (4 ≤ s.th.ch.binds.length) || !portOk s g.val q
        || decide (64 ≤ (s.coreBy c).permits.length) then raise evChan d s
    else if !pathInside s s.th.id.tenant s.hereCore c then raise evTenant d s
    else
      let s1 := takeMsgs s [a]
      let k := s1.coreBy c
      let s2 := s1.putCore c { k with permits := k.permits ++ [⟨q.slot, s.here, g.val, true⟩] }
      finish (s2.withTh { s2.th with ch := { s2.th.ch with binds := s2.th.ch.binds ++ [⟨g, q, false, 0⟩] } }) (.inFlight .permit)

/-- Whether a message for a register of the thread in focus is on its way, or a sender waits with one. -/
def messageWaits (s : State) (g : Nat) : Bool :=
  s.sys.work.msgs.any (fun m => decide (m.dst = s.here ∧ m.reg = g))
    || s.boundPlaces.any fun p => decide ((s.thr p).rot = .waiting (.credit s.here g))

/-- `chfree`: the register's value is then free (log 7). -/
def execChfree (g : Reg) (s : State) : Out :=
  match bindingOf s.th g with
  | none => raise evChan (BitVec.ofNat 64 g.val) s
  | some b =>
    if b.full || messageWaits s g.val then raise evChan (BitVec.ofNat 64 g.val) s
    else
      let s1 := freeBinding s s.here b
      let s2 := s1.withTh { s1.th with
        ch := { s1.th.ch with binds := s1.th.ch.binds.filter fun x => !decide (x.reg = g) } }
      finish ({ s2 with fresh := s2.fresh + 1 }.setReg g (Config.freeWord s2.fresh)) (.inFlight .permit)

/-- PERMIT_INSTALLED: the permit is in place or gone, and the thread comes back into rotation (R253). -/
def execPermitInstalled (p : Place) (s : State) : Out :=
  let t := s.thr p
  .next (match t.rot with
    | .inFlight .permit => s.putThr p { t with rot := .ready }
    | _ => s)

/-! ### Sending (R254, R255) -/

/-- Spend the credit of a permit of the core in focus. -/
def spendCredit (c : Core) (slot : Fin 12) (dst : Place) (reg : Nat) : Core :=
  { c with permits := c.permits.map fun p =>
    if p.slot = slot ∧ p.dst = dst ∧ p.reg = reg then { p with credit := false } else p }

/-- Where the receiver stands that the thread in focus calls by a place and a register: there, or where it has moved since (R256). -/
def receiverOf (s : State) (q : Place) (g : Nat) : Place :=
  if (permitFor s.core s.here.slot q g).isSome then q
  else match s.sys.work.renamed.find? fun r => decide (r.src = s.here ∧ r.old = q ∧ r.reg = g) with
    | some r => r.new
    | none => q

/-- `snd` and `snd.e` (`last`). A descriptor of another module names no permit of this one. DESIGN CHOICE (log 44): a 16th message raises
OPERAND before the permit is looked for. -/
def send (last : Bool) (a b : Reg) (s : State) : Out :=
  withRegs [a, b] [] s <|
    let d := s.reg a
    let g := descReg d
    let q := receiverOf s (placeOfDesc d) g
    if !descOk d 1 6 || (!last && decide (15 ≤ s.th.ch.pkt)) then raiseEv operandError s
    else match if bitsOf d 23 20 = s.sys.host.mid.toNat then permitFor s.core s.here.slot q g else none with
      | none => raise evChan d s
      | some p =>
        if !p.credit then waitOn (.credit q g) s
        else releaseFirst s <|
          let s1 := s.withCore (spendCredit s.core s.here.slot q g)
          let s2 := s1.withWork { s1.sys.work with msgs := s1.sys.work.msgs ++ [⟨s.here, s.th.id.lid, s.th.id.unit, s.th.id.tenant, q, g, s.reg b⟩] }
          let s3 := takeMsgs s2 [a, b]
          finish (s3.withTh { s3.th with ch := { s3.th.ch with pkt := if last then 0 else s3.th.ch.pkt + 1 } })

/-- `snd` (R254). -/
def execSnd (a b : Reg) (s : State) : Out := send false a b s

/-- `snd.e` (R254, R255). -/
def execSndE (a b : Reg) (s : State) : Out := send true a b s

/-! ### Routers (R304, R305) -/

/-- Take the `n`-th of a list out of it. -/
def takeNth {α : Type} : List α → Nat → Option (α × List α)
  | [], _ => none
  | x :: t, 0 => some (x, t)
  | x :: t, n + 1 => (takeNth t n).map fun r => (r.1, x :: r.2)

/-- A unit will take TENANT with a descriptor at its next boundary, once it is bound again where it is saved (R305, R312). DESIGN CHOICE (log 46):
what is dropped twice before that boundary is reported once, with the later descriptor. -/
def reportDrop (s : State) (lid : BitVec 32) (unit : BitVec 16) (d : Word) : State :=
  match placeOfUnit s lid unit with
  | some p => s.putThr p { s.thr p with lat := { (s.thr p).lat with drop := some d } }
  | none => s.withWork { s.sys.work with saved := s.sys.work.saved.map fun u =>
      if u.lid = lid ∧ u.unit = unit then { u with drop := some d } else u }

/-- A message is dropped, and the unit that sent it will take TENANT with the descriptor (R254, R305, R312). DESIGN CHOICE (log 46): its credit
does not come back. -/
def dropMessage (s : State) (m : Msg) (rest : List Msg) : State :=
  reportDrop (s.withWork { s.sys.work with msgs := rest }) m.lid m.unit (descriptor s.sys.host.mid m.dst m.reg)

/-- Whether the routers pass a message. -/
def messagePasses (s : State) (m : Msg) : Bool := pathInside s m.tenant (coreNum (placeCore m.src)) (coreNum (placeCore m.dst))

/-- A message is put into its bound register, which becomes full. -/
def fillBinding (s : State) (m : Msg) : State :=
  let t := s.thr m.dst
  s.putThr m.dst { t with ch := { t.ch with
    binds := t.ch.binds.map fun b => if b.reg.val = m.reg then { b with full := true, held := m.val } else b } }

/-- Whether a bound register is empty for a message. -/
def messageFits (s : State) (m : Msg) : Bool :=
  (s.thr m.dst).ch.binds.any fun b => decide (b.reg.val = m.reg ∧ b.sender = m.src) && !b.full

/-- MESSAGE_ARRIVAL (R72, R254): into an empty bound register; a message for a full one, or for a thread that is saved, waits in the link. -/
def execMessageArrival (n : Nat) (s : State) : Out :=
  match takeNth s.sys.work.msgs n with
  | none => .next s
  | some (m, rest) =>
    if !messagePasses s m then .next (dropMessage s m rest)
    else if messageFits s m then
      .next (fillBinding (s.withWork { s.sys.work with msgs := rest }) m)
    else .next s

/-- TENANT: a message that a router does not pass is dropped (R254, R305). -/
def execTenantDrop (n : Nat) (s : State) : Out :=
  match takeNth s.sys.work.msgs n with
  | none => .next s
  | some (m, rest) => .next (if messagePasses s m then s else dropMessage s m rest)

/-! ### Moving a thread's channels (R256) -/

/-- The permits of a core after a receiver has moved: those its bindings stand for name the new place. -/
def movePermits (core : Nat) (old new : Place) (bs : List Binding) (ps : List Permit) : List Permit :=
  ps.map fun p =>
    if p.dst = old && bs.any fun b => decide (b.reg.val = p.reg ∧ coreNum (placeCore b.sender) = core ∧ b.sender.slot = p.slot) then
      { p with dst := new }
    else p

/-- Change every thread. -/
def mapThreads (s : State) (f : Place → Thread → Thread) : State :=
  { s with th := f s.here s.th, others := sparseMap {} (fun n t => f (placeOf n) t) s.others }

/-- The bindings of a receiver after a sender has moved, where the sender holds permits toward it. -/
def moveSender (old new : Place) (dsts : List (Place × Nat)) (r : Place) (bs : List Binding) : List Binding :=
  bs.map fun b => if b.sender = old ∧ dsts.contains (r, b.reg.val) then { b with sender := new } else b

/-- Replace a descriptor in a word of a saved area, its `reg` field being kept. -/
def moveDescriptor (mid : BitVec 4) (old new : Place) (w : Word) : Word :=
  if w &&& 0xFFFFF8 = descriptor mid old 0 then (w &&& ~~~0xFFFFF8) ||| descriptor mid new 0 else w

/-- The saved contexts of other units follow a move as well: the receivers among them that the moved unit sends to, and the senders among
them that send to it. -/
def moveSaved (old new : Place) (bs : List Binding) (dsts : List (Place × Nat)) (s : State) (u : Saved) : State :=
  let f := moveDescriptor s.sys.host.mid old new
  let s := if dsts.any fun d => decide (d.1 = u.place) then rewriteWords s u.tenant u.sarea f 41 3 4 else s
  if bs.any fun b => decide (b.sender = u.place) then rewritePermits f s u else s

/-- A message in flight follows a move of its receiver or its sender. -/
def moveMsg (old new : Place) (bs : List Binding) (dsts : List (Place × Nat)) (m : Msg) : Msg :=
  let m := if m.dst = old && bs.any fun b => decide (b.reg.val = m.reg ∧ b.sender = m.src) then { m with dst := new } else m
  if m.src = old ∧ dsts.contains (m.dst, m.reg) then { m with src := new } else m

/-- Permits installed for the slot that a saved unit left, while no other thread is bound there, are its own (R256). -/
def takePermits (s : State) (old new : Place) : State :=
  if old = new ∨ (s.thr old).bound = true then s
  else
    let c := coreNum (placeCore old)
    let k := s.coreBy c
    let mine := k.permits.filter fun p => decide (p.slot = old.slot)
    let s := s.putCore c { k with permits := k.permits.filter fun p => !decide (p.slot = old.slot) }
    let n := coreNum (placeCore new)
    let k := s.coreBy n
    s.putCore n { k with permits := k.permits ++ mine.map fun p => { p with slot := new.slot } }

/-- What senders call a receiver that has moved, and the place of a sender that has (R256): descriptors built before stay valid. -/
def renameMoved (old new : Place) (bs : List Binding) (dsts : List (Place × Nat)) (rs : List Renamed) : List Renamed :=
  let hit (src at_ : Place) (g : Nat) : Bool := decide (at_ = old) && bs.any fun b => decide (b.reg.val = g ∧ b.sender = src)
  let fresh := if old = new then [] else bs.map fun b => (⟨b.sender, old, b.reg.val, new⟩ : Renamed)
  let moved := rs.map fun r =>
    let r := if hit r.src r.new r.reg then { r with new := new } else r
    if r.src = old ∧ dsts.contains (r.new, r.reg) then { r with src := new } else r
  (moved.filter fun r => !fresh.any fun f => decide (f.src = r.src ∧ f.old = r.old ∧ f.reg = r.reg)) ++ fresh

/-- A unit resumes at a new place with the bindings and permits of its context: whatever names its old place names the new one (R256). Both
ends of a channel are compared; two channels alike in both, of two units that have been at one place, are not told apart (log 46). -/
def moveChannels (s : State) (old new : Place) (others : List Saved) : State :=
  let s := takePermits s old new
  let bs := (s.thr new).ch.binds
  let dsts := ((s.coreBy (coreNum (placeCore new))).permits.filter fun p => decide (p.slot = new.slot)).map fun p => (p.dst, p.reg)
  let s := { s with
    core := { s.core with permits := movePermits s.hereCore old new bs s.core.permits }
    cores := sparseMap {} (fun n c => { c with permits := movePermits n old new bs c.permits }) s.cores }
  let s := mapThreads s fun r t => { t with ch := { t.ch with binds := moveSender old new dsts r t.ch.binds } }
  let s := s.withWork { s.sys.work with
    msgs := s.sys.work.msgs.map (moveMsg old new bs dsts), renamed := renameMoved old new bs dsts s.sys.work.renamed }
  let s := mapThreads s fun q t =>
    let rot := match t.rot with
      | .waiting (.credit d g) => if d = old && bs.any (fun b => decide (b.reg.val = g ∧ b.sender = q)) then .waiting (.credit new g) else t.rot
      | r => r
    { t with rot := rot }
  others.foldl (moveSaved old new bs dsts) s

/-! ### Probes (R325) -/

/-- The thread that a wait edge leads to: the sender a read waits for, or the receiver a send waits for. -/
def waitEdge (t : Thread) : Option Place :=
  match t.rot with
  | .waiting (.boundReg g) => (bindingOf t g).map (·.sender)
  | .waiting (.credit d _) => some d
  | _ => none

/-- Follow wait edges from `p`, for at most `n` of them, until they come back to `home`: the threads passed, each with the next one. -/
def waitCycle (s : State) (home : Place) : Nat → Place → Option (List (Place × Place))
  | 0, _ => none
  | n + 1, p =>
    if !(s.thr p).bound then none
    else match waitEdge (s.thr p) with
      | none => none
      | some q => if q = home then some [(p, q)] else (waitCycle s home n q).map fun l => (p, q) :: l

/-- PROBE: every thread on a wait cycle takes WAITCYCLE with the descriptor of the next, and the forester logs the cycle. -/
def execProbe (p : Place) (s : State) : Out :=
  if (s.thr p).ch.waitTurns < 65536 then .next s
  else match waitCycle s p (s.boundPlaces.length) p with
    | none => .next s
    | some l =>
      let mid := s.sys.host.mid
      let s1 := l.foldl (fun s e => takeEvent s e.1 evWaitcycle (descriptor mid e.2 0)) s
      .next (logError s1 (.waitCycle (l.map fun e => descriptor mid e.1 0)))

end Sys2Proof.Machine
end

