-- ==== Sys2Proof/Machine/Rotation.lean ====
section
/-! DEFINITION. Operations in flight that complete (R13, R65, R80, R106, R180, R269, R270, R341), window spills and fills in the background
(R10, R16, R327), and requests that are sampled and taken (R197, R316, R320 to R322, R326). -/

namespace Sys2Proof.Machine

/-! ### Completions -/

/-- The thread at a place comes back into rotation, if the operation in flight is one of those given. -/
def completes (p : Place) (is : FlightOp → Bool) (s : State) : Out :=
  let t := s.thr p
  match t.rot with
  | .inFlight op => if is op then .next (s.putThr p { t with rot := .ready }) else .next s
  | _ => .next s

/-- MEMORY_ACCESS_PERFORMED (R65, R228, R341): a load whose data is outside has it (log 13), and its instruction completes on the thread's
next turn; every other access or walk is over. -/
def execMemoryAccessPerformed (p : Place) (s : State) : Out :=
  let t := s.thr p
  match t.rot with
  | .inFlight (.hostLoad pa _ n) =>
    .next ({ s with fresh := s.fresh + 1 }.putThr p { t with rot := .waiting (.got (ofBytes (physBytes s pa n))) })
  | _ => completes p (fun op => decide (op = .memory ∨ op = .context ∨ op = .walk)) s

/-- APERTURE_READ_TIMEOUT (R341): a precise MCHECK with the virtual address. -/
def execApertureReadTimeout (p : Place) (s : State) : Out :=
  match (s.thr p).rot with
  | .inFlight (.hostLoad _ va _) => .next (takeEvent s p evMcheck va)
  | _ => .next s

/-- DIVIDE_COMPLETE (R180). -/
def execDivideComplete (p : Place) (s : State) : Out := completes p (fun op => decide (op = .divide)) s

/-- DIGIT_BLOCK (R106, R219): the decision was made at issue from the digits of R102 (log 8). -/
def execDigitBlock (p : Place) (s : State) : Out := completes p (fun op => decide (op = .digit)) s

/-- ICINV_COMPLETE (R270). -/
def execIcinvComplete (p : Place) (s : State) : Out := completes p (fun op => decide (op = .icinv)) s

/-- TLB_ACKNOWLEDGEMENT (R269): every TLB has acknowledged the thread's `tlbinv`. -/
def execTlbAcknowledgement (p : Place) (s : State) : Out :=
  let t := s.thr p
  match t.rot with
  | .waiting (.tlb _ ks) => .next (s.putThr p { t with rot := .waiting (.tlb true ks) })
  | _ => .next s

/-! ### Windows in the background -/

/-- Whether a spill of a thread is pending: with four windows resident, that of the oldest, unless one of it has failed (R16). A context that is
parked or parks keeps its window (R32). -/
def spillPending (p : Place) (t : Thread) : Bool :=
  decide (3 ≤ t.rf.olds.length) && !t.rf.spillFails && !t.id.parking && !(decide (8 ≤ p.slot.val) && t.id.seat.isNone)

/-- A pending spill at a place, and whether it is performed: the oldest window goes to the register stack. One that fails raises nothing, and
none is kept pending for its window (R16); one that the thread's remote atomics hold back stays pending (R116). -/
def pendingSpill (s : State) (p : Place) : State × Bool :=
  let t := s.thr p
  if !spillPending p t then (s, false)
  else match spillOldest s p true with
    | .moved s' => if spillHeld s p then (s, false) else (s', true)
    | _ => (s.putThr p { t with rf := { t.rf with spillFails := true } }, false)

/-- A pending fill at a place, and whether it uses its turn: the window that a stalled `ret` needs (R16). An uncorrectable error becomes an
asynchronous machine check (R327). -/
def pendingFill (s : State) (p : Place) : State × Bool :=
  let t := s.thr p
  if decide (t.rot = .waiting .window) && t.rf.olds.isEmpty && !t.lat.mcheck.pending then
    match fillOldest s p with
    | .moved s' => (s', true)
    | .event e =>
      if e.code = evMcheck then
        ((metError s p.did.val).putThr p (pendMcheck t e.addr), true)
      else (s, false)
    | .impossible => (s, false)
  else (s, false)

/-- WINDOW_SPILL (R16), through the TLBs of the window's own core. -/
def execWindowSpill (p : Place) (s : State) : Out := .next ((pendingSpill (s.focus p) p).1.focus s.here)

/-- WINDOW_FILL (R16, R327). -/
def execWindowFill (p : Place) (s : State) : Out := .next ((pendingFill (s.focus p) p).1.focus s.here)

/-! ### Requests -/

/-- A sampled latch: what is pending is eligible. -/
def sampleLatch (l : Latch) : Latch := { l with eligible := l.eligible || l.pending }

/-- LATCH_SAMPLE (R320). -/
def execLatchSample (p : Place) (s : State) : Out :=
  let t := s.thr p
  let l := t.lat
  .next (s.putThr p { t with lat := { l with
    preempt := sampleLatch l.preempt, revoke := sampleLatch l.revoke, signal := sampleLatch l.signal
    dbg := sampleLatch l.dbg, mcheck := sampleLatch l.mcheck } })

/-- Whether a wait may be interrupted by an eligible request (R323, R324). -/
def interruptible : Wait → Bool
  | .locked _ | .group _ _ | .release | .idle | .got _ | .flush => false
  | _ => true

/-- Whether asynchronous requests may be taken now: not in a handler (R319), not before an operation in flight has completed. -/
def asyncAllowed (t : Thread) : Bool :=
  t.bound && !t.sr.se && !t.sr.ue && !t.pcq.e0.annul
    && (match t.rot with | .waiting w => interruptible w | .ready => true | .inFlight _ => false)

/-- Take an eligible request: `clear` empties its latch. -/
def takeRequest (p : Place) (ok : Thread → Bool) (clear : Latches → Latches) (code : BitVec 8) (addr : Thread → Word) (s : State) : Out :=
  let t := s.thr p
  if asyncAllowed t && ok t then .next (takeEvent (s.putThr p { t with lat := clear t.lat }) p code (addr t)) else .next s

/-- Take a stop: one with discard ends the unit (R294, R303), any other is an event. -/
def takeStop (p : Place) (ok : Thread → Bool) (clear : Latches → Latches) (code : BitVec 8) (s : State) : Out :=
  let t := s.thr p
  if asyncAllowed t && ok t && t.lat.discard then .next (discardUnit s p)
  else takeRequest p ok clear code (fun _ => 0) s

/-- PREEMPT: held inside an open packet (R320, R322). -/
def execPreempt (p : Place) (s : State) : Out :=
  takeStop p (fun t => t.lat.preempt.eligible && decide (t.ch.pkt = 0)) (fun l => { l with preempt := {} }) evPreempt s

/-- REVOKE: held inside an open packet (R36, R320). -/
def execRevoke (p : Place) (s : State) : Out :=
  takeStop p (fun t => t.lat.revoke.eligible && decide (t.ch.pkt = 0)) (fun l => { l with revoke := {} }) evRevoke s

/-- SIGNAL (R273, R320). -/
def execSignal (p : Place) (s : State) : Out :=
  takeRequest p (fun t => t.lat.signal.eligible) (fun l => { l with signal := {} }) evSignal (fun t => t.lat.sigv) s

/-- DEBUG: a request arrives at the latch, or an eligible one is taken (R320). -/
def execDebugRequest (p : Place) (arrives : Bool) (s : State) : Out :=
  let t := s.thr p
  if arrives then
    .next (if t.bound then s.putThr p { t with lat := { t.lat with dbg := t.lat.dbg.arrive } } else s)
  else takeRequest p (fun t => t.lat.dbg.eligible) (fun l => { l with dbg := {} }) evDebug (fun _ => 0) s

/-- ASYNC_MCHECK: a machine check reaches the latch with its address, or an eligible one is taken (R320, R327). -/
def execAsyncMcheck (p : Place) (arrives : Option Word) (s : State) : Out :=
  let t := s.thr p
  match arrives with
  | some a =>
    .next (if t.bound then s.putThr p (pendMcheck t a) else s)
  | none => takeRequest p (fun t => t.lat.mcheck.eligible) (fun l => { l with mcheck := {} }) evAsyncMcheck (fun t => t.lat.mcka) s

/-- WATCHDOG (R39, R326): deferred, taken before the next instruction; the count is reset. -/
def execWatchdog (p : Place) (s : State) : Out :=
  let t := s.thr p
  if t.bound && t.lat.watchdog then
    .next (takeEvent (s.putThr p { t with lat := { t.lat with watchdog := false } }) p evWatchdog (t.sr.wdlim.setWidth 64))
  else .next s

end Sys2Proof.Machine
end

