-- ==== Sys2Proof/Machine/Variate.lean ====
section
/-! DEFINITION. Lazy-uniform variates: the digits of a `z` register and the functions that read them (R101 to R109). -/

namespace Sys2Proof.Machine

/-- One mixing step of the coppice generator: xor with the value shifted right. -/
def mixShift (v : BitVec 32) (n : Nat) : BitVec 32 := v ^^^ (v >>> n)

/-- Digit block `j` of a variate (R102). -/
def coppice (key : BitVec 32) (index : BitVec 48) (j : Nat) : BitVec 32 :=
  let v := key + index.setWidth 32 * 0x9E3779B1 + (index >>> 32).setWidth 32 * 0x7F4A7C15 + BitVec.ofNat 32 j * 0x85EBCA77
  let v := mixShift v 16 * 0x7FEB352D
  let v := mixShift v 15 * 0x846CA68B
  mixShift v 16

/-- Digit `i` of the variate, from 1 on (R102). -/
def digit (z : ZVar) (i : Nat) : Bool :=
  (coppice z.key z.index ((i - 1) / 32)).getLsbD (31 - (i - 1) % 32) ^^ z.inv

/-- Whether the variate's digits `i` to `i + n - 1` come first below given ones: decided at the first difference, or false (R103). -/
def belowDigits (z : ZVar) (x : Nat → Bool) : Nat → Nat → Bool
  | _, 0 => false
  | i, n + 1 => if digit z i = x i then belowDigits z x (i + 1) n else x i

/-- The position of the first digit that differs, or `n` where none of the first `n` does. -/
def firstDifference (z : ZVar) (x : Nat → Bool) : Nat → Nat → Nat
  | i, 0 => i - 1
  | i, n + 1 => if digit z i = x i then firstDifference z x (i + 1) n else i

/-- Digit `i` of the fraction `num / 2^k`. -/
def fractionDigit (num k i : Nat) : Bool := decide (i ≤ k) && num.testBit (k - i)

/-- Whether U lies below `num / 2^k`, exactly (R103, R109). Digits past the last 1 of the fraction decide nothing. -/
def ltExact (z : ZVar) (num k : Nat) : Bool := belowDigits z (fractionDigit num k) 1 k

/-- The answer of `lt` for an FP32 pattern: whether it is a NaN (which sets nv), and the decision (R103). -/
def ltFloat (z : ZVar) (x : BitVec 32) : Bool × Bool :=
  let e := x.toNat / 2 ^ 23 % 256
  let f := x.toNat % 2 ^ 23
  if e = 255 ∧ f ≠ 0 then (true, false)
  else if x.getLsbD 31 || decide (e = 0 ∧ f = 0) then (false, false)
  else if 127 ≤ e then (false, true)
  else (false, ltExact z (if e = 0 then f else f + 2 ^ 23) (if e = 0 then 149 else 150 - e))

/-- `lt2`: none where the variates differ but agree in all 1,024 digits, which raises LZLIMIT (R103, R104). -/
def lt2 (a b : ZVar) : Option Bool :=
  if a.key = b.key ∧ a.index = b.index ∧ a.inv = b.inv then some false
  else
    let i := firstDifference a (digit b) 1 1024
    if digit a i = digit b i then none else some (digit b i)

/-- `bern`: U below the 32-bit fraction `p` (R103). -/
def bern (z : ZVar) (p : BitVec 32) : Bool := ltExact z p.toNat 32

/-- `bits`: the first `k` digits as a number (R103). -/
def variateBits (z : ZVar) : Nat → Nat
  | 0 => 0
  | k + 1 => 2 * variateBits z k + bitNat (digit z (k + 1))

/-- The digits 1 to 64 of the variate's value as a word, digit 1 uppermost. -/
def cacheWord (z : ZVar) : Word := BitVec.ofNat 64 (variateBits z 64)

/-- The cache after an instruction that needed the first `blocks` digit blocks (R106): digits beyond `n` are kept as 0. -/
def growCache (z : ZVar) (blocks : Nat) : ZVar :=
  let n := Nat.max z.n (32 * Nat.min blocks 2)
  { z with n := n, cache := if n = 0 then 0 else if n = 32 then cacheWord z &&& 0xFFFFFFFF00000000 else cacheWord z }

/-- Whether an instruction that needs the first `blocks` blocks needs one that is not cached (R106): it is then out of rotation (R13). -/
def digitRotation (z : ZVar) (blocks : Nat) : Rotation :=
  if 32 * blocks ≤ z.n then .ready else .inFlight .digit

/-- How many blocks the first `d` digits take. -/
def blocksFor (d : Nat) : Nat := (d + 31) / 32

/-- The digit blocks that decide whether U lies below `num / 2^k`: up to the first digit that differs, or the fraction's last 1 (R103). -/
def ltBlocks (z : ZVar) (num k : Nat) : Nat := blocksFor (firstDifference z (fractionDigit num k) 1 (k - trailingZeros num 0 k))

/-- The complement of a variate: identity and cached digits (R105). -/
def complement (z : ZVar) : ZVar :=
  { z with inv := !z.inv, cache := if z.n = 0 then 0 else if z.n = 32 then ~~~z.cache &&& 0xFFFFFFFF00000000 else ~~~z.cache }

/-- The variate of element `e` in repetition `t` of a stochastic instruction (R109). -/
def elementVariate (z : ZVar) (t vl e : Nat) : ZVar := { z with index := z.index + BitVec.ofNat 48 (t * vl + e) }

end Sys2Proof.Machine
end

