-- ==== Sys2Proof/Machine/Flags.lean ====
section
/-! DEFINITION. Floating-point formats, rounding, special cases and the sticky flags (R83 to R93). -/

namespace Sys2Proof.Machine

/-! ### Flags (R89) -/

def flagSat : BitVec 5 := 16
def flagNv : BitVec 5 := 8
def flagOf : BitVec 5 := 4
def flagUf : BitVec 5 := 2
def flagNx : BitVec 5 := 1

/-- A flag where a condition holds. -/
def flagIf (b : Bool) (f : BitVec 5) : BitVec 5 := if b then f else 0

/-! ### Formats (R83) -/

/-- A floating-point format: exponent and fraction widths, bias, and whether it has infinities. -/
structure Fmt where
  ew : Nat
  fw : Nat
  bias : Nat
  hasInf : Bool
  deriving DecidableEq, Repr

def fp32 : Fmt := ⟨8, 23, 127, true⟩
def f16 : Fmt := ⟨5, 10, 15, true⟩
def bf16 : Fmt := ⟨8, 7, 127, true⟩
def f8e5 : Fmt := ⟨5, 2, 15, true⟩
def f8e4 : Fmt := ⟨4, 3, 7, false⟩

/-- The format of a floating-point element type. -/
def fmtOf : VType → Option Fmt
  | .f32 => some fp32
  | .f16 => some f16
  | .bf16 => some bf16
  | .f8e5 => some f8e5
  | .f8e4 => some f8e4
  | _ => none

/-- Bytes of an element (R165). -/
def elemSize : VType → Nat
  | .i8 | .u8 | .f8e5 | .f8e4 => 1
  | .i16 | .u16 | .f16 | .bf16 => 2
  | .i32 | .u32 | .f32 => 4

/-- Whether a type is a signed integer type. -/
def isSigned : VType → Bool
  | .i8 | .i16 | .i32 => true
  | _ => false

/-- The weight of a sign bit. -/
def Fmt.signBit (f : Fmt) : Nat := 2 ^ (f.ew + f.fw)

/-- The exponent of the last place of subnormals and of the smallest normals. -/
def Fmt.qmin (f : Fmt) : Int := 1 - (f.bias : Int) - (f.fw : Int)

/-- The pattern of infinity, or of one more than the largest finite value (R83). -/
def Fmt.top (f : Fmt) : Nat := if f.hasInf then (2 ^ f.ew - 1) * 2 ^ f.fw else 0x7F

/-- The pattern of the largest finite value. -/
def Fmt.maxPat (f : Fmt) : Nat := f.top - 1

/-- The canonical NaN (R84). -/
def Fmt.nan (f : Fmt) : Nat := if f.hasInf then (2 ^ f.ew - 1) * 2 ^ f.fw + 2 ^ (f.fw - 1) else 0x7F

/-- The value of a pattern: a NaN, signalling or not, an infinity, or (−1)^neg · m · 2^e. -/
inductive FpVal | nan (signalling : Bool) | inf (neg : Bool) | fin (neg : Bool) (m : Nat) (e : Int)
  deriving DecidableEq, Repr

/-- Read a pattern (R83, R84). -/
def Fmt.value (f : Fmt) (p : Nat) : FpVal :=
  let neg := decide (p / f.signBit % 2 = 1)
  let mag := p % f.signBit
  let e := mag / 2 ^ f.fw
  let m := mag % 2 ^ f.fw
  if !f.hasInf && decide (mag = 0x7F) then .nan false
  else if f.hasInf && decide (e = 2 ^ f.ew - 1) then
    if m = 0 then .inf neg else .nan (decide (m / 2 ^ (f.fw - 1) = 0))
  else if e = 0 then .fin neg m f.qmin
  else .fin neg (m + 2 ^ f.fw) (f.qmin + (e : Int) - 1)

/-- Whether a pattern is subnormal (R91). -/
def Fmt.isSubnormal (f : Fmt) (p : Nat) : Bool :=
  let mag := p % f.signBit
  decide (0 < mag ∧ mag < 2 ^ f.fw)

/-- A pattern from sign and magnitude. -/
def Fmt.signed (f : Fmt) (neg : Bool) (mag : Nat) : Nat := if neg then f.signBit + mag else mag

/-- A result pattern, the flags it sets, and whether it is tiny (R90). -/
structure FpRes where
  pat : Nat
  flags : BitVec 5 := 0
  tiny : Bool := false
  deriving DecidableEq, Repr

/-! ### Rounding (R86, R87, R90, R109) -/

/-- Whether a magnitude rounds up: `rem` / 2^`k` is the discarded part, `sticky` a further nonzero part below it; `z` decides the
stochastic mode, which rounds toward +∞ exactly when U is below the distance from the value below (R109). -/
def roundsUp (mode : Round) (z : ZVar) (neg : Bool) (m0 rem k : Nat) (sticky : Bool) : Bool :=
  let inexact := decide (rem ≠ 0) || sticky
  match mode with
  | .rne => decide (2 ^ k < 2 * rem) || (decide (2 ^ k = 2 * rem) && (sticky || decide (m0 % 2 = 1)))
  | .rtz => false
  | .rdn => neg && inexact
  | .rup => !neg && inexact
  | .sr => inexact && (if neg then !ltExact z (2 ^ k - rem) k else ltExact z rem k)

/-- An overflow's result by mode (R87): the pattern, and whether a saturating form replaced it. -/
def overflowPat (f : Fmt) (mode : Round) (neg up sat : Bool) : Nat × Bool :=
  let toInf := match mode with
    | .rne => true
    | .rtz => false
    | .rdn => neg
    | .rup => !neg
    | .sr => up
  if !toInf then (f.signed neg f.maxPat, false)
  else if sat then (f.signed neg f.maxPat, true)
  else if f.hasInf then (f.signed neg f.top, false) else (f.nan, false)

/-- The exponent of the last place that a format keeps of m · 2^e. -/
def Fmt.ulp (f : Fmt) (m : Nat) (e : Int) : Int := max (e + (Nat.log2 m : Int) - (f.fw : Int)) f.qmin

/-- Round (−1)^neg · (m + ε) · 2^e to a format, where 0 < ε < 1 if `sticky`; `sat` is the saturating form. A `sticky` value must have more
digits than the format. -/
def roundTo (f : Fmt) (mode : Round) (z : ZVar) (sat neg : Bool) (m : Nat) (e : Int) (sticky : Bool) : FpRes :=
  if m = 0 then { pat := f.signed neg 0 } else
  let top := e + (Nat.log2 m : Int)
  let quantum := top - (f.fw : Int)
  let q := f.ulp m e
  let k := (q - e).toNat
  let m0 := if q ≤ e then m * 2 ^ (e - q).toNat else m / 2 ^ k
  let rem := if q ≤ e then 0 else m % 2 ^ k
  let inexact := decide (rem ≠ 0) || sticky
  let up := roundsUp mode z neg m0 rem k sticky
  let m1 := if up then m0 + 1 else m0
  let mag := (q - f.qmin).toNat * 2 ^ f.fw + m1
  -- the magnitude after rounding with an unbounded exponent, against the smallest normal (R90)
  let k' := (quantum - e).toNat
  let n0 := m / 2 ^ k'
  let nearly := decide (top + 1 = f.qmin + (f.fw : Int)) && decide (e < quantum)
    && decide (n0 + 1 = 2 ^ (f.fw + 1)) && roundsUp mode z neg n0 (m % 2 ^ k') k' sticky
  let tiny := match mode with
    | .sr => decide (mag < 2 ^ f.fw)
    | _ => decide (top < f.qmin + (f.fw : Int)) && !nearly
  if f.maxPat < mag then
    let r := overflowPat f mode neg up sat
    { pat := r.1, flags := flagOf ||| flagNx ||| flagIf r.2 flagSat }
  else
    { pat := f.signed neg mag, flags := flagIf inexact flagNx ||| flagIf (inexact && tiny) flagUf, tiny := tiny }

/-- The canonical NaN, with invalid where it is raised. -/
def nanRes (f : Fmt) (nv : Bool) : FpRes := { pat := f.nan, flags := flagIf nv flagNv }

/-- An infinite result of an operation on infinities. -/
def infRes (f : Fmt) (neg : Bool) : FpRes := { pat := if f.hasInf then f.signed neg f.top else f.nan }

/-- The sign of an exact zero sum (R85). -/
def zeroSumNeg (mode : Round) (a b : Bool) : Bool :=
  match mode with
  | .rdn => a || b
  | _ => a && b

/-! ### Arithmetic (R85) -/

/-- Whether a value is a signalling NaN. -/
def FpVal.signals : FpVal → Bool
  | .nan s => s
  | _ => false

/-- Whether a value is a NaN. -/
def FpVal.isNan : FpVal → Bool
  | .nan _ => true
  | _ => false

/-- A value with the other sign. -/
def FpVal.negate : FpVal → FpVal
  | .nan s => .nan s
  | .inf n => .inf !n
  | .fin n m e => .fin (!n) m e

/-- A signed magnitude at a common exponent. -/
def scaled (neg : Bool) (m : Nat) (e base : Int) : Int :=
  let v : Int := m * 2 ^ (e - base).toNat
  if neg then -v else v

/-- An exact sum of two finite values, rounded once. -/
def sumRes (f : Fmt) (mode : Round) (na : Bool) (ma : Nat) (ea : Int) (nb : Bool) (mb : Nat) (eb : Int) : FpRes :=
  let base := min ea eb
  let v := scaled na ma ea base + scaled nb mb eb base
  if v = 0 then { pat := f.signed (zeroSumNeg mode na nb) 0 }
  else roundTo f mode {} false (decide (v < 0)) v.natAbs base false

/-- Addition. -/
def addVal (f : Fmt) (mode : Round) (a b : FpVal) : FpRes :=
  match a, b with
  | .nan s, b => nanRes f (s || b.signals)
  | a, .nan s => nanRes f (s || a.signals)
  | .inf x, .inf y => if x = y then infRes f x else nanRes f true
  | .inf x, .fin .. => infRes f x
  | .fin .., .inf y => infRes f y
  | .fin na ma ea, .fin nb mb eb => sumRes f mode na ma ea nb mb eb

/-- Multiplication. -/
def mulVal (f : Fmt) (mode : Round) (a b : FpVal) : FpRes :=
  match a, b with
  | .nan s, b => nanRes f (s || b.signals)
  | a, .nan s => nanRes f (s || a.signals)
  | .inf x, .inf y => infRes f (x ^^ y)
  | .inf x, .fin y m _ => if m = 0 then nanRes f true else infRes f (x ^^ y)
  | .fin x m _, .inf y => if m = 0 then nanRes f true else infRes f (x ^^ y)
  | .fin na ma ea, .fin nb mb eb => roundTo f mode {} false (na ^^ nb) (ma * mb) (ea + eb) false

/-- Division: a nonzero finite value over zero is infinite, without a flag. -/
def divVal (f : Fmt) (mode : Round) (a b : FpVal) : FpRes :=
  match a, b with
  | .nan s, b => nanRes f (s || b.signals)
  | a, .nan s => nanRes f (s || a.signals)
  | .inf _, .inf _ => nanRes f true
  | .inf x, .fin y _ _ => infRes f (x ^^ y)
  | .fin x _ _, .inf y => { pat := f.signed (x ^^ y) 0 }
  | .fin na ma ea, .fin nb mb eb =>
    if mb = 0 then (if ma = 0 then nanRes f true else infRes f (na ^^ nb))
    else
      let n := ma * 2 ^ 64
      roundTo f mode {} false (na ^^ nb) (n / mb) (ea - 64 - eb) (decide (n % mb ≠ 0))

/-- The integer square root, bit by bit from bit `k` − 1 down. -/
def isqrt (n : Nat) (r : Nat) : Nat → Nat
  | 0 => r
  | k + 1 => if (r + 2 ^ k) * (r + 2 ^ k) ≤ n then isqrt n (r + 2 ^ k) k else isqrt n r k

/-- Square root. -/
def sqrtVal (f : Fmt) (mode : Round) (a : FpVal) : FpRes :=
  match a with
  | .nan s => nanRes f s
  | .inf x => if x then nanRes f true else infRes f false
  | .fin x m e =>
    if m = 0 then { pat := f.signed x 0 }
    else if x then nanRes f true
    else
      let n := if e % 2 = 0 then m * 2 ^ 64 else m * 2 ^ 65
      let e' := if e % 2 = 0 then e - 64 else e - 65
      let r := isqrt n 0 48
      roundTo f mode {} false false r (e' / 2) (decide (r * r ≠ n))

/-- Fused multiply-add a · b + c, rounded once. -/
def fmaVal (f : Fmt) (mode : Round) (a b c : FpVal) : FpRes :=
  if a.isNan || b.isNan || c.isNan then nanRes f (a.signals || b.signals || c.signals) else
  match a, b, c with
  | .fin na ma ea, .fin nb mb eb, .fin nc mc ec => sumRes f mode (na ^^ nb) (ma * mb) (ea + eb) nc mc ec
  | .fin .., .fin .., .inf z => infRes f z
  | a, b, c =>
    match mulVal f mode a b, c with
    | p, .inf z => if f.value p.pat = .inf z then infRes f z else nanRes f true
    | p, _ => p

/-- The order of non-NaN patterns as an integer; −0 and +0 are equal. -/
def Fmt.key (f : Fmt) (p : Nat) : Int :=
  let mag : Int := (p % f.signBit : Nat)
  if p / f.signBit % 2 = 1 then -mag else mag

/-- Minimum and maximum (R85): −0 orders below +0; a NaN gives the other operand. -/
def minMaxPat (f : Fmt) (wantMax : Bool) (a b : Nat) : FpRes :=
  let va := f.value a
  let vb := f.value b
  let nv := flagIf (va.signals || vb.signals) flagNv
  let aLess := decide (f.key a < f.key b) || (decide (f.key a = f.key b) && decide (a / f.signBit % 2 = 1))
  if va.isNan && vb.isNan then { pat := f.nan, flags := nv }
  else if va.isNan then { pat := b, flags := nv }
  else if vb.isNan then { pat := a, flags := nv }
  else { pat := if aLess = wantMax then b else a }

/-- Absolute value and negation (R210): a NaN gives the canonical one. -/
def absPat (f : Fmt) (a : Nat) : FpRes :=
  if (f.value a).isNan then nanRes f (f.value a).signals else { pat := a % f.signBit }
def negPat (f : Fmt) (a : Nat) : FpRes :=
  if (f.value a).isNan then nanRes f (f.value a).signals else { pat := (a + f.signBit) % (2 * f.signBit) }

/-- A comparison's relation over an order key. -/
def relHolds (q : VCond) (a b : Int) : Bool :=
  match q with
  | .eq => decide (a = b)
  | .ne => decide (a ≠ b)
  | .lt => decide (a < b)
  | .le => decide (a ≤ b)
  | .gt => decide (b < a)
  | .ge => decide (b ≤ a)

/-- Compare (R85): with a NaN only `ne` holds. -/
def comparePat (f : Fmt) (q : VCond) (a b : Nat) : Bool × BitVec 5 :=
  let va := f.value a
  let vb := f.value b
  if va.isNan || vb.isNan then (decide (q = .ne), flagIf (va.signals || vb.signals) flagNv)
  else (relHolds q (f.key a) (f.key b), 0)

/-! ### Conversions (R88) -/

/-- Float to float. -/
def floatToFloat (src dst : Fmt) (mode : Round) (z : ZVar) (sat : Bool) (p : Nat) : FpRes :=
  match src.value p with
  | .nan s => nanRes dst s
  | .inf n => if sat then { pat := dst.signed n dst.maxPat, flags := flagSat } else infRes dst n
  | .fin n m e => roundTo dst mode z sat n m e false

/-- Round m · 2^e, with a sign, to an integer: the value and whether it is inexact. -/
def roundInt (mode : Round) (z : ZVar) (neg : Bool) (m : Nat) (e : Int) : Int × Bool :=
  let k := (-e).toNat
  let m0 := if 0 ≤ e then m * 2 ^ e.toNat else m / 2 ^ k
  let rem := if 0 ≤ e then 0 else m % 2 ^ k
  let m1 := if roundsUp mode z neg m0 rem k false then m0 + 1 else m0
  (if neg then -(m1 : Int) else m1, decide (rem ≠ 0))

/-- The least and greatest value of an integer type. -/
def intMin (t : VType) : Int := if isSigned t then -(2 ^ (8 * elemSize t - 1) : Nat) else 0
def intMax (t : VType) : Int := if isSigned t then (2 ^ (8 * elemSize t - 1) : Nat) - 1 else (2 ^ (8 * elemSize t) : Nat) - 1

/-- The pattern of an integer modulo 2^W. -/
def intPat (t : VType) (v : Int) : Nat := (v % (2 ^ (8 * elemSize t) : Nat)).toNat

/-- The value of an integer pattern. -/
def intVal (t : VType) (p : Nat) : Int :=
  let w := 8 * elemSize t
  if isSigned t && decide (2 ^ (w - 1) ≤ p % 2 ^ w) then ((p % 2 ^ w : Nat) : Int) - (2 ^ w : Nat) else (p % 2 ^ w : Nat)

/-- An integer clamped to a type's range. -/
def clampInt (t : VType) (v : Int) : Int := max (intMin t) (min (intMax t) v)

/-- A clamped pattern, with a flag where it was clamped. -/
def clampRes (t : VType) (v : Int) (f : BitVec 5) : FpRes :=
  { pat := intPat t (clampInt t v), flags := flagIf (decide (clampInt t v ≠ v)) f }

/-- Float to integer: out of range and infinite values clamp, with invalid; a NaN gives 0. -/
def floatToInt (src : Fmt) (t : VType) (mode : Round) (z : ZVar) (p : Nat) : FpRes :=
  match src.value p with
  | .nan _ => { pat := 0, flags := flagNv }
  | .inf n => { pat := intPat t (if n then intMin t else intMax t), flags := flagNv }
  | .fin n m e =>
    let r := roundInt mode z n m e
    if clampInt t r.1 = r.1 then { pat := intPat t r.1, flags := flagIf r.2 flagNx } else clampRes t r.1 flagNv

/-- Integer to float. -/
def intToFloat (t : VType) (dst : Fmt) (mode : Round) (z : ZVar) (sat : Bool) (p : Nat) : FpRes :=
  let v := intVal t p
  roundTo dst mode z sat (decide (v < 0)) v.natAbs 0 false

/-- Integer to integer. -/
def intToInt (src dst : VType) (sat : Bool) (p : Nat) : FpRes :=
  if sat then clampRes dst (intVal src p) flagSat else { pat := intPat dst (intVal src p) }

/-- `vcvt`'s conversion of one element (R212). -/
def convert (src dst : VType) (mode : Round) (z : ZVar) (sat : Bool) (p : Nat) : FpRes :=
  match fmtOf src, fmtOf dst with
  | some a, some b => floatToFloat a b mode z sat p
  | some a, none => floatToInt a dst mode z p
  | none, some b => intToFloat src b mode z sat p
  | none, none => intToInt src dst sat p

end Sys2Proof.Machine
end

