-- ==== Sys2Proof/Machine/Tensor.lean ====
section
/-! DEFINITION. Tensor-table entries (R66 to R69, R280, R381): fields, geometry, checks; the fields of `mcfg` (R230); reconstruction
from bit planes (R94). -/

namespace Sys2Proof.Machine

/-! ### Fields (R66) -/

/-- The fields of an entry, decoded. -/
structure Tens where
  base : Word
  rstride : Int
  pstride : Nat
  rows : Nat
  cols : Nat
  fmt : Nat
  planes : Nat
  space : Nat
  sid : DReg
  slay : Nat
  lay : Nat
  valid : Bool
  deriving DecidableEq, Repr

/-- Decode an entry. A base in scratchpad or scale memory uses its low bits. -/
def tensOf (e : TEntry) : Tens :=
  let space := bitsOf e.w2 23 22
  { base := if space = 1 then (e.w0.setWidth 20).setWidth 64 else if space = 2 then (e.w0.setWidth 15).setWidth 64 else e.w0
    rstride := ((e.w1 >>> 32).setWidth 32).toInt
    pstride := bitsOf e.w1 31 0
    rows := bitsOf e.w2 63 48
    cols := bitsOf e.w2 47 32
    fmt := bitsOf e.w2 31 28
    planes := bitsOf e.w2 27 24
    space := space
    sid := ⟨bitsOf e.w2 21 16 % 64, Nat.mod_lt _ (by decide)⟩
    slay := bitsOf e.w2 15 14
    lay := bitsOf e.w2 13 12
    valid := e.w2.getLsbD 0 }

/-- Format codes (R67). -/
def fmtInt8 : Nat := 0
def fmtInt32 : Nat := 3
def fmtFp32 : Nat := 4
def fmtBf16 : Nat := 6
def fmtBpi : Nat := 9
def fmtE8 : Nat := 10

/-- Bytes of an element; BPI has none of its own (R67). -/
def fmtSize (f : Nat) : Nat := if f = 2 ∨ f = 5 ∨ f = 6 then 2 else if f = 3 ∨ f = 4 then 4 else 1

/-- Stored planes as a count of passes: one for every format but BPI. -/
def Tens.passes (t : Tens) : Nat := if t.fmt = fmtBpi then t.planes else 1

/-- The element size that bases and strides are multiples of (R69). -/
def Tens.unit (t : Tens) : Nat := if t.fmt = fmtBpi then 16 else fmtSize t.fmt

/-! ### Geometry (R68, R381) -/

/-- Bytes of `n` elements of one plane in a row. -/
def Tens.span (t : Tens) (n : Nat) : Nat := if t.fmt = fmtBpi then (n + 7) / 8 else n * fmtSize t.fmt

/-- The byte offset from the base of the element (i, j) of plane `q`; of a BPI tensor, of the byte that holds it. -/
def Tens.offset (t : Tens) (q i j : Nat) : Int :=
  let plane : Int := if t.fmt = fmtBpi then (q * t.pstride : Nat) else 0
  if t.lay = 1 then
    plane + (i / 128 : Nat) * t.rstride
      + (if t.fmt = fmtBpi then ((j / 128 * 2048 + i % 128 * 16 + j % 128 / 8 : Nat) : Int)
         else ((j / 128 * 16384 * fmtSize t.fmt + (i % 128 * 128 + j % 128) * fmtSize t.fmt : Nat) : Int))
  else plane + (i : Nat) * t.rstride + (t.span (if t.fmt = fmtBpi then j / 8 * 8 else j) : Nat)

/-- The runs of contiguous bytes of row `i` of plane `q`: offset and length, in element order. -/
def Tens.rowRuns (t : Tens) (q i : Nat) : List (Int × Nat) :=
  if t.lay = 1 then
    (List.range ((t.cols + 127) / 128)).map fun b => (t.offset q i (128 * b), t.span (min 128 (t.cols - 128 * b)))
  else [(t.offset q i 0, t.span t.cols)]

/-- Every run, in row order and then plane order (R238). -/
def Tens.runs (t : Tens) : List (Int × Nat) :=
  ((List.range t.rows).map fun i => ((List.range t.passes).map fun q => t.rowRuns q i).flatten).flatten

/-- The extent: offsets of the lowest byte and of the end (R228, R280, R381). -/
def Tens.extent (t : Tens) : Int × Int :=
  match t.runs with
  | [] => (0, 0)
  | r :: rs => rs.foldl (fun e x => (min e.1 x.1, max e.2 (x.1 + x.2))) (r.1, r.1 + r.2)

/-- The address of an offset in a scratchpad or scale-memory tensor. -/
def Tens.place (t : Tens) (o : Int) : Int := (t.base.toNat : Int) + o

/-- The scratchpad ranges of a tensor. -/
def rangesOf (t : Tens) : List (Nat × Nat) := if t.space = 1 then t.runs.map fun r => ((t.place r.1).toNat, r.2) else []

/-- The virtual address of an offset. -/
def Tens.va (t : Tens) (o : Int) : Word := t.base + BitVec.ofInt 64 o

/-! ### Checks (R69) -/

/-- The conditions of R69 on an entry alone, but for those of a destination and of scales. -/
def Tens.ok (t : Tens) : Bool :=
  t.valid && decide (t.fmt ≤ 10 ∧ t.space ≠ 3 ∧ t.slay ≠ 3 ∧ t.lay ≤ 1 ∧ t.rows ≠ 0 ∧ t.cols ≠ 0)
    && decide (t.base.toNat % t.unit = 0) && decide (t.rstride % t.unit = 0)
    && (if t.fmt = fmtBpi then decide (1 ≤ t.planes ∧ t.planes ≤ 8 ∧ t.cols % 128 = 0) else decide (t.planes = 0))

/-- The conditions on a destination (R56, R69, R280, R381): rows that share no bytes, and in scratchpad whole granules. R280 and R381 differ on
a blocked entry with rstride 0 and one block row: here R280 refuses it where it has more than one row, while its bytes and its extent are
R381's (DESIGN CHOICE, log 44). -/
def Tens.dstOk (t : Tens) : Bool :=
  !(decide (t.rstride = 0) && decide (1 < t.rows))
    && !(decide (t.lay = 1) && decide (128 < t.rows)
         && decide (t.rstride.natAbs < (t.cols + 127) / 128 * (if t.fmt = fmtBpi then 2048 else 16384 * fmtSize t.fmt)))
    && (decide (t.space ≠ 1) || t.runs.all fun r => decide (t.place r.1 % 16 = 0) && decide (r.2 % 16 = 0))

/-- Whether the K dimension of a scaled tensor is a multiple of 32 (R69). -/
def Tens.kOk (t : Tens) : Bool :=
  decide (t.slay = 0) || decide ((if t.slay = 1 then t.cols else t.rows) % 32 = 0)

/-- Whether an entry is the E8 tensor that a scaled tensor needs (R69). -/
def Tens.scaleFits (t sc : Tens) : Bool :=
  sc.valid && decide (sc.fmt = fmtE8)
    && (if t.slay = 1 then decide (sc.rows = t.rows ∧ sc.cols = t.cols / 32)
        else decide (sc.rows = t.rows / 32 ∧ sc.cols = t.cols))

/-! ### `mcfg` (R230) -/

def cfgPa (c : BitVec 32) : Nat := 8 - c.toNat % 8
def cfgPb (c : BitVec 32) : Nat := 8 - c.toNat / 16 % 8
def cfgPk (c : BitVec 32) : Nat := c.toNat / 256 % 8
def cfgMode (c : BitVec 32) : Nat := c.toNat / 8192 % 4

/-- The promotion period. -/
def cfgPeriod (c : BitVec 32) : Nat := 32 / 2 ^ cfgPk c

/-! ### Bit planes (R94) -/

/-- The value that the first `p` planes of a signed byte give. -/
def recon (v : Int) (p : Nat) : Int := if p = 8 then v else v / 2 ^ (8 - p) * 2 ^ (8 - p) + 2 ^ (7 - p)

/-- Stored planes; INT8 counts as 8 (R231). -/
def Tens.stored (t : Tens) : Nat := if t.fmt = fmtBpi then t.planes else 8

end Sys2Proof.Machine
end

