-- ==== Sys2Proof/Machine/Engine.lean ====
section
/-! DEFINITION. Issuing an engine command: the checks and the latching of R228, tickets (R75), queues (R76), tiles (R61). -/

namespace Sys2Proof.Machine

/-- The `evaddr` of an operand failure tied to no entry (R228). -/
def noEntry : Word := 0xFFFFFFFFFFFFFFFF

/-- A tensor operand of a command: its entry number, the entry, whether the command writes it. -/
structure Opnd where
  d : DReg
  e : TEntry
  isDst : Bool
  deriving DecidableEq, Repr

/-- The decoded entry of an operand. -/
def Opnd.t (o : Opnd) : Tens := tensOf o.e

/-- A failed operand check: its place in operand order and what `evaddr` reports. -/
abbrev Failure := Nat × Word

/-- The tensor-table entry of the thread in focus. -/
def State.tens (s : State) (d : DReg) : TEntry := sparseGet {} s.th.eng.tens d.val

/-- A source or destination operand. -/
def srcOpnd (s : State) (d : DReg) : Opnd := ⟨d, s.tens d, false⟩
def dstOpnd (s : State) (d : DReg) : Opnd := ⟨d, s.tens d, true⟩

/-- The scale tensor that a scaled operand brings along. -/
def scaleOpnd (s : State) (o : Opnd) : List Opnd := if o.t.slay = 0 then [] else [srcOpnd s o.t.sid]

/-- A failure charged to an entry, where a check does not hold. -/
def failIf (bad : Bool) (k : Nat) (d : DReg) : List Failure := if bad then [(k, BitVec.ofNat 64 d.val)] else []

/-- A failure tied to no entry. It comes after every entry's (DEDUCED, log 27). -/
def failFree (bad : Bool) : List Failure := if bad then [(64, noEntry)] else []

/-- The place of an entry in operand order; behind all of them where it is no operand. -/
def entryPlace (ops : List Opnd) (d : DReg) : Nat := (ops.findIdx? fun o => decide (o.d = d)).getD ops.length

/-- The failures of R69 (with R56, R280, R381) of an operand at place `k`. A scale tensor that does not fit is charged to the later of
the two entries. -/
def opndFailures (s : State) (ops : List Opnd) (o : Opnd) (k : Nat) : List Failure :=
  let t := o.t
  failIf (!t.ok || (o.isDst && !t.dstOk) || !t.kOk) k o.d
    ++ (if decide (t.slay ≠ 0) && t.kOk && !t.scaleFits (tensOf (s.tens t.sid)) then
          let p := entryPlace ops t.sid
          if k ≤ p then [(p, BitVec.ofNat 64 t.sid.val)] else [(k, BitVec.ofNat 64 o.d.val)]
        else [])

/-- Every operand's failures. -/
def allFailures (s : State) (ops all : List Opnd) (k : Nat) : List Failure :=
  match ops with
  | [] => []
  | o :: t => opndFailures s all o k ++ allFailures s t all (k + 1)

/-- The failure to report: the earliest in operand order. -/
def firstFailure : List Failure → Option Failure
  | [] => none
  | f :: t => match firstFailure t with
    | none => some f
    | some g => some (if g.1 < f.1 then g else f)

/-! ### Scratchpad and scale memory (steps 2 and 5) -/

/-- The first byte of a run that is not allowed. -/
def runOutside (allowed : Int → Bool) (a : Int) (n : Nat) : Option Int :=
  ((List.range n).find? fun (i : Nat) => !allowed (a + (i : Int))).map fun (i : Nat) => a + (i : Int)

/-- The lowest address of a tensor's bytes that is not allowed. -/
def tensOutside (allowed : Int → Bool) (t : Tens) : Option Int :=
  (t.runs.filterMap fun r => runOutside allowed (t.place r.1) r.2).min?

/-- Whether an owner may use a scratchpad byte (R47, R265). -/
def ownerMay (s : State) (a : Int) : Bool := decide (0 ≤ a) && spadAllowed s.core s.th a.toNat

/-- Whether a harvest context's command may use a scratchpad byte: lent to its launch (R228 step 2). -/
def borrowerMay (s : State) (a : Int) : Bool :=
  s.core.lents.any fun l => decide (l.borrower = s.th.id.lid ∧ (l.base : Int) ≤ a ∧ a < l.base + l.len)

/-- Whether a byte lies in the launch's region of scale memory (R63). -/
def scaleMay (s : State) (a : Int) : Bool :=
  let w := windowOf s.core s.th
  decide ((w.scBase : Int) ≤ a ∧ a < w.scLim)

/-- PERM on scratchpad reports the address (R228). -/
def spadPerm (a : Int) : Ev := ⟨evPerm, BitVec.ofInt 64 a⟩

/-- Step 2 for a harvest context. -/
def harvestCheck (s : State) (matrixOnly : Bool) (ops : List Opnd) : Option Ev :=
  if !s.th.id.harv then none
  else if matrixOnly then some ⟨evPerm, noEntry⟩
  else ((ops.filter fun o => decide (o.t.space = 1)).findSome? fun o => tensOutside (borrowerMay s) o.t).map spadPerm

/-- Step 5. -/
def windowCheck (s : State) (ops : List Opnd) : Option Ev :=
  ops.findSome? fun o =>
    if o.t.space = 1 then (if s.th.id.harv then none else (tensOutside (ownerMay s) o.t).map spadPerm)
    else if o.t.space = 2 then (tensOutside (scaleMay s) o.t).map fun _ => ⟨evOperand, BitVec.ofNat 64 o.d.val⟩
    else none

/-! ### Virtual extents (steps 6 and 7) -/

/-- Step 6: an extent above 1 MiB. -/
def extentCheck (ops : List Opnd) : Option Ev :=
  (ops.find? fun o => decide (o.t.space = 0) && decide (1048576 < o.t.extent.2 - o.t.extent.1)).map fun o =>
    ⟨evOperand, BitVec.ofNat 64 o.d.val⟩

/-- The number of a virtual page. -/
def pageOf (va : Word) : Nat := va.toNat % 2 ^ 52 / 4096

/-- The addresses at which an extent's pages are translated: its first byte, then the start of each further page. -/
def pageStarts (t : Tens) : List Word := runPages (t.va t.extent.1) (t.extent.2 - t.extent.1).toNat

/-- Translate one page of an extent for a command. -/
def holdPage (s : State) (acc : Access) (va : Word) : Except Ev PageHold :=
  match translate s s.th.id.tenant s.th.sr.pl acc va with
  | .error e => .error e
  | .ok (pa, kind) =>
    match findLeaf s s.th.id.tenant va with
    | .leaf base size _ => .ok ⟨pa - va.toNat % 4096, kind, base, size⟩
    | _ => .error ⟨evXlate, va⟩

/-- Translate pages in order (step 7). -/
def holdPages (s : State) (acc : Access) : List Word → Sparse PageHold → Except Ev (Sparse PageHold)
  | [], m => .ok m
  | va :: t, m =>
    match holdPage s acc va with
    | .error e => .error e
    | .ok h => holdPages s acc t (sparsePut {} m (pageOf va) h)

/-- Step 7 for every virtual operand. -/
def holdAll (s : State) : List Opnd → Sparse PageHold → Except Ev (Sparse PageHold)
  | [], m => .ok m
  | o :: t, m =>
    if o.t.space = 0 then
      match holdPages s (if o.isDst then .write else .read) (pageStarts o.t) m with
      | .error e => .error e
      | .ok m' => holdAll s t m'
    else holdAll s t m

/-! ### Queues, tickets, tiles -/

/-- Whether a command occupies a copy-queue entry: a copy, or `cpym` until its copy part completes (R239). -/
def usesCopyQueue (c : Cmd) : Bool :=
  match c.op with
  | .cpym .. => decide (c.out ≠ some [])
  | _ => decide (c.cls = .copy)

/-- Whether a class's queue on the core is full (R76). -/
def queueFull (c : Core) (cls : EngClass) (alsoCopy : Bool) : Bool :=
  let n (k : EngClass) := (c.cmds.filter fun x => decide (x.cls = k)).length
  let copies := (c.cmds.filter usesCopyQueue).length
  match cls with
  | .matrix => decide (8 ≤ n .matrix) || (alsoCopy && decide (64 ≤ copies))
  | .copy => decide (64 ≤ copies)
  | .coll => decide (16 ≤ n .coll)

/-- The counts of a class. -/
def Engines.seqs (e : Engines) : EngClass → ClassSeq
  | .matrix => e.matrix
  | .copy => e.copy
  | .coll => e.coll

/-- Replace the counts of a class. -/
def Engines.putSeqs (e : Engines) (k : EngClass) (c : ClassSeq) : Engines :=
  match k with
  | .matrix => { e with matrix := c }
  | .copy => { e with copy := c }
  | .coll => { e with coll := c }

/-- The class field of a ticket (R75). -/
def classCode : EngClass → Nat
  | .matrix => 0
  | .copy => 1
  | .coll => 2

/-- A ticket (R75). -/
def ticketWord (k : EngClass) (seq : Nat) : Word := BitVec.ofNat 64 (classCode k * 2 ^ 28 + seq)

/-- The physical tile that a unit's name is mapped to (R61). -/
def tileOf (c : Core) (lid : BitVec 32) (unit : BitVec 16) (m : MReg) : Option (Fin 4) :=
  (List.finRange 4).find? fun i => decide (c.owners[i.val] = some ⟨lid, unit, some m⟩)

/-- A free physical tile. -/
def freeTile (c : Core) : Option (Fin 4) := (List.finRange 4).find? fun i => (c.owners[i.val]).isNone

/-- Map a name to a free tile, which then holds zero in every element (R61). -/
def mapTile (c : Core) (i : Fin 4) (lid : BitVec 32) (unit : BitVec 16) (m : MReg) : Core :=
  { c with owners := c.owners.set i.val (some ⟨lid, unit, some m⟩), tiles := c.tiles.set i.val [] }

/-- The tile of a name of the thread in focus. -/
def State.tile (s : State) (m : MReg) : Option (Fin 4) := tileOf s.core s.th.id.lid s.th.id.unit m

/-! ### Issue (R228) -/

/-- What an engine instruction asks for: class, whether it takes a copy-queue entry besides (`cpym`), whether harvest contexts are barred,
operands in operand order, further operands whose bytes are read at issue, its own failed checks, whether the bytes so read fail one, the
tile it maps. -/
structure Plan where
  cls : EngClass
  alsoCopy : Bool := false
  matrixOnly : Bool := false
  ops : List Opnd
  latched : List Opnd := []
  own : List Failure := []
  badRead : Bool := false
  maps : Option MReg := none

/-- The granules of a scratchpad tensor. -/
def granulesOf (t : Tens) : List Nat :=
  (t.runs.map fun r => (List.range (r.2 / 16)).map fun i => (t.place r.1).toNat / 16 + i).flatten

/-- Every operand of a command, in operand order. -/
def Plan.all (p : Plan) : List Opnd := p.ops ++ p.latched

/-- The event that stops a command's issue before anything is read, in the order of steps 2 to 4. -/
def entryChecks (s : State) (tk : Reg) (p : Plan) : Option Ev :=
  match harvestCheck s p.matrixOnly p.all with
  | some e => some e
  | none =>
    if isBound s.th tk then some ⟨evChan, BitVec.ofNat 64 tk.val⟩
    else (firstFailure (allFailures s p.all p.all 0 ++ p.own)).map fun f => ⟨evOperand, f.2⟩

/-- The event of steps 5 to 7, or the pages the command holds. -/
def placeChecks (s : State) (p : Plan) : Except Ev (Sparse PageHold) :=
  match windowCheck s p.all with
  | some e => .error e
  | none =>
    match extentCheck p.all with
    | some e => .error e
    | none => holdAll s p.all []

/-- The scratchpad ranges that a command reads at issue. -/
def Plan.reads (p : Plan) : List (Nat × Nat) := (p.latched.map fun o => rangesOf o.t).flatten

/-- Read what a command reads at step 4 (R235): it stalls on a locked granule (R50, R79); a bad word is MCHECK (R327), and what
fails its check is OPERAND, tied to no entry. -/
def readLatched (s : State) (p : Plan) (k : Out) : Out :=
  unlessStalled (p.reads.map fun r => (r.1, r.2, false)) s <|
  match p.reads.find? fun r => spadBad s.core r.1 r.2 with
  | some r => raiseEv ⟨evMcheck, BitVec.ofNat 64 r.1⟩ s
  | none => if p.badRead then raiseEv ⟨evOperand, noEntry⟩ s else k

/-- The command as it is latched, for an instruction that reads no further state (step 8). -/
def latchCmd (s : State) (op : Instr) (p : Plan) (pages : Sparse PageHold) : Cmd :=
  let n := (s.th.eng.seqs p.cls).issued + 1
  { cls := p.cls, seq := seqOf n, place := s.here, lid := s.th.id.lid, unit := s.th.id.unit, tenant := s.th.id.tenant, op := op
    da := {}, db := {}, sa := {}, sb := {}, mcfg := s.th.sr.mcfg, xcfg := s.th.sr.xcfg, tile := none, counts := [], gather := none
    coll := none, pages := pages
    src := ((p.ops.filter fun o => !o.isDst).map fun o => rangesOf o.t).flatten
    dst := ((p.ops.filter fun o => o.isDst && decide (o.t.space = 1)).map fun o => granulesOf o.t).flatten
    out := none, delivered := 0, status := 0, flags := 0, done := false }

/-- Step 8: the destination granules become empty, the locks are taken, the ticket is assigned and written. -/
def acceptCmd (s : State) (tk : Reg) (c : Cmd) : State :=
  let q := s.th.eng.seqs c.cls
  let s := s.withCore { s.core with
    cmds := s.core.cmds ++ [c]
    empties := c.dst.foldl (fun l g => insertNat g l) s.core.empties }
  let s := s.withEng (s.th.eng.putSeqs c.cls { q with issued := q.issued + 1 })
  s.setReg tk (ticketWord c.cls c.seq)

/-- The tile a command maps at step 8: already mapped, or free. -/
def tileToMap (s : State) (m : MReg) : Option (Fin 4) :=
  match s.tile m with
  | some i => some i
  | none => freeTile s.core

/-- The page addresses of a command's virtual operands, in the order they are walked (step 7). -/
def pagesWalked (p : Plan) : List Word :=
  ((p.all.filter fun o => decide (o.t.space = 0)).map fun o => pageStarts o.t).flatten

/-- The TLBs hold every leaf that a command's issue walked (R336). -/
def fillPages (s : State) (vas : List Word) : State := vas.foldl (fun s va => fillTlb s s.th.id.tenant va) s

/-- A thread whose command needs a page walk is out of rotation while walks complete (R13, R228 step 7). -/
def issueRotation (s : State) (vas : List Word) : Rotation :=
  if vas.any fun va => (cachedLeaf s s.th.id.tenant va).isNone then .inFlight .walk else .ready

/-- Issue an engine command (R228). `fill` latches what the instruction adds; `after` is its further effect at issue. -/
def issueCommand (op : Instr) (tk : Reg) (p : Plan) (fill : Cmd → Cmd) (after : State → State) (s : State) : Out :=
  if queueFull s.core p.cls p.alsoCopy then waitOn .classQueue s
  else match entryChecks s tk p with
    | some e => raiseEv e s
    | none =>
      readLatched s p <|
      match placeChecks s p with
        | .error e => raiseEv e s
        | .ok pages =>
          let c := fill (latchCmd s op p pages)
          let rot := issueRotation s (pagesWalked p)
          let u := fillPages s (pagesWalked p)
          match p.maps with
          | none => finish (after (acceptCmd u tk c)) rot
          | some m =>
            match tileToMap s m with
            | none => waitOn .tile s
            | some i =>
              let s1 := if (s.tile m).isSome then u else u.withCore (mapTile u.core i s.th.id.lid s.th.id.unit m)
              finish (after (acceptCmd s1 tk { c with tile := some i })) rot

/-! ### The tensor table (R229) -/

/-- Write an entry of the thread in focus. -/
def putTens (s : State) (d : DReg) (e : TEntry) : State :=
  s.withEng { s.th.eng with tens := sparsePut {} s.th.eng.tens d.val e }

/-- `tdset` (R229): bits 11:1 of word 2 are stored as 0. -/
def execTdset (e : DReg) (d a b : Reg) (s : State) : Out :=
  withRegs [a, b, d] [] s <|
    finish (putTens (takeMsgs s [a, b, d]) e ⟨s.reg a, s.reg b, s.reg d &&& 0xFFFFFFFFFFFFF001⟩)

/-- `tdget` (R229): word 0, 1 or 2. -/
def execTdget (e : DReg) (d : Reg) (k : BitVec 5) (s : State) : Out :=
  let x := s.tens e
  regOp [] d (if k = 0 then x.w0 else if k = 1 then x.w1 else x.w2) s

/-- `tdinv` (R229): the valid bit is cleared. -/
def execTdinv (e : DReg) (s : State) : Out :=
  let x := s.tens e
  finish (putTens s e { x with w2 := x.w2 &&& 0xFFFFFFFFFFFFFFFE })

end Sys2Proof.Machine
end

