-- ==== Sys2Proof/Machine/Layers.lean ====
section
/-! DEFINITION. Layers, poses and the release of frames (R128 to R147, R248 to R250). -/

namespace Sys2Proof.Machine

/-! ### Records (R129) -/

/-- A free entry of the layer table. -/
def freeLayer : Layer := { state := 0 }

/-- A layer by id. -/
def State.layer (s : State) (k : Nat) : Layer := sparseGet freeLayer s.sys.layers.table k

/-- Replace a layer. -/
def State.putLayer (s : State) (k : Nat) (l : Layer) : State :=
  s.withLayers { s.sys.layers with table := sparsePut freeLayer s.sys.layers.table k l }

/-- Change every layer that is not free. -/
def mapLayers (s : State) (f : Nat → Layer → Layer) : State :=
  s.withLayers { s.sys.layers with table := sparseMap freeLayer f s.sys.layers.table }

/-- A 32-bit and a 16-bit field at a place of a word. -/
def at32 (v : BitVec 32) : Nat := v.toNat * 2 ^ 32
def at48 (v : BitVec 16) : Nat := v.toNat * 2 ^ 48
def at32h (v : BitVec 16) : Nat := v.toNat * 2 ^ 32
def at16 (v : BitVec 16) : Nat := v.toNat * 2 ^ 16

/-- Word `k` of a layer record. -/
def layerWord (l : Layer) (k : BitVec 3) : Word :=
  match k with
  | 0 => BitVec.ofNat 64 (at48 l.price + at32h l.err + at16 l.age + l.id.toNat)
  | 1 => BitVec.ofNat 64 (at32 l.zmax + l.zmin.toNat)
  | 2 => BitVec.ofNat 64 (at32 l.ty + l.tx.toNat)
  | 3 => BitVec.ofNat 64 (at32 l.okey + l.tz.toNat)
  | 4 => BitVec.ofNat 64 (at48 l.vres + at32h l.lit + at16 l.eprice + l.graph.toNat * 16 + bitNat l.fresh * 8 + l.state.toNat)
  | 5 => l.img
  | 6 => BitVec.ofNat 64 (at32 l.deps[1] + l.deps[0].toNat)
  | _ => BitVec.ofNat 64 (at32 l.deps[3] + l.deps[2].toNat)

/-- An empty dependency slot, and one that names a caster with an increment. -/
def noDep : BitVec 32 := 0xFFFF0000
def depOf (caster inc : Nat) : BitVec 32 := BitVec.ofNat 32 (caster * 65536 + inc)
def depCaster (d : BitVec 32) : Nat := d.toNat / 65536
def depInc (d : BitVec 32) : Nat := d.toNat % 65536

/-- Clamp to 16 bits (R134). -/
def sat16 (n : Nat) : BitVec 16 := BitVec.ofNat 16 (Nat.min n 0xFFFF)

/-- Whether an FP32 pattern is positive, normal and finite (R130). -/
def depthOk (p : BitVec 32) : Bool := decide (0x00800000 ≤ p.toNat ∧ p.toNat < 0x7F800000)

/-- The midpoint of two positive depths, rounded once (R130). -/
def midpoint (a b : BitVec 32) : BitVec 32 :=
  match fp32.value a.toNat, fp32.value b.toNat with
  | .fin _ ma ea, .fin _ mb eb =>
    let e := min ea eb
    BitVec.ofNat 32 (roundTo fp32 .rne {} false false (ma * 2 ^ (ea - e).toNat + mb * 2 ^ (eb - e).toNat) (e - 1) false).pat
  | _, _ => a

/-- Set the depth range of a layer, and its order key with it (R130). -/
def setRange (l : Layer) (zmin zmax : BitVec 32) : Layer := { l with zmin := zmin, zmax := zmax, okey := midpoint zmin zmax }

/-! ### Operands (R128, R248) -/

/-- An event whose `evaddr` no rule gives: a free value (log 29). -/
def raiseOpen (code : BitVec 8) (s : State) : Out := raise code (Config.freeWord s.fresh) { s with fresh := s.fresh + 1 }

/-- An operand that names a layer: OPERAND for no id or a free layer, PERM for another tenant's; otherwise its id. What an instruction checks
besides (`lyrset`'s word, `lyrsplit`'s depths, `lyrcommit`'s frame, a free id) comes after it (DESIGN CHOICE, log 44). -/
def withLayer (v : Word) (s : State) (k : Nat → Out) : Out :=
  if 4096 ≤ v.toNat then raiseEv operandError s
  else if (s.layer v.toNat).state = 0 then raiseEv operandError s
  else if (s.layer v.toNat).tenant ≠ s.th.id.tenant then raiseOpen evPerm s
  else k v.toNat

/-- The thread of a layer, pose or release instruction leaves rotation until it is performed (R137, R248). -/
def finishLayer (s : State) : Out := finish s (.inFlight .layer)

/-- The lowest free id (R139). -/
def freeId (t : Sparse Layer) : Nat → Nat → Option Nat
  | 0, _ => none
  | n + 1, k => if t.any fun e => decide (e.1 = k) then freeId t n (k + 1) else some k

/-! ### Creating and freeing (R139) -/

/-- `lyrnew`. -/
def execLyrnew (d : Reg) (s : State) : Out :=
  withRegs [] [d] s <|
    match freeId s.sys.layers.table 4096 0 with
    | none => raiseEv operandError s
    | some k =>
      releaseFirst s <|
        finishLayer ((s.putLayer k { id := BitVec.ofNat 16 k, tenant := s.th.id.tenant }).setReg d (BitVec.ofNat 64 k))

/-- Slots that name a layer become empty. -/
def dropCaster (k : Nat) (l : Layer) : Layer := { l with deps := l.deps.map fun d => if depCaster d = k then noDep else d }

/-- A layer becomes free, and a request posted for it is discarded. -/
def freeLayerAt (s : State) (k : Nat) : State :=
  let s := s.putLayer k freeLayer
  s.withLayers { s.sys.layers with requests := s.sys.layers.requests.filter fun r => decide (r.id.toNat ≠ k) }

/-- `lyrfree`. -/
def execLyrfree (a : Reg) (s : State) : Out :=
  withRegs [a] [] s <| withLayer (s.reg a) s fun k =>
    releaseFirst s <| finishLayer (mapLayers (freeLayerAt (takeMsgs s [a]) k) fun _ l => dropCaster k l)

/-- `lyrsplit`. -/
def execLyrsplit (d a : Reg) (s : State) : Out :=
  withRegs [a] [d] s <| withLayer (s.reg a) s fun k =>
    match freeId s.sys.layers.table 4096 0 with
    | none => raiseEv operandError s
    | some n =>
      releaseFirst s <|
        finishLayer (((takeMsgs s [a]).putLayer n { s.layer k with id := BitVec.ofNat 16 n }).setReg d (BitVec.ofNat 64 n))

/-! ### Merging (R140) -/

/-- Add a slot to slots kept so far; slots naming one caster combine into one with the larger increment. -/
def addDep (ds : List (BitVec 32)) (d : BitVec 32) : List (BitVec 32) :=
  if ds.any fun x => decide (depCaster x = depCaster d) then
    ds.map fun x => if depCaster x = depCaster d then depOf (depCaster x) (max (depInc x) (depInc d)) else x
  else ds ++ [d]

/-- The union of the slots of A and B. -/
def mergedDeps (a b : Layer) (ka kb : Nat) : List (BitVec 32) :=
  ((a.deps.toList ++ b.deps.toList).filter fun d =>
    !decide (depCaster d = 0xFFFF ∨ depCaster d = ka ∨ depCaster d = kb)).foldl addDep []

/-- Four slots from a list of at most four. -/
def depSlots (ds : List (BitVec 32)) : Vector (BitVec 32) 4 := Vector.ofFn fun i : Fin 4 => (ds[i.val]?).getD noDep

/-- In another layer, slots that name B name A, and slots that then name A are one slot: the first of them, with the largest increment. -/
def renameCaster (ka kb : Nat) (l : Layer) : Layer :=
  let ds := l.deps.map fun d => if depCaster d = kb then depOf ka (depInc d) else d
  let inc := ds.toList.foldl (fun m d => if depCaster d = ka then max m (depInc d) else m) 0
  match ds.toList.findIdx? fun d => decide (depCaster d = ka) with
  | none => l
  | some i =>
    let one (j : Nat) (d : BitVec 32) : BitVec 32 := if depCaster d = ka then (if j = i then depOf ka inc else noDep) else d
    { l with deps := ds.mapIdx fun j d => one j d }

/-- The larger and the smaller of two fields. -/
def maxBits {n : Nat} (a b : BitVec n) : BitVec n := if a.toNat < b.toNat then b else a
def minBits {n : Nat} (a b : BitVec n) : BitVec n := if b.toNat < a.toNat then b else a

/-- A with B merged into it. Positive depths order as their patterns. -/
def mergedLayer (a b : Layer) (ds : List (BitVec 32)) : Layer :=
  setRange { a with
      age := maxBits a.age b.age, err := maxBits a.err b.err, lit := maxBits a.lit b.lit, price := minBits a.price b.price
      vres := maxBits a.vres b.vres, fresh := a.fresh && b.fresh, deps := depSlots ds
      state := if a.state = 2 ∨ b.state = 2 then 2 else a.state }
    (minBits a.zmin b.zmin) (maxBits a.zmax b.zmax)

/-- `lyrmerge`. -/
def execLyrmerge (a b : Reg) (s : State) : Out :=
  withRegs [a, b] [] s <| withLayer (s.reg a) s fun ka => withLayer (s.reg b) s fun kb =>
    let ds := mergedDeps (s.layer ka) (s.layer kb) ka kb
    if ka = kb ∨ 4 < ds.length then raiseEv operandError s
    else releaseFirst s <|
      let s1 := freeLayerAt (takeMsgs s [a, b]) kb
      let s2 := mapLayers s1 fun k l => if k = ka then l else renameCaster ka kb l
      finishLayer (s2.putLayer ka (mergedLayer (s.layer ka) (s.layer kb) ds))

/-! ### Fields -/

/-- The RW fields of a word of a layer record from a value, or none where the word has none or the value is refused (R130, R248). -/
def writeLayer (l : Layer) (k : BitVec 3) (v : Word) : Option Layer :=
  match k with
  | 0 => some { l with price := (v >>> 48).setWidth 16 }
  | 1 =>
    let zmax : BitVec 32 := (v >>> 32).setWidth 32
    let zmin : BitVec 32 := v.setWidth 32
    if depthOk zmin && depthOk zmax && decide (zmin.toNat ≤ zmax.toNat) then some (setRange l zmin zmax) else none
  | 4 => some { l with vres := (v >>> 48).setWidth 16, graph := (v >>> 4).setWidth 12 }
  | _ => none

/-- `lyrset` (R130). -/
def execLyrset (k : BitVec 3) (a b : Reg) (s : State) : Out :=
  withRegs [a, b] [] s <| withLayer (s.reg a) s fun n =>
    match writeLayer (s.layer n) k (s.reg b) with
    | none => raiseEv operandError s
    | some l => releaseFirst s <| finishLayer ((takeMsgs s [a, b]).putLayer n l)

/-- `lyrget` (R129, R248). -/
def execLyrget (k : BitVec 3) (d a : Reg) (s : State) : Out :=
  withRegs [a] [d] s <| withLayer (s.reg a) s fun n =>
    releaseFirst s <| finishLayer ((takeMsgs s [a]).setReg d (layerWord (s.layer n) k))

/-- `lyrdep` (R138). -/
def execLyrdep (i : BitVec 3) (d a b : Reg) (s : State) : Out :=
  withRegs [a, b, d] [] s <| withLayer (s.reg a) s fun n =>
    let put (v : BitVec 32) : Out :=
      if h : i.toNat < 4 then
        let l := s.layer n
        releaseFirst s <| finishLayer ((takeMsgs s [a, b, d]).putLayer n { l with deps := l.deps.set i.toNat v })
      else raiseEv operandError s
    if s.reg b = 0xFFFF then put noDep
    else withLayer (s.reg b) s fun c =>
      if c = n then raiseEv operandError s else put (depOf c ((s.reg d).toNat % 65536))

/-! ### Commit (R136) -/

/-- The pose of a frame in the history. -/
def histPose (l : Layers) (r : Nat) : Option Pose := (l.hist.find? fun e => decide (e.1 = r)).map (·.2)

/-- The light term of a layer after the commit of a caster. -/
def chargeLight (c : Nat) (l : Layer) : Layer :=
  { l with lit := l.deps.toList.foldl (fun m d => if depCaster d = c then sat16 (m.toNat + depInc d) else m) l.lit }

/-- A layer once an image rendered from a pose is committed. -/
def committed (l : Layer) (p : Pose) (img : Word) : Layer :=
  { l with tx := p.cx, ty := p.cy, tz := p.cz, img := img, age := 0, lit := 0, err := 0, fresh := true, state := 1 }

/-- `lyrcommit`. -/
def execLyrcommit (d a b : Reg) (s : State) : Out :=
  withRegs [a, b, d] [] s <| withLayer (s.reg a) s fun n =>
    match histPose s.sys.layers (s.reg b).toNat with
    | none => raiseEv operandError s
    | some p =>
      releaseFirst s <|
        finishLayer (mapLayers ((takeMsgs s [a, b, d]).putLayer n (committed (s.layer n) p (s.reg d))) fun _ l => chargeLight n l)

/-! ### Lists (R141, R249) -/

/-- Insert a layer by order key, equal keys by id. -/
def insertLayer (e : Nat × Layer) : List (Nat × Layer) → List (Nat × Layer)
  | [] => [e]
  | x :: t => if e.2.okey.toNat < x.2.okey.toNat then e :: x :: t else x :: insertLayer e t

/-- The layers of a tenant in order: those inserted first have the lower ids. -/
def orderedLayers (t : Sparse Layer) (tenant : BitVec 4) : List (Nat × Layer) :=
  (t.filter fun e => decide (e.2.tenant = tenant)).foldl (fun l e => insertLayer e l) []

/-- The list entries, with the largest far end so far. -/
def listWords (top : Nat) : List (Nat × Layer) → List Word
  | [] => []
  | e :: t =>
    let top := max top e.2.zmax.toNat
    let ovl := match t with
      | f :: _ => decide (f.2.zmin.toNat < top)
      | [] => false
    BitVec.ofNat 64 (e.2.okey.toNat * 2 ^ 32 + bitNat ovl * 65536 + e.1) :: listWords top t

/-- Check `n` list entries from an address on, in order (R187). -/
def checkList (s : State) (va : Word) : Nat → Except Ev (List (Word × Loc))
  | 0 => .ok []
  | n + 1 =>
    match locate s .write va 8 with
    | .error e => .error e
    | .ok loc =>
      match checkList s (va + 8) n with
      | .error e => .error e
      | .ok t => .ok ((va, loc) :: t)

/-- Write the list. -/
def writeList (s : State) : List (Word × Loc) → List Word → State
  | (va, loc) :: t, w :: ws => writeList (storeBytes (touchStore s va 8) (wordBytes w) loc) t ws
  | _, _ => s

/-- The highest frame that `lyrord` and `pose` take: two beyond the last evaluated one while frames are released, else that one (R131, R133,
R249); none before any. -/
def frameLimit (s : State) : Option Int := s.sys.layers.last.map fun l => if s.sys.rel.en then l + 2 else l

/-- Whether a frame lies beyond the limit. -/
def frameBeyond (s : State) (n : Nat) : Bool :=
  match frameLimit s with
  | some l => decide (l < n)
  | none => true

/-- Whether a frame has been evaluated, or lies below the first one. -/
def evaluated (s : State) (n : Nat) : Bool :=
  match s.sys.layers.last with
  | some l => decide ((n : Int) ≤ l)
  | none => false

/-- `lyrord`. -/
def execLyrord (d a b : Reg) (s : State) : Out :=
  withRegs [a, b] [d] s <|
    let n := (s.reg a).toNat
    if frameBeyond s n then raiseEv operandError s
    else if !evaluated s n then waitOn .evaluation s
    else
      let va := s.reg b
      let l := orderedLayers s.sys.layers.table s.th.id.tenant
      if va.toNat % 8 ≠ 0 then raise evAlign va s
      else orRaise (checkList s va l.length) s fun locs =>
        unlessStalled (locs.map fun x => locRanges 8 true x.2).flatten s <| releaseFirst s <|
          finishLayer ((writeList (takeMsgs s [a, b]) locs (listWords 0 l)).setReg d (BitVec.ofNat 64 l.length))

/-! ### Poses (R131, R133, R250) -/

/-- The pose of no frame: no `pose` can give it. -/
def noPose : Pose := { f := 0 }

/-- The pose held for a frame. -/
def heldPose (l : Layers) (n : Nat) : Option Pose :=
  let p := sparseGet noPose l.held n
  if p = noPose then none else some p

/-- The pose in 16 bytes (R250). -/
def poseOf (bs : List Byte) : Pose :=
  let w (k : Nat) : BitVec 32 := BitVec.ofNat 32 (ofBytes ((bs.drop (4 * k)).take 4))
  { cx := w 0, cy := w 1, cz := w 2, f := w 3 }

/-- Whether an FP32 pattern is finite. -/
def finite32 (p : BitVec 32) : Bool := decide (p.toNat % 2 ^ 31 < 0x7F800000)

/-- Whether a pose obeys R131: finite, with a focal length from 1 to 2^20. -/
def poseOk (p : Pose) : Bool :=
  finite32 p.cx && finite32 p.cy && finite32 p.cz && decide (0x3F800000 ≤ p.f.toNat ∧ p.f.toNat ≤ 0x49800000)

/-- A pose for a frame is written: late ones are counted, others held; the frame next in order is then evaluated (R131, R132). -/
def writePose (s : State) (m : Nat) (p : Pose) : State :=
  if evaluated s m then s.withRel { s.sys.rel with plate := s.sys.rel.plate + 1 }
  else
    let s1 := s.withLayers { s.sys.layers with held := sparsePut noPose s.sys.layers.held m p }
    if s.sys.layers.last = some ((m : Int) - 1) then { s1 with agenda := s1.agenda ++ [.frameEvaluation] } else s1

/-- `pose`. -/
def execPose (a b : Reg) (s : State) : Out :=
  withRegs [a, b] [] s <|
    let ea := s.reg b
    let m := (s.reg a).toNat
    withBytes ea 16 s fun s _ bs =>
      let p := poseOf bs
      if !poseOk p || frameBeyond s m then raiseEv operandError s
      else releaseFirst s <| finishLayer (writePose (takeMsgs s [a, b]) m p)

/-! ### Time (R360) -/

/-- The base in nanoseconds, and the fields of the period. -/
def baseNs (r : Release) : Int := (r.bases.toNat * 1000000000 + r.basens.toNat : Nat)
def pnum (r : Release) : Nat := bitsOf r.period 31 0
def pden (r : Release) : Nat := bitsOf r.period 63 32

/-- T(n) and D(n). -/
def releaseTime (r : Release) (n : Nat) : Int := baseNs r + (n * pnum r * 1000000000 / pden r : Nat)
def deadline (r : Release) (n : Nat) : Int := releaseTime r n - r.tlead.toNat

/-! ### Handing over a frame buffer (R145, R250) -/

/-- The buffer handed over for a frame: no `rls` passes with the address of none. -/
def handedBuffer (r : Release) (m : Nat) : Option FrameBuf :=
  let b := sparseGet {} r.handed m
  if b = {} then none else some b

/-- A buffer is handed over now. -/
def handOverFrame (s : State) (m : Nat) (va : Word) : State :=
  let r := s.sys.rel
  s.withRel { r with handed := sparsePut {} r.handed m ⟨va, s.th.id.tenant, deadline r m - r.now⟩ }

/-- The fields of the frame format (R359). -/
def fmtHeight (r : Release) : Nat := bitsOf r.format 63 48
def fmtWidth (r : Release) : Nat := bitsOf r.format 47 32
def fmtSamp (r : Release) : Nat := bitsOf r.format 31 28
def fmtPitch (r : Release) : Nat := bitsOf r.format 23 0

/-- Bytes of a frame buffer (R360). -/
def frameBytes (r : Release) : Nat := fmtPitch r * fmtHeight r

/-- Check that every page of a buffer translates and permits a read. -/
def checkPages (s : State) (va : Word) : Nat → Option Ev
  | 0 => none
  | n + 1 =>
    match holdPage s .read va with
    | .error e => some e
    | .ok _ => checkPages s (va + 4096) n

/-- The status of `rls` for a frame (R145, R133). -/
def rlsStatus (r : Release) (m : Nat) : Nat :=
  match r.en, r.passed with
  | true, some k =>
    if (m : Int) ≤ k then 1
    else if k + 4 < m then 3
    else if (handedBuffer r m).isSome then 2
    else 0
  | _, _ => 3

/-- `rls` (R145, R250). The leaves of the buffer's pages are in the TLBs then (R336). -/
def execRls (d a b : Reg) (s : State) : Out :=
  withRegs [a, b] [d] s <|
    let va := s.reg a
    let m := (s.reg b).toNat
    if va.toNat % 4096 ≠ 0 then raise evAlign va s
    else match checkPages s va ((frameBytes s.sys.rel + 4095) / 4096) with
      | some e => raiseEv e s
      | none =>
        releaseFirst s <|
          let st := rlsStatus s.sys.rel m
          let s1 := takeMsgs (fillPages s (runPages va (frameBytes s.sys.rel))) [a, b]
          let s2 := if st = 0 then handOverFrame s1 m va else s1
          finishLayer (s2.setReg d (BitVec.ofNat 64 st))

/-- LAYER_TABLE_PERFORMED: the instruction is performed, and its thread comes back into rotation (R137, R248). -/
def execLayerTablePerformed (p : Place) (s : State) : Out :=
  let t := s.thr p
  .next (match t.rot with
    | .inFlight .layer => s.putThr p { t with rot := .ready }
    | _ => s)

end Sys2Proof.Machine
end

