-- ==== Sys2Proof/Machine/Sync.lean ====
section
/-! DEFINITION. Bank atomics (R257, R258), logs and phases (R121, R259, R260), fences (R261), barriers (R262), gangs (R24 to R29, R263,
R264) and lending (R265, R266). -/

namespace Sys2Proof.Machine

/-! ### Bank atomics -/

/-- The new value of a target of `n` bytes (R257). -/
def amoResult (op : AmoOp) (n : Nat) (t v : Nat) : Nat :=
  let sg (x : Nat) : Int := (BitVec.ofNat (8 * n) x).toInt
  match op with
  | .add => (t + v) % 2 ^ (8 * n)
  | .min => if sg v < sg t then v else t
  | .max => if sg t < sg v then v else t
  | .minu => if v < t then v else t
  | .maxu => if t < v then v else t
  | .and => t &&& v
  | .or => t ||| v
  | .xor => t ^^^ v

/-- Bytes of an atomic's target. -/
def amoBytes (word : Bool) : Nat := if word then 4 else 8

/-- Perform an atomic on a core's scratchpad, in one step. -/
def amoPerform (c : Core) (op : AmoOp) (word : Bool) (a : Nat) (v : Word) : Core :=
  let n := amoBytes word
  let new := amoResult op n (ofBytes (bytesAt c.spad a n)) (v.toNat % 2 ^ (8 * n))
  { c with spad := putBytes c.spad a (toBytes n new), found := foundBut c a n }

/-- The core and scratchpad address that an atomic's operand names in the local or the remote form, or none (R257). -/
def amoTarget (s : State) (ra : Word) : Option (Nat × Nat) :=
  match localAddr ra with
  | some a => some (s.hereCore, a)
  | none =>
    if bitsOf ra 63 32 = 0xFFFFFE00 then some (bitsOf ra 31 28 * 256 + bitsOf ra 27 20, bitsOf ra 19 0) else none

/-- Whether an atomic's bytes lie in the launch's window and outside what the launch has lent on the target core (R257 step 4). -/
def amoAllowed (s : State) (core a n : Nat) : Bool :=
  let w := windowOf s.core s.th
  decide (w.spBase ≤ a ∧ a + n ≤ w.spLim)
    && !(s.coreBy core).lents.any fun l => decide (l.owner = s.th.id.lid ∧ l.base < a + n ∧ a < l.base + l.len)

/-- The issue checks of R257 in order: the target, or the event. -/
def amoChecks (s : State) (ra : Word) (n : Nat) : Except Ev (Nat × Nat) :=
  if ra.toNat % n ≠ 0 then .error ⟨evAlign, ra⟩
  else match amoTarget s ra with
    | none => .error ⟨evKind, ra⟩
    | some (core, a) =>
      if s.th.id.harv then .error ⟨evPerm, ra⟩
      else if !amoAllowed s core a n then .error ⟨evPerm, BitVec.ofNat 64 (bitsOf ra 19 0)⟩
      else if decide (core ≠ s.hereCore) && !(s.launch s.th.id.lid).mesh.contains core then .error ⟨evPerm, ra⟩
      else if decide (core = s.hereCore) && spadBad s.core a n then .error ⟨evMcheck, ra⟩
      else .ok (core, a)

/-- `amo`: a local one is performed at once, a remote one leaves the core and the thread goes on (R257, R258). -/
def amo (op : AmoOp) (word : Bool) (a b : Reg) (s : State) : Out :=
  withRegs [a, b] [] s <|
    let n := amoBytes word
    orRaise (amoChecks s (s.reg a) n) s fun x =>
      if x.1 = s.hereCore then
        unlessStalled [(x.2, n, true)] s <|
          let s1 := takeMsgs s [a, b]
          finish (s1.withCore (amoPerform s1.core op word x.2 (s.reg b)))
      else if 32 ≤ (s.sys.work.amos.filter fun m => decide (coreNum (placeCore m.src) = s.hereCore)).length then waitOn .atomicEntry s
      else
        let s1 := takeMsgs s [a, b]
        finish (s1.withWork { s1.sys.work with
          amos := s1.sys.work.amos ++ [⟨op, word, s.here, s.th.id.lid, s.th.id.unit, s.th.id.tenant, x.1, x.2, s.reg b⟩] })

/-- `amo.add` (R257). -/
def execAmoAdd (word : Bool) (a b : Reg) (s : State) : Out := amo .add word a b s
/-- `amo.min` (R257). -/
def execAmoMin (word : Bool) (a b : Reg) (s : State) : Out := amo .min word a b s
/-- `amo.max` (R257). -/
def execAmoMax (word : Bool) (a b : Reg) (s : State) : Out := amo .max word a b s
/-- `amo.minu` (R257). -/
def execAmoMinu (word : Bool) (a b : Reg) (s : State) : Out := amo .minu word a b s
/-- `amo.maxu` (R257). -/
def execAmoMaxu (word : Bool) (a b : Reg) (s : State) : Out := amo .maxu word a b s
/-- `amo.and` (R257). -/
def execAmoAnd (word : Bool) (a b : Reg) (s : State) : Out := amo .and word a b s
/-- `amo.or` (R257). -/
def execAmoOr (word : Bool) (a b : Reg) (s : State) : Out := amo .or word a b s
/-- `amo.xor` (R257). -/
def execAmoXor (word : Bool) (a b : Reg) (s : State) : Out := amo .xor word a b s

/-- A remote atomic met an uncorrectable error (R327): its issuer is told, or the error log. -/
def amoMcheck (s : State) (m : Amo) : State :=
  let s := metError s (m.core / 256)
  let t := s.thr m.src
  if t.bound ∧ t.id.lid = m.lid ∧ t.id.unit = m.unit then s.putThr m.src (pendMcheck t (BitVec.ofNat 64 m.addr))
  else logError s (.atomicMcheck m.core m.addr)

/-- A router drops an atomic: its issuer takes TENANT (R305). The descriptor reported names the target core; its slot is free (log 29). -/
def amoDropped (s : State) (m : Amo) : State := reportDrop { s with fresh := s.fresh + 1 } m.lid m.unit (Config.freeWord s.fresh)

/-- Whether a launch has its window on a core. -/
def windowGranted (c : Core) (lid : BitVec 32) : Bool := c.windows.any fun w => decide (w.lid = lid)

/-- Whether a launch is still live. -/
def launchLive (s : State) (lid : BitVec 32) : Bool :=
  hasLaunch s lid && !(s.launch lid).record.done

/-- Whether a remote atomic in flight would not wait at its target. -/
def amoReady (s : State) (m : Amo) : Bool :=
  let c := s.coreBy m.core
  !pathInside s m.tenant (coreNum (placeCore m.src)) m.core || !launchLive s m.lid
    || (windowGranted c m.lid && !spadStalls c m.addr (amoBytes m.word) true)

/-- REMOTE_ATOMIC_ARRIVAL (R258, R305, R327): performed at its bank; it waits for a window or a lock; its core wakes (R372); discarded when its launch has ended. -/
def execRemoteAtomicArrival (n : Nat) (bad : Bool) (s : State) : Out :=
  match takeNth s.sys.work.amos n with
  | none => .next s
  | some (m, rest) =>
    let gone := s.withWork { s.sys.work with amos := rest }
    let c := s.coreBy m.core
    if !pathInside s m.tenant (coreNum (placeCore m.src)) m.core then .next (amoDropped gone m)
    else if !launchLive s m.lid then .next gone
    else if !windowGranted c m.lid || spadStalls c m.addr (amoBytes m.word) true then .next s
    else
      let gone := wakeCore gone m.core
      if bad || spadBad c m.addr (amoBytes m.word) then .next (amoMcheck gone m)
      else .next (gone.putCore m.core (amoPerform c m.op m.word m.addr m.val))

/-! ### Logs and phases (R121, R259, R260) -/

/-- Where a log entry goes, or the event (R121). -/
def logTarget (s : State) (ea : Word) : Except Ev Nat :=
  if ea.toNat % 4 ≠ 0 then .error ⟨evAlign, ea⟩
  else if (localAddr ea).isSome then .error ⟨evKind, ea⟩
  else match translate s s.th.id.tenant s.th.sr.pl .write ea with
    | .error e => .error e
    | .ok (pa, kind) => if kind = 0 ∧ paKind pa = .dram then .ok pa else .error ⟨evKind, ea⟩

/-- Append an entry to the log of the phase of the issuer's launch, with its unit, claim and seal count; the area may be full then (R121, R301).
An entry of a launch, graph, phase or job that has been cancelled already is discarded with the others. -/
def appendLog (s : State) (pa : Nat) (k v : Word) : State :=
  let l := s.launch s.th.id.lid
  let j := s.job l.job
  let p := j.phase l.phase
  let c := claimOf s s.th.id.lid s.th.id.unit
  let e : LogEntry :=
    { pa := pa, key := k.setWidth 32, val := v.setWidth 32, lid := s.th.id.lid, unit := s.th.id.unit
      claim := c.map fun c => (c.gen, c.origin), seals := (c.map (·.seals)).getD 0, opened := true
      discarded := bornCancelled s l }
  s.putJob l.job (j.putPhase l.phase { p with
    log := p.log ++ [e], logFull := Config.logFills l.job l.phase (p.log.length + 1) })

/-- `logadd.f32` (R121, R259). A page walk keeps the thread out of rotation (R336). -/
def execLogaddF32 (d a b : Reg) (s : State) : Out :=
  withRegs [a, b, d] [] s <|
    orRaise (logTarget s (s.reg a)) s fun pa =>
      let l := s.launch s.th.id.lid
      if ((s.job l.job).phase l.phase).logFull then waitOn .logSpace s
      else
        finish (appendLog (takeMsgs (fillTlb s s.th.id.tenant (s.reg a)) [a, b, d]) pa (s.reg b) (s.reg d))
          (if walksFor s s.th.id.tenant (s.reg a) then .inFlight .walk else .ready)

/-- LOG_EXTEND: the forester extends the full log area of a job's phases, and waiting appends go on (R121). -/
def execLogExtend (j : JobId) (s : State) : Out :=
  let x := s.job (jobNum j)
  .next (s.putJob (jobNum j) { x with phases := sparseMap {} (fun _ p => { p with logFull := false }) x.phases })

/-- `phend`: the phase of the issuer's launch closes, unless it is closed already (R260). -/
def execPhend (s : State) : Out :=
  if s.th.id.harv then raiseOpen evPerm s
  else releaseFirst s <|
    let l := s.launch s.th.id.lid
    finish (if l.phase = (s.job l.job).current then closeCurrent s l.job else s)

/-! ### Fences (R261) -/

/-- A fence waits for the thread's remote atomics; every other access has been performed at issue (log 8). -/
def fence (s : State) : Out := if atomicsOutstanding s then waitOn .accesses s else finish s

/-- `fence.core` (R261). -/
def execFenceCore (s : State) : Out := fence s
/-- `fence.grove` (R261). -/
def execFenceGrove (s : State) : Out := fence s
/-- `fence.die` (R261). -/
def execFenceDie (s : State) : Out := fence s
/-- `fence.package` (R261). -/
def execFencePackage (s : State) : Out := fence s
/-- `fence.system` (R261). -/
def execFenceSystem (s : State) : Out := fence s

/-! ### Barriers (R262) -/

/-- The number of the instance of a barrier's form that holds a core. -/
def instanceOf (f : BarForm) (core : Nat) : Nat :=
  match f with
  | .core => core
  | .grove => core / 16
  | .die => core / 256
  | _ => 0

/-- The participants of a new episode. -/
def participants (s : State) (f : BarForm) : List Nat :=
  let lid := s.th.id.lid
  match f with
  | .launch => List.range (s.launch lid).units
  | _ => (s.boundPlaces.filter fun p =>
      decide ((s.thr p).id.lid = lid ∧ instanceOf f (coreNum (placeCore p)) = instanceOf f s.hereCore)).map fun p => (s.thr p).id.unit.toNat

/-- Whether an episode is the one a unit has arrived at. -/
def arrivedAt (lid : BitVec 32) (f : BarForm) (u : Nat) (e : Episode) : Bool :=
  decide (e.lid = lid ∧ e.form = f) && (match e.released with | some l => l.contains u | none => e.arrived.contains u)

/-- Replace an episode; one with no unit left to return goes. -/
def putEpisode (s : State) (e e' : Episode) : State :=
  s.withWork { s.sys.work with
    episodes := (s.sys.work.episodes.map fun x => if x = e then e' else x).filter fun x => !decide (x.released = some []) }

/-- `bar`: arrive, and wait until the barrier has completed. A unit that is no participant of the episode under way waits for the next. DESIGN
CHOICE (log 45): a participant that has moved to another instance before it arrives is a matter of its new instance, and the old episode still
waits for it. -/
def bar (f : BarForm) (s : State) : Out :=
  let lid := s.th.id.lid
  let u := s.th.id.unit.toNat
  match s.sys.work.episodes.find? (arrivedAt lid f u) with
  | some e =>
    (match e.released with
      | some l => finish (putEpisode s e { e with released := some (l.filter fun x => decide (x ≠ u)) })
      | none => waitOn (.barrier f) s)
  | none =>
    let i := instanceOf f s.hereCore
    match s.sys.work.episodes.find? fun e => decide (e.lid = lid ∧ e.form = f ∧ e.inst = i) && e.released.isNone with
    | some e =>
      waitOn (.barrier f) (if e.parts.contains u then putEpisode s e { e with arrived := insertNat u e.arrived } else s)
    | none =>
      waitOn (.barrier f) (s.withWork { s.sys.work with
        episodes := s.sys.work.episodes ++ [⟨lid, f, i, participants s f, [u], none⟩] })

/-- `bar.core` (R262). -/
def execBarCore (s : State) : Out := bar .core s
/-- `bar.grove` (R262). -/
def execBarGrove (s : State) : Out := bar .grove s
/-- `bar.die` (R262). -/
def execBarDie (s : State) : Out := bar .die s
/-- `bar.package` (R262). -/
def execBarPackage (s : State) : Out := bar .package s
/-- `bar.system` (R262). -/
def execBarSystem (s : State) : Out := bar .system s
/-- `bar.launch` (R262). -/
def execBarLaunch (s : State) : Out := bar .launch s

/-- The participants of an episode that have neither arrived nor ended. -/
def missing (l : Launch) (e : Episode) : List Nat := e.parts.filter fun u => !e.arrived.contains u && !l.gone.contains u

/-- Whether a participant has a remote atomic that is not performed yet. -/
def partsOutstanding (s : State) (e : Episode) : Bool :=
  s.sys.work.amos.any fun m => decide (m.lid = e.lid) && e.parts.contains m.unit.toNat

/-- BARRIER_RELEASE: every participant has arrived or ended, and its accesses are performed. -/
def execBarrierRelease (l : BitVec 32) (f : BarForm) (k : Nat) (s : State) : Out :=
  match s.sys.work.episodes.find? fun e => decide (e.lid = l ∧ e.form = f ∧ e.inst = k) && e.released.isNone with
  | none => .next s
  | some e =>
    let left := e.arrived.filter fun u => !(s.launch l).gone.contains u
    .next (if (missing (s.launch l) e).isEmpty && !partsOutstanding s e then putEpisode s e { e with released := some left } else s)

/-! ### Gangs (R24 to R29, R263, R264) -/

/-- The fields of a gang's rectangle (R263). -/
def gangX (r : BitVec 8) : Nat := r.toNat / 64
def gangY (r : BitVec 8) : Nat := r.toNat / 16 % 4
def gangW (r : BitVec 8) : Nat := r.toNat / 4 % 4 + 1
def gangH (r : BitVec 8) : Nat := r.toNat % 4 + 1

/-- Whether a core of a grove, as `cid`[3:0], lies in a rectangle. -/
def inGang (r : BitVec 8) (k : Nat) : Bool :=
  decide (gangX r ≤ k % 4 ∧ k % 4 < gangX r + gangW r ∧ gangY r ≤ k / 4 ∧ k / 4 < gangY r + gangH r)

/-- The places of a gang: the slot of `p` on every core of the rectangle in its grove. -/
def gangPlaces (r : BitVec 8) (p : Place) : List Place :=
  ((List.range 16).filter (inGang r)).map fun k =>
    ⟨p.did, ⟨(p.cid.val / 16 * 16 + k) % 256, Nat.mod_lt _ (by decide)⟩, p.slot⟩

/-- The leader's place: the north-west member. -/
def isLeaderPlace (r : BitVec 8) (p : Place) : Bool := decide (p.cid.val % 16 = gangY r * 4 + gangX r)

/-- Whether a value describes a rectangle around the thread in focus (R263). -/
def gangOk (s : State) (v : Word) : Bool :=
  let r : BitVec 8 := v.setWidth 8
  decide (bitsOf v 63 8 = 0) && decide (gangX r + gangW r ≤ 4 ∧ gangY r + gangH r ≤ 4) && inGang r (s.here.cid.val % 16)

/-- Whether the thread at a place waits in `gang` with a rectangle, as an owner of a launch. -/
def waitsGang (s : State) (lid : BitVec 32) (r : BitVec 8) (p : Place) : Bool :=
  let t := s.thr p
  t.bound && !t.id.harv && decide (t.id.lid = lid) && (match t.rot with | .waiting (.gang q _) => decide (q = r) | _ => false)

/-- Take the message of a bound register of the thread at a place. -/
def takeMsgAt (s : State) (p : Place) (x : Reg) : State :=
  let t := s.thr p
  match bindingOf t x with
  | none => s
  | some b =>
    if b.full then
      let s := returnCredit s p b
      let off (c : Binding) : Binding := if c.reg = x then { c with full := false } else c
      s.putThr p { s.thr p with ch := { t.ch with binds := t.ch.binds.map off } }
    else s

/-- A member's waiting instruction completes. -/
def completeMember (s : State) (p : Place) : State :=
  let s := match (s.thr p).rot with
    | .waiting (.gang _ a) => takeMsgAt s p a
    | _ => s
  s.putThr p { retireTh (s.thr p) .ready none false with held := none }

/-- A member becomes an attached follower: its queue is discarded, and it stands where the leader stands (R263). -/
def attach (s : State) (p : Place) (r : BitVec 8) (q : PcQueue) : State :=
  let t := s.thr p
  s.putThr p { t with pcq := q, gang := { state := .attached, rect := r, buf := [], now := none } }

/-- The gang forms, once every member's `gang` has completed. -/
def formGang (s : State) (r : BitVec 8) (ps : List Place) : State :=
  match ps.find? (isLeaderPlace r) with
  | none => s
  | some l =>
    let s := setGang s l fun g => { g with state := .leader, rect := r }
    let q := (s.thr l).pcq
    (ps.filter fun p => decide (p ≠ l)).foldl (fun s p => attach s p r q) s

/-- `gang` (R263). -/
def execGang (a : Reg) (s : State) : Out :=
  withRegs [a] [] s <|
    let r : BitVec 8 := (s.reg a).setWidth 8
    if !gangOk s (s.reg a) || decide (s.th.gang.state ≠ .none) then raiseEv operandError s
    else if s.th.id.harv then raiseOpen evPerm s
    else
      let ps := gangPlaces r s.here
      if ps.all fun p => decide (p = s.here) || waitsGang s s.th.id.lid r p then
        let s1 := takeMsgs s [a]
        let s2 := s1.withTh (retireTh s1.th .ready none false)
        let s3 := (ps.filter fun p => decide (p ≠ s.here)).foldl completeMember s2
        .next (formGang s3 r ps)
      else waitOn (.gang r a) s

/-- Whether a saved unit is a member of the gang of the thread in focus: it may still be resumed within it (R29). -/
def savedMember (s : State) (u : Saved) : Bool :=
  decide (u.lid = s.th.id.lid ∧ u.gang = some s.th.gang.rect ∧ u.place.slot = s.here.slot ∧ u.place.did = s.here.did
    ∧ u.place.cid.val / 16 = s.here.cid.val / 16)

/-- `gjoin` (R28, R264). -/
def execGjoin (s : State) : Out :=
  match s.th.gang.state with
  | .none | .attached => finish s
  | .detached => waitOn .gjoin s
  | .leader =>
    let mates := (gangMates s s.here).filter fun p => decide ((s.thr p).gang.state = .detached)
    if (mates.all fun p => decide ((s.thr p).rot = .waiting .gjoin)) && !s.sys.work.saved.any (savedMember s) then
      let s1 := s.withTh (retireTh s.th .ready none false)
      .next (mates.foldl (fun s p => attach (completeMember s p) p s1.th.gang.rect s1.th.pcq) s1)
    else waitOn .gjoin s

/-- `gquit` (R29, R264). -/
def execGquit (s : State) : Out := finish (leaveGang s s.here)

/-- The queue with which a follower executes a forwarded instruction: the leader's, with the repeat count of the follower's own prefix where
that prefix stood right before the instruction (R26, R198, R199). -/
def followerQueue (t : Thread) (f : Forward) : PcQueue :=
  let own := decide (t.pcq.e0.addr = f.queue.e0.addr)
  { f.queue with repLeft := if own then t.pcq.repLeft else 0, repDone := if own then t.pcq.repDone else 0 }

/-- Whether a follower's own prefix has a count of 0 for a forwarded instruction, which it then skips (R199). -/
def skipsForward (t : Thread) (f : Forward) : Bool := t.pcq.e0.annul && decide (t.pcq.e0.addr = f.queue.e0.addr)

/-- FORWARDED_INSTRUCTION: an attached follower takes the oldest forwarded instruction from its buffer, with the leader's queue, and
executes it on this turn (R25). -/
def execForwardedInstruction (p : Place) (s : State) : Out :=
  let t := s.thr p
  match t.gang.now, t.gang.buf with
  | none, f :: rest =>
    .next (s.putThr p (if skipsForward t f then
        { t with pcq := stepQueue f.queue none false, gang := { t.gang with buf := rest } }
      else { t with pcq := followerQueue t f, gang := { t.gang with buf := rest, now := some f } }))
  | _, _ => .next s

/-! ### Lending (R265, R266) -/

/-- The scratchpad ranges of an engine command's operands, read or not. -/
def commandRanges (c : Cmd) : List (Nat × Nat) :=
  (([c.da, c.db, c.sa, c.sb] ++ (c.gather.map (·.words)).toList).map fun e => rangesOf (tensOf e)).flatten

/-- The borrower, base and length that the operands of `hvlend` and `hvreclaim` name. -/
def lentOf (s : State) (a b : Word) : Lent := ⟨s.th.id.lid, (a >>> 32).setWidth 32, bitsOf a 19 0, b.toNat⟩

/-- The checks of `hvlend` in order (R265): the range, or the event. The PERM events report the base (log 29). -/
def lendChecks (s : State) (a b : Word) : Except Ev Lent :=
  let l := lentOf s a b
  let w := windowOf s.core s.th
  let perm : Ev := ⟨evPerm, BitVec.ofNat 64 l.base⟩
  if s.th.id.harv then .error perm
  else if bitsOf a 31 20 ≠ 0 ∨ l.base % 256 ≠ 0 ∨ l.len % 256 ≠ 0 ∨ l.len = 0 then .error operandError
  else if l.base < w.spBase ∨ w.spLim < l.base + l.len then .error perm
  else if !launchLive s l.borrower || decide ((s.launch l.borrower).cls ≠ 3 ∨ (s.launch l.borrower).tenant ≠ s.th.id.tenant) then
    .error operandError
  else if (s.core.lents.any fun m => rangeMeets l.base l.len (m.base, m.len)) || decide (8 ≤ s.core.lents.length) then .error operandError
  else .ok l

/-- `hvlend` (R265). -/
def execHvlend (a b : Reg) (s : State) : Out :=
  withRegs [a, b] [] s <|
    orRaise (lendChecks s (s.reg a) (s.reg b)) s fun l =>
      if s.core.cmds.any fun c => decide (c.lid = s.th.id.lid) && (commandRanges c).any (rangeMeets l.base l.len) then waitOn .commands s
      else
        let s1 := takeMsgs s [a, b]
        finish (s1.withCore { s1.core with lents := s1.core.lents ++ [l] })

/-- Whether a copy command of the borrower still writes into a lent range (R266 step 1). -/
def borrowerWrites (l : Lent) (c : Cmd) : Bool :=
  decide (c.lid = l.borrower ∧ c.cls = .copy) && (rangesOf (tensOf c.da)).any (rangeMeets l.base l.len)

/-- `hvreclaim` (R266). -/
def execHvreclaim (a b : Reg) (s : State) : Out :=
  withRegs [a, b] [] s <|
    let l := lentOf s (s.reg a) (s.reg b)
    if bitsOf (s.reg a) 31 20 ≠ 0 ∨ !s.core.lents.contains l then raiseEv operandError s
    else if s.core.cmds.any (borrowerWrites l) then waitOn .commands s
    else
      let s1 := takeMsgs s [a, b]
      finish (s1.withCore (reclaimRange s1.core l))

/-- The granules of 256 bytes. -/
def clearedGranules (base : Nat) : List Nat := (List.range 16).map fun i => base / 16 + i

/-- Take back the lent ranges of launches that have left, each once the copies of its borrower into it have completed (R265, R266). -/
def settleReclaims (c : Core) : Core :=
  let held (l : Lent) : Bool := c.cmds.any (borrowerWrites l)
  (c.reclaims.filter fun l => !held l).foldl reclaimRange { c with reclaims := c.reclaims.filter held }

/-- Whether RECLAIM_CLEAR has something to do on a core. -/
def reclaimDue (c : Core) : Bool := !c.clearing.isEmpty || c.reclaims.any fun l => !c.cmds.any (borrowerWrites l)

/-- RECLAIM_CLEAR: the ranges of launches that have left are taken back, and the next 256 bytes of a reclaimed range become 0 and their
granules empty (R35, R265, R266). -/
def execReclaimClear (c : CoreId) (s : State) : Out :=
  let n := coreNum c
  let k := settleReclaims (s.coreBy n)
  match k.clearing with
  | [] => .next (s.putCore n k)
  | (base, len) :: rest =>
    let k' := spadStore k base (List.replicate 256 0)
    let empties := (clearedGranules base).foldl (fun l g => insertNat g l) k'.empties
    .next (s.putCore n { k' with
      empties := empties, clearing := if len ≤ 256 then rest else (base + 256, len - 256) :: rest })

end Sys2Proof.Machine
end

