-- ==== Sys2Proof/Machine/Control.lean ====
section
/-! DEFINITION. Control transfers on the PC queue (R192 to R196), the repeat prefix (R198 to R200), ending, yielding, trapping (R21,
R201 to R203) and the return from an event (R317). -/

namespace Sys2Proof.Machine

/-! ### Branches and jumps -/

/-- A branch on a condition (R194): the `.n` forms annul both delay slots when it is not taken. -/
def branch (sense annul : Bool) (c : CReg) (i : BitVec 21) (s : State) : Out :=
  if condReg s.th.rf c = sense then finishJump s (some (relTarget s i)) false else finishJump s none annul

/-- `bt` (R194). -/
def execBt (c : CReg) (i : BitVec 21) (s : State) : Out := branch true false c i s

/-- `bf` (R194). -/
def execBf (c : CReg) (i : BitVec 21) (s : State) : Out := branch false false c i s

/-- `bt.n` (R194). -/
def execBtN (c : CReg) (i : BitVec 21) (s : State) : Out := branch true true c i s

/-- `bf.n` (R194). -/
def execBfN (c : CReg) (i : BitVec 21) (s : State) : Out := branch false true c i s

/-- `jmp` (R195). -/
def execJmp (i : BitVec 25) (s : State) : Out := finishJump s (some (relTarget s i)) false

/-- `jmpr`: an odd target raises ALIGN (R195). -/
def execJmpr (a : Reg) (s : State) : Out :=
  withRegs [a] [] s <|
    if (s.reg a).getLsbD 0 then raise evAlign (s.reg a) s
    else finishJump (takeMsgs s [a]) (some (s.reg a)) false

/-- The registers after a window slides forward: `s8` holds the return address (R14, R196). -/
def slideForward (r : Regs) (fresh : Nat) (ret : Word) : Regs :=
  { r with win := (calleeWindow r.win fresh).set 8 ret, olds := ownRegs r.win :: r.olds, depth := r.depth + 1 }

/-- A call to a target (R196). With four windows resident it first spills the oldest, in its own turns (R16), once the register stack's page lets
it (R116). -/
def callTo (target : Word) (s : State) : Out :=
  if 3 ≤ s.th.rf.olds.length then
    match spillOldest s s.here true with
    | .moved s' => waitOn .window (if spillHeld s s.here then s else s')
    | .event e => raiseEv e s
    | .impossible => waitOn .window s
  else
    let s' := { s.withRf (slideForward s.th.rf s.fresh (seqNext s.th.pcq)) with fresh := s.fresh + 24 }
    finishJump s' (some target) false

/-- `call` (R196). -/
def execCall (i : BitVec 25) (s : State) : Out := callTo (relTarget s i) s

/-- `callr`: the target is read in the caller's window; an odd one raises ALIGN (R196). -/
def execCallr (a : Reg) (s : State) : Out :=
  withRegs [a] [] s <|
    if (s.reg a).getLsbD 0 then raise evAlign (s.reg a) s
    else if 3 ≤ s.th.rf.olds.length then callTo (s.reg a) s
    else callTo (s.reg a) (takeMsgs s [a])

/-- `ret` (R196): to `s8`, through the caller's window, filled first in its own turns where it is not resident (R16). An uncorrectable
error in the fill is an asynchronous machine check, and the `ret` waits (R327). -/
def execRet (s : State) : Out :=
  let target := s.th.rf.win[8]
  if target.getLsbD 0 then raise evAlign target s
  else if s.th.rf.depth ≤ 1 then raise evWinstack s.th.sr.wsp s
  else match s.th.rf.olds with
    | own :: olds =>
      finishJump (s.withRf { s.th.rf with win := callerWindow own s.th.rf.win, olds := olds, depth := s.th.rf.depth - 1 })
        (some target) false
    | [] =>
      match fillOldest s s.here with
      | .moved s' => waitOn .window s'
      | .event e =>
        if e.code = evMcheck then
          waitOn .window (if s.th.lat.mcheck.pending then s else metError (s.withTh (pendMcheck s.th e.addr)) s.here.did.val)
        else raiseEv e s
      | .impossible => waitOn .window s

/-! ### The repeat prefix -/

/-- The queue's step of a prefix, with `n` repetitions pending for the next entry (R198). -/
def finishPrefix (s : State) (n : Nat) : Out :=
  let t := retireTh s.th .ready none false
  .next (s.withTh { t with pcq := { t.pcq with repLeft := n, repDone := 0 } })

/-- `rep` (R198): encoded as n − 1. -/
def execRep (n : BitVec 10) (s : State) : Out := finishPrefix s (n.toNat + 1)

/-- `repr` (R199): 0 skips the next entry as though annulled; more than 1,024 raises OPERAND. -/
def execRepr (a : Reg) (s : State) : Out :=
  withRegs [a] [] s <|
    let n := (s.reg a).toNat
    let s1 := takeMsgs s [a]
    if 1024 < n then raiseEv operandError s
    else if n = 0 then
      let t := retireTh s1.th .ready none false
      .next (s1.withTh { t with pcq := { t.pcq with e0 := { t.pcq.e0 with annul := true } } })
    else finishPrefix s1 n

/-! ### Ending, yielding, trapping -/

/-- Whether the thread has engine commands that have not retired (R21). -/
def commandsOutstanding (e : Engines) : Bool :=
  decide (e.matrix.retired < e.matrix.issued ∨ e.copy.retired < e.copy.issued ∨ e.coll.retired < e.coll.issued)

/-- Whether the unit's current claim still holds a claimed grain (R21, R245). -/
def claimHeld (s : State) : Bool :=
  match claimOf s s.th.id.lid s.th.id.unit with
  | some c => decide (c.mask ≠ 0)
  | none => false

/-- The unit retires (R21): counted as ended; PREEMPT, REVOKE and SIGNAL are disposed of, DEBUG and ASYNC-MCHECK reported (R321). -/
def retireUnit (s : State) : State :=
  let t := s.th
  let s1 := settleStops (countUnit (unitOver s s.here 0x01) t.id.lid t.id.unit) t.id.lid
  let s2 := putClaim s1 t.id.lid t.id.unit none
  let s3 := if t.lat.dbg.pending then logError s2 (.retiredDebug s.here) else s2
  if t.lat.mcheck.pending then logError s3 (.retiredMcheck s.here t.lat.mcka) else s3

/-- `end` (R21, R255): OPERAND with claims or a packet open; waits for the thread's engine commands; then the unit retires. -/
def execEndUnit (s : State) : Out :=
  if claimHeld s || decide (s.th.ch.pkt ≠ 0) then raiseEv operandError s
  else if commandsOutstanding s.th.eng then waitOn .commands s
  else .next (retireUnit s)

/-- A cooperative request is taken here, outside a handler and outside an open packet: it becomes an eligible PREEMPT for the boundary
after the instruction (R40, R255, R322). -/
def takeCooperative (t : Thread) : Thread :=
  if t.lat.coop && !t.sr.se && !t.sr.ue && decide (t.ch.pkt = 0) then
    { t with lat := { t.lat with coop := false, preempt := { pending := true, eligible := true } } }
  else t

/-- `yield`: resets the watchdog count, does not count itself, and lets a cooperative request take effect (R38, R39). -/
def execYield (s : State) : Out :=
  let t := retireTh s.th .ready none false
  .next (s.withTh (takeCooperative { t with id := { t.id with wdcount := 0 }, lat := s.th.lat }))

/-- `nop` (R201). -/
def execNop (s : State) : Out := finish s

/-- `trap` executes, and then raises SWTRAP: the saved queue is the one after its own step (R202). -/
def execTrap (code : BitVec 8) (s : State) : Out :=
  raise evSwtrap (code.setWidth 64) (s.withTh (retireTh s.th .ready none false))

/-- `brk`: DEBUG as an event of the instruction itself (R203). -/
def execBrk (s : State) : Out := raise evDebug s.th.pcq.e0.addr s

/-- A handler of PREEMPT or REVOKE that returns leaves its unit running (R322). -/
def staysRunning (s : State) : State :=
  if s.th.sr.pl && s.th.lat.stopping then
    let v : BitVec 4 := if s.th.id.harv then 3 else 2
    let t := s.th
    putSlot (s.withTh { t with lat := { t.lat with stopping := false } }) s.here fun e =>
      if e.state = 4 then { e with state := v } else e
  else s

/-- `rfe` (R268, R317). -/
def execRfe (s : State) : Out := returnFromEvent (staysRunning s)

end Sys2Proof.Machine
end

