-- ==== Sys2Proof/Machine/System.lean ====
section
/-! DEFINITION. System instructions: special registers (R267), translations and code (R269, R270), contexts and windows (R271, R272),
signals and idling (R273, R274). -/

namespace Sys2Proof.Machine

/-- A privileged instruction raises PRIV at user level, before every other check (R159, R166). -/
def privileged (s : State) (k : Out) : Out := if s.th.sr.pl then k else raise evPriv s.th.pcq.e0.addr s

/-- `mfsr` (R267). -/
def execMfsr (d : Reg) (n : SReg) (s : State) : Out :=
  if sregReadable s.th.sr.pl n then
    regOp [] d (readSreg s n) { s with fresh := if epcUndefined s.th && decide (n = .epc0 ∨ n = .epc1 ∨ n = .epc2) then s.fresh + 3 else s.fresh }
  else raise evPriv s.th.pcq.e0.addr s

/-- `mtsr`: `vl` takes 1 to 65,535 (R152, R267). -/
def execMtsr (n : SReg) (a : Reg) (s : State) : Out :=
  if sregWritable s.th.sr.pl n then
    withRegs [a] [] s <|
      if n = .vl ∧ (s.reg a).toNat % 65536 = 0 then raiseEv operandError s
      else
        let s1 := takeMsgs s [a]
        finish (s1.withSr (writeSreg s1.th.sr n (s.reg a)))
  else raise evPriv s.th.pcq.e0.addr s

/-! ### Translations and code -/

/-- What identifies an engine command in flight. -/
def cmdKey (c : Cmd) : BitVec 32 × BitVec 16 × EngClass × Nat := (c.lid, c.unit, c.cls, c.seq)

/-- What a `tlbinv` still waits for: whether every TLB has acknowledged, and the commands in flight that were issued with a translation it
invalidates (R269). -/
def tlbWait (s : State) (holds : Cmd → Bool) : Bool × List (BitVec 32 × BitVec 16 × EngClass × Nat) :=
  match s.th.rot with
  | .waiting (.tlb acked ks) => (acked, ks.filter ((allCommands s).map cmdKey).contains)
  | _ => (false, ((allCommands s).filter holds).map cmdKey)

/-- Invalidate the cached translations `hit` holds of, and wait for the acknowledgements and for the commands that were issued with one
(R269). A reissue after an interruption invalidates and waits again (R324); a message is taken when the instruction finishes. -/
def invalidate (srcs : List Reg) (hit : TlbEntry → Bool) (holds : Cmd → Bool) (s : State) : Out :=
  let w := tlbWait s holds
  if w.1 && w.2.isEmpty then finish (takeMsgs (dropTlb s hit) srcs) else waitOn (.tlb w.1 w.2) (dropTlb s hit)

/-- Whether a leaf range holds an address. -/
def inLeaf (va : Word) (base size : Nat) : Bool := decide (base ≤ va.toNat % 2 ^ 52 ∧ va.toNat % 2 ^ 52 < base + size)

/-- `tlbinv.page` (R269). -/
def execTlbinvPage (a : Reg) (s : State) : Out :=
  privileged s <| withRegs [a] [] s <|
    let va := s.reg a
    let t := s.th.id.tenant
    invalidate [a] (fun e => decide (e.tenant = t) && inLeaf va e.va e.size)
      (fun c => decide (c.tenant = t) && c.pages.any fun p => inLeaf va p.2.base p.2.size) s

/-- `tlbinv.tenant` (R269). -/
def execTlbinvTenant (a : Reg) (s : State) : Out :=
  privileged s <| withRegs [a] [] s <|
    let v := s.reg a
    if 16 ≤ v.toNat then raiseEv operandError s
    else
      invalidate [a] (fun e => decide (e.tenant.toNat = v.toNat))
        (fun c => decide (c.tenant.toNat = v.toNat) && !c.pages.isEmpty) s

/-- `tlbinv.all` (R269). -/
def execTlbinvAll (s : State) : Out :=
  privileged s <| invalidate [] (fun _ => true) (fun c => !c.pages.isEmpty) s

/-- `icinv`: the instruction cache of the issuing core is empty, and the thread out of rotation until it is over (R270). -/
def execIcinv (s : State) : Out := privileged s <| finish (s.withCore { s.core with icache := [] }) (.inFlight .icinv)

/-! ### Contexts and windows -/

/-- The area that `ctxsv` and `ctxld` name: `g0` names `sarea` (R330). -/
def areaOf (s : State) (a : Reg) : Word := if a = 0 then s.th.sr.sarea else s.reg a

/-- `ctxsv`, with a system fence for the saved thread (R271, R328 to R330). Flags that came before a save to `sarea` are in it (R89). -/
def execCtxsv (a : Reg) (s : State) : Out :=
  privileged s <| withRegs [a] [] s <|
    orRaise (saveContext s (areaOf s a)) s fun s1 =>
      releaseFirst s <|
        let s2 := takeMsgs s1 [a]
        finish (s2.withTh { s2.th with lat := { s2.th.lat with
          signal := s2.th.lat.signal.saved, mcheck := s2.th.lat.mcheck.saved, dbg := s2.th.lat.dbg.saved
          saved := s2.th.lat.saved || decide (areaOf s a = s.th.sr.sarea)
          late := if areaOf s a = s.th.sr.sarea then 0 else s2.th.lat.late } }) (.inFlight .context)

/-- `ctxld` (R271, R328 to R330). -/
def execCtxld (a : Reg) (s : State) : Out :=
  privileged s <| withRegs [a] [] s <|
    orRaise (restoreContext (takeMsgs s [a]) (areaOf s a)) s fun s1 => finish s1 (.inFlight .context)

/-- `wflush`: one window a turn, within `wlim`; one window stays resident (R272). A spill on an SO page is a release (R116). It completes before
an event is taken (R312). -/
def execWflush (s : State) : Out :=
  privileged s <|
    if s.th.rf.olds.isEmpty then finish s
    else match spillOldest s s.here true with
      | .moved s' =>
        if spillHeld s s.here then waitOn .release s
        else if s'.th.rf.olds.isEmpty then finish s' (if spillWalks s then .inFlight .walk else .ready)
        else waitOn .flush s'
      | .event e => raiseEv e s
      | .impossible => finish s

/-! ### Signals and idling -/

/-- `sig` (R273): a slot that is still being bound holds no thread (R9). The event reports the descriptor for TENANT (R311); a router that drops
the signal on its way is the last check (R305). -/
def execSig (a b : Reg) (s : State) : Out :=
  privileged s <| withRegs [a, b] [] s <|
    let d := s.reg a
    let q := placeOfDesc d
    if !descOk d 0 0 then raiseEv operandError s
    else if !descInTenant s d then raise evTenant d s
    else if !(s.thr q).bound || decide ((s.slot q).state = 1) then raiseEv operandError s
    else if !pathInside s s.th.id.tenant s.hereCore (coreNum (placeCore q)) then raise evTenant d s
    else if (s.thr q).lat.signal.pending then waitOn .signalLatch s
    else
      let s1 := takeMsgs s [a, b]
      let t := s1.thr q
      finish (s1.putThr q { t with lat := { t.lat with signal := { pending := true }, sigv := s.reg b } })

/-- Whether some request of a thread is eligible. -/
def anyEligible (l : Latches) : Bool :=
  l.preempt.eligible || l.revoke.eligible || l.signal.eligible || l.dbg.eligible || l.mcheck.eligible

/-- The address of binding record `i` of a thread's save area (R328). -/
def bindRecord (t : Thread) (i : Nat) : Word := t.sr.sarea + BitVec.ofNat 64 (8 * (40 + 3 * i))

/-- Whether a save area holds the message of a bound register (R328): a record with its number and the full bit. -/
def areaHolds (s : State) (t : Thread) (b : Binding) : Bool :=
  (List.range 4).any fun i =>
    match readVirtual s t.id.tenant (bindRecord t i) 8 with
    | some bs => decide (bitsOf (wordOf bs) 2 0 = b.reg.val) && (wordOf bs).getLsbD 3
    | none => false

/-- The binding records of a save area name the places where the senders stand now (R256). -/
def lateSenders (s : State) : State :=
  let t := s.th
  (List.range 4).foldl (fun s i =>
    match (readVirtual s t.id.tenant (bindRecord t i) 8).bind fun bs => t.ch.binds.find? fun b => decide (b.reg.val = bitsOf (wordOf bs) 2 0) with
    | some b => storeVirtual s t.id.tenant (bindRecord t i + 8) (wordBytes (descriptor s.sys.host.mid b.sender 0))
    | none => s) (readTouched s t.id.tenant (bindRecord t 0) 96)

/-- The permits of a context extension are those that the slot holds now: what was installed, removed, renamed or credited after the save
(R253, R254, R256). -/
def latePermits (s : State) : State :=
  let t := s.th
  match readVirtual s t.id.tenant (t.sr.sarea + 0x10) 8 with
  | some bs =>
    storeVirtual (readTouched s t.id.tenant (t.sr.sarea + 0x10) 8) t.id.tenant ((wordOf bs &&& 0xFFFFFFFFFFFFF800) + 1536)
      (wordsBytes (extWord s) 192 64)
  | none => s

/-- Messages that reached the thread in focus after it had saved its context are in the link for it, as its context does not hold them (R74). -/
def lateMessages (s : State) : State :=
  let late := s.th.ch.binds.filter fun b => b.full && !areaHolds s s.th b
  s.withWork { s.sys.work with
    msgs := late.map (fun b => ⟨b.sender, (s.thr b.sender).id.lid, (s.thr b.sender).id.unit, s.th.id.tenant, s.here, b.reg.val, b.held⟩) ++ s.sys.work.msgs }

/-- Requests that reached the thread in focus after it had saved its context join those that the area holds: only retirement discards one
(R321, R328). -/
def lateRequests (s : State) : State :=
  let t := s.th
  let put (b : Bool) (k : Nat) (f : Word → Word) (s : State) : State :=
    if b then rewriteWords s t.id.tenant t.sr.sarea f k 1 1 else s
  let bits : Word := BitVec.ofNat 64 (bitNat t.lat.signal.pending * 4 + bitNat t.lat.mcheck.pending * 2 + bitNat t.lat.dbg.pending)
  put (decide (bits ≠ 0)) 28 (· ||| bits)
    (put t.lat.mcheck.pending 30 (fun _ => t.lat.mcka) (put t.lat.signal.pending 29 (fun _ => t.lat.sigv) s))

/-- A launch none of whose units is bound any more has been pre-empted whole (R42). -/
def noteWhole (s : State) (lid : BitVec 32) : State :=
  if s.boundPlaces.any fun p => decide ((s.thr p).id.lid = lid) then s else s.putLaunch lid { s.launch lid with whole := true }

/-- Release the slot of a unit whose context is saved (R322): the entry becomes empty with why 0x02, what the area holds leaves the core, and
what came for the unit since it was saved joins the area or waits for it (R74, R89, R253, R254, R256, R321). -/
def vacate (s : State) : State :=
  let s0 := latePermits (lateSenders (lateRequests (lateMessages s)))
  let k := s0.core
  let s1 := s0.withCore { k with permits := k.permits.filter fun p => !decide (p.slot = s.here.slot) }
  let i := s.th.id
  let gang := if s.th.gang.state = .none then none else some s.th.gang.rect
  let st := stackOf s.th
  let w := s1.sys.work
  let s2 := s1.withWork { w with
    saved := w.saved ++ [⟨i.lid, i.unit, i.tenant, s.here, s.th.sr.sarea, gang, (st.1, st.2.1, s.th.rf.depth - 1), false, decide (s.th.gang.state = .leader), s.th.lat.drop⟩]
    inbox := w.inbox ++ (if s.th.lat.late = 0 then [] else [⟨i.lid, i.unit, .matrix, 0, 0, 0, s.th.lat.late⟩]) }
  noteWhole (emptySlot (s2.withTh (unbound s.th)) s.here 0x02) i.lid

/-- `idle` (R274, R322). A unit leaves its place once its remote atomics are performed (R126). DESIGN CHOICE (log 47): an eligible request that
R319 or R320 holds back completes it as well. -/
def execIdle (s : State) : Out :=
  privileged s <|
    if s.th.sr.se && s.th.lat.stopping && s.th.lat.saved then
      if s.th.lat.discard then .next (discardUnit s s.here) else releaseFirst s (.next (vacate s))
    else
      let t := takeCooperative s.th
      if anyEligible t.lat then finish (s.withTh t) else waitOn .idle s

end Sys2Proof.Machine
end

