-- ==== Sys2Proof/Machine/Slots.lean ====
section
/-! DEFINITION. The slot table: bind records and the forester's commands (R20, R30 to R33, R47, R48, R292 to R297, R314, R322, R328). -/

namespace Sys2Proof.Machine

/-- A command or record write is refused: err is set (R292, R294). -/
def refuseSlot (s : State) (p : Place) : State := putSlot s p fun e => { e with err := true }

/-- BIND_RECORD_WRITE (R292): reserved bits stay 0. -/
def execBindRecordWrite (p : Place) (w0 w1 w2 w3 : Word) (s : State) : Out :=
  if (s.slot p).state = 0 then
    .next (putSlot s p fun e => { e with
      w0 := w0 &&& 0xFFFFFFFFFFFFFFFE, w1 := w1, w2 := w2 &&& 0xFFFFFFFFFFFFFC00, w3 := w3 &&& 0xFFFFFFFFFFFFFE0F })
  else .next (refuseSlot s p)

/-! ### The bind record (R292) -/

def slotLid (e : Slot) : BitVec 32 := (e.w3 >>> 32).setWidth 32
def slotUnit (e : Slot) : BitVec 16 := (e.w3 >>> 16).setWidth 16
def slotTenant (e : Slot) : BitVec 4 := (e.w3 >>> 12).setWidth 4
def slotClass (e : Slot) : BitVec 2 := (e.w3 >>> 10).setWidth 2
def slotHarv (e : Slot) : Bool := e.w3.getLsbD 9
def slotNumber (e : Slot) : Nat := bitsOf e.w3 3 0

/-- Whether the dispatch hardware refuses a record (R294). -/
def bindRefused (s : State) (p : Place) (e : Slot) : Bool :=
  decide (slotNumber e ≠ p.slot.val) || (slotHarv e && decide (p.slot.val < 8)) || (!slotHarv e && decide (8 ≤ p.slot.val))
    || (decide (slotClass e = 3) && !slotHarv e) || !inRect (s.tenant (slotTenant e)) (coreNum (placeCore p))

/-! ### Windows (R47, R48, R258) -/

/-- Whether a scratchpad and a scale range are free of other launches' windows on a core. -/
def windowFits (c : Core) (lid : BitVec 32) (sp spn sc scn : Nat) : Bool :=
  c.windows.all fun w => decide (w.lid = lid)
    || (decide (w.spLim ≤ sp ∨ sp + spn ≤ w.spBase) && decide (w.scLim ≤ sc ∨ sc + scn ≤ w.scBase))

/-- Whether bases fit every core of a launch's sub-mesh; each is one of the memory's own addresses, as their registers hold no other (R152). -/
def basesFit (s : State) (l : Launch) (b : Nat × Nat) : Bool :=
  decide (b.1 + l.scratch ≤ 786432 ∧ b.2 + l.scale ≤ 32768 ∧ b.1 < 786432 ∧ b.2 < 32768)
    && l.mesh.all fun c => windowFits (s.coreBy c) l.lid b.1 l.scratch b.2 l.scale

/-- The bases of a launch's windows: as fixed before; else those the forester names, where they fit; else the lowest that do (log 23). -/
def pickBases (s : State) (l : Launch) : Option (Nat × Nat) :=
  match l.bases with
  | some b => if basesFit s l b then some b else none
  | none =>
    let named := (Config.windowBase l.lid.toNat 0 / 256 * 256, Config.windowBase l.lid.toNat 1 / 64 * 64)
    if basesFit s l named then some named
    else
      let ws := (l.mesh.map fun c => (s.coreBy c).windows).flatten
      let sps := 0 :: ws.map (·.spLim)
      let scs := 0 :: ws.map (·.scLim)
      ((sps.map fun a => scs.map fun b => (a, b)).flatten).find? (basesFit s l)

/-- Grant a launch its window on a core: every byte zero, every granule full. -/
def grantWindow (c : Core) (l : Launch) (b : Nat × Nat) : Core :=
  let inside (a : Nat) : Bool := decide (b.1 ≤ a ∧ a < b.1 + l.scratch)
  { c with
    windows := c.windows ++ [⟨l.lid, b.1, b.1 + l.scratch, b.2, b.2 + l.scale⟩]
    spad := c.spad.filter fun e => !inside e.1
    empties := c.empties.filter fun g => !inside (16 * g)
    bad := c.bad.filter fun g => !inside (16 * g) }

/-! ### Starting and resuming a unit -/

/-- The thread of a unit, as a bind gives it its identity and its registers of R314 and R20. -/
def boundThread (s : State) (e : Slot) (wsp wlim : Word) : Thread :=
  let l := s.launch (slotLid e)
  { bound := true
    rf := putReg {} 8 e.w1
    sr := {
      wsp := wsp, wlim := wlim, qtier := l.qtier, uentry := l.trap, hasUentry := l.hasTrap, wdlim := l.wdlim
      svec := even (s.tenant (slotTenant e)).entry, sarea := e.w2, sscratch := 0 }
    id := {
      lid := slotLid e, unit := slotUnit e, tenant := slotTenant e, cls := slotClass e, harv := slotHarv e
      bankedAt := s.sys.work.stamp }
    eng := { tens := (l.tens.mapIdx fun i t => (i, t)).foldl (fun m x => sparsePut {} m x.1 x.2) [] } }

/-- The same thread with its queue at the entry (R20), on the core of its place. -/
def startThread (s : State) (p : Place) (t : Thread) (entry : Word) : Thread :=
  { t with pcq := { handlerQueue (s.focus p) t false entry with entered := false } }

/-- The flags that a unit's commands left in the inbox while it was not bound reach it (R76, R89). -/
def collectFlags (s : State) (p : Place) : State :=
  let t := s.thr p
  let mine (r : Inbox) : Bool := decide (r.lid = t.id.lid ∧ r.unit = t.id.unit)
  let f := (s.sys.work.inbox.filter mine).foldl (fun f r => f ||| r.flags) 0
  let keep (r : Inbox) : Option Inbox :=
    if mine r then (if r.status = 0 then none else some { r with flags := 0 }) else some r
  (s.putThr p { t with sr := { t.sr with flags := t.sr.flags ||| f } }).withWork
    { s.sys.work with inbox := s.sys.work.inbox.filterMap keep }

/-- The header of a save area that the forester writes at a unit's first bind (R328). -/
def headerBytes (wsp wlim xarea : Word) : List Byte := wordBytes wsp ++ wordBytes wlim ++ wordBytes xarea ++ wordBytes 0x100

/-- Park the harvest context seated in a primary slot (R32, R297). -/
def parkSeated (s : State) (p : Place) : State :=
  let seated (q : Place) : Bool := decide ((s.thr q).id.seat.map (·.val) = some p.slot.val)
  match (s.placesOn (coreNum (placeCore p))).find? seated with
  | none => s
  | some q =>
    let t := s.thr q
    let s := s.withWork { s.sys.work with stamp := s.sys.work.stamp + 1 }
    s.putThr q { t with id := { t.id with seat := none, parking := true, bankedAt := s.sys.work.stamp } }

/-- Whether a saved unit resumed at a place is still a member of its gang (R29, R264). -/
def staysMember (u : Saved) (p : Place) : Bool :=
  match u.gang with
  | none => false
  | some r => decide (p.slot = u.place.slot ∧ p.did = u.place.did ∧ p.cid.val / 16 = u.place.cid.val / 16) && inGang r (p.cid.val % 16)

/-- The gang that a saved unit leads dissolves (R29, R264); `except` is where that unit stands itself. -/
def dissolveGang (s : State) (u : Saved) (except : Option Place) : State :=
  releaseSaved (s.boundPlaces.foldl (fun s q =>
    let m := s.thr q
    if some q ≠ except ∧ m.id.lid = u.lid ∧ u.gang = some m.gang.rect ∧ q.slot = u.place.slot ∧ q.did = u.place.did
        ∧ q.cid.val / 16 = u.place.cid.val / 16 ∧ m.gang.state ≠ .none then
      setGang s q outOfGang
    else s) s) u.place u.lid (u.gang.getD 0)

/-- Gang membership of a unit that resumes at a place: a member that left leaves, and with a leader the gang dissolves. -/
def resumeGang (s : State) (u : Saved) (p : Place) : State :=
  if staysMember u p then s
  else
    let s := if (s.thr p).gang.state = .leader then dissolveGang s u (some p) else s
    setGang s p fun g => { outOfGang g with now := none }

/-- Permits for a slot join those of the context that resumes there: they were installed while no thread held them (R253, R256). -/
def joinPermits (slot : Fin 12) (ps : List Permit) (s : State) : State :=
  let known (p : Permit) : Bool := s.core.permits.any fun q => decide (q.slot = slot ∧ q.dst = p.dst ∧ q.reg = p.reg)
  s.withCore { s.core with permits := s.core.permits ++ ps.filter fun p => decide (p.slot = slot) && !known p }

/-- A unit with a saved area resumes: `ctxld` from `sarea` and `rfe` before the first issue (R322), its channels moved (R256). An event of the
load is taken by the unit as it stands (log 31), and counted where it is a machine check (R376). A message dropped meanwhile is reported to it
(R305). -/
def resumeUnit (s : State) (p : Place) (t : Thread) (u : Saved) : State :=
  let home := s.here
  let others := s.sys.work.saved.filter fun x => !decide (x = u)
  let s := s.withWork { s.sys.work with saved := others }
  let s := s.focus p
  let s := s.withTh { t with lat := { t.lat with drop := u.drop } }
  (match restoreContext s t.sr.sarea with
    | .error e => takeEvent (if e.code = evMcheck then metError s p.did.val else s) p e.code e.addr
    | .ok s1 =>
      match returnFromEvent (joinPermits p.slot s.core.permits s1) with
      | .next s2 => resumeGang (moveChannels s2 u.place p others) u p
      | _ => s1).focus home

/-- The saved context of a unit. -/
def savedOf (s : State) (lid : BitVec 32) (unit : BitVec 16) : Option Saved :=
  s.sys.work.saved.find? fun u => decide (u.lid = lid ∧ u.unit = unit)

/-- Whether the saved bit of an area is set (R328). -/
def savedBit (s : State) (tenant : BitVec 4) (area : Word) : Bool :=
  match readVirtual s tenant (area + 0x18) 1 with
  | some (b :: _) => b.getLsbD 0
  | _ => false

/-- Start a unit that was not bound before: the forester writes the header of its save area (R20, R328). -/
def startUnit (s : State) (p : Place) (e : Slot) : State :=
  let l := s.launch (slotLid e)
  let wsp := Config.stackBase l.lid.toNat (slotUnit e).toNat s.fresh &&& 0xFFFFFFFFFFFFFF80
  let xarea := Config.extensionBase l.lid.toNat (slotUnit e).toNat s.fresh &&& 0xFFFFFFFFFFFFF800
  let wlim := wsp + BitVec.ofNat 64 l.wstack
  let s := storeVirtual { s with fresh := s.fresh + 1 } (slotTenant e) e.w2 (headerBytes wsp wlim xarea)
  s.putThr p (startThread s p (boundThread s e wsp wlim) e.w0)

/-! ### A launch pre-empted whole (R42, R62, R307, R322) -/

/-- What the forester copies of a core for a launch: its window, its scale memory, its tiles. -/
def imageOf (s : State) (lid : BitVec 32) (c : Nat) : Option CoreImage :=
  let k := s.coreBy c
  (k.windows.find? fun w => decide (w.lid = lid)).map fun w =>
    let inside (a : Nat) : Bool := decide (w.spBase ≤ a ∧ a < w.spLim)
    { core := c
      spad := k.spad.filter fun e => inside e.1
      empties := k.empties.filter fun g => inside (16 * g)
      bad := k.bad.filter fun g => inside (16 * g)
      scale := k.scale.filter fun e => decide (w.scBase ≤ e.1 ∧ e.1 < w.scLim)
      tiles := (List.finRange 4).filterMap fun i =>
        match k.owners[i.val] with
        | some o => if o.lid = lid then some (o, k.tiles[i.val]) else none
        | none => none }

/-- The tiles of a launch on a core are freed. -/
def withoutTiles (lid : BitVec 32) (k : Core) : Core :=
  { k with owners := k.owners.map fun o => match o with | some x => if x.lid = lid then none else some x | none => none }

/-- The copies that have not been put on a core yet. -/
def heldImages (l : Launch) : List CoreImage := l.images.filter fun im => !l.moves.any fun m => decide (m.1 = im.core)

/-- The copies of a launch that has been pre-empted whole are made, before any of its units is bound again (R322). -/
def copyOutLaunch (s : State) (l : Launch) : State :=
  if !l.whole then s
  else
    let kept := heldImages l
    let s := mapCores (s.putLaunch l.lid { l with
      whole := false, moves := []
      images := kept ++ (l.mesh.filter fun c => !kept.any fun im => decide (im.core = c)).filterMap (imageOf s l.lid) }) (withoutTiles l.lid)
    s.withWork { s.sys.work with saved := s.sys.work.saved.map fun u => if u.lid = l.lid then { u with image := true } else u }

/-- Put tiles into free ones of a core. -/
def putTiles (k : Core) : List (TileOwner × Sparse (BitVec 32)) → Core
  | [] => k
  | x :: t =>
    match (List.finRange 4).find? fun i => k.owners[i.val].isNone with
    | some i => putTiles { k with owners := k.owners.set i.val (some x.1), tiles := k.tiles.set i.val x.2 } t
    | none => k

/-- A core with a copy put into a launch's window there. -/
def putImage (k : Core) (w : Window) (im : CoreImage) : Core :=
  let outside (a : Nat) : Bool := !decide (w.spBase ≤ a ∧ a < w.spLim)
  putTiles { k with
    spad := im.spad.foldl (fun m e => sparsePut 0 m e.1 e.2) (k.spad.filter fun e => outside e.1)
    empties := im.empties.foldl (fun l g => insertNat g l) (k.empties.filter fun g => outside (16 * g))
    bad := im.bad.foldl (fun l g => insertNat g l) (k.bad.filter fun g => outside (16 * g))
    scale := im.scale.foldl (fun m e => sparsePut 0 m e.1 e.2)
      (k.scale.filter fun e => !decide (w.scBase ≤ e.1 ∧ e.1 < w.scLim)) } im.tiles

/-- The copy of the core that a unit left is put on the core it resumes on, once (R42). -/
def copyInLaunch (s : State) (lid : BitVec 32) (old new : Nat) : State :=
  let l := s.launch lid
  if l.moves.contains (old, new) then s
  else match l.images.find? fun im => decide (im.core = old), (s.coreBy new).windows.find? fun w => decide (w.lid = lid) with
    | some im, some w =>
      (s.putLaunch lid { l with moves := l.moves ++ [(old, new)] }).putCore new (putImage (s.coreBy new) w im)
    | _, _ => s

/-- Whether the units that left one core may resume on another with its copy: each copy goes to one core, and each core takes one, not before
its own has gone, with tiles enough. -/
def imageAllows (s : State) (l : Launch) (old new : Nat) : Bool :=
  l.moves.contains (old, new)
    || (!(l.moves.any fun m => decide (m.1 = old ∨ m.2 = new))
      && (decide (old = new) || !(heldImages l).any fun im => decide (im.core = new))
      && (match l.images.find? fun im => decide (im.core = old) with
          | some im => decide (im.tiles.length ≤ ((s.coreBy new).owners.toList.filter (·.isNone)).length)
          | none => true))

/-- Whether the copies may be made: nothing of the launch is in flight. -/
def copyReady (s : State) (l : Launch) : Bool :=
  !l.whole || (!((allCommands s).any fun c => decide (c.lid = l.lid)) && !(s.sys.work.amos.any fun m => decide (m.lid = l.lid)))

/-! ### `bind` -/

/-- Whether a launch may be bound yet: live and not cancelled, its phase reached, the launches it waits for done (R127, R260, R300, R343). -/
def launchStarts (s : State) (l : Launch) : Bool :=
  !l.record.done && !l.record.cancel && !l.cancelling && decide (l.phase = (s.job l.job).boundary)
    && l.waits.all fun w => !(s.sys.work.launches.any fun e => decide (e.1 = w))

/-- Whether the tenant of a core's owners is that of a harvest context to be bound, and has an owner there (R30). -/
def ownersOf (s : State) (core : Nat) (tenant : BitVec 4) : Bool :=
  let os := (s.placesOn core).filter fun p => !(s.thr p).id.harv
  !os.isEmpty && os.all fun p => decide ((s.thr p).id.tenant = tenant)

/-- Whether a core has room for the tiles of a launch that is to be copied there from another core: what the launch has on the core is freed
first. -/
def tileRoom (s : State) (l : Launch) (old new : Nat) : Bool :=
  let own (c : Nat) : Nat := ((s.coreBy c).owners.toList.filter fun o => match o with | some x => decide (x.lid = l.lid) | none => false).length
  let tiles := match (heldImages l).find? fun im => decide (im.core = old) with | some im => im.tiles.length | none => own old
  decide (tiles ≤ own new + ((s.coreBy new).owners.toList.filter (·.isNone)).length)

/-- Whether a saved unit may resume on a core: with the copies of a launch that was pre-empted whole, or only on its own while it holds a
mapped tile (R42, R62). -/
def tilesAllow (s : State) (u : Saved) (core : Nat) : Bool :=
  let old := coreNum (placeCore u.place)
  let l := s.launch u.lid
  if l.whole then copyReady s l && tileRoom s l old core
  else if u.image then imageAllows s l old core
  else decide (old = core)
    || !((s.coreBy old).owners.toList.any fun o => match o with | some x => decide (x.lid = u.lid ∧ x.unit = u.unit) | none => false)

/-- The saved units of a launch that may resume on a core, the one displaced last at the head (R295). -/
def mayResume (s : State) (lid : BitVec 32) (core : Nat) : List Saved :=
  (s.sys.work.saved.filter fun u => decide (u.lid = lid) && tilesAllow s u core).reverse

/-- How many units of a launch have never been bound and are not cancelled. -/
def unboundUnits (l : Launch) : Nat := l.units - (l.seen.length + ((l.gone ++ l.stops).filter fun u => !l.seen.contains u).length)

/-- Whether a launch has a unit that has never been bound. -/
def unitsLeft (l : Launch) : Bool := decide (0 < unboundUnits l)

/-- Whether a launch has a unit that waits for a slot on a core (R295). -/
def waitsFor (s : State) (l : Launch) (core : Nat) : Bool :=
  launchStarts s l && l.mesh.contains core && copyReady s l && (unitsLeft l || !(mayResume s l.lid core).isEmpty)

/-- Whether one launch comes before another in the round after the one granted last (R296). -/
def roundBefore (last : Nat) (a b : Launch) : Bool :=
  if decide (last < a.order) == decide (last < b.order) then decide (a.order < b.order) else decide (last < a.order)

/-- The launch of a class whose turn a free slot of a core is: one over its age limit before every other, and round-robin in the order of
admission (R296). -/
def nextGranted (s : State) (cls : BitVec 2) (core : Nat) : Option Launch :=
  let ls := (s.sys.work.launches.map (·.2)).filter fun l => decide (l.cls = cls) && waitsFor s l core
  let ls := if ls.any (·.aged) then ls.filter (·.aged) else ls
  let last := sparseGet 0 s.sys.work.lastGrant cls.toNat
  ls.foldl (fun b l => match b with
    | none => some l
    | some x => if roundBefore last l x then some l else some x) none

/-- Whether a unit is at the head of its launch's waiting units for a core: a displaced one before every one not bound yet (R295). -/
def atHead (s : State) (l : Launch) (unit : BitVec 16) (core : Nat) : Bool :=
  match mayResume s l.lid core with
  | u :: _ => decide (u.unit = unit)
  | [] => !l.seen.contains unit.toNat

/-- Whether a slot is free for a launch: not one that is emptied for a unit of another launch that still waits (R295). -/
def reservedFor (s : State) (p : Place) (lid : BitVec 32) : Bool :=
  s.sys.work.reserved.all fun r => decide (r.1 ≠ p ∨ r.2 = lid) || !(waitsFor s (s.launch r.2) (coreNum (placeCore p)))

/-- Whether the forester binds the unit of a record at a place (R19, R30, R62, R127, R291, R295, R296, R300, R362). At which place a unit is
bound, and which of the units not bound yet, is its decision (log 23). -/
def foresterBinds (s : State) (p : Place) (e : Slot) : Bool :=
  let l := s.launch (slotLid e)
  let c := coreNum (placeCore p)
  foresters s && launchLive s (slotLid e) && waitsFor s l c && decide ((slotUnit e).toNat < l.units)
    && !l.gone.contains (slotUnit e).toNat && !l.stops.contains (slotUnit e).toNat
    && (placeOfUnit s (slotLid e) (slotUnit e)).isNone
    && (if slotHarv e then ownersOf s c (slotTenant e) else true)
    && atHead s l (slotUnit e) c && reservedFor s p l.lid
    && (decide ((nextGranted s l.cls c).map (·.lid) = some l.lid) || s.sys.work.reserved.contains (p, l.lid))

/-- Grant a launch its window on a core, if it is an owner's and has none there yet. -/
def ensureWindow (s : State) (l : Launch) (c : Nat) : Option State :=
  if l.cls = 3 ∨ windowGranted (s.coreBy c) l.lid = true then some s
  else (pickBases s l).map fun b => (s.putLaunch l.lid { l with bases := some b }).putCore c (grantWindow (s.coreBy c) l b)

/-- The unit of a checked record is bound. -/
def bindUnit (s : State) (p : Place) (e : Slot) : State :=
  let l := s.launch (slotLid e)
  let s := wakeCore (parkSeated (copyOutLaunch s l) p) (coreNum (placeCore p))
  let l := s.launch (slotLid e)
  let s := s.withWork { s.sys.work with stamp := s.sys.work.stamp + 1 }
  let s := s.withWork { s.sys.work with
    lastGrant := sparsePut 0 s.sys.work.lastGrant l.cls.toNat l.order
    reserved := s.sys.work.reserved.filter fun r => !decide (r.1 = p) }
  let s := s.putLaunch (slotLid e) { l with seen := insertNat (slotUnit e).toNat l.seen }
  let s := putSlot s p fun x => { x with state := if slotHarv e then 3 else 1 }
  let s := match savedOf s (slotLid e) (slotUnit e) with
    | some u =>
      let s := if u.image then copyInLaunch s u.lid (coreNum (placeCore u.place)) (coreNum (placeCore p)) else s
      let saved := savedBit s (slotTenant e) e.w2
      let s := readTouched s (slotTenant e) (e.w2 + 0x18) 1
      if saved then resumeUnit s p (boundThread s e 0 0) u
      else
        let s := s.withWork { s.sys.work with saved := s.sys.work.saved.filter fun x => !decide (x = u) }
        startUnit s p e
    | none => startUnit s p e
  collectFlags s p

/-- BIND (R294): checked by the dispatch hardware; then performed, where the forester may bind the unit. A refused bind leaves the entry empty
and raises the dispatch interrupt, as an entry that becomes empty does (DESIGN CHOICE, log 23). -/
def execBind (p : Place) (s : State) : Out :=
  let e := s.slot p
  if e.state ≠ 0 then .next (refuseSlot s p)
  else if bindRefused s p e then .next (emptySlot s p 0x04)
  else if !foresterBinds s p e then .next s
  else match ensureWindow s (s.launch (slotLid e)) (coreNum (placeCore p)) with
    | some s1 => .next (bindUnit s1 p e)
    | none => .next s

/-! ### Stops (R294) -/

/-- A request for the thread at a place, whose entry goes to stopping; `discard` is whether no context is to be saved. -/
def requestStop (s : State) (p : Place) (discard : Bool := false) : State :=
  let t := s.thr p
  let l := { t.lat with discard := t.lat.discard || discard }
  let l := if p.slot.val < 8 then { l with preempt := { l.preempt with pending := true }, coop := false }
    else { l with revoke := { l.revoke with pending := true } }
  putSlot (s.putThr p { t with lat := l }) p fun e => { e with state := 4 }

/-- COOPERATIVE_STOP (R40, R294): taken at `yield`, `idle` or `end`. -/
def execCooperativeStop (p : Place) (s : State) : Out :=
  let t := s.thr p
  .next (if (s.slot p).state = 2 then s.putThr p { t with lat := { t.lat with coop := true } } else refuseSlot s p)

/-- Stop the thread at a place with discard: as a forced stop, or at once where the unit has not issued yet (R40, R41, R294). -/
def stopDiscarding (s : State) (p : Place) : State := if (s.slot p).state = 1 then discardUnit s p else requestStop s p true

/-- STOP_WITH_DISCARD (R294, R303). -/
def execStopWithDiscard (p : Place) (s : State) : Out :=
  let v := (s.slot p).state
  .next (if v = 1 ∨ v = 2 ∨ v = 3 then stopDiscarding s p else refuseSlot s p)

/-- WITHDRAW (R36, R294). -/
def execWithdraw (p : Place) (s : State) : Out :=
  .next (if (s.slot p).state = 3 then requestStop s p else refuseSlot s p)

/-- The class-2 owner bound last among the running ones of a sub-mesh (R295). -/
def victim (s : State) (mesh : List Nat) : Option Place :=
  (s.boundPlaces.filter fun p => decide (p.slot.val < 8 ∧ (s.thr p).id.cls = 2 ∧ (s.slot p).state = 2)
      && mesh.contains (coreNum (placeCore p))).foldl
    (fun b p => match b with
      | none => some p
      | some q => if (s.thr q).id.bankedAt ≤ (s.thr p).id.bankedAt then some p else some q) none

/-- A class-0 or class-1 launch that has units waiting and a core in its sub-mesh. -/
def waitingUrgent (s : State) (core : Nat) : Option Launch :=
  (s.sys.work.launches.find? fun e => decide (e.2.cls.toNat < 2) && waitsFor s e.2 core).map (·.2)

/-- Whether the sub-mesh of a launch has a primary slot for it that is free or holds only a seated harvest context. -/
def slotOpen (s : State) (l : Launch) : Bool :=
  l.mesh.any fun c => (List.finRange 8).any fun k =>
    let p : Place := ⟨(coreOf c).did, (coreOf c).cid, ⟨k.val, by omega⟩⟩
    decide ((s.slot p).state = 0) && reservedFor s p l.lid

/-- How many units of a launch wait for a slot of its sub-mesh. -/
def waitingUnits (s : State) (l : Launch) : Nat :=
  unboundUnits l + (s.sys.work.saved.filter fun u => decide (u.lid = l.lid)).length

/-- The slots that are being emptied for a launch. -/
def reservedSlots (s : State) (lid : BitVec 32) : Nat := (s.sys.work.reserved.filter fun r => decide (r.2 = lid)).length

/-- The victim of a class-0 or class-1 launch that waits while its sub-mesh has no slot for it, one for each unit that waits (R295). -/
def displaced (s : State) (l : Launch) : Option Place :=
  if decide (l.cls.toNat < 2) && (l.mesh.any fun c => waitsFor s l c) && !slotOpen s l
      && decide (reservedSlots s l.lid < waitingUnits s l) then victim s l.mesh
  else none

/-- The slot of a place is emptied for a launch, or for none in particular. -/
def reserve (s : State) (p : Place) (lid : Option (BitVec 32)) : State :=
  s.withWork { s.sys.work with
    reserved := (s.sys.work.reserved.filter fun r => !decide (r.1 = p)) ++ (lid.map fun l => (p, l)).toList }

/-- FORCED_STOP (R40, R294, R322): PREEMPT, or REVOKE for a bank. Where a class-0 or class-1 launch displaces the unit, the slot is for a unit
of it once it is empty (R295). -/
def execForcedStop (p : Place) (s : State) : Out :=
  .next (if (s.slot p).state = 2 ∨ (s.slot p).state = 3 then
      requestStop (reserve s p ((s.sys.work.launches.find? fun e => decide (displaced s e.2 = some p)).map fun e => e.2.lid)) p
    else refuseSlot s p)

/-- The forced stop that the forester writes next for a unit that waits (R295). -/
def displacement (s : State) : List Task :=
  if !foresters s then [] else ((s.sys.work.launches.findSome? fun e => displaced s e.2).map Task.forcedStop).toList

/-- SECOND_VICTIM (R295): the forced stop of a place has not emptied its entry, and a second one is written by the same rule; the first slot
then goes to the next unit that waits. -/
def execSecondVictim (p : Place) (s : State) : Out :=
  if (s.slot p).state ≠ 4 then .next s
  else match waitingUrgent s (coreNum (placeCore p)) with
    | none => .next s
    | some l => match victim s l.mesh with
      | none => .next s
      | some q => .next (requestStop (reserve (reserve s p none) q (some l.lid)) q)

/-- AGE_LIMIT (R296): the launch moves ahead of its class, and stays there until it is complete (DESIGN CHOICE, log 23). -/
def execAgeLimit (l : BitVec 32) (s : State) : Out :=
  .next (if launchLive s l then s.putLaunch l { s.launch l with aged := true } else s)

/-! ### Harvest contexts (R31 to R33) -/

/-- Whether a primary slot of a core has neither an owner nor a seated context. -/
def slotFree (s : State) (core : Nat) (k : Nat) : Bool :=
  !(s.placesOn core).any fun p => decide (p.slot.val = k ∨ (s.thr p).id.seat.map (·.val) = some k)

/-- The banked context of a core that has waited longest. -/
def longestBanked (s : State) (core : Nat) : Option Place :=
  ((s.placesOn core).filter fun p =>
      let i := (s.thr p).id
      i.harv && i.seat.isNone && !i.parking).foldl
    (fun b p => match b with
      | none => some p
      | some q => if (s.thr p).id.bankedAt < (s.thr q).id.bankedAt then some p else some q) none

/-- SEAT (R31, R297). DESIGN CHOICE (log 42): of several free primary slots the context takes the one with the lowest number. -/
def execSeat (c : CoreId) (s : State) : Out :=
  let n := coreNum c
  match (List.finRange 8).find? fun k => slotFree s n k.val, longestBanked s n with
  | some k, some p =>
    let t := s.thr p
    .next (s.putThr p { t with id := { t.id with seat := some k } })
  | _, _ => .next s

/-- PARKING_COMPLETE (R32, R33): not before the context's remote atomics are performed. -/
def execParkingComplete (p : Place) (s : State) : Out :=
  let t := s.thr p
  .next (if t.id.parking && !amosOutstanding s t.id.lid t.id.unit then
      s.putThr p { t with id := { t.id with parking := false } }
    else s)

end Sys2Proof.Machine
end

