-- ==== Sys2Proof/Machine/Completion.lean ====
section
/-! DEFINITION. Completion records that set done (R298, R299, R345), cancelling (R300, R303), the phase boundary and the log merge (R121,
R122, R127, R301). -/

namespace Sys2Proof.Machine

/-! ### Counting in the record above -/

/-- Count a member in a record: as ended or as cancelled, with its command errors. -/
def countIn (r m : Record) : Record :=
  let r := { r with cmderr := r.cmderr + m.cmderr }
  if m.cancel then { r with cancelled := r.cancelled + 1 } else { r with ended := r.ended + 1 }

/-- Whether ended and cancelled members make up all (R299). -/
def Record.full (r : Record) : Bool := decide (r.ended.toNat + r.cancelled.toNat = r.expect.toNat)

/-- Count a graph in its phase's record. -/
def countInPhase (s : State) (jn p : Nat) (m : Record) : State :=
  let j := s.job jn
  let x := j.phase p
  writePhase (s.putJob jn (j.putPhase p { x with record := countIn x.record m })) jn p

/-- Count a launch in its graph's record. -/
def countInGraph (s : State) (jn g : Nat) (m : Record) : State :=
  let j := s.job jn
  let x := j.graph g
  writeGraph (s.putJob jn (j.putGraph g { x with record := countIn x.record m })) jn g

/-- Count a phase in its job's record. -/
def countInJob (s : State) (jn : Nat) (m : Record) : State :=
  let j := s.job jn
  writeJob (s.putJob jn { j with record := countIn j.record m }) jn

/-! ### Completion (R299) -/

/-- Grains that are not cleared. -/
def uncleared (b : Sched) : Bool := decide ((b.grains.filter fun g => decide (g.2 = 2)).length < grainCount b)

/-- Whether a launch has nothing left to do: its units, its commands, and its atomics but for those that wait for a window (R258, R299). -/
def launchQuiet (s : State) (l : Launch) : Bool :=
  l.record.full && !l.record.done
    && !(s.boundPlaces.any fun p => decide ((s.thr p).id.lid = l.lid))
    && !((allCommands s).any fun c => decide (c.lid = l.lid))
    && !(s.sys.work.amos.any fun m => decide (m.lid = l.lid) && windowGranted (s.coreBy m.core) l.lid)

/-- What a launch that is done leaves on a core: no tags, no lent ranges, no window. -/
def launchDoneOn (lid : BitVec 32) (c : Core) : Core :=
  let c := launchLeavesCore c lid
  { c with windows := c.windows.filter fun w => !decide (w.lid = lid) }

/-- Everything that is kept for a launch goes; its schedule block, released, holds what it held (R282, R303). DESIGN CHOICE (log 23): the
tenant's leaf of the clearing map stays in its page tables. -/
def dropLaunch (s : State) (lid : BitVec 32) : State :=
  let b := (s.launch lid).sched
  let s := mapCores s (launchDoneOn lid)
  let w := s.sys.work
  s.withWork { w with
    launches := w.launches.filter fun e => !decide (e.1 = lid.toNat)
    blocks := sparsePut {} w.blocks lid.toNat b
    reserved := w.reserved.filter fun r => !decide (r.2 = lid)
    claims := w.claims.filter fun c => !decide (c.lid = lid)
    episodes := w.episodes.filter fun e => !decide (e.lid = lid)
    amos := w.amos.filter fun m => !decide (m.lid = lid)
    overlaid := w.overlaid.filter fun e => !decide (e.1 / 65536 = lid.toNat)
    inbox := w.inbox.filter fun r => !decide (r.lid = lid) }

/-- A launch completes: the atomics that still wait are lost, and the launch counts in the record above. -/
def completeLaunch (s : State) (l : Launch) : State :=
  let lost := (s.sys.work.amos.filter fun m => decide (m.lid = l.lid)).length
  let r := { l.record with
    lost := l.record.lost + BitVec.ofNat 32 lost, incomplete := uncleared l.sched, done := true }
  let s := putRecorded s l.lid { l with record := r }
  let s := if l.recAt.isSome then raiseRing s l.job else s
  let s := dropLaunch s l.lid
  if l.graph = 0 then countInPhase s l.job l.phase r else countInGraph s l.job l.graph r

/-- Whether a device launch that names a graph has been requested and waits for its admission: it is a member already (R251, R345). -/
def graphPending (s : State) (jn g : Nat) : Bool :=
  s.sys.work.deviceQ.any fun e => e.2.any fun q => decide (q.job = jn ∧ recTag q.words = g)

/-- A graph completes once its membership is closed and no member waits for its admission. -/
def completeGraph (s : State) (jn g : Nat) : State :=
  let j := s.job jn
  let x := j.graph g
  if x.closed && x.record.full && !x.record.done && decide (x.record.expect ≠ 0) && !graphPending s jn g then
    let r := { x.record with done := true }
    let s := raiseRing (writeGraph (s.putJob jn (j.putGraph g { x with record := r })) jn g) jn
    countInPhase s jn x.phase r
  else s

/-- A phase completes after its boundary. -/
def completePhase (s : State) (jn p : Nat) : State :=
  let j := s.job jn
  let x := j.phase p
  if x.merged && !x.record.done then
    let r := { x.record with done := true }
    countInJob (raiseRing (writePhase (s.putJob jn (j.putPhase p { x with record := r })) jn p) jn) jn r
  else s

/-- A job completes when its retirement was asked for and every phase known is done. -/
def completeJob (s : State) (jn : Nat) : State :=
  let j := s.job jn
  if j.retired && !j.record.done && j.phases.all fun p => !p.2.known || p.2.record.done then
    raiseRing (writeJob (s.putJob jn { j with record := { j.record with done := true } }) jn) jn
  else s

/-- COMPLETION (R298, R299). A unit has no record of its own. -/
def execCompletion (o : WorkObj) (s : State) : Out :=
  match o with
  | .unit _ _ => .next s
  | .launch l => .next (if hasLaunch s l && launchQuiet s (s.launch l) then completeLaunch s (s.launch l) else s)
  | .graph j tag => .next (completeGraph s (jobNum j) tag)
  | .phase j p => .next (completePhase s (jobNum j) p)
  | .job j => .next (completeJob s (jobNum j))

/-! ### Cancelling (R300) -/

/-- Permits held for the registers of a place go, but for those of a thread that is bound there. -/
def dropPermits (s : State) (p : Place) : State :=
  let t := s.thr p
  let keep (core : Nat) (x : Permit) : Bool :=
    !decide (x.dst = p) || t.ch.binds.any fun b =>
      decide (b.reg.val = x.reg ∧ b.sender.slot = x.slot ∧ coreNum (placeCore b.sender) = core)
  { s with
    core := { s.core with permits := s.core.permits.filter (keep s.hereCore) }
    cores := sparseMap {} (fun n k => { k with permits := k.permits.filter (keep n) }) s.cores }

/-- The first word of the bindings in a save area (R328). -/
def bindsAt (u : Saved) : Word := u.sarea + 0x140

/-- The bindings that the save area of a unit holds (R328). -/
def savedBinds (s : State) (u : Saved) : List Binding :=
  let word (k : Nat) : Word := ((readVirtual s u.tenant (u.sarea + BitVec.ofNat 64 (8 * k)) 8).map wordOf).getD 0
  ((List.range 4).map fun i => bindOf (word (40 + 3 * i)) (word (41 + 3 * i)) (word (42 + 3 * i))).flatten

/-- A unit whose context is saved ends without running: its tiles and bindings are freed, the gang that it leads dissolves, and its launch may
leave the core it was on (R24, R59, R61, R253). -/
def dropSaved (s : State) (u : Saved) : State :=
  let c := coreNum (placeCore u.place)
  let s := s.withWork { s.sys.work with saved := s.sys.work.saved.filter fun x => !decide (x = u) }
  let s := (savedBinds s u).foldl (fun s b => freeBinding s u.place b) (readTouched s u.tenant (bindsAt u) 96)
  let s := if u.leads then dissolveGang s u none else s
  let s := freeTiles (dropPermits s u.place) c u.lid u.unit
  if (s.placesOn c).any fun q => decide ((s.thr q).id.lid = u.lid) then s else s.putCore c (launchLeavesCore (s.coreBy c) u.lid)

/-- Stop a unit that is cancelled (R300 steps 1 and 2): a bound one is stopped with discard, one that is saved ends without running, and one
that has not been bound will not be. -/
def stopCancelled (s : State) (lid : BitVec 32) (unit : BitVec 16) : State :=
  let l := s.launch lid
  if l.gone.contains unit.toNat || l.stops.contains unit.toNat then s
  else
    let s := s.putLaunch lid { l with stops := insertNat unit.toNat l.stops }
    match placeOfUnit s lid unit with
    | some p => stopDiscarding s p
    | none =>
      let s := match savedOf s lid unit with
        | some u => dropSaved s u
        | none => s
      handOver s lid unit

/-- Cancel a unit that has neither ended nor been cancelled: it counts once its engine commands have completed. -/
def cancelUnit (s : State) (lid : BitVec 32) (unit : BitVec 16) : State := settleStops (stopCancelled s lid unit) lid

/-- Mark every log entry of a launch discarded (R301). -/
def discardLog (s : State) (lid : BitVec 32) : State :=
  let fix (e : LogEntry) : LogEntry := if e.lid = lid then { e with discarded := true } else e
  s.withWork { s.sys.work with
    jobs := s.sys.work.jobs.map fun j =>
      (j.1, { j.2 with phases := j.2.phases.map fun p => (p.1, { p.2 with log := p.2.log.map fix }) }) }

/-- Cancel a launch: its units that were bound, one by one, and all others at once (R300). Its tag-table entries go (R59). -/
def cancelLaunch (s : State) (lid : BitVec 32) : State :=
  if !hasLaunch s lid || (s.launch lid).record.done || (s.launch lid).cancelling then s
  else
    let s := mapCores (s.putLaunch lid { s.launch lid with cancelling := true }) (withoutTags lid)
    let s := (s.launch lid).seen.foldl (fun s u => stopCancelled s lid (BitVec.ofNat 16 u)) s
    let l := s.launch lid
    let rest := (List.range l.units).filter fun u => !l.gone.contains u && !l.stops.contains u
    settleStops (discardLog (s.putLaunch lid { l with stops := rest.foldl (fun m u => insertNat u m) l.stops }) lid) lid

/-- Cancel every launch that satisfies a test. -/
def cancelWhere (s : State) (f : Launch → Bool) : State :=
  ((s.sys.work.launches.filter fun e => f e.2).map fun e => BitVec.ofNat 32 e.1).foldl cancelLaunch s

/-- Device launches that wait and satisfy a test are cancelled: they are admitted as such, and counted so (R300). -/
def cancelRequests (s : State) (f : DeviceReq → Bool) : State :=
  s.withWork { s.sys.work with
    deviceQ := s.sys.work.deviceQ.map fun e => (e.1, e.2.map fun q => if f q then { q with cancelled := true } else q) }

/-- The graph of a tag as a cancel finds it: one whose members all wait for their admission begins with the first of them. -/
def cancelledGraph (s : State) (jn g : Nat) : GraphRec :=
  let x := (s.job jn).graph g
  if x.record.expect = 0 ∨ x.record.done = true then
    match (s.sys.work.deviceQ.map (·.2)).flatten.find? fun q => decide (q.job = jn ∧ recTag q.words = g) with
    | some q => { phase := q.phase }
    | none => x
  else x

/-- Cancel a graph with a tag: the log entries of every launch it has had go with it (R301). -/
def cancelGraph (s : State) (jn g : Nat) : State :=
  let s := cancelRequests s fun q => decide (q.job = jn ∧ recTag q.words = g)
  let s := cancelWhere s fun l => decide (l.job = jn ∧ l.graph = g)
  let x := cancelledGraph s jn g
  if x.record.done || (decide (x.record.expect = 0) && !graphPending s jn g) then s
  else
    let s := x.members.foldl discardLog s
    settleAbove (s.putJob jn ((s.job jn).putGraph g { x with cancelled := true })) jn g x.phase

/-- The tags of a job's graphs in a phase that are not done. -/
def openGraphs (j : Job) (p : Nat) : List Nat :=
  (j.graphs.filter fun g => decide (g.2.phase = p) && !g.2.record.done).map (·.1)

/-- Cancel a phase: it still ends at its boundary. -/
def cancelPhase (s : State) (jn p : Nat) : State :=
  let s := cancelRequests s fun q => decide (q.job = jn ∧ q.phase = p)
  let s := (openGraphs (s.job jn) p).foldl (fun s g => cancelGraph s jn g) s
  let s := cancelWhere s fun l => decide (l.job = jn ∧ l.phase = p)
  let j := s.job jn
  let x := j.phase p
  if x.record.done then s
  else
    let x := { x with cancelled := true, log := x.log.map fun e => { e with discarded := true } }
    settleAbove (s.putJob jn (j.putPhase p x)) jn 0 p

/-- Cancel a job with everything in it. -/
def cancelJob (s : State) (jn : Nat) : State :=
  let j := s.job jn
  let s := (j.phases.filter fun p => !p.2.record.done).foldl (fun s p => cancelPhase s jn p.1) s
  let s := cancelPhase s jn j.current
  let j := s.job jn
  if j.record.done then s
  else settleAbove (s.putJob jn { j with cancelled := true }) jn 0 j.current

/-- CANCEL (R300, R303). -/
def execCancel (o : WorkObj) (s : State) : Out :=
  match o with
  | .unit l k =>
    .next (if hasLaunch s l && decide (k < (s.launch l).units) then cancelUnit s l (BitVec.ofNat 16 k) else s)
  | .launch l => .next (cancelLaunch (cancelRequests s fun q => decide (q.lid = l)) l)
  | .graph j tag => .next (if tag = 0 then s else cancelGraph s (jobNum j) tag)
  | .phase j p => .next (cancelPhase s (jobNum j) p)
  | .job j => .next (cancelJob s (jobNum j))

/-! ### The phase boundary (R122, R127) -/

/-- Whether one log entry of a word comes before another: by key, then by value as an unsigned pattern. -/
def entryBefore (a b : LogEntry) : Bool := decide (a.key.toNat < b.key.toNat ∨ (a.key = b.key ∧ a.val.toNat < b.val.toNat))

/-- Insert a log entry into a sorted list. -/
def insertEntry (e : LogEntry) : List LogEntry → List LogEntry
  | [] => [e]
  | x :: t => if entryBefore e x then e :: x :: t else x :: insertEntry e t

/-- The entries of one word in merge order. -/
def sortedEntries (log : List LogEntry) (pa : Nat) : List LogEntry :=
  (log.filter fun e => decide (e.pa = pa)).foldl (fun l e => insertEntry e l) []

/-- Add entries to a value in FP32 with RNE: the value and the flags. -/
def addEntries : List LogEntry → Nat → BitVec 5 → Nat × BitVec 5
  | [], acc, f => (acc, f)
  | e :: t, acc, f =>
    let r := addVal fp32 .rne (fp32.value acc) (fp32.value e.val.toNat)
    addEntries t r.pat (f ||| r.flags)

/-- The words that have entries, ascending. -/
def loggedWords (log : List LogEntry) : List Nat := log.foldl (fun l e => insertNat e.pa l) []

/-- Merge one word into memory: the state, flags, entries merged, entries lost. An uncorrectable error leaves the word as it is (R327). -/
def mergeWord (log : List LogEntry) (x : State × Record) (pa : Nat) : State × Record :=
  let es := sortedEntries log pa
  let n := es.length
  if anyBad x.1 pa 4 then
    (logError (metError x.1 (dieOfPa pa).toNat) (.mergeMcheck pa), { x.2 with lost := x.2.lost + BitVec.ofNat 32 n })
  else
    let r := addEntries es (ofBytes (physBytes x.1 pa 4)) 0
    (storePhys (agentReads x.1 {} (runFrom pa 4)) {} pa (toBytes 4 r.1), { x.2 with mflags := x.2.mflags ||| r.2, merged := x.2.merged + BitVec.ofNat 64 n })

/-- Whether nothing of a phase is left: its graphs, launches and device launches (R127). -/
def phaseQuiet (s : State) (jn p : Nat) : Bool :=
  ((s.job jn).phase p).closed && ((s.job jn).phase p).record.full
    && !(s.sys.work.launches.any fun e => decide (e.2.job = jn ∧ e.2.phase = p))
    && !(s.sys.work.deviceQ.any fun e => e.2.any fun q => decide (q.job = jn ∧ q.phase = p))

/-- PHASE_BOUNDARY: the surviving entries are merged, and the next phase may start. -/
def execPhaseBoundary (j : JobId) (s : State) : Out :=
  let jn := jobNum j
  let p := (s.job jn).boundary
  if !phaseQuiet s jn p then .next s
  else
    let x := (s.job jn).phase p
    let live := x.log.filter fun e => !e.discarded
    let r0 := { x.record with lost := x.record.lost + BitVec.ofNat 32 (x.log.length - live.length) }
    let m := (loggedWords live).foldl (mergeWord live) (s, r0)
    let job := m.1.job jn
    let job := job.putPhase p { x with merged := true, log := [], record := m.2 }
    .next (writePhase (m.1.putJob jn { job with boundary := p + 1 }) jn p)

end Sys2Proof.Machine
end

