-- ==== Sys2Proof/Machine/Stream.lean ====
section
/-! DEFINITION. How a vector instruction runs (R204 to R208): operands, checks, groups, repetitions. -/

namespace Sys2Proof.Machine

/-- An operand reached through a pointer: whether its position steps, element size and count, alignment, and what is done to it. -/
structure VOperand where
  ptr : PReg
  step : Bool
  esize : Nat
  count : Nat
  align : Nat
  reads : Bool
  writes : Bool
  deriving DecidableEq, Repr

/-- The scratchpad address of a pointer after `r` further repetitions (R51). -/
def ptrAt (p : Ptr) (step : Bool) (r : Nat) : Nat :=
  if step then (BitVec.ofInt 20 ((p.addr.toNat : Int) + p.stride.toInt * r)).toNat else p.addr.toNat

/-- A range of scratchpad bytes an instruction touches. -/
structure VRange where
  addr : Nat
  len : Nat
  isWrite : Bool
  deriving DecidableEq, Repr

/-- Whether a pointer is used in a stepping position of an instruction. -/
def steps (ops : List VOperand) (p : PReg) : Bool := ops.any fun o => decide (o.ptr = p) && o.step

/-- The repetitions still to perform: one without a pending count (R198). -/
def repsLeft (s : State) : Nat := max 1 s.th.pcq.repLeft

/-- The first byte that an operand covers outside the window or in a lent range, by element, then repetition, then byte (R52, R265). -/
def operandOutside (s : State) (ops : List VOperand) (o : VOperand) : Option Nat :=
  (List.range o.count).findSome? fun e =>
    (List.range (repsLeft s)).findSome? fun r =>
      spadFirstBad s.core s.th (ptrAt (s.ptr o.ptr) (steps ops o.ptr) r + e * o.esize) o.esize

/-- The bytes an operand covers in the `r`-th further repetition. -/
def operandRanges (s : State) (ops : List VOperand) (r : Nat) (o : VOperand) : List VRange :=
  let a := ptrAt (s.ptr o.ptr) (steps ops o.ptr) r
  (if o.reads then [⟨a, o.esize * o.count, false⟩] else []) ++ (if o.writes then [⟨a, o.esize * o.count, true⟩] else [])

/-- The first byte of a range that meets an uncorrectable error: read, or written in a granule not overwritten whole (R327). -/
def rangeBad (c : Core) (r : VRange) : Option Nat :=
  ((List.range r.len).map (r.addr + ·)).find? fun a =>
    c.bad.contains (a / 16) && !(r.isWrite && decide (r.addr ≤ a / 16 * 16 ∧ a / 16 * 16 + 16 ≤ r.addr + r.len))

/-- What one element does: bytes to write, with their addresses, and flags. -/
structure VEffect where
  writes : List (Nat × List Byte)
  flags : BitVec 5 := 0
  deriving DecidableEq, Repr

/-- Write what an element writes. -/
def writeAll (c : Core) (ws : List (Nat × List Byte)) : Core := ws.foldl (fun c w => spadStore c w.1 w.2) c

/-- One group: every element reads from the core as the group finds it (R205). -/
def runGroup (f : Core → Nat → VEffect) (acc : Core × BitVec 5) (es : List Nat) : Core × BitVec 5 :=
  es.foldl (fun r e => let x := f acc.1 e; (writeAll r.1 x.writes, r.2 ||| x.flags)) acc

/-- Groups of `g` among `n` elements, in ascending order. -/
def groupsOf (g n : Nat) : List (List Nat) :=
  (List.range ((n + g - 1) / g)).map fun i => (List.range (min g (n - i * g))).map (i * g + ·)

/-- Step every pointer that is named in a stepping position, once (R204). -/
def stepPtrs (ops : List VOperand) (r : Regs) : Regs :=
  { r with p := Vector.ofFn fun i : Fin 16 =>
      if steps ops i then { r.p[i.val] with addr := BitVec.ofInt 20 ((r.p[i.val].addr.toNat : Int) + r.p[i.val].stride.toInt) }
      else r.p[i.val] }

/-- What a stream's subnormals and digits cost its thread follows its groups (R91, R106). -/
def Stream.settled (x : Stream) : Stream := { x with away := x.away + x.toll, toll := 0 }

/-- A repetition has been performed: the queue's step after the last one; before that the stream stands at the first group of the next one
(R198). -/
def finishRep (rot : Rotation) (s : State) : Out :=
  if s.th.pcq.repLeft ≤ 1 then finish (s.withTh { s.th with stream := s.th.stream.settled }) rot
  else .next (s.withTh { s.th with
    rot := .waiting (.group 0 0)
    pcq := { s.th.pcq with repLeft := s.th.pcq.repLeft - 1, repDone := s.th.pcq.repDone + 1 } })

/-- Every range of the `r`-th further repetition; `extra` gives those that index data names. -/
def streamRanges (s : State) (ops : List VOperand) (extra : State → Nat → List VRange) (r : Nat) : List VRange :=
  (ops.map (operandRanges s ops r)).flatten ++ extra s r

/-- Whether a vector instruction is to be checked: every check precedes its first repetition (R200), and one that goes on with a further
repetition has passed them; after an event between two repetitions it is fetched and checked again (log 44). -/
def toCheck (s : State) : Bool := s.th.held.isNone || decide (s.th.pcq.repDone = 0)

/-- The event that a vector instruction raises before any element, in the order of R206: its own operand limits, a misaligned pointer (of
several the first in the order of R52's operands, log 44), the ranges of R52 over every repetition. -/
def streamFault (ops : List VOperand) (limit : Bool) (s : State) : Option Ev :=
  if !toCheck s then none
  else if !limit then some operandError
  else match ops.find? fun o => decide ((s.ptr o.ptr).addr.toNat % o.align ≠ 0) with
    | some o => some ⟨evAlign, (s.ptr o.ptr).addr.setWidth 64⟩
    | none => (ops.findSome? (operandOutside s ops)).map fun a => ⟨evPerm, BitVec.ofNat 64 a⟩

/-- What the data decides, once no range lock holds it up: addresses from index data (R206), then an uncorrectable error (R327), over every
repetition. -/
def dataFault (ops : List VOperand) (index : State → Option Nat) (extra : State → Nat → List VRange) (s : State) : Option Ev :=
  if !toCheck s then none
  else match index s with
    | some a => some ⟨evPerm, BitVec.ofNat 64 a⟩
    | none =>
      ((List.range (repsLeft s)).findSome? fun r => (streamRanges s ops extra r).findSome? (rangeBad s.core)).map
        fun a => ⟨evMcheck, BitVec.ofNat 64 a⟩

/-- The ranges of one repetition that hold a vector instruction up (R79): those of its operands, and with those that index data names. -/
def holds (rs : List VRange) : List (Nat × Nat × Bool) := rs.map fun r => (r.addr, r.len, r.isWrite)
def operandHolds (s : State) (ops : List VOperand) : List (Nat × Nat × Bool) := holds (ops.map (operandRanges s ops 0)).flatten
def streamHolds (s : State) (ops : List VOperand) (extra : State → Nat → List VRange) : List (Nat × Nat × Bool) :=
  holds (streamRanges s ops extra 0)

/-! ### The vector unit's time (R80, R91, R106, R207) -/

/-- The cycles a group takes (R207): as the banks decide among the first `n` operands (R80), the same with one cycle more after the last group
for the tree of a reduction, or a fixed number. -/
inductive Pace | banks (n : Nat) | tree | fixed (n : Nat)
  deriving DecidableEq, Repr

/-- The distinct registers of a list. -/
def distinctRegs (ps : List PReg) : List PReg := ps.foldl (fun l p => if l.contains p then l else l ++ [p]) []

/-- The largest number of distinct operand pointers whose addresses lie in one bank of 256 KiB, at least one (R2, R80). -/
def bankCycles (s : State) (ops : List VOperand) : Nat :=
  ((List.range 4).map fun b =>
    ((distinctRegs (ops.map (·.ptr))).filter fun p => decide ((s.ptr p).addr.toNat / 262144 = b)).length).foldl max 1

/-- The cycles that a group takes. -/
def groupCycles (s : State) (ops : List VOperand) : Pace → Bool → Nat
  | .banks n, _ => bankCycles s (ops.take n)
  | .tree, last => bankCycles s ops + bitNat last
  | .fixed n, _ => n

/-- Whether cycle `v` is still to come in cycle `c`. The count wraps, and no stream lasts 2^20 cycles. -/
def laterCycle (c v : Nat) : Bool := decide (c < v ∧ v ≤ c + 1048576)

/-- Whether a thread has a vector group that has not run. -/
def groupPending (t : Thread) : Bool := match t.rot with | .waiting (.group _ _) => true | _ => false

/-- Whether the vector unit cannot take a group of the thread in focus in the next cycle: it runs one, or other threads' groups come
first (R80). -/
def unitBusy (s : State) : Bool :=
  laterCycle (s.core.cyc.toNat + 1) s.core.vnext
    || (s.placesOn s.hereCore).any fun p => decide (p ≠ s.here) && groupPending (s.thr p)

/-- What an element costs its thread beyond the unit's time: whether it meets a subnormal (R91), and the digit blocks it needs (R106). -/
structure Toll where
  sub : Bool := false
  blocks : Nat := 0
  deriving DecidableEq, Repr

/-- The cycles that a group keeps its thread out of rotation beyond the unit's time: 4 turns where it meets a subnormal (R91), one cycle for
each digit block (R106). -/
def tollCycles (ts : List Toll) : Nat := 32 * bitNat (ts.any (·.sub)) + (ts.map (·.blocks)).sum

/-- The vector unit has taken a group of the thread in focus that lasts `n` cycles from the next cycle on (R80). -/
def occupy (s : State) (n : Nat) (c : Core) : Core := { c with vnext := s.core.cyc.toNat + 1 + n, lastVector := s.here.slot.val }

/-! ### Groups -/

/-- Group `k` of a stream of `count` has run in `n` cycles, leaving the scratchpad of `c`, flags and lanes. Before the last one the stream
stands at the next group, and other threads of the core may come between (R205). After it the pointers step and the flags reach `flags`
(R204, R208); the thread is out of rotation after several groups, after one that waited or outlasts its turn, and after one with a toll
(R80). The tolls of all its groups add up, so that each one costs its turns whatever comes with it (R91, R106). -/
def groupDone (ops : List VOperand) (count n toll k : Nat) (c : Core) (fl : BitVec 5) (lanes : List (Nat × List Byte)) (s : State) : Out :=
  let u := s.withCore (occupy s n c)
  let away := max s.th.stream.away (s.core.cyc.toNat + 1 + n)
  let owed := s.th.stream.toll + toll
  if k + 1 < count then .next (u.withTh { s.th with rot := .waiting (.group (k + 1) fl), stream := ⟨away, owed, lanes⟩ })
  else
    finishRep (if decide (1 < count ∨ 7 < n ∨ owed ≠ 0) || groupPending s.th then .inFlight .vector else .ready)
      (((u.withTh { s.th with stream := ⟨away, owed, []⟩ }).orFlags fl).withRf (stepPtrs ops s.th.rf))

/-- The elements of group `k`. -/
def groupAt (groups : List (List Nat)) (k : Nat) : List Nat := (groups[k]?).getD []

/-- The addresses that a group writes. -/
def writtenBy (f : Core → Nat → VEffect) (c : Core) (es : List Nat) : List Nat :=
  ((es.map fun e => (f c e).writes.map fun w => (List.range w.2.length).map (w.1 + ·)).flatten.flatten).eraseDups

/-- What the groups of the stream in focus have overwritten so far. -/
def ownFound (s : State) : List Found := s.core.found.filter fun x => decide (x.slot = s.here.slot.val)

/-- After a group of the stream in focus that leaves the scratchpad of `c`: what its groups up to this one have overwritten, as they found it;
nothing after the last one. A store of another agent in between is no such byte any more (R119). -/
def noteFound (s : State) (f : Core → Nat → VEffect) (es : List Nat) (last : Bool) (c : Core) : Core :=
  let own := ownFound s
  let new := ((writtenBy f s.core es).filter fun a => !own.any fun x => decide (x.addr = a)).map fun a =>
    (⟨s.here.slot.val, a, sparseGet 0 s.core.spad a⟩ : Found)
  { c with found := (if last then [] else own ++ new) ++ c.found.filter fun x => !decide (x.slot = s.here.slot.val) }

/-- Run group `k` of a stream, `acc` being the flags of the groups before it; `keep` is whether what its groups overwrite stays known to
later ones (R217). -/
def runStream (ops : List VOperand) (groups : List (List Nat)) (pace : Pace) (toll : Core → Nat → Toll) (keep : Bool)
    (f : Core → Nat → VEffect) (k : Nat) (acc : BitVec 5) (s : State) : Out :=
  let g := groupAt groups k
  let r := runGroup f (s.core, acc) g
  let last := decide (groups.length ≤ k + 1)
  groupDone ops groups.length (groupCycles s ops pace last) (tollCycles (g.map (toll s.core))) k
    (if keep then noteFound s f g last r.1 else r.1) r.2 [] s

/-- What a group of a stream that writes last reads: what its elements will write, after what earlier groups have read. -/
def gatherGroup (f : Core → Nat → VEffect) (c : Core) (acc : List (Nat × List Byte) × BitVec 5) (es : List Nat) :
    List (Nat × List Byte) × BitVec 5 :=
  es.foldl (fun r e => let x := f c e; (r.1 ++ x.writes, r.2 ||| x.flags)) acc

/-- Run group `k` of a stream that reads every source element before it writes any (R205, R217): `fin` makes of all that its groups have
read what it writes, which may cost `after`. -/
def runGathered (ops : List VOperand) (groups : List (List Nat)) (pace : Pace) (toll : Core → Nat → Toll)
    (after : List (Nat × List Byte) → Toll) (f : Core → Nat → VEffect) (fin : List (Nat × List Byte) → VEffect) (k : Nat) (acc : BitVec 5) (s : State) : Out :=
  let g := groupAt groups k
  let r := gatherGroup f s.core (s.th.stream.lanes, acc) g
  let last := decide (groups.length ≤ k + 1)
  let x := fin r.1
  groupDone ops groups.length (groupCycles s ops pace last) (tollCycles (g.map (toll s.core) ++ if last then [after r.1] else [])) k
    (if last then writeAll s.core x.writes else s.core) (if last then r.2 ||| x.flags else r.2) r.1 s

/-- The stream of the thread in focus begins with its first group, or waits for the vector unit (R80). -/
def beginStream (run : Nat → BitVec 5 → State → Out) (s : State) : Out :=
  let s := (s.withTh { s.th with stream := {} }).withCore { s.core with found := s.core.found.filter fun x => !decide (x.slot = s.here.slot.val) }
  if unitBusy s then .next (s.withTh { s.th with rot := .waiting (.group 0 0) }) else run 0 0 s

/-- A vector instruction: `limit` its own operand limits, `index` the checks on index data (R206), `extra` the ranges that index data
names, `run` how a group runs. Its later groups need no check; one whose ranges are held waits where it stands (R79). -/
def vectorOp (ops : List VOperand) (limit : Bool) (index : State → Option Nat) (extra : State → Nat → List VRange)
    (run : Nat → BitVec 5 → State → Out) (s : State) : Out :=
  match s.th.rot with
  | .waiting (.group k acc) => if rangesStall s.core (streamHolds s ops extra) then .next s else run k acc s
  | _ =>
    match streamFault ops limit s with
    | some e => raiseEv e s
    | none => unlessStalled (operandHolds s ops) s <|
      match dataFault ops index extra s with
      | some e => raiseEv e s
      | none => unlessStalled (streamHolds s ops extra) s <| beginStream run s

/-! ### The usual operands -/

/-- The vector length. -/
def vlen (s : State) : Nat := s.th.sr.vl.toNat

/-- A pointer's address. -/
def addrOf (s : State) (p : PReg) : Nat := (s.ptr p).addr.toNat

/-- A stepping source or destination of `n` elements of `size` bytes. -/
def vsrc (p : PReg) (size n : Nat) : VOperand := ⟨p, true, size, n, size, true, false⟩
def vdst (p : PReg) (size n : Nat) : VOperand := ⟨p, true, size, n, size, false, true⟩

/-- Element `e` of `size` bytes from an address, as a number. -/
def elemAt (c : Core) (a size e : Nat) : Nat := ofBytes (bytesAt c.spad (a + e * size) size)

/-- The number of elements in a group of the given largest element size (R205). -/
def groupSize (size : Nat) : Nat := 128 / size

/-- The first address out of reach among those that index elements at `ix` name from `base`, over all repetitions, `unit` bytes to an
index step and an element: by element, then repetition (R206). -/
def indexedOutside (ops : List VOperand) (base ix : PReg) (unit : Nat) (sel : Nat → Nat) (s : State) : Option Nat :=
  (List.range (vlen s)).findSome? fun e =>
    (List.range (repsLeft s)).findSome? fun r =>
      let i := elemAt s.core (ptrAt (s.ptr ix) (steps ops ix) r) 4 e
      spadFirstBad s.core s.th (ptrAt (s.ptr base) (steps ops base) r + sel i * unit) unit

/-- The ranges that index elements name in the `r`-th further repetition. -/
def indexedRanges (ops : List VOperand) (base ix : PReg) (unit : Nat) (sel : Nat → Nat) (isWrite : Bool) (s : State) (r : Nat) : List VRange :=
  (List.range (vlen s)).map fun e =>
    ⟨ptrAt (s.ptr base) (steps ops base) r + sel (elemAt s.core (ptrAt (s.ptr ix) (steps ops ix) r) 4 e) * unit, unit, isWrite⟩

/-- Whether the thread may reach `n` bytes from `a` on. The addresses of index data are checked before the first repetition; where an earlier
repetition or group has overwritten the index data since, an element out of reach is neither read nor written, and a value read there is
free (log 44). -/
def inReach (s : State) (c : Core) (a n : Nat) : Bool := (spadFirstBad c s.th a n).isNone

/-- An element read at an address from index data. -/
def reachedElem (s : State) (c : Core) (a k e : Nat) : Nat :=
  if inReach s c a k then elemAt c a k 0 else (Config.freeWord (s.fresh + e)).toNat % 2 ^ (8 * k)

/-- An effect that writes one element. -/
def putElem (a size e : Nat) (r : FpRes) : VEffect := { writes := [(a + e * size, toBytes size r.pat)], flags := r.flags }

/-- No index data. -/
def noIndex (_ : State) : Option Nat := none
def noExtra (_ : State) (_ : Nat) : List VRange := []

/-- No subnormal is met and no digit needed: integers, moves, and helpers that handle subnormals at full rate (R91, R207). -/
def noToll (_ : Core) (_ : Nat) : Toll := {}
def noTollAfter (_ : List (Nat × List Byte)) : Toll := {}

/-- What has been read is written as it stands. -/
def writeAsRead (ws : List (Nat × List Byte)) : VEffect := { writes := ws }

/-- Whether an element of a type is subnormal (R91). -/
def subnormalElem (t : VType) (p : Nat) : Bool :=
  match fmtOf t with
  | some f => f.isSubnormal p
  | none => false

/-- A binary element operation: `[pd]+, [pa]+, [pb]+` on one type; `readsD` where the old destination is a source, `pays` where the
subnormal penalty applies (R207). -/
def binaryOp (t : VType) (d a b : PReg) (readsD : Bool) (pace : Pace) (pays : Bool) (f : Nat → Nat → Nat → FpRes) (s : State) : Out :=
  let n := vlen s
  let k := elemSize t
  let ops : List VOperand := [⟨d, true, k, n, k, readsD, true⟩, vsrc a k n, vsrc b k n]
  vectorOp ops true noIndex noExtra
    (runStream ops (groupsOf (groupSize k) n) pace
      (fun c e =>
        let x := elemAt c (addrOf s a) k e
        let y := elemAt c (addrOf s b) k e
        let w := elemAt c (addrOf s d) k e
        { sub := pays && (subnormalElem t x || subnormalElem t y || (readsD && subnormalElem t w) || (f x y w).tiny) })
      false
      (fun c e => putElem (addrOf s d) k e (f (elemAt c (addrOf s a) k e) (elemAt c (addrOf s b) k e) (elemAt c (addrOf s d) k e)))) s

/-- A unary element operation: `[pd]+, [pa]+`, from one type to another; `blocks` are the digit blocks an element needs (R109). -/
def unaryOp (t u : VType) (d a : PReg) (pace : Pace) (pays : Bool) (f : Nat → Nat → FpRes) (s : State) (blocks : Nat → Nat → Nat := fun _ _ => 0) :
    Out :=
  let n := vlen s
  let k := elemSize t
  let j := elemSize u
  let ops : List VOperand := [vdst d k n, vsrc a j n]
  vectorOp ops true noIndex noExtra
    (runStream ops (groupsOf (groupSize (max k j)) n) pace
      (fun c e =>
        let x := elemAt c (addrOf s a) j e
        { sub := pays && (subnormalElem u x || (f e x).tiny), blocks := blocks e x })
      false
      (fun c e => putElem (addrOf s d) k e (f e (elemAt c (addrOf s a) j e)))) s

end Sys2Proof.Machine
end

