-- ==== Sys2Proof/Machine/VectorFp.lean ====
section
/-! DEFINITION. Floating-point element operations (R210) and compare, select and move (R211). -/

namespace Sys2Proof.Machine

/-- The format of an element type; FP32 where the type is not floating-point, which no well-formed instruction is. -/
def vfmt (t : VType) : Fmt := (fmtOf t).getD fp32

/-- A binary operation on values. -/
def fpBinary (t : VType) (d a b : PReg) (pace : Pace) (f : Fmt → FpVal → FpVal → FpRes) (s : State) : Out :=
  binaryOp t d a b false pace true (fun x y _ => f (vfmt t) ((vfmt t).value x) ((vfmt t).value y)) s

/-- `vadd`, floating-point (R210). -/
def execVaddFp (m : Round) (t : VType) (d a b : PReg) (s : State) : Out :=
  fpBinary t d a b (.banks 3) (fun f x y => addVal f m x y) s

/-- `vsub`, floating-point (R210). -/
def execVsubFp (m : Round) (t : VType) (d a b : PReg) (s : State) : Out :=
  fpBinary t d a b (.banks 3) (fun f x y => addVal f m x y.negate) s

/-- `vmul`, floating-point (R210). -/
def execVmulFp (m : Round) (t : VType) (d a b : PReg) (s : State) : Out :=
  fpBinary t d a b (.banks 3) (fun f x y => mulVal f m x y) s

/-- `vmin`, floating-point (R85, R210). -/
def execVminFp (t : VType) (d a b : PReg) (s : State) : Out :=
  binaryOp t d a b false (.banks 3) true (fun x y _ => minMaxPat (vfmt t) false x y) s

/-- `vmax`, floating-point (R85, R210). -/
def execVmaxFp (t : VType) (d a b : PReg) (s : State) : Out :=
  binaryOp t d a b false (.banks 3) true (fun x y _ => minMaxPat (vfmt t) true x y) s

/-- `vabs`, floating-point (R210). -/
def execVabsFp (t : VType) (d a : PReg) (s : State) : Out := unaryOp t t d a (.banks 2) true (fun _ x => absPat (vfmt t) x) s

/-- `vneg`, floating-point (R210). -/
def execVnegFp (t : VType) (d a : PReg) (s : State) : Out := unaryOp t t d a (.banks 2) true (fun _ x => negPat (vfmt t) x) s

/-- `vdiv` (R210). -/
def execVdiv (m : Round) (t : VType) (d a b : PReg) (s : State) : Out :=
  fpBinary t d a b (.fixed 16) (fun f x y => divVal f m x y) s

/-- `vsqrt` (R210). -/
def execVsqrt (m : Round) (t : VType) (d a : PReg) (s : State) : Out :=
  unaryOp t t d a (.fixed 16) true (fun _ x => sqrtVal (vfmt t) m ((vfmt t).value x)) s

/-- A fused operation a · b + c, where `f` makes c of the old destination. -/
def fusedOp (m : Round) (t : VType) (d a b : PReg) (f : FpVal → FpVal) (s : State) : Out :=
  binaryOp t d a b true (.banks 3) true
    (fun x y w => fmaVal (vfmt t) m ((vfmt t).value x) ((vfmt t).value y) (f ((vfmt t).value w))) s

/-- `vfma` (R210). -/
def execVfma (m : Round) (t : VType) (d a b : PReg) (s : State) : Out := fusedOp m t d a b (fun v => v) s

/-- `vfms` (R210). -/
def execVfms (m : Round) (t : VType) (d a b : PReg) (s : State) : Out := fusedOp m t d a b (fun v => v.negate) s

/-! ### Compare, select and move (R211) -/

/-- The relation of two patterns of a type, and the flags. -/
def compareElem (q : VCond) (t : VType) (x y : Nat) : Bool × BitVec 5 :=
  match fmtOf t with
  | some f => comparePat f q x y
  | none => (relHolds q (intVal t x) (intVal t y), 0)

/-- `vcmp`: all ones where the relation holds (R211). -/
def execVcmp (q : VCond) (t : VType) (d a b : PReg) (s : State) : Out :=
  binaryOp t d a b false (.banks 3) false (fun x y _ =>
    let r := compareElem q t x y
    { pat := if r.1 then 2 ^ (8 * elemSize t) - 1 else 0, flags := r.2 }) s

/-- `vsel`: the old destination is the mask (R211). -/
def execVsel (t : VType) (d a b : PReg) (s : State) : Out :=
  binaryOp t d a b true (.banks 3) false (fun x y w => { pat := if w ≠ 0 then x else y }) s

/-- `vmov` (R211). -/
def execVmov (t : VType) (d a : PReg) (s : State) : Out := unaryOp t t d a (.banks 2) false (fun _ x => { pat := x }) s

/-- `vbcast`: one element for every destination (R211). -/
def execVbcast (t : VType) (d a : PReg) (s : State) : Out :=
  let n := vlen s
  let k := elemSize t
  let ops : List VOperand := [vdst d k n, ⟨a, false, k, 1, k, true, false⟩]
  vectorOp ops true noIndex noExtra
    (runStream ops (groupsOf (groupSize k) n) (.banks 2) noToll false
      (fun c e => putElem (addrOf s d) k e { pat := elemAt c (addrOf s a) k 0 })) s

end Sys2Proof.Machine
end

