-- ==== Sys2Proof/Machine/Convert.lean ====
section
/-! DEFINITION. Conversion (R212), quantising, dequantising and planes (R213 to R215), reductions (R216), and index, gather, scatter
and permute (R217). -/

namespace Sys2Proof.Machine

/-- The variate of element `e` under stochastic rounding (R109). -/
def variateOf (s : State) (z : ZReg) (e : Nat) : ZVar := elementVariate (s.zreg z) s.th.pcq.repDone (vlen s) e

/-- The digit blocks that decide a stochastic rounding of (−1)^neg · m · 2^e to a type (R106, R109): none where the value is exact there. What
lies beyond the type's range is rounded before it overflows or is clamped (R87, R88). -/
def roundBlocks (t : VType) (z : ZVar) (neg : Bool) (m : Nat) (e : Int) : Nat :=
  let q := match fmtOf t with
    | some f => f.ulp m e
    | none => 0
  let k := (q - e).toNat
  let rem := m % 2 ^ k
  if m = 0 ∨ rem = 0 then 0 else ltBlocks z (if neg then 2 ^ k - rem else rem) k

/-- The digit blocks that the conversion of an element consults (R109). -/
def convertBlocks (f t : VType) (z : ZVar) (x : Nat) : Nat :=
  match fmtOf f, fmtOf t with
  | some a, _ => (match a.value x with
    | .fin n m e => roundBlocks t z n m e
    | _ => 0)
  | none, some _ => roundBlocks t z (decide (intVal f x < 0)) (intVal f x).natAbs 0
  | none, none => 0

/-- `vcvt` (R212): to type `t` from type `f`. The digit unit produces the blocks of every element anew, also those that the named register,
whose `n` stays, has cached for its own identity (DESIGN CHOICE, log 42). -/
def execVcvt (sat : Bool) (f : VType) (m : Round) (t : VType) (d a : PReg) (z : ZReg) (s : State) : Out :=
  unaryOp t f d a (.banks 2) true (fun e x => convert f t m (variateOf s z e) sat x) s
    fun e x => if m = .sr then convertBlocks f t (variateOf s z e) x else 0

/-! ### Block scales -/

/-- The companion of an even pointer (R213). -/
def companion (p : PReg) : PReg := ⟨(p.val + 1) % 16, Nat.mod_lt _ (by decide)⟩

/-- Blocks of 32 elements, the last one perhaps shorter. -/
def blocks (n : Nat) : Nat := (n + 31) / 32

/-- Qmax of R213, every one of them an integer. -/
def qmaxOf : VType → Nat
  | .i8 => 127
  | .u8 => 255
  | .i16 => 32767
  | .u16 => 65535
  | .f8e5 => 57344
  | .f8e4 => 448
  | .f16 => 65504
  | .bf16 => 255 * 2 ^ 120
  | _ => 0

/-- Whether m · 2^k is at most `q`. -/
def fits (m : Nat) (k : Int) (q : Nat) : Bool := if 0 ≤ k then decide (m * 2 ^ k.toNat ≤ q) else decide (m ≤ q * 2 ^ (-k).toNat)

/-- The code of a block whose largest magnitude is m · 2^e (R213). -/
def blockCode (t : VType) (m : Nat) (e : Int) : Nat :=
  (((List.range 254).map fun i => i + 1).find? fun (c : Nat) => fits m (e + 127 - (c : Int)) (qmaxOf t)).getD 254

/-- One quantised element: y rounded to the type and clamped with sat (R213). -/
def quantise (t : VType) (m : Round) (z : ZVar) (code : Nat) (p : Nat) : FpRes :=
  match fp32.value p with
  | .fin n k e =>
    let e' := e + 127 - (code : Int)
    match fmtOf t with
    | some f => roundTo f m z true n k e' false
    | none =>
      let r := roundInt m z n k e'
      let c := clampRes t r.1 flagSat
      { c with flags := c.flags ||| flagIf r.2 flagNx }
  | _ => { pat := 0 }

/-- The digit blocks that the rounding of a quantised element consults (R109). -/
def quantBlocks (t : VType) (z : ZVar) (code p : Nat) : Nat :=
  match fp32.value p with
  | .fin n k e => roundBlocks t z n k (e + 127 - (code : Int))
  | _ => 0

/-- One block of `vqnt` (R213). Where the code's byte lies in an element of the same block, the code is written last and stays (DESIGN CHOICE,
log 44). -/
def quantBlock (s : State) (m : Round) (t : VType) (d a : PReg) (z : ZReg) (c : Core) (b : Nat) : VEffect :=
  let es := (List.range (min 32 (vlen s - b * 32))).map (b * 32 + ·)
  let xs := es.map fun e => elemAt c (addrOf s a) 4 e
  let k := elemSize t
  let codeAt := addrOf s (companion d) + b
  let zeros (code : Nat) : List (Nat × List Byte) := (es.map fun e => (addrOf s d + e * k, toBytes k 0)) ++ [(codeAt, toBytes 1 code)]
  if xs.any fun x => decide (fp32.top ≤ x % fp32.signBit) then { writes := zeros 255, flags := flagNv }
  else
    let top := (xs.map (· % fp32.signBit)).foldl max 0
    match fp32.value top with
    | .fin _ mm e =>
      if mm = 0 then { writes := zeros 0 }
      else
        let code := blockCode t mm e
        let rs := es.map fun i => (addrOf s d + i * k, quantise t m (variateOf s z i) code (elemAt c (addrOf s a) 4 i))
        { writes := (rs.map fun r => (r.1, toBytes k r.2.pat)) ++ [(codeAt, toBytes 1 code)]
          flags := (rs.map (·.2.flags)).foldl (· ||| ·) 0 }
    | _ => { writes := zeros 255, flags := flagNv }

/-- What a block of `vqnt` costs its thread: a subnormal among the elements it reads, or a tiny one among those it produces (R91), and, in the
stochastic mode, the digit blocks of the elements it rounds (R106, R109). -/
def quantToll (s : State) (m : Round) (t : VType) (a : PReg) (z : ZReg) (c : Core) (b : Nat) : Toll :=
  let es := (List.range (min 32 (vlen s - b * 32))).map (b * 32 + ·)
  let x (e : Nat) : Nat := elemAt c (addrOf s a) 4 e
  let code : Option Nat := if es.any fun e => decide (fp32.top ≤ x e % fp32.signBit) then none else
    match fp32.value ((es.map fun e => x e % fp32.signBit).foldl max 0) with
    | .fin _ mm e => if mm = 0 then none else some (blockCode t mm e)
    | _ => none
  match code with
  | none => { sub := es.any fun e => subnormalElem .f32 (x e) }
  | some code =>
    { sub := es.any (fun e => subnormalElem .f32 (x e)) || es.any fun e => (quantise t m (variateOf s z e) code (x e)).tiny
      blocks := if m = .sr then (es.map fun e => quantBlocks t (variateOf s z e) code (x e)).sum else 0 }

/-- `vqnt` (R213): an odd destination raises OPERAND. -/
def execVqnt (m : Round) (t : VType) (d a : PReg) (z : ZReg) (s : State) : Out :=
  let n := vlen s
  let ops : List VOperand := [vdst d (elemSize t) n, vsrc a 4 n, vdst (companion d) 1 (blocks n)]
  vectorOp ops (decide (d.val % 2 = 0)) noIndex noExtra
    (runStream ops (groupsOf 1 (blocks n)) (.fixed 2) (quantToll s m t a z) false (quantBlock s m t d a z)) s

/-- One dequantised element (R214). -/
def dequantise (t : VType) (m : Round) (code p : Nat) : FpRes :=
  if code = 0 then { pat := 0 }
  else if code = 255 then { pat := fp32.nan }
  else
    let v := match fmtOf t with
      | some f => f.value p
      | none => .fin (decide (intVal t p < 0)) (intVal t p).natAbs 0
    match v with
    | .nan sig => nanRes fp32 sig
    | .inf n => infRes fp32 n
    | .fin n k e => roundTo fp32 m {} false n k (e + (code : Int) - 127) false

/-- `vdeq` (R214): an odd source raises OPERAND. -/
def execVdeq (m : Round) (t : VType) (d a : PReg) (s : State) : Out :=
  let n := vlen s
  let k := elemSize t
  let ops : List VOperand := [vdst d 4 n, vsrc a k n, vsrc (companion a) 1 (blocks n)]
  vectorOp ops (decide (a.val % 2 = 0)) noIndex noExtra
    (runStream ops (groupsOf 32 n) (.banks 2)
      (fun c e =>
        let x := elemAt c (addrOf s a) k e
        { sub := subnormalElem t x || (dequantise t m (elemAt c (addrOf s (companion a)) 1 (e / 32)) x).tiny })
      false
      (fun c e => putElem (addrOf s d) 4 e (dequantise t m (elemAt c (addrOf s (companion a)) 1 (e / 32)) (elemAt c (addrOf s a) k e)))) s

/-- Eight elements' bits of plane `q`, as a byte: plane `q` holds bit 7 − q (R68, R94). -/
def planeByte (c : Core) (a q i : Nat) : Byte :=
  BitVec.ofNat 8 (((List.range 8).map fun j => bitNat ((elemAt c a 1 (8 * i + j)).testBit (7 - q)) * 2 ^ j).sum)

/-- An element from its eight planes. -/
def planeElem (c : Core) (a plen e : Nat) : Byte :=
  BitVec.ofNat 8 (((List.range 8).map fun q =>
    bitNat ((elemAt c (a + q * plen) 1 (e / 8)).testBit (e % 8)) * 2 ^ (7 - q)).sum)

/-- 128 elements of `vplane.i8`: 16 bytes of each plane, or 128 elements from them (R215). -/
def planeUnit (s : State) (join : Bool) (d a : PReg) (c : Core) (g : Nat) : VEffect :=
  let plen := vlen s / 8
  if join then
    { writes := [(addrOf s d + g * 128, (List.range 128).map fun i => planeElem c (addrOf s a) plen (g * 128 + i))] }
  else
    { writes := (List.range 8).map fun q =>
        (addrOf s d + q * plen + g * 16, (List.range 16).map fun i => planeByte c (addrOf s a) q (g * 16 + i)) }

/-- `vplane.i8` (R215): `vl` is a multiple of 128. -/
def execVplane (join : Bool) (d a : PReg) (s : State) : Out :=
  let n := vlen s
  let ops : List VOperand := [⟨d, true, 1, n, 16, false, true⟩, ⟨a, true, 1, n, 16, true, false⟩]
  vectorOp ops (decide (n % 128 = 0)) noIndex noExtra
    (if join then runGathered ops (groupsOf 1 (n / 128)) (.banks 2) noToll noTollAfter (planeUnit s join d a) writeAsRead
      else runStream ops (groupsOf 1 (n / 128)) (.banks 2) noToll false (planeUnit s join d a)) s

/-! ### Reductions (R216) -/

/-- A partial result: absent or a pattern, and the flags so far. -/
abbrev Partial := Option Nat × BitVec 5

/-- Combine two partial results. -/
def combine (op : Nat → Nat → FpRes) (x y : Partial) : Partial :=
  match x.1, y.1 with
  | some a, some b => (some (op a b).pat, x.2 ||| y.2 ||| (op a b).flags)
  | some a, none => (some a, x.2 ||| y.2)
  | none, b => (b, x.2 ||| y.2)

/-- One lane: elements l, l + 32, l + 64, … in ascending order. -/
def laneOf (op : Nat → Nat → FpRes) (x : Nat → Nat) (n l : Nat) : Partial :=
  (List.range ((n + 31 - l) / 32)).foldl (fun acc i => combine op acc (some (x (l + 32 * i)), 0)) (none, 0)

/-- One level of the tree: neighbouring pairs. -/
def pairUp (op : Nat → Nat → FpRes) : List Partial → List Partial
  | a :: b :: t => combine op a b :: pairUp op t
  | t => t

/-- The reduction tree over 32 lanes. -/
def reduceTree (op : Nat → Nat → FpRes) (x : Nat → Nat) (n : Nat) : FpRes :=
  let v := (List.range 32).map (laneOf op x n)
  let p := pairUp op
  match p (p (p (p (p v)))) with
  | r :: _ => { pat := r.1.getD 0, flags := r.2 }
  | [] => { pat := 0 }

/-- What a reduction of elements of type `t`, read through `conv`, makes of the elements that its groups have read, in their order. -/
def reduced (t : VType) (op : Nat → Nat → FpRes) (conv : Nat → Nat) (n : Nat) (xs : List (Nat × List Byte)) : FpRes :=
  reduceTree op (fun e => conv (ofBytes ((xs[e]?).getD (0, [])).2 % 2 ^ (8 * elemSize t))) n

/-- An element as a group has read it. -/
def readElem (a size : Nat) (c : Core) (e : Nat) : VEffect := { writes := [(a + e * size, bytesAt c.spad (a + e * size) size)] }

/-- A reduction of elements of type `t`, read through `conv`, to one element of type `u`: its groups read, and the last one writes (R205). A
floating-point one pays for subnormal elements and a subnormal result (R91). -/
def reduceOp (t u : VType) (d a : PReg) (op : Nat → Nat → FpRes) (conv : Nat → Nat) (s : State) : Out :=
  let n := vlen s
  let k := elemSize t
  let ops : List VOperand := [vdst d (elemSize u) 1, vsrc a k n]
  vectorOp ops true noIndex noExtra
    (runGathered ops (groupsOf (groupSize (max k (elemSize u))) n) .tree
      (fun c e => { sub := subnormalElem t (elemAt c (addrOf s a) k e) })
      (fun xs => { sub := subnormalElem t (reduced t op conv n xs).pat })
      (readElem (addrOf s a) k) (fun xs => putElem (addrOf s d) (elemSize u) 0 (reduced t op conv n xs))) s

/-- `vrsum` (R216): floating-point in the type; integers modulo 2^32 into 4 bytes. -/
def execVrsum (m : Round) (t : VType) (d a : PReg) (s : State) : Out :=
  match fmtOf t with
  | some f => reduceOp t t d a (fun x y => addVal f m (f.value x) (f.value y)) (fun x => x) s
  | none => reduceOp t .u32 d a (fun x y => { pat := (x + y) % 2 ^ 32 }) (fun x => intPat .u32 (intVal t x)) s

/-- The minimum or maximum of a type (R216). -/
def minMaxElem (t : VType) (wantMax : Bool) (x y : Nat) : FpRes :=
  match fmtOf t with
  | some f => minMaxPat f wantMax x y
  | none => { pat := if decide (intVal t x < intVal t y) = wantMax then y else x }

/-- `vrmax` (R216). -/
def execVrmax (t : VType) (d a : PReg) (s : State) : Out := reduceOp t t d a (minMaxElem t true) (fun x => x) s

/-- `vrmin` (R216). -/
def execVrmin (t : VType) (d a : PReg) (s : State) : Out := reduceOp t t d a (minMaxElem t false) (fun x => x) s

/-! ### Index, gather, scatter and permute (R217) -/

/-- An integer as an element of a type. -/
def indexElem (t : VType) (v : Nat) : FpRes :=
  match fmtOf t with
  | some f => { pat := (roundTo f .rne {} false false v 0 false).pat }
  | none => { pat := intPat t v }

/-- `vidx` (R217). -/
def execVidx (t : VType) (d : PReg) (s : State) : Out :=
  let n := vlen s
  let k := elemSize t
  vectorOp [vdst d k n] true noIndex noExtra
    (runStream [vdst d k n] (groupsOf (groupSize k) n) (.banks 1) noToll false
      (fun _ e => putElem (addrOf s d) k e (indexElem t (s.th.pcq.repDone * n + e)))) s

/-- The whole index is the element number. -/
def wholeIndex (i : Nat) : Nat := i

/-- The scratchpad as a stream found it, as far as nobody but its own groups has written it since (R119, R217). -/
def asFound (s : State) (c : Core) : Core :=
  if groupPending s.th then { c with spad := (ownFound s).foldl (fun m x => sparsePut 0 m x.addr x.byte) c.spad } else c

/-- `vgath` (R217): in groups of 32 (R207). What its own groups have written changes nothing for later ones, so that no overlap changes the
result. -/
def execVgath (t : VType) (d a b : PReg) (s : State) : Out :=
  let n := vlen s
  let k := elemSize t
  let ops : List VOperand := [vdst d k n, ⟨a, false, k, 0, k, true, false⟩, vsrc b 4 n]
  vectorOp ops true (indexedOutside ops a b k wholeIndex)
    (fun s => indexedRanges ops a b k wholeIndex false (s.withCore (asFound s s.core)))
    (runStream ops (groupsOf 32 n) (.fixed 8) noToll true
      (fun c e =>
        let c := asFound s c
        putElem (addrOf s d) k e { pat := reachedElem s c (addrOf s a + elemAt c (addrOf s b) 4 e * k) k e })) s

/-- `vscat` (R217): its groups of 32 read every source first; the highest of repeated indices stays. A harvest context reports the first byte
of its first operand, pd (R52). -/
def execVscat (t : VType) (d a b : PReg) (s : State) : Out :=
  let n := vlen s
  let k := elemSize t
  let ops : List VOperand := [⟨d, false, k, if s.th.id.harv then 1 else 0, k, false, true⟩, vsrc a k n, vsrc b 4 n]
  vectorOp ops true (indexedOutside ops d b k wholeIndex) (indexedRanges ops d b k wholeIndex true)
    (runGathered ops (groupsOf 32 n) (.fixed 8) noToll noTollAfter
      (fun c e =>
        let i := elemAt c (addrOf s b) 4 e
        if inReach s c (addrOf s d + i * k) k then putElem (addrOf s d) k i { pat := elemAt c (addrOf s a) k e } else { writes := [] })
      writeAsRead) s

/-- `vperm` (R217): its groups of 32 read every source first; an index of `vl` or more gives 0. -/
def execVperm (t : VType) (d a b : PReg) (s : State) : Out :=
  let n := vlen s
  let k := elemSize t
  let ops : List VOperand := [vdst d k n, vsrc a k n, vsrc b 4 n]
  vectorOp ops true noIndex noExtra
    (runGathered ops (groupsOf 32 n) (.fixed 8) noToll noTollAfter
      (fun c e =>
        let i := elemAt c (addrOf s b) 4 e
        putElem (addrOf s d) k e { pat := if i < n then elemAt c (addrOf s a) k i else 0 })
      writeAsRead) s

end Sys2Proof.Machine
end

