-- ==== Sys2Proof/Machine/Link.lean ====
section
/-! DEFINITION. What engine commands send through the Ewesan ports and take from them (R349 to R352). -/

namespace Sys2Proof.Machine

/-- A command by its core, class and number. -/
def flitKey (c : Cmd) : CmdKey := ⟨coreNum (placeCore c.place), c.cls, c.seq⟩

/-- The lane class of the copies and collectives of a launch (R352). -/
def laneClass (s : State) (lid : BitVec 32) : BitVec 2 := if (s.launch lid).cls.toNat < 2 then 0 else 1

/-- The sender of a command's accesses: those of copies and collectives have their launch's lane class, every other command's are bulk (R352). -/
def cmdSender (s : State) (c : Cmd) (write : Bool) : Sender :=
  let copies : Bool := match c.op with | .cpym .. => true | _ => decide (c.cls ≠ .matrix)
  { write := write, lc := if copies then laneClass s c.lid else 1, tenant := c.tenant, sdie := BitVec.ofNat 4 c.place.did.val
    cmd := some (flitKey c), by_ := requesterOf c.tenant 0 }

/-- Whether an arrival belongs to a collective's exchange with a module: its match key, and which command with that key it is for (R240). -/
def Arrival.isFor (a : Arrival) (m : Nat) (u : CollUse) (t : Tens) : Bool :=
  decide (a.mid = m ∧ a.vf = u.vf ∧ a.set = u.set ∧ a.space = t.space ∧ a.base = t.base ∧ a.nth = u.nth)

/-- A list without the first `n` members of a kind. -/
def dropFirst (hit : Arrival → Bool) : Nat → List Arrival → List Arrival
  | 0, l => l
  | _, [] => []
  | n + 1, a :: t => if hit a then dropFirst hit n t else a :: dropFirst hit (n + 1) t

/-- Take the `n` bytes that a module has sent for a command's match key and number (R240); none where they have not all arrived. -/
def takePeer (peers : List Arrival) (m : Nat) (u : CollUse) (t : Tens) (n : Nat) : Option (List Byte × List Arrival) :=
  let hit (a : Arrival) : Bool := a.isFor m u t
  let mine := peers.filter hit
  if mine.length < flitsFor n then none
  else some (((mine.take (flitsFor n)).map (·.bytes)).flatten.take n, dropFirst hit (flitsFor n) peers)

end Sys2Proof.Machine
end

