-- ==== Sys2Proof/Machine/Product.lean ====
section
/-! DEFINITION. What engine commands read and write: bytes of tensors, matrix products (R96 to R99, R231 to R235), accumulator moves
(R236), copies (R237, R238). -/

namespace Sys2Proof.Machine

/-! ### Bytes and elements of tensors -/

/-- The physical address that a command holds for a virtual address (R228). -/
def heldPa (c : Cmd) (va : Word) : Nat := (sparseGet {} c.pages (pageOf va)).pa + va.toNat % 4096

/-- A byte of a tensor as an engine reads it; none where it meets an uncorrectable error (R327). -/
def tensByte (s : State) (k : Core) (c : Cmd) (t : Tens) (o : Int) : Option Byte :=
  if t.space = 1 then
    let a := (t.place o).toNat
    if k.bad.contains (a / 16) then none else some (sparseGet 0 k.spad a)
  else if t.space = 2 then some (sparseGet 0 k.scale (t.place o).toNat)
  else
    let pa := heldPa c (t.va o)
    if anyBad s pa 1 then none else some (physByte s pa)

/-- Bytes of a tensor from an offset on; none where one of them is bad. -/
def tensBytes (s : State) (k : Core) (c : Cmd) (t : Tens) (o : Int) : Nat → Option (List Byte)
  | 0 => some []
  | n + 1 =>
    match tensByte s k c t o, tensBytes s k c t (o + 1) n with
    | some b, some bs => some (b :: bs)
    | _, _ => none

/-- An element's pattern. -/
def tensElem (s : State) (k : Core) (c : Cmd) (t : Tens) (i j : Nat) : Nat :=
  ofBytes ((tensBytes s k c t (t.offset 0 i j) (fmtSize t.fmt)).getD [])

/-- The signed value that `p` planes of an INT8 or BPI element give (R68, R94). -/
def planeValue (s : State) (k : Core) (c : Cmd) (t : Tens) (p i j : Nat) : Int :=
  let v : Nat :=
    if t.fmt = fmtBpi then
      ((List.range p).map fun q =>
        bitNat ((ofBytes ((tensBytes s k c t (t.offset q i j) 1).getD [])).testBit (j % 8)) * 2 ^ (7 - q)).sum
    else tensElem s k c t i j
  recon (BitVec.ofNat 8 v).toInt p

/-- Whether some byte of the first `p` planes of some rows of a tensor meets an uncorrectable error. -/
def rowsBad (s : State) (k : Core) (c : Cmd) (t : Tens) (p : Nat) (rows : List Nat) : Bool :=
  rows.any fun i => (List.range (min p t.passes)).any fun q =>
    (t.rowRuns q i).any fun r => (tensBytes s k c t r.1 r.2).isNone

/-- Whether some byte of the first `p` planes of a tensor does. -/
def tensBad (s : State) (k : Core) (c : Cmd) (t : Tens) (p : Nat) : Bool := rowsBad s k c t p (List.range t.rows)

/-! ### Matrix products (R96, R97, R99, R232) -/

/-- Integer wrap, integer saturate, or scaled floating-point accumulation. -/
inductive AccMode | wrap | saturate | scaled
  deriving DecidableEq, Repr

/-- One promotion of a narrow sum into an accumulator element: the new pattern and the flags (R97, R99). -/
def promote (mode : AccMode) (sa sb : Nat) (acc : BitVec 32) (sum : Int) : BitVec 32 × BitVec 5 :=
  match mode with
  | .wrap => (acc + BitVec.ofInt 32 sum, 0)
  | .saturate =>
    let r := clampRes .i32 (acc.toInt + sum) flagSat
    (BitVec.ofNat 32 r.pat, r.flags)
  | .scaled =>
    if sa = 255 ∨ sb = 255 then (BitVec.ofNat 32 fp32.nan, flagNv)
    else if sa = 0 ∨ sb = 0 then (acc, 0)
    else
      let t := roundTo fp32 .rne {} false (decide (sum < 0)) sum.natAbs ((sa : Int) + sb - 254) false
      let r := addVal fp32 .rne (fp32.value acc.toNat) (fp32.value t.pat)
      (BitVec.ofNat 32 r.pat, t.flags ||| r.flags)

/-- The operands of a product, as functions: A by row and k, B by k and column, scale codes by row or column and block. -/
structure Factors where
  m : Nat
  n : Nat
  k : Nat
  period : Nat
  a : Nat → Nat → Int
  b : Nat → Nat → Int
  sa : Nat → Nat → Nat
  sb : Nat → Nat → Nat

/-- One output cell: runs of P k-steps in ascending order, each summed exactly and promoted (R96, R97). -/
def productCell (mode : AccMode) (f : Factors) (i j : Nat) (acc : BitVec 32) : BitVec 32 × BitVec 5 :=
  (List.range ((f.k + f.period - 1) / f.period)).foldl (fun r x =>
    let k0 := x * f.period
    let sum := ((List.range (min f.period (f.k - k0))).map fun y => f.a i (k0 + y) * f.b (k0 + y) j).sum
    let p := promote mode (f.sa i (k0 / 32)) (f.sb j (k0 / 32)) r.1 sum
    (p.1, r.2 ||| p.2)) (acc, 0)

/-- The number of a tile's element. -/
def cellNo (i j : Nat) : Nat := 128 * i + j

/-- A product into the rows of a tile from `row` on: the tile and the flags. Elements outside M × N keep their value (R232). -/
def productInto (mode : AccMode) (f : Factors) (row : Nat) (tile : Sparse (BitVec 32)) : Sparse (BitVec 32) × BitVec 5 :=
  (List.range f.m).foldl (fun acc i =>
    (List.range f.n).foldl (fun acc j =>
      let x := cellNo (row + i) j
      let r := productCell mode f i j (sparseGet 0 acc.1 x)
      (sparsePut 0 acc.1 x r.1, acc.2 ||| r.2)) acc) (tile, 0)

/-- The scale code of row `i` of A for a block: 127 without scales (R97). -/
def codeA (s : State) (k : Core) (c : Cmd) (a : Tens) (i blk : Nat) : Nat :=
  if a.slay = 0 then 127 else tensElem s k c (tensOf c.sa) i blk

/-- The scale code of column `j` of B for the block of B's row `r`. -/
def codeB (s : State) (k : Core) (c : Cmd) (b : Tens) (r j : Nat) : Nat :=
  if b.slay = 0 then 127 else tensElem s k c (tensOf c.sb) (r / 32) j

/-- The factors of rows `r0` to `r0 + m` of A and rows `b0` on of B, read with the planes of `pa` and `mcfg`. -/
def factorsOf (s : State) (k : Core) (c : Cmd) (a b : Tens) (pa r0 m b0 : Nat) : Factors :=
  { m := m, n := b.cols, k := a.cols, period := cfgPeriod c.mcfg
    a := fun i x => planeValue s k c a pa (r0 + i) x
    b := fun x j => planeValue s k c b (cfgPb c.mcfg) (b0 + x) j
    sa := fun i blk => codeA s k c a (r0 + i) blk
    sb := fun j blk => codeB s k c b (b0 + 32 * blk) j }

/-- Whether a product meets an uncorrectable error in an operand or a scale tensor: in the rows of A and B that its groups read (R235). A group
is its first row of A and of the tile, its number of rows, and its number. -/
def productBad (s : State) (k : Core) (c : Cmd) (a b : Tens) (pa : Nat) (groups : List (Nat × Nat × Nat)) : Bool :=
  groups.any fun g =>
    let ra := List.range' g.1 g.2.1
    let rb := List.range' (g.2.2 * a.cols) a.cols
    rowsBad s k c a pa ra || rowsBad s k c b (cfgPb c.mcfg) rb || (decide (a.slay ≠ 0) && rowsBad s k c (tensOf c.sa) 1 ra)
      || (decide (b.slay ≠ 0) && rowsBad s k c (tensOf c.sb) 1 (rb.map (· / 32)))

/-- The groups of `gmm`: rows of A, of the tile and of B for each group with a count above 0 (R235). -/
def groupRows : List Nat → Nat → Nat → List (Nat × Nat × Nat)
  | [], _, _ => []
  | n :: t, r, g => if n = 0 then groupRows t r (g + 1) else (r, n, g) :: groupRows t (r + n) (g + 1)

/-- The rows and groups of a plain product: all of A's rows, the first K rows of B. -/
def wholeGroup (a : Tens) : List (Nat × Nat × Nat) := [(0, a.rows, 0)]

/-- What a command reads: tensors, with the number of planes and the rows of each. -/
def commandReads (c : Cmd) : List (Tens × Nat × List Nat) :=
  let da := tensOf c.da
  let db := tensOf c.db
  let pa := cfgPa c.mcfg
  let whole (t : Tens) (p : Nat) := (t, p, List.range t.rows)
  let scale (t : Tens) (e : TEntry) (rows : List Nat) : List (Tens × Nat × List Nat) := if t.slay = 0 then [] else [(tensOf e, 1, rows)]
  let product (groups : List (Nat × Nat × Nat)) :=
    groups.flatMap fun g =>
      let ra := List.range' g.1 g.2.1
      let rb := List.range' (g.2.2 * da.cols) da.cols
      (da, pa, ra) :: (db, cfgPb c.mcfg, rb) :: (scale da c.sa ra ++ scale db c.sb (rb.map (· / 32)).dedup)
  match c.op with
  | .mmaI .. | .mmaS .. => product (wholeGroup da)
  | .gmm .. => product (groupRows c.counts 0 0)
  | .gath .. => if da.fmt = fmtE8 then [whole db 1] else whole da pa :: scale da c.sa (List.range da.rows)
  | .mmld .. => [whole da 1]
  | .mmz .. | .mmst .. => []
  | _ => [whole db db.passes]

/-- The physical addresses of bytes of a tensor in virtual memory that a command reads or writes. -/
def heldRun (c : Cmd) (va : Word) (n : Nat) : List Nat := (List.range n).map fun i => heldPa c (va + BitVec.ofNat 64 i)

/-- The virtual addresses that a command reads, in row, plane and operand order. -/
def readVas (c : Cmd) : List Word :=
  (commandReads c).flatMap fun r =>
    if r.1.space = 0 then
      r.2.2.flatMap fun i => (List.range (min r.2.1 r.1.passes)).flatMap fun q =>
        (r.1.rowRuns q i).flatMap fun x => (List.range x.2).map fun k => r.1.va x.1 + BitVec.ofNat 64 k
    else []

/-- The kind of the page that a command holds for a virtual address. -/
def heldKind (c : Cmd) (va : Word) : Nat := (sparseGet {} c.pages (pageOf va)).kind

/-- The physical addresses that a command reads: those on SO pages in ascending order of their virtual addresses (R118), and the others. -/
def readSo (c : Cmd) : List Nat :=
  ((((readVas c).filter fun a => decide (heldKind c a = 1)).foldr (fun a l => insertNat a.toNat l) []).map fun a => heldPa c (BitVec.ofNat 64 a))
def readRest (c : Cmd) : List Nat := ((readVas c).filter fun a => decide (heldKind c a ≠ 1)).map (heldPa c)

/-- The physical addresses that a command reads. -/
def readPas (c : Cmd) : List Nat := readRest c ++ readSo c

/-- Perform the product of a command into its tile: A and B as given. A bad operand leaves the tile and reports MCHECK (log 28). -/
def performProduct (s : State) (k : Core) (c : Cmd) (mode : AccMode) (a b : Tens) (pa : Nat) (groups : List (Nat × Nat × Nat)) :
    Core × Cmd :=
  match c.tile with
  | none => (k, c)
  | some i =>
    if productBad s k c a b pa groups then (k, { c with status := 1 })
    else
      let r := groups.foldl (fun (acc : Sparse (BitVec 32) × BitVec 5) g =>
        let x := productInto mode (factorsOf s k c a b pa g.1 g.2.1 (g.2.2 * a.cols)) g.1 acc.1
        (x.1, acc.2 ||| x.2)) (k.tiles[i.val], 0)
      ({ k with tiles := k.tiles.set i.val r.1 }, { c with flags := c.flags ||| r.2 })

/-! ### Output pieces -/

/-- Cut a run of bytes into pieces of at most 16 bytes, none across a page (R53, R118); `fuel` bounds their number. -/
def cutRun (target : Nat → Target) (pageOff : Nat → Nat) : Nat → Nat → List Byte → List Piece
  | 0, _, _ => []
  | fuel + 1, o, bs =>
    if bs.isEmpty then []
    else
      let n := min 16 (4096 - pageOff o)
      ⟨target o, bs.take n⟩ :: cutRun target pageOff fuel (o + n) (bs.drop n)

/-- The pieces that write bytes at an offset of a tensor. -/
def piecesAt (t : Tens) (o : Int) (bs : List Byte) : List Piece :=
  if t.space = 1 then cutRun (fun i => .spad ((t.place o).toNat + i)) (fun _ => 0) bs.length 0 bs
  else if t.space = 2 then cutRun (fun i => .scale ((t.place o).toNat + i)) (fun _ => 0) bs.length 0 bs
  else cutRun (fun i => .virt (t.va o + BitVec.ofNat 64 i)) (fun i => (t.va o + BitVec.ofNat 64 i).toNat % 4096) bs.length 0 bs

/-- Pieces that write the bytes of one row of a plane; none where its source was bad. -/
def rowPieces (t : Tens) (runs : List (Int × Nat)) (bs : Option (List Byte)) : List Piece :=
  match runs, bs with
  | r :: rs, some b => piecesAt t r.1 (b.take r.2) ++ rowPieces t rs (some (b.drop r.2))
  | _, _ => []

/-- Concatenate parts, where all are there. -/
def joinAll : List (Option (List Byte)) → Option (List Byte)
  | [] => some []
  | x :: t => match x, joinAll t with
    | some a, some b => some (a ++ b)
    | _, _ => none

/-- The bytes of one row of a plane. -/
def rowBytes (s : State) (k : Core) (c : Cmd) (t : Tens) (q i : Nat) : Option (List Byte) :=
  joinAll ((t.rowRuns q i).map fun r => tensBytes s k c t r.1 r.2)

/-- Whether a piece lies on an SO page (R118). -/
def pieceSo (c : Cmd) (p : Piece) : Bool :=
  match p.target with
  | .virt a => decide (heldKind c a = 1)
  | _ => false

/-- Insert an SO piece by ascending address. -/
def insertPiece (p : Piece) : List Piece → List Piece
  | [] => [p]
  | q :: t =>
    let key (x : Piece) : Nat := match x.target with | .virt a => a.toNat | _ => 0
    if key p ≤ key q then p :: q :: t else q :: insertPiece p t

/-- The order of a command's writes: SO pieces last, in ascending address order (R118). -/
def orderPieces (c : Cmd) (ps : List Piece) : List Piece :=
  (ps.filter fun p => !pieceSo c p) ++ (ps.filter (pieceSo c)).foldl (fun l p => insertPiece p l) []

/-! ### Copies (R237, R238) -/

/-- The output of `cpy`: every row of every plane, none for a row that met an uncorrectable error. -/
def copyRows (s : State) (k : Core) (c : Cmd) (da db : Tens) : List Piece × Bool :=
  let rows := ((List.range db.rows).map fun i => (List.range db.passes).map fun q => (q, i)).flatten
  let parts := rows.map fun r => (da.rowRuns r.1 r.2, rowBytes s k c db r.1 r.2)
  ((parts.map fun p => rowPieces da p.1 p.2).flatten, parts.any fun p => p.2.isNone)

/-- The output of `cpyt`: row `j` of the destination is column `j` of the source. -/
def copyTransposed (s : State) (k : Core) (c : Cmd) (da db : Tens) : List Piece × Bool :=
  let col (j : Nat) : Option (List Byte) :=
    joinAll ((List.range db.rows).map fun i => tensBytes s k c db (db.offset 0 i j) (fmtSize db.fmt))
  let parts := (List.range da.rows).map fun j => (da.rowRuns 0 j, col j)
  ((parts.map fun p => rowPieces da p.1 p.2).flatten, parts.any fun p => p.2.isNone)

/-- Every byte of a tensor as one stream (R238). -/
def streamBytes (s : State) (k : Core) (c : Cmd) (t : Tens) : Option (List Byte) :=
  joinAll (t.runs.map fun r => tensBytes s k c t r.1 r.2)

/-- Pieces that write a stream of bytes through a tensor; a byte the stream lacks is zero (log 21). -/
def streamPieces (t : Tens) : List (Int × Nat) → List Byte → List Piece
  | [], _ => []
  | r :: rs, bs => piecesAt t r.1 ((bs ++ List.replicate r.2 0).take r.2) ++ streamPieces t rs (bs.drop r.2)

/-- Where a grove's copy core keeps routine `k` (R238, R307). -/
def routineKey (p : Place) (k : Nat) : Nat := (p.did.val * 16 + p.cid.val / 16) * 256 + k

/-- The output of `cpyx`: the routine's image applied to the source, cut where it fails mid-stream (R238, log 21). -/
def copyTransformed (s : State) (k : Core) (c : Cmd) (da db : Tens) : List Piece × BitVec 8 :=
  match streamBytes s k c db with
  | none => ([], 1)
  | some src =>
    let image := sparseGet 0 s.sys.mail.routines (routineKey c.place (c.xcfg.toNat / 2 ^ 24))
    let arg : BitVec 24 := c.xcfg.setWidth 24
    let ps := streamPieces da da.runs (Config.routine image arg src)
    match Config.routineFails image arg src with
    | none => (ps, 0)
    | some n => (ps.take n, 2)

/-! ### Accumulator moves (R236) -/

/-- `mmld`: a tile that holds a tensor's patterns, and zero elsewhere. -/
def loadTile (s : State) (k : Core) (c : Cmd) (t : Tens) : Sparse (BitVec 32) :=
  (List.range t.rows).foldl (fun m i => (List.range t.cols).foldl (fun m j =>
    sparsePut 0 m (cellNo i j) (BitVec.ofNat 32 (tensElem s k c t i j))) m) []

/-- An element of a tile as `mmst` writes it: FP32 and INT32 bit for bit, F16 and BF16 converted with RNE. -/
def tileElem (t : Tens) (v : BitVec 32) : FpRes :=
  if t.fmt = 5 then floatToFloat fp32 f16 .rne {} false v.toNat
  else if t.fmt = 6 then floatToFloat fp32 bf16 .rne {} false v.toNat
  else { pat := v.toNat }

/-- `mmst`'s output: the tensor's rows from a tile, and the flags of the conversions. -/
def storeTile (t : Tens) (tile : Sparse (BitVec 32)) : List Piece × BitVec 5 :=
  let row (i : Nat) : List FpRes := (List.range t.cols).map fun j => tileElem t (sparseGet 0 tile (cellNo i j))
  let rows := (List.range t.rows).map fun i => (t.rowRuns 0 i, row i)
  ((rows.map fun r => rowPieces t r.1 (some ((r.2.map fun x => toBytes (fmtSize t.fmt) x.pat).flatten))).flatten,
   ((rows.map fun r => r.2).flatten.map fun x => x.flags).foldl (· ||| ·) 0)

end Sys2Proof.Machine
end

