-- ==== Sys2Proof/Machine/Matrix.lean ====
section
/-! DEFINITION. Matrix, gather and accumulator instructions (R231 to R236), copies (R237 to R239), collectives (R240, R241) and `cwait`
(R242, R77). -/

namespace Sys2Proof.Machine

/-! ### Operand checks of a product (R231) -/

/-- Whether a tensor may be a factor: INT8 or BPI, not in scale memory. -/
def factorOk (t : Tens) : Bool := decide ((t.fmt = fmtInt8 ∨ t.fmt = fmtBpi) ∧ t.space ≠ 2)

/-- The A checks but for planes: shape, format, scales. -/
def aOk (t : Tens) (scaled : Bool) : Bool :=
  factorOk t && decide (1 ≤ t.rows ∧ t.rows ≤ 128 ∧ 1 ≤ t.cols ∧ t.cols ≤ 1024)
    && (decide (t.slay = 0) || (scaled && decide (t.slay = 1)))

/-- The B checks but for planes and the number of rows. -/
def bOk (t : Tens) (scaled : Bool) : Bool :=
  factorOk t && decide (1 ≤ t.cols ∧ t.cols ≤ 128) && (decide (t.slay = 0) || (scaled && decide (t.slay = 2)))

/-- Whether fewer planes are stored than are read; tied to a field of `mcfg` (R94, R228). -/
def planesMissing (t : Tens) (p : Nat) : Bool := factorOk t && decide (t.stored < p)

/-- Failures of scale tensors that do not lie in scale memory, from place `k` on. -/
def scaleFailures : List Opnd → Nat → List Failure
  | [], _ => []
  | o :: t, k => failIf (decide (o.t.space ≠ 2)) k o.d ++ scaleFailures t (k + 1)

/-- The failures of `mcfg` and the tile (R62, R230). -/
def cfgFailures (s : State) (m : MReg) : List Failure :=
  failFree ((s.tile m).isNone || decide (6 ≤ cfgPk s.th.sr.mcfg))

/-- The plan of a product of da and db; `rowsOk` is the rule on B's rows, charged to db. -/
def productPlan (s : State) (m : MReg) (da db : DReg) (scaled rowsOk : Bool) : Plan :=
  let a := srcOpnd s da
  let b := srcOpnd s db
  let sc := if scaled then scaleOpnd s a ++ scaleOpnd s b else []
  { cls := .matrix, matrixOnly := true, ops := [a, b] ++ sc
    own := failIf (!aOk a.t scaled) 0 da ++ failIf (!bOk b.t scaled || !rowsOk) 1 db ++ scaleFailures sc 2
      ++ cfgFailures s m ++ failFree (planesMissing a.t (cfgPa s.th.sr.mcfg) || planesMissing b.t (cfgPb s.th.sr.mcfg)) }

/-- Latch a product's entries and tile. -/
def fillProduct (s : State) (m : MReg) (da db : DReg) (c : Cmd) : Cmd :=
  { c with da := s.tens da, db := s.tens db, sa := s.tens (tensOf (s.tens da)).sid, sb := s.tens (tensOf (s.tens db)).sid, tile := s.tile m }

/-- Whether B has K rows. -/
def rowsMatch (s : State) (da db : DReg) : Bool := decide ((tensOf (s.tens db)).rows = (tensOf (s.tens da)).cols)

/-- Nothing further happens at issue. -/
def noMore (s : State) : State := s

/-- `mma.i` (R231, R232). -/
def execMmaI (sat : Bool) (tk : Reg) (m : MReg) (da db : DReg) (s : State) : Out :=
  issueCommand (.mmaI sat tk m da db) tk (productPlan s m da db false (rowsMatch s da db)) (fillProduct s m da db) noMore s

/-- `mma.s` (R231, R232). -/
def execMmaS (tk : Reg) (m : MReg) (da db : DReg) (s : State) : Out :=
  issueCommand (.mmaS tk m da db) tk (productPlan s m da db true (rowsMatch s da db)) (fillProduct s m da db) noMore s

/-! ### `gmm` (R235) -/

/-- The companion's counts, read from scratchpad as signed 32-bit numbers. -/
def readCounts (s : State) (t : Tens) : List Int :=
  (List.range t.cols).map fun j => (BitVec.ofNat 32 (ofBytes (bytesAt s.core.spad (t.place (t.offset 0 0 j)).toNat 4))).toInt

/-- Whether an entry is a companion of `gmm`. -/
def companionOk (t : Tens) : Bool :=
  t.valid && decide (t.space = 1 ∧ t.fmt = fmtInt32 ∧ t.rows = 1 ∧ 1 ≤ t.cols ∧ t.cols ≤ 16)

/-- The companion entry's number: db + 1. -/
def companionEntry (db : DReg) : DReg := ⟨(db.val + 1) % 64, Nat.mod_lt _ (by decide)⟩

/-- The plan of `gmm`. A number of B rows that does not match G · K ties A, B and the companion, the last of them; a K that is no multiple of 32
under a scaled B ties A and B (R69). -/
def gmmPlan (s : State) (m : MReg) (da db : DReg) : Plan :=
  let p := productPlan s m da db true true
  let a := tensOf (s.tens da)
  let b := tensOf (s.tens db)
  let comp := srcOpnd s (companionEntry db)
  let k := p.ops.length
  if db.val = 63 then { p with own := p.own ++ failIf true 1 db }
  else
    let bad := !companionOk comp.t || decide (b.rows ≠ comp.t.cols * a.cols)
    let ns := if companionOk comp.t then readCounts s comp.t else []
    { p with
      latched := [comp]
      own := p.own ++ failIf (decide (b.slay ≠ 0 ∧ a.cols % 32 ≠ 0)) 1 db ++ failIf bad k comp.d
      badRead := ns.any (fun n => decide (n < 0)) || decide ((a.rows : Int) < ns.sum) }

/-- `gmm` (R235): the counts are latched. -/
def execGmm (tk : Reg) (m : MReg) (da db : DReg) (s : State) : Out :=
  issueCommand (.gmm tk m da db) tk (gmmPlan s m da db)
    (fun c => { fillProduct s m da db c with
      counts := (readCounts s (tensOf (s.tens (companionEntry db)))).map Int.toNat }) noMore s

/-! ### `gath` (R234) -/

/-- The plan of the A form. -/
def gathAPlan (s : State) (da : DReg) : Plan :=
  let a := srcOpnd s da
  let sc := scaleOpnd s a
  { cls := .matrix, matrixOnly := true, ops := a :: sc
    own := failIf (!aOk a.t true) 0 da ++ scaleFailures sc 1 ++ failFree (planesMissing a.t (cfgPa s.th.sr.mcfg)) }

/-- The plan of the scale form: da in scale memory from the E8 tensor that its sid names. -/
def gathScalePlan (s : State) (da : DReg) : Plan :=
  let a := dstOpnd s da
  let b := srcOpnd s a.t.sid
  { cls := .matrix, matrixOnly := true, ops := [a, b]
    own := failIf (decide (a.t.space ≠ 2 ∨ a.t.slay ≠ 0)) 0 da
      ++ failIf (decide (b.t.fmt ≠ fmtE8 ∨ 2 ≤ b.t.space ∨ b.t.rows ≠ a.t.rows ∨ b.t.cols ≠ a.t.cols)) 1 b.d }

/-- `gath` (R234): the A form makes the gather record; the scale form is a copy into scale memory. -/
def execGath (tk : Reg) (da : DReg) (s : State) : Out :=
  let e := s.tens da
  if (tensOf e).fmt = fmtE8 then
    issueCommand (.gath tk da) tk (gathScalePlan s da)
      (fun c => { c with da := e, db := s.tens (tensOf e).sid }) noMore s
  else
    issueCommand (.gath tk da) tk (gathAPlan s da)
      (fun c => { c with da := e, sa := s.tens (tensOf e).sid })
      (fun s1 => s1.withEng { s1.th.eng with gather := some ⟨da, e, cfgPa s.th.sr.mcfg⟩ }) s

/-! ### Accumulator moves (R236) -/

/-- `mmz` (R236). -/
def execMmz (tk : Reg) (m : MReg) (s : State) : Out :=
  issueCommand (.mmz tk m) tk { cls := .matrix, matrixOnly := true, ops := [], maps := some m } (fun c => c) noMore s

/-- `mmld` (R236). -/
def execMmld (tk : Reg) (m : MReg) (da : DReg) (s : State) : Out :=
  let a := srcOpnd s da
  issueCommand (.mmld tk m da) tk
    { cls := .matrix, matrixOnly := true, ops := [a], maps := some m
      own := failIf (!decide ((a.t.fmt = fmtInt32 ∨ a.t.fmt = fmtFp32) ∧ a.t.rows ≤ 128 ∧ a.t.cols ≤ 128)) 0 da }
    (fun c => { c with da := a.e }) noMore s

/-- From the issue of `mmst.free` the name is unmapped; the tile stays taken until the command completes (R236). -/
def forgetName (s : State) (m : MReg) : State :=
  match s.tile m with
  | none => s
  | some i => s.withCore { s.core with owners := s.core.owners.set i.val (some ⟨s.th.id.lid, s.th.id.unit, none⟩) }

/-- `mmst` and `mmst.free` (R236). -/
def execMmst (free : Bool) (tk : Reg) (da : DReg) (m : MReg) (s : State) : Out :=
  let a := dstOpnd s da
  issueCommand (.mmst free tk da m) tk
    { cls := .matrix, matrixOnly := true, ops := [a]
      own := failIf (!decide (3 ≤ a.t.fmt ∧ a.t.fmt ≤ 6 ∧ a.t.rows ≤ 128 ∧ a.t.cols ≤ 128)) 0 da ++ failFree (s.tile m).isNone }
    (fun c => { c with da := a.e, tile := s.tile m }) (fun s1 => if free then forgetName s1 m else s1) s

/-! ### Copies (R237 to R239) -/

/-- Whether `cpy` cannot pair two tensors: formats, shapes or planes differ. -/
def copyMismatch (a b : Tens) : Bool :=
  decide (a.fmt ≠ b.fmt ∨ a.rows ≠ b.rows ∨ a.cols ≠ b.cols ∨ (a.fmt = fmtBpi ∧ a.planes ≠ b.planes))

/-- Whether `cpyt` cannot. -/
def transposeMismatch (a b : Tens) : Bool :=
  decide (a.fmt ≠ b.fmt ∨ a.fmt = fmtBpi ∨ a.rows ≠ b.cols ∨ a.cols ≠ b.rows)

/-- The plan of a copy from db to da; a mismatch is charged to db. -/
def copyPlan (s : State) (da db : DReg) (bad : Tens → Tens → Bool) : Plan :=
  let a := dstOpnd s da
  let b := srcOpnd s db
  { cls := .copy, ops := [a, b], own := failIf (bad a.t b.t) 1 db }

/-- Latch both entries of a copy. -/
def fillCopy (s : State) (da db : DReg) (c : Cmd) : Cmd := { c with da := s.tens da, db := s.tens db }

/-- `cpy` (R237). -/
def execCpy (tk : Reg) (da db : DReg) (s : State) : Out :=
  issueCommand (.cpy tk da db) tk (copyPlan s da db copyMismatch) (fillCopy s da db) noMore s

/-- `cpyt` (R237). -/
def execCpyt (tk : Reg) (da db : DReg) (s : State) : Out :=
  issueCommand (.cpyt tk da db) tk (copyPlan s da db transposeMismatch) (fillCopy s da db) noMore s

/-- Whether routine `k` is loaded in the copy core of the thread's grove (R237, R307). -/
def routineLoaded (s : State) (k : Nat) : Bool :=
  decide (k ≤ 0xEF) && decide (sparseGet 0 s.sys.mail.routines (routineKey s.here k) ≠ 0)

/-- `cpyx` (R237, R238). -/
def execCpyx (tk : Reg) (da db : DReg) (s : State) : Out :=
  let p := copyPlan s da db fun _ _ => false
  issueCommand (.cpyx tk da db) tk { p with own := failFree (!routineLoaded s (s.th.sr.xcfg.toNat / 2 ^ 24)) } (fillCopy s da db) noMore s

/-- The plan of `cpym` (R239): operands da, db, the scales of da as B, then A of the gather record and its scales. In an integer mode no operand
may be scaled (R99). -/
def cpymPlan (s : State) (m : MReg) (da db : DReg) : Plan :=
  let b := dstOpnd s da
  let src := srcOpnd s db
  let mode := cfgMode s.th.sr.mcfg
  let scaled := decide (mode = 0)
  let scb := if scaled then scaleOpnd s b else []
  let common := failIf (decide (b.t.space ≠ 1) || !bOk b.t scaled) 0 da ++ failIf (copyMismatch b.t src.t || (!scaled && decide (src.t.slay ≠ 0))) 1 db
    ++ scaleFailures scb 2 ++ cfgFailures s m ++ failFree (decide (mode = 3) || planesMissing b.t (cfgPb s.th.sr.mcfg))
  match s.th.eng.gather with
  | none => { cls := .matrix, alsoCopy := true, matrixOnly := true, ops := [b, src] ++ scb, own := common ++ failFree true }
  | some g =>
    let a : Opnd := ⟨g.entry, g.words, false⟩
    let sca := if scaled then scaleOpnd s a else []
    let k := 2 + scb.length
    { cls := .matrix, alsoCopy := true, matrixOnly := true, ops := [b, src] ++ scb ++ [a] ++ sca
      own := common ++ failIf (!aOk a.t scaled || decide (b.t.rows ≠ a.t.cols)) k a.d ++ scaleFailures sca (k + 1)
        ++ failFree (planesMissing a.t g.pa) }

/-- `cpym` (R239). -/
def execCpym (tk : Reg) (m : MReg) (da db : DReg) (s : State) : Out :=
  issueCommand (.cpym tk m da db) tk (cpymPlan s m da db)
    (fun c => { fillCopy s da db c with
      sb := s.tens (tensOf (s.tens da)).sid
      sa := (s.th.eng.gather.map fun g => s.tens (tensOf g.words).sid).getD {}
      gather := s.th.eng.gather
      tile := s.tile m }) noMore s

/-! ### Collectives (R240, R241) -/

/-- The collective set of the thread's launch (R343, R346). -/
def collUse (s : State) : CollUse :=
  let l := s.launch s.th.id.lid
  ⟨l.job / 16, l.cset, l.compressed, 0⟩

/-- Whether a count is that of a match key. -/
def KeyCount.isOf (k : KeyCount) (u : CollUse) (t : Tens) : Bool :=
  decide (k.vf = u.vf ∧ k.set = u.set ∧ k.space = t.space ∧ k.base = t.base)

/-- How many commands with a match key the module has issued (R240). -/
def keyCount (s : State) (u : CollUse) (t : Tens) : Nat := ((s.sys.keys.find? (·.isOf u t)).map (·.count)).getD 0

/-- One more command with a match key is issued: the next of its kind is the k-th on every member (R240). -/
def countKey (s : State) (u : CollUse) (t : Tens) : State :=
  s.withSys { s.sys with keys :=
    (s.sys.keys.filter fun k => !k.isOf u t) ++ [⟨u.vf, u.set, t.space, t.base, (keyCount s u t + 1) % 65536⟩] }

/-- The register of a set. -/
def collSet (s : State) (u : CollUse) : CollSet := sparseGet {} s.sys.csets (u.vf * 256 + u.set)

/-- The member modules of a set, in ascending order: their index is the rank. -/
def members (s : State) (u : CollUse) : List Nat := (List.range 16).filter fun m => (collSet s u).members.getLsbD m

/-- Whether a launch has no collective set. -/
def noCollSet (s : State) (u : CollUse) : Bool := decide (u.set = 0) || !(collSet s u).valid

/-- Elements of a tensor. -/
def Tens.count (t : Tens) : Nat := t.rows * t.cols

/-- Whether a reduction's format is FP32 or BF16. -/
def reduceFmt (t : Tens) : Bool := decide (t.fmt = fmtFp32 ∨ t.fmt = fmtBf16)

/-- The plan of a collective: `fmtBad` charges to da and db, `pairBad` to db, `setBad` to no entry. -/
def collPlan (s : State) (da db : DReg) (fmtOk : Tens → Bool) (pairBad : Tens → Tens → Bool) (setBad : Nat → Tens → Tens → Bool) : Plan :=
  let a := dstOpnd s da
  let b := srcOpnd s db
  let u := collUse s
  { cls := .coll, ops := [a, b]
    own := failIf (!fmtOk a.t) 0 da ++ failIf (!fmtOk b.t || pairBad a.t b.t) 1 db
      ++ failFree (noCollSet s u || setBad (members s u).length a.t b.t) }

/-- Latch a collective's entries and set, and its number among the commands with its match key (R240). -/
def fillColl (s : State) (da db : DReg) (c : Cmd) : Cmd :=
  let u := collUse s
  { fillCopy s da db c with coll := some { u with nth := keyCount s u (tensOf (s.tens db)) } }

/-- A collective is issued under its match key. -/
def countColl (db : DReg) (s : State) : State := countKey s (collUse s) (tensOf (s.tens db))

/-- `coll.ar` (R241). -/
def execCollAr (tk : Reg) (da db : DReg) (s : State) : Out :=
  issueCommand (.collAr tk da db) tk
    (collPlan s da db reduceFmt (fun a b => decide (a.fmt ≠ b.fmt ∨ a.count ≠ b.count)) fun _ _ _ => false) (fillColl s da db) (countColl db) s

/-- `coll.rs` (R241). -/
def execCollRs (tk : Reg) (da db : DReg) (s : State) : Out :=
  issueCommand (.collRs tk da db) tk
    (collPlan s da db reduceFmt (fun a b => decide (a.fmt ≠ b.fmt))
      fun g a b => decide (b.count % g ≠ 0 ∨ a.count ≠ b.count / g)) (fillColl s da db) (countColl db) s

/-- `coll.ag` (R241). -/
def execCollAg (tk : Reg) (da db : DReg) (s : State) : Out :=
  issueCommand (.collAg tk da db) tk
    (collPlan s da db (fun t => decide (t.fmt ≠ fmtBpi)) (fun a b => decide (a.fmt ≠ b.fmt))
      fun g a b => decide (a.count ≠ g * b.count)) (fillColl s da db) (countColl db) s

/-! ### `cwait` (R77, R242) -/

/-- The class a ticket names. -/
def ticketClass (t : Nat) : Option EngClass :=
  match t / 2 ^ 28 % 16 with
  | 0 => some .matrix
  | 1 => some .copy
  | 2 => some .coll
  | _ => none

/-- How many commands of a class were issued after the one numbered `seq` (R75). -/
def issuedAfter (q : ClassSeq) (seq : Nat) : Nat := (seqOf q.issued + 268435455 - seq) % 268435455

/-- Whether `seq` names a command the thread has issued, among the 2^27 most recent (R242). -/
def seqIssued (q : ClassSeq) (seq : Nat) : Bool :=
  decide (seq ≠ 0 ∧ issuedAfter q seq < q.issued ∧ issuedAfter q seq < 2 ^ 27)

/-- The earliest error not yet reported among a unit's commands of a class up to `seq`. -/
def unreported (s : State) (k : EngClass) (q : ClassSeq) (seq : Nat) : Option Inbox :=
  s.sys.work.inbox.find? fun e => decide (e.lid = s.th.id.lid ∧ e.unit = s.th.id.unit ∧ e.cls = k ∧ e.status ≠ 0
    ∧ issuedAfter q seq ≤ issuedAfter q e.seq)

/-- The state after an error is reported: `cmdst` describes it, and it counts as reported (R77). -/
def reportError (s : State) (e : Inbox) : State :=
  let s := s.withWork { s.sys.work with inbox := s.sys.work.inbox.filter fun x => !decide (x = e) }
  let s := s.withEng (s.th.eng.putSeqs e.cls { s.th.eng.seqs e.cls with reported := e.seq })
  s.withSr { s.th.sr with cmdst := BitVec.ofNat 64 (e.count * 2 ^ 32 + e.status.toNat) }

/-- Whether a command of the unit and class up to `seq` is in flight, on whichever core it was issued (R77, R124, R126). -/
def stillInFlight (s : State) (k : EngClass) (q : ClassSeq) (seq : Nat) : Bool :=
  (allCommands s).any fun c => decide (c.lid = s.th.id.lid ∧ c.unit = s.th.id.unit ∧ c.cls = k
    ∧ issuedAfter q seq ≤ issuedAfter q c.seq)

/-- `cwait` (R77, R242): waits for every command of the class up to the ticket, then reports the earliest error or completes. -/
def execCwait (r : Reg) (s : State) : Out :=
  withRegs [r] [] s <|
    let t := (s.reg r).toNat % 2 ^ 32
    let seq := t % 2 ^ 28
    match ticketClass t with
    | none => raiseEv operandError s
    | some k =>
      let q := s.th.eng.seqs k
      if !seqIssued q seq then raiseEv operandError s
      else if stillInFlight s k q seq then waitOn .ticket s
      else match unreported s k q seq with
        | some e => raise evCmderr (ticketWord k e.seq) (reportError s e)
        | none => finish (takeMsgs s [r])

end Sys2Proof.Machine
end

