-- ==== Sys2Proof/Machine/Collective.lean ====
section
/-! DEFINITION. What collectives compute (R241, R355, R356): exact reductions in rank order, the compressed quantiser and its hops. -/

namespace Sys2Proof.Machine

/-- The format of a reduction's elements. -/
def collFmt (t : Tens) : Fmt := if t.fmt = fmtBf16 then bf16 else fp32

/-- A pattern widened to FP32. -/
def widen (f : Fmt) (p : Nat) : FpRes := floatToFloat f fp32 .rne {} false p

/-- FP32 addition of patterns, to nearest. -/
def addPat (a b : Nat) : FpRes := addVal fp32 .rne (fp32.value a) (fp32.value b)

/-- The source elements of a collective, in row-major order, as bytes; none where one of them is bad. -/
def collBytes (s : State) (k : Core) (c : Cmd) (t : Tens) : Option (List Byte) :=
  joinAll ((List.range t.rows).map fun i => rowBytes s k c t 0 i)

/-- Element `e` of a run of elements. -/
def elemOf (bs : List Byte) (size e : Nat) : Nat := ofBytes ((bs.drop (size * e)).take size)

/-- The exact reduction of one element over the ranks in ascending order (R241). -/
def reduceElem (f : Fmt) (vs : List Nat) : FpRes :=
  match vs with
  | [] => { pat := 0 }
  | v :: t =>
    let r := t.foldl (fun (acc : FpRes) x =>
      let w := widen f x
      let a := addPat acc.pat w.pat
      { pat := a.pat, flags := acc.flags ||| w.flags ||| a.flags }) (widen f v)
    let o := floatToFloat fp32 f .rne {} false r.pat
    { o with flags := r.flags ||| o.flags }

/-- The exact reduction of elements `e0` to `e0 + n`: bytes and flags. -/
def reduceExact (f : Fmt) (size : Nat) (vs : List (List Byte)) (e0 n : Nat) : List Byte × BitVec 5 :=
  let rs := (List.range n).map fun e => reduceElem f (vs.map fun v => elemOf v size (e0 + e))
  ((rs.map fun r => toBytes size r.pat).flatten, (rs.map fun r => r.flags).foldl (· ||| ·) 0)

/-! ### The quantiser (R355) -/

/-- A block as it travels: its E8 code and one number −8 … 7 per element. -/
structure QBlock where
  code : Nat
  ws : List Int
  deriving DecidableEq, Repr

/-- round((y − 8) / 16) to nearest even, clamped, for y = ±m · 2^e. -/
def quantOne (neg : Bool) (m : Nat) (e : Int) : Int :=
  -- (y - 8) / 16 as an exact number n / 2^k
  let k := (-e).toNat + 4
  let y : Int := if 0 ≤ e then m * 2 ^ e.toNat * 2 ^ (-e).toNat else m
  let n : Int := (if neg then -y else y) - 8 * 2 ^ (-e).toNat
  let r := roundInt .rne {} (decide (n < 0)) n.natAbs (-(k : Int))
  max (-8) (min 7 r.1)

/-- Quantise a block of FP32 patterns. -/
def quantBlk (xs : List Nat) : QBlock :=
  if xs.any fun x => decide (fp32.top ≤ x % fp32.signBit) then ⟨255, xs.map fun _ => 0⟩
  else
    match fp32.value ((xs.map (· % fp32.signBit)).foldl max 0) with
    | .fin _ m e =>
      if m = 0 then ⟨0, xs.map fun _ => 0⟩
      else
        let code := (((List.range 254).map fun i => i + 1).find? fun (c : Nat) => fits120 m (e + 127 - (c : Int))).getD 254
        ⟨code, xs.map fun x => match fp32.value x with
          | .fin n m e => quantOne n m (e + 127 - (code : Int))
          | _ => 0⟩
    | _ => ⟨255, xs.map fun _ => 0⟩
where
  /-- Whether m · 2^k is at most 120. -/
  fits120 (m : Nat) (k : Int) : Bool := if 0 ≤ k then decide (m * 2 ^ k.toNat ≤ 120) else decide (m ≤ 120 * 2 ^ (-k).toNat)

/-- An element of a block as FP32: (16w + 8) · 2^(code − 127), rounded to nearest. -/
def deqOne (code : Nat) (w : Int) : FpRes :=
  if code = 255 then { pat := fp32.nan }
  else if code = 0 then { pat := 0 }
  else roundTo fp32 .rne {} false (decide (16 * w + 8 < 0)) (16 * w + 8).natAbs ((code : Int) - 127) false

/-- A block's elements as FP32 patterns. -/
def deqBlk (b : QBlock) : List Nat := b.ws.map fun w => (deqOne b.code w).pat

/-- Cut a list into blocks of 32; `fuel` bounds their number. -/
def blocks32 {α : Type} : Nat → List α → List (List α)
  | 0, _ => []
  | n + 1, l => if l.isEmpty then [] else l.take 32 :: blocks32 n (l.drop 32)

/-- The 17 bytes of a block: planes 0 to 3 of 4 bytes each, then the code (R355, log 25). -/
def qBytes (b : QBlock) : List Byte :=
  ((List.range 4).map fun q =>
    toBytes 4 ((b.ws.zipIdx.map fun w => bitNat ((w.1 % 16).toNat.testBit (3 - q)) * 2 ^ w.2).sum)).flatten ++ toBytes 1 b.code

/-- A block of `n` elements from its bytes. -/
def qOfBytes (n : Nat) (bs : List Byte) : QBlock :=
  ⟨ofBytes ((bs.drop 16).take 1), (List.range n).map fun j =>
    let v := ((List.range 4).map fun q => bitNat ((ofBytes ((bs.drop (4 * q)).take 4)).testBit j) * 2 ^ (3 - q)).sum
    (BitVec.ofNat 4 v).toInt⟩

/-- Blocks of `n` elements from a run of bytes. -/
def qRun : Nat → Nat → List Byte → List QBlock
  | 0, _, _ => []
  | fuel + 1, n, bs => if n = 0 then [] else qOfBytes (min 32 n) (bs.take 17) :: qRun fuel (n - 32) (bs.drop 17)

/-- Bytes that `n` elements take in blocks. -/
def qSize (n : Nat) : Nat := (n + 31) / 32 * 17

/-! ### Residuals (R356) -/

/-- The residuals of a command's match key. -/
def residOf (s : State) (u : CollUse) (t : Tens) : Resid :=
  (s.sys.resids.find? fun r => decide (r.vf = u.vf ∧ r.set = u.set ∧ r.space = t.space ∧ r.base = t.base)).getD
    ⟨u.vf, u.set, t.space, t.base, []⟩

/-- Replace the residuals of a key. -/
def putResid (s : State) (r : Resid) : State :=
  s.withSys { s.sys with resids :=
    (s.sys.resids.filter fun x => !decide (x.vf = r.vf ∧ x.set = r.set ∧ x.space = r.space ∧ x.base = r.base)) ++ [r] }

/-- Residuals after an injection. -/
def setVals (m : Sparse (BitVec 32)) (e : Nat) : List Nat → Sparse (BitVec 32)
  | [] => m
  | v :: t => setVals (sparsePut 0 m e (BitVec.ofNat 32 v)) (e + 1) t

/-- A rank's injection: its blocks, its residuals afterwards, the flags of the additions. -/
def inject (f : Fmt) (size n : Nat) (src : List Byte) (r : Resid) : List QBlock × Resid × BitVec 5 :=
  let xs := (List.range n).map fun e =>
    let w := widen f (elemOf src size e)
    let a := addPat w.pat (sparseGet 0 r.vals e).toNat
    ({ a with flags := w.flags ||| a.flags } : FpRes)
  let qs := (blocks32 n (xs.map (·.pat))).map quantBlk
  let ds := (qs.map deqBlk).flatten
  let rs := (List.range n).map fun e =>
    addVal fp32 .rne (fp32.value ((xs.map (·.pat))[e]?.getD 0)) (fp32.value (ds[e]?.getD 0)).negate
  (qs, { r with vals := setVals r.vals 0 (rs.map (·.pat)) }, ((xs ++ rs).map (·.flags)).foldl (· ||| ·) 0)

/-- The sum of a received and an own block (R356). -/
def hopBlk (a b : QBlock) : List FpRes := (deqBlk a).zipWith addPat (deqBlk b)

/-- The blocks a rank sends on, and the flags. -/
def hop (recv own : List QBlock) : List QBlock × BitVec 5 :=
  let xs := recv.zipWith hopBlk own
  (xs.map fun b => quantBlk (b.map (·.pat)), ((xs.flatten).map (·.flags)).foldl (· ||| ·) 0)

/-- The final elements `e0` to `e0 + n` in a format: bytes and flags. -/
def finalBytes (f : Fmt) (size : Nat) (qs : List QBlock) (e0 n : Nat) : List Byte × BitVec 5 :=
  let rs := (((qs.map deqBlk).flatten.drop e0).take n).map fun p => floatToFloat fp32 f .rne {} false p
  ((rs.map fun r => toBytes size r.pat).flatten, (rs.map (·.flags)).foldl (· ||| ·) 0)

/-! ### A collective command's progress -/

/-- Which elements of the reduction a command's destination receives: the first and their number. -/
def collSlice (op : Instr) (rank g n : Nat) : Nat × Nat :=
  match op with
  | .collRs .. => (rank * (n / g), n / g)
  | _ => (0, n)

/-- Send a run of bytes to some members under a command's match key. The destination die is the sender's own: the members run their commands of
a key on the same dies (DESIGN CHOICE, log 25). -/
def sendAll (s : State) (c : Cmd) (u : CollUse) (bs : List Byte) (ms : List Nat) : State :=
  let die := BitVec.ofNat 4 c.place.did.val
  let t := tensOf c.db
  ms.foldl (fun s m => sendMessage s ⟨m, die, die, laneClass s c.lid, c.tenant, .coll, u.vf, u.set, t.space, u.nth, false, some (flitKey c)⟩ t.base bs
    (flitsFor bs.length)) s

/-- A command reads its sources at their homes (R349, R372), under the kinds of their pages (R118, R341). -/
def reachSource (s : State) (c : Cmd) : State :=
  let x := cmdSender s c false
  reachRead (reachRead s x (readRest c)) { x with by_ := requesterOf c.tenant 1 } (readSo c)

/-- Whether nothing can be sent to one of some members. -/
def portsDown (s : State) (ms : List Nat) : Bool := ms.any (portClosed s)

/-- The other members of a set. -/
def otherMembers (s : State) (ms : List Nat) : List Nat := ms.filter fun m => decide (m ≠ s.sys.host.mid.toNat)

/-- A command whose port is down where its first flit would be sent (R351). -/
def endDown (s : State) (c : Cmd) : State × Cmd := (s, { c with out := some [], status := 1, src := [] })

/-- Take the contributions of the other ranks, in ascending rank, around one's own. -/
def gatherPeers (own : List Byte) (mid : Nat) (u : CollUse) (t : Tens) (n : Nat) :
    List Nat → List Arrival → Option (List (List Byte) × List Arrival)
  | [], peers => some ([], peers)
  | m :: ms, peers =>
    if m = mid then (gatherPeers own mid u t n ms peers).map fun r => (own :: r.1, r.2)
    else match takePeer peers m u t n with
      | none => none
      | some (v, rest) => (gatherPeers own mid u t n ms rest).map fun r => (v :: r.1, r.2)

/-- A command's output once it is known. -/
def deliverBytes (c : Cmd) (bs : List Byte) (flags : BitVec 5) : Cmd :=
  let t := tensOf c.da
  { c with out := some (orderPieces c (streamPieces t t.runs bs)), flags := c.flags ||| flags, src := [] }

/-- One step of an exact collective, or of `coll.ag`: send, then combine once every contribution is here. -/
def exactStep (s : State) (c : Cmd) (u : CollUse) (own : List Byte) (ms : List Nat) : State × Cmd :=
  let mid := s.sys.host.mid.toNat
  let t := tensOf c.db
  let size := fmtSize t.fmt
  if !c.done && portsDown s (otherMembers s ms) then endDown s c else
  let s1 := if c.done then s else sendAll (reachSource s c) c u own (otherMembers s ms)
  match gatherPeers own mid u t (t.count * size) ms s1.sys.peers with
  | none => (s1, { c with done := true })
  | some (vs, rest) =>
    let s2 := s1.withSys { s1.sys with peers := rest }
    match c.op with
    | .collAg .. => (s2, { deliverBytes c vs.flatten 0 with done := true })
    | _ =>
      let sl := collSlice c.op (ms.findIdx fun m => decide (m = mid)) ms.length t.count
      let r := reduceExact (collFmt t) size vs sl.1 sl.2
      (s2, { deliverBytes c r.1 r.2 with done := true })

/-- The end of a compressed collective: the final blocks are known. -/
def compressedEnd (c : Cmd) (rank g : Nat) (qs : List QBlock) : Cmd :=
  let t := tensOf c.db
  let sl := collSlice c.op rank g t.count
  let r := finalBytes (collFmt t) (fmtSize t.fmt) qs sl.1 sl.2
  deliverBytes c r.1 r.2

/-- The injection and hop of a compressed collective, given what has been received: the blocks sent on, the state with the residuals,
the command with its flags. -/
def compressedHop (s : State) (c : Cmd) (u : CollUse) (own : List Byte) (recv : Option (List QBlock)) : List QBlock × State × Cmd :=
  let t := tensOf c.db
  let x := inject (collFmt t) (fmtSize t.fmt) t.count own (residOf s u t)
  let h : List QBlock × BitVec 5 := match recv with
    | none => (x.1.map fun b => quantBlk (deqBlk b), 0)
    | some r => hop r x.1
  (h.1, putResid s x.2.1, { c with flags := c.flags ||| x.2.2 ||| h.2, done := true })

/-- One step of a compressed collective (R356): inject and pass on once the lower rank's blocks are here; finish once the final blocks are. -/
def compressedStep (s : State) (c : Cmd) (u : CollUse) (own : List Byte) (ms : List Nat) : State × Cmd :=
  let mid := s.sys.host.mid.toNat
  let n := (tensOf c.db).count
  let rank := ms.findIdx fun m => decide (m = mid)
  let g := ms.length
  let next := ms.drop (rank + 1)
  if !c.done then
    let recv := if rank = 0 then some (none, s.sys.peers)
      else (takePeer s.sys.peers (ms[rank - 1]?.getD 0) u (tensOf c.db) (qSize n)).map fun r => (some (qRun n n r.1), r.2)
    match recv with
    | none => (s, c)
    | some (r, rest) =>
      let nexts := if rank + 1 < g then next.take 1 else otherMembers s ms
      if portsDown s nexts then endDown s c else
      let x := compressedHop (reachSource (s.withSys { s.sys with peers := rest }) c) c u own r
      let s2 := sendAll x.2.1 c u (x.1.map qBytes).flatten nexts
      (s2, if rank + 1 < g then x.2.2 else compressedEnd x.2.2 rank g x.1)
  else
    match takePeer s.sys.peers (ms[g - 1]?.getD 0) u (tensOf c.db) (qSize n) with
    | none => (s, c)
    | some (b, rest) => (s.withSys { s.sys with peers := rest }, compressedEnd c rank g (qRun n n b))

/-- One step of a collective command before its output is known. A bad source ends it with MCHECK (R327). -/
def collStep (s : State) (k : Core) (c : Cmd) : State × Cmd :=
  match c.coll with
  | none => (s, { c with out := some [] })
  | some u =>
    let ms := members s u
    match collBytes s k c (tensOf c.db) with
    | none => (metError s c.place.did.val, { c with out := some [], status := 1, src := [] })
    | some own =>
      if u.compressed && (match c.op with | .collAg .. => false | _ => true) then compressedStep s c u own ms else exactStep s c u own ms

end Sys2Proof.Machine
end

