-- ==== Sys2Proof/Machine/EngineSteps.lean ====
section
/-! DEFINITION. Steps of the engines: reading and delivering (R53, R79), `cpym`'s product (R239), retirement (R76 to R78, R89). -/

namespace Sys2Proof.Machine

/-- The first command of a class on a core, with the commands before and after it. -/
def splitCmds (k : EngClass) : List Cmd → Option (List Cmd × Cmd × List Cmd)
  | [] => none
  | c :: t => if c.cls = k then some ([], c, t) else (splitCmds k t).map fun r => (c :: r.1, r.2)

/-- Put a command back among those of a core. -/
def putCmd (s : State) (core : Nat) (pre : List Cmd) (c : Cmd) (post : List Cmd) : State :=
  let k := s.coreBy core
  s.putCore core { k with cmds := pre ++ c :: post }

/-! ### Reading -/

/-- A copy's command once its source has been read. -/
def copyOut (c : Cmd) (r : List Piece × Bool) : Cmd :=
  { c with out := some (orderPieces c r.1), status := if r.2 then 1 else c.status, src := [] }

/-- A command that writes nothing but its tile. -/
def tileOnly (r : Core × Cmd) : Core × Cmd := (r.1, { r.2 with out := some [], src := [] })

/-- Read the sources of a matrix or copy command and compute its output (R232 to R239). -/
def readSources (s : State) (k : Core) (c : Cmd) : Core × Cmd :=
  let da := tensOf c.da
  let db := tensOf c.db
  let pa := cfgPa c.mcfg
  match c.op with
  | .mmaI sat .. => tileOnly (performProduct s k c (if sat then .saturate else .wrap) da db pa (wholeGroup da))
  | .mmaS .. => tileOnly (performProduct s k c .scaled da db pa (wholeGroup da))
  | .gmm .. => tileOnly (performProduct s k c .scaled da db pa (groupRows c.counts 0 0))
  | .gath .. =>
    if da.fmt = fmtE8 then (k, copyOut c (copyRows s k c da db))
    else tileOnly (k, if tensBad s k c da pa || (decide (da.slay ≠ 0) && tensBad s k c (tensOf c.sa) 1) then { c with status := 1 } else c)
  | .mmz .. =>
    tileOnly (match c.tile with | some i => { k with tiles := k.tiles.set i.val [] } | none => k, c)
  | .mmld .. =>
    if tensBad s k c da 1 then tileOnly (k, { c with status := 1 })
    else tileOnly (match c.tile with | some i => { k with tiles := k.tiles.set i.val (loadTile s k c da) } | none => k, c)
  | .mmst .. =>
    let r := storeTile da (match c.tile with | some i => k.tiles[i.val] | none => [])
    (k, { c with out := some (orderPieces c r.1), flags := r.2 })
  | .cpyt .. => (k, copyOut c (copyTransposed s k c da db))
  | .cpyx .. =>
    let r := copyTransformed s k c da db
    (k, { c with out := some (orderPieces c r.1), status := r.2, src := [] })
  | .cpym .. =>
    let c' := copyOut c (copyRows s k c da db)
    (k, { c' with src := (c.gather.map fun g => rangesOf (tensOf g.words)).getD [] })
  | _ => (k, copyOut c (copyRows s k c da db))

/-- A command ends with MCHECK at the point where its first flit would be sent (R351). -/
def endUnsent (c : Cmd) : Cmd := { c with out := some [], status := 1, src := [] }

/-- Whether the issuing unit still has an atomic to be performed before the command's accesses (R111). -/
def atomicsBefore (s : State) (c : Cmd) : Bool := s.sys.work.amos.any fun m => decide (m.lid = c.lid ∧ m.unit = c.unit)

/-- Whether some of scratchpad ranges lie in a part that a reclaim has not cleared yet (R266). -/
def clearingMeets (k : Core) (rs : List (Nat × Nat)) : Bool := rs.any fun r => k.clearing.any fun c => rangeMeets c.1 c.2 r

/-- Read a command's sources. What a reclaim has still to clear holds it back (R266). -/
def readCmd (s : State) (core : Nat) (pre : List Cmd) (c : Cmd) (post : List Cmd) : State :=
  if atomicsBefore s c || clearingMeets (s.coreBy core) c.src then s
  else if !c.done && outOfReach s (readPas c) then putCmd s core pre (endUnsent c) post
  else
    let s1 : State := { s with fresh := s.fresh + 1 }
    match c.cls with
    | .coll =>
      let r := collStep s1 (s.coreBy core) c
      putCmd r.1 core pre r.2 post
    | _ =>
      let s1 := reachSource s1 c
      let r := readSources s (s.coreBy core) c
      let s2 := if c.status = 0 ∧ r.2.status = 1 then metError s1 c.place.did.val else s1
      putCmd (s2.putCore core r.1) core pre r.2 post

/-! ### Delivering -/

/-- Whether an earlier command of the core still holds a scratchpad granule (R79). -/
def heldEarlier (pre : List Cmd) (g : Nat) : Bool :=
  pre.any fun c => c.dst.contains g || c.src.any fun r => decide (r.1 / 16 ≤ g ∧ 16 * g < r.1 + r.2)

/-- Whether a piece may be delivered now: an earlier command's granule, and one that a reclaim has still to clear (R266), hold it back. -/
def mayDeliver (k : Core) (pre : List Cmd) (p : Piece) : Bool :=
  match p.target with
  | .spad a => !heldEarlier pre (a / 16) && !beingCleared k (a / 16)
  | _ => true

/-- Write bytes at the physical addresses a command holds for a virtual address. -/
def putHeld (s : State) (c : Cmd) (va : Word) : List Byte → State
  | [] => s
  | b :: t => putHeld (putPhysByte s (requesterOf c.tenant (heldKind c va)) (heldPa c va) b) c (va + 1) t

/-- Deliver one piece: a scratchpad granule is written and becomes full (R53); what another module's memory receives leaves as flits too (R349). -/
def deliverPiece (s : State) (core : Nat) (c : Cmd) (p : Piece) : State :=
  let k := s.coreBy core
  match p.target with
  | .spad a => fillGranule (s.putCore core (spadStore k a p.bytes)) core (a / 16)
  | .scale a => s.putCore core { k with scale := putBytes k.scale a p.bytes }
  | .virt va =>
    let s := reach s { cmdSender s c true with by_ := requesterOf c.tenant (heldKind c va) } (heldRun c va p.bytes.length) p.bytes
    putHeld (healBad (markStacks s c.tenant va p.bytes.length) (heldPa c va) p.bytes.length) c va p.bytes

/-- Whether a piece is for a module to which nothing can be sent (R351). -/
def unsendable (s : State) (c : Cmd) (p : Piece) : Bool :=
  match p.target with
  | .virt va => outOfReach s (heldRun c va p.bytes.length)
  | _ => false

/-- The scratchpad granule a piece fills. -/
def pieceGranule (p : Piece) : Option Nat := match p.target with | .spad a => some (a / 16) | _ => none

/-- A command after one of its pieces. -/
def afterPiece (c : Cmd) (p : Piece) (rest : List Piece) : Cmd :=
  { c with
    out := some rest
    delivered := c.delivered + 1
    dst := match pieceGranule p with | some g => c.dst.filter fun x => decide (x ≠ g) | none => c.dst }

/-- Deliver up to `n` pieces of a command. One for a module to which nothing can be sent ends it. -/
def deliverN (core : Nat) (pre post : List Cmd) : Nat → Cmd → State → State
  | 0, _, s => s
  | n + 1, c, s =>
    match c.out with
    | some (p :: rest) =>
      if unsendable s c p then putCmd s core pre (endUnsent c) post
      else if mayDeliver (s.coreBy core) pre p then
        let c' := afterPiece c p rest
        deliverN core pre post n c' (deliverPiece (putCmd s core pre c' post) core c' p)
      else s
    | _ => s

/-- ENGINE_DELIVERY (R53, R79): the first command of the class reads its sources, or delivers its next piece. -/
def execEngineDelivery (c : CoreId) (k : EngClass) (s : State) : Out :=
  let core := coreNum c
  match splitCmds k (s.coreBy core).cmds with
  | none => .next s
  | some (pre, x, post) =>
    match x.out with
    | none => .next (readCmd s core pre x post)
    | some _ => .next (deliverN core pre post 1 x s)

/-! ### `cpym`'s product -/

/-- The mode of `cpym` (R230). -/
def cpymMode (c : Cmd) : AccMode := if cfgMode c.mcfg = 0 then .scaled else if cfgMode c.mcfg = 1 then .wrap else .saturate

/-- CPYM_PRODUCT (R239): once every granule has been delivered, A of the gather record times the copied tensor; not after an error. -/
def execCpymProduct (c : CoreId) (s : State) : Out :=
  let core := coreNum c
  match splitCmds .matrix (s.coreBy core).cmds with
  | none => .next s
  | some (pre, x, post) =>
    match x.op, x.out, x.gather with
    | .cpym .., some [], some g =>
      if x.done || clearingMeets (s.coreBy core) (x.src ++ rangesOf (tensOf x.da)) then .next s
      else if x.status ≠ 0 then .next (putCmd s core pre { x with done := true, src := [] } post)
      else
        let a := tensOf g.words
        let r := performProduct s (s.coreBy core) x (cpymMode x) a (tensOf x.da) g.pa (wholeGroup a)
        let s1 := if r.2.status = 1 then metError s x.place.did.val else s
        .next (putCmd (s1.putCore core r.1) core pre { r.2 with done := true, src := [] } post)
    | _, _, _ => .next s

/-! ### Retirement -/

/-- Whether a command has done all it does: nothing of it is left to deliver, to multiply or to be acknowledged by another module (R350). -/
def cmdDone (s : State) (c : Cmd) : Bool :=
  decide (c.out = some []) && (match c.op with | .cpym .. => c.done | _ => true) && !owesFlits s (flitKey c)

/-- `mmst.free` ends a tile's mapping when it completes (R61, R236). -/
def releaseTile (k : Core) (c : Cmd) : Core :=
  match c.op, c.tile with
  | .mmst true .., some i =>
    if k.owners[i.val] = some ⟨c.lid, c.unit, none⟩ then { k with owners := k.owners.set i.val none, tiles := k.tiles.set i.val [] } else k
  | _, _ => k

/-- The thread of a retiring command: one more retired, the flags ORed in (R76, R89). Where its context has been saved already, they belong
to that as well. -/
def retireInto (t : Thread) (k : EngClass) (flags : BitVec 5) : Thread :=
  let q := t.eng.seqs k
  { t with
    eng := t.eng.putSeqs k { q with retired := q.retired + 1 }
    sr := { t.sr with flags := t.sr.flags ||| flags }
    lat := { t.lat with late := if t.lat.saved then t.lat.late ||| flags else t.lat.late } }

/-- The completion record that stays in the inbox, where one does: an error (R77), or flags of a unit that is not bound. -/
def inboxOf (c : Cmd) (bound : Bool) : List Inbox :=
  if c.status ≠ 0 || (!bound && decide (c.flags ≠ 0)) then
    [⟨c.lid, c.unit, c.cls, c.seq, c.status, c.delivered, if bound then 0 else c.flags⟩]
  else []

/-- Count an engine command that ended with an error in its launch's record (R298). -/
def countCmdErr (s : State) (c : Cmd) : State :=
  if c.status ≠ 0 && hasLaunch s c.lid then
    let l := s.launch c.lid
    putRecorded s c.lid { l with record := { l.record with cmderr := l.record.cmderr + 1 } }
  else s

/-- Retire the first command of a class of a core (R76 to R78). A cancelled unit counts once its last one has (R300). -/
def retireCmd (s : State) (core : Nat) (pre : List Cmd) (c : Cmd) (post : List Cmd) : State :=
  let k := s.coreBy core
  let s1 := settleStops (countCmdErr (s.putCore core { releaseTile k c with cmds := pre ++ post }) c) c.lid
  match placeOfUnit s1 c.lid c.unit with
  | some p =>
    let s2 := s1.putThr p (retireInto (s1.thr p) c.cls c.flags)
    s2.withWork { s2.sys.work with inbox := s2.sys.work.inbox ++ inboxOf c true }
  | none =>
    if hasLaunch s1 c.lid && !(s1.launch c.lid).gone.contains c.unit.toNat then
      s1.withWork { s1.sys.work with inbox := s1.sys.work.inbox ++ inboxOf c false }
    else s1

/-- End the first command of a class with an error after `n` granules (R77, R78). -/
def failCmd (s : State) (core : Nat) (k : EngClass) (status : BitVec 8) (n : Nat) : State :=
  match splitCmds k (s.coreBy core).cmds with
  | none => s
  | some (pre, x, post) =>
    let s1 := deliverN core pre post (n - x.delivered) x s
    match splitCmds k (s1.coreBy core).cmds with
    | none => s1
    | some (pre, y, post) => retireCmd s1 core pre { y with status := status } post

/-- COMMAND_RETIRE (R76 to R78): a command that has done all it does retires; an error from outside ends it early. -/
def execCommandRetire (c : CoreId) (k : EngClass) (e : CmdEnd) (s : State) : Out :=
  let core := coreNum c
  match e with
  | .mcheck n => .next (failCmd s core k 1 n)
  | .tenant n => .next (failCmd s core k 3 n)
  | .ok =>
    match splitCmds k (s.coreBy core).cmds with
    | none => .next s
    | some (pre, x, post) => if cmdDone s x then .next (retireCmd s core pre x post) else .next s

end Sys2Proof.Machine
end

