-- ==== Sys2Proof/Machine/Frames.lean ====
section
/-! DEFINITION. Frames: evaluation (R132 to R134), deadlines and releases (R146, R360), the release unit's registers and clock (R357 to R359),
quality steps and re-renders (R147, R308 to R310). -/

namespace Sys2Proof.Machine

/-- The first frame when en becomes 1 (R133): the smallest index whose deadline lies at least 1 ms ahead. -/
def firstFrame (r : Release) : Nat :=
  let x : Int := r.now + 1000000 + r.tlead.toNat - baseNs r
  let q := pnum r * 1000000000
  (x.toNat * pden r + q - 1) / q

/-- The clock reads at least an instant. -/
def Release.atLeast (r : Release) (t : Int) : Release := { r with now := max r.now t.toNat }

/-! ### The error estimate (R134) -/

/-- FP32 operations with RNE on patterns. -/
def f32Add (a b : Nat) : Nat := (addVal fp32 .rne (fp32.value a) (fp32.value b)).pat
def f32Sub (a b : Nat) : Nat := (addVal fp32 .rne (fp32.value a) (fp32.value b).negate).pat
def f32Mul (a b : Nat) : Nat := (mulVal fp32 .rne (fp32.value a) (fp32.value b)).pat
def f32Rcp (a : Nat) : Nat := (divVal fp32 .rne (fp32.value 0x3F800000) (fp32.value a)).pat
def f32Abs (a : Nat) : Nat := a % 2 ^ 31

/-- min(⌈16·q⌉, 0xFFFF) of a value that is not negative. -/
def ceilQ4 (q : Nat) : Nat :=
  match fp32.value q with
  | .fin _ m e =>
    let e := e + 4
    Nat.min 0xFFFF (if 0 ≤ e then m * 2 ^ e.toNat else (m + 2 ^ (-e).toNat - 1) / 2 ^ (-e).toNat)
  | _ => 0xFFFF

/-- The parallax term. -/
def parallax (l : Layer) (p : Pose) : Nat :=
  let s := f32Add (f32Abs (f32Sub p.cx.toNat l.tx.toNat)) (f32Abs (f32Sub p.cy.toNat l.ty.toNat))
  let d := f32Sub (f32Rcp l.zmin.toNat) (f32Rcp l.zmax.toNat)
  if f32Abs d = 0 then 0 else ceilQ4 (f32Mul (f32Mul (f32Mul s p.f.toNat) d) 0x3F000000)

/-- The evaluation of one layer, and whether it posts a request. -/
def evaluateLayer (p : Pose) (pstep : Nat) (l : Layer) : Layer × Bool :=
  let age := if l.fresh then l.age else sat16 (l.age.toNat + 1)
  let mot := sat16 (age.toNat * l.vres.toNat)
  let err := sat16 (parallax l p + mot.toNat + l.lit.toNat)
  let eprice := sat16 (l.price.toNat * (4 + pstep) / 4)
  let posts := decide (l.state = 1 ∧ eprice.toNat < err.toNat)
  ({ l with fresh := false, age := age, err := err, eprice := eprice, state := if posts then 2 else l.state }, posts)

/-- Evaluate frame `n` with a pose, which enters the history (R132, R134). The requests of one evaluation join the queue in ascending layer id
(DESIGN CHOICE, log 47). -/
def evaluateFrame (s : State) (n : Nat) (p : Pose) : State :=
  let y := s.sys.layers
  let tier := y.tierNext
  let evals := y.table.map fun e => (e.1, evaluateLayer p y.pstepNext.toNat e.2)
  let posted := (evals.filter fun e => e.2.2).map fun e =>
    ({ id := BitVec.ofNat 16 e.1, err := e.2.1.err, tier := tier, graph := e.2.1.graph, frame := BitVec.ofNat 64 n } : Request)
  let s1 := s.withLayers { y with
    table := (evals.map fun e => (e.1, e.2.1)).filter fun e => !decide (e.2 = freeLayer)
    hist := ((n, p) :: y.hist).take 16
    held := sparsePut noPose y.held n noPose
    last := some n
    pstep := y.pstepNext, tier := tier, stepsDue := y.stepsDue + 1
    requests := y.requests ++ posted }
  if (heldPose y (n + 1)).isSome then { s1 with agenda := s1.agenda ++ [.frameEvaluation] } else s1

/-- The pose of the last evaluated frame, or the reset pose (R132, R133). -/
def priorPose (y : Layers) : Pose := ((y.hist.head?).map (·.2)).getD {}

/-- FRAME_EVALUATION: of the next frame, when its pose is held; or when the release clock has reached its deadline, with the pose of
the frame before (R132). -/
def execFrameEvaluation (s : State) : Out :=
  match s.sys.rel.en, s.sys.layers.last with
  | true, some l =>
    let n := (l + 1).toNat
    match heldPose s.sys.layers n with
    | some p => .next (evaluateFrame s n p)
    | none =>
      if deadline s.sys.rel n ≤ s.sys.rel.now then .next (evaluateFrame s n (priorPose s.sys.layers))
      else .next s
  | _, _ => .next s

/-! ### Deadlines and releases (R146, R360) -/

/-- A frame that has not been evaluated at its deadline is. -/
def evaluateAtDeadline (s : State) (m : Nat) : State :=
  if s.sys.layers.last = some ((m : Int) - 1) then
    evaluateFrame s m ((heldPose s.sys.layers m).getD (priorPose s.sys.layers))
  else s

/-- A frame without a buffer: the miss is counted, and the last released buffer is streamed again (R146). DESIGN CHOICE (log 47): that is the buffer
of the last frame that has left when the deadline passes; where tlead is longer than the period, a frame accepted before it may not have left. -/
def missFrame (s : State) (m : Nat) : State :=
  let r := s.sys.rel
  let again : List DueFrame := match r.lastBuf with | some b => [⟨m, b, true⟩] | none => []
  let s := s.withRel { r with miss := r.miss + 1, due := r.due ++ again }
  let s := s.withLayers { s.sys.layers with missed := true, good := 0 }
  raiseVector s 16 1

/-- Whether a buffer handed over left the margin of the period to spare: a quarter, unless the host has set another (R310, log 32). -/
def hadSpare (s : State) (b : FrameBuf) : Bool :=
  decide ((pnum s.sys.rel * 1000000000 * s.sys.layers.margin : Nat) ≤ b.left * (pden s.sys.rel * 256 : Nat))

/-- A frame with a buffer is to leave: it has not missed, and it is counted where it had time to spare (R310). -/
def dueFrame (s : State) (m : Nat) (b : FrameBuf) : State :=
  let r := s.sys.rel
  let y := s.sys.layers
  let s := s.withLayers { y with missed := false, good := if hadSpare s b then y.good + 1 else 0 }
  s.withRel { r with due := r.due ++ [⟨m, b, false⟩], handed := sparsePut {} r.handed m {} }

/-- FRAME_DEADLINE: of the next frame. -/
def execFrameDeadline (s : State) : Out :=
  match s.sys.rel.en, s.sys.rel.passed with
  | true, some k =>
    let m := (k + 1).toNat
    let s1 := s.withRel { s.sys.rel.atLeast (deadline s.sys.rel m) with passed := some m }
    let s2 := evaluateAtDeadline s1 m
    .next (match handedBuffer s2.sys.rel m with
      | some b => dueFrame s2 m b
      | none => missFrame s2 m)
  | _, _ => .next s

/-- Bytes of one line: octets and pixels of an ST 2110-20 pixel group (R357, log 33). -/
def lineBytes (samp width : Nat) : Nat :=
  let groups (px : Nat) : Nat := (width + px - 1) / px
  if samp = 0 then 5 * groups 2 else if samp = 1 then 15 * groups 4 else if samp = 2 then 9 * groups 2 else 3 * width

/-- The physical address of a byte of a frame buffer, where the release unit can reach it. -/
def streamPa (s : State) (b : FrameBuf) (o : Nat) : Option Nat :=
  match translate s b.tenant true .read (b.va + BitVec.ofNat 64 o) with
  | .ok (pa, _) => some pa
  | .error _ => none

/-- A byte of a frame buffer as the release unit reads it; one that it cannot read is free (log 33). -/
def streamByte (s : State) (b : FrameBuf) (o : Nat) : Byte :=
  match streamPa s b o with
  | some pa => if anyBad s pa 1 then (Config.freeWord (s.fresh + o)).setWidth 8 else physByte s pa
  | none => (Config.freeWord (s.fresh + o)).setWidth 8

/-- The offsets of the bytes of line `l` in a frame buffer (R357). -/
def lineOffsets (r : Release) (l : Nat) : List Nat := (List.range (lineBytes (fmtSamp r) (fmtWidth r))).map fun i => l * fmtPitch r + i

/-- Line `l` of a frame buffer (R357). -/
def streamLine (s : State) (b : FrameBuf) (l : Nat) : List Byte := (lineOffsets s.sys.rel l).map (streamByte s b)

/-- FRAME_RELEASE: the first packet of the next frame leaves at T(n), and the frame is streamed (R357), with the registers as they stand then,
also the frame in progress after en has been cleared (DESIGN CHOICE, log 47). A frame with an uncorrectable error in it is counted (R376). -/
def execFrameRelease (s : State) : Out :=
  let r := s.sys.rel
  match r.due with
  | [] => .next s
  | d :: rest =>
    let out : Streamed := ⟨d.frame, r.ports, (List.range (fmtHeight r)).map (streamLine s d.buf)⟩
    let r := { r.atLeast (releaseTime r d.frame) with due := rest, streamed := r.streamed ++ [out] }
    let read := ((List.range (fmtHeight r)).map (lineOffsets r)).flatten.filterMap (streamPa s d.buf)
    let u := agentReads (agentWalks s d.buf.tenant d.buf.va (frameBytes r)) (requesterAt s d.buf.tenant d.buf.va) read
    let s : State := { u with fresh := s.fresh + frameBytes r }
    .next (s.withRel (if d.again then r else { r with last := BitVec.ofNat 64 d.frame, lastBuf := some d.buf }))

/-! ### Registers (R133, R359) -/

/-- Whether setting en is refused. -/
def enableRefused (r : Release) : Bool :=
  decide (pnum r = 0 ∨ pden r < 24 * pnum r ∨ 240 * pnum r < pden r) || decide (3 < fmtSamp r)
    || decide (fmtPitch r < lineBytes (fmtSamp r) (fmtWidth r)) || decide (r.ports = 0)

/-- RELEASE_ENABLE, some nanoseconds after the release clock was last read (R133). Clearing en stops the stream after the frame in progress, which is
the frame that the unit is reading: the first of those whose deadline has passed (DESIGN CHOICE, log 47). -/
def execReleaseEnable (x : EnableWrite) (s : State) : Out :=
  let r := s.sys.rel
  if !x.word.getLsbD 0 then .next (s.withRel { r with en := false, due := if r.en then r.due.take 1 else r.due })
  else if r.en then .next s
  else if enableRefused r then .next (s.withRel { r with err := true })
  else
    let r := { r with now := r.now + x.elapsed }
    let k : Int := (firstFrame r : Int) - 1
    let s := s.withRel { r with en := true, passed := some k, handed := [], due := [], lastBuf := none }
    .next (s.withLayers { s.sys.layers with last := some k, hist := [], held := [], good := 0, stepsDue := 0 })

/-- RELEASE_CONFIG_WRITE. -/
def execReleaseConfigWrite (f : RelField) (v : Word) (s : State) : Out :=
  let r := s.sys.rel
  if r.en then .next (s.withRel { r with err := true })
  else .next (s.withRel (match f with
    | .bases => { r with bases := v.setWidth 48 }
    | .basens => { r with basens := v.setWidth 30 }
    | .period => { r with period := v }
    | .tlead => { r with tlead := v.setWidth 32 }
    | .format => { r with format := v &&& 0xFFFFFFFFF0FFFFFF }))

/-- PTP_SYNC (R358): the release clock is corrected by its offset from the master; in lock after 16 offsets under 20 ns. -/
def execPtpSync (off : Int) (s : State) : Out :=
  let r := s.sys.rel
  let good := if off.natAbs < 20 then r.goodSyncs + 1 else 0
  .next (s.withRel { r with
    offset := off, goodSyncs := good, lock := decide (16 ≤ good), hold := false, now := ((r.now : Int) - off).toNat })

/-- HOLDOVER (R358): no valid master has been heard; the clock runs on its last correction. DESIGN CHOICE (log 47): the clock is then not in lock,
and the 16 Sync messages count anew; the next Sync message ends the holdover. -/
def execHoldover (s : State) : Out := .next (s.withRel { s.sys.rel with hold := true, lock := false, goodSyncs := 0 })

/-! ### Quality (R147, R309, R310) -/

/-- The quality step after a frame; `behind` is whether the work outstanding exceeds the time left. One missed frame raises it once, and a
change begins the count of frames with time to spare anew (DESIGN CHOICE, log 32). -/
def nextQuality (y : Layers) (behind : Bool) : Layers :=
  let set (k : Nat) : Layers :=
    { y with quality := BitVec.ofNat 4 k, good := 0, missed := false, pstepNext := BitVec.ofNat 4 k, tierNext := BitVec.ofNat 3 (7 - k / 2) }
  let k := y.quality.toNat
  if y.missed || behind then set (Nat.min 15 (k + 1))
  else if y.spareCount ≤ y.good then set (k - 1)
  else y

/-- The nanoseconds left until D(n + 1), `elapsed` of them after the release unit's clock was last read. -/
def timeLeft (s : State) (n elapsed : Nat) : Int := deadline s.sys.rel (n + 1) - (s.sys.rel.now + elapsed : Nat)

/-- QUALITY_STEP: after each frame's evaluation, of the earliest one whose step is due. `work` is the forester's prediction of the work outstanding, in nanoseconds (log 32). -/
def execQualityStep (work elapsed : Nat) (s : State) : Out :=
  let y := s.sys.layers
  match y.stepsDue, y.last with
  | m + 1, some n =>
    let y := { y with stepsDue := m }
    .next (s.withLayers
      (if y.pinned then { y with missed := false } else nextQuality y (decide (timeLeft s (n - (m : Int)).toNat elapsed < work))))
  | _, _ => .next s

/-- Admit one launch of a render graph as a member of the graph with a tag (R309; log 32). DESIGN CHOICE (log 23): one for whose clearing map
there is no room is refused, as nothing holds it until there is. -/
def admitRender (tier : BitVec 3) (cls : BitVec 2) (job tag : Nat) (s : State) (r : LaunchRec) : State :=
  let t := BitVec.ofNat 4 (recTenant r)
  let lid := BitVec.ofNat 32 s.sys.work.nextLid
  let data := launchData s r
  let s := dataRead s r
  let s := s.withWork { s.sys.work with nextLid := s.sys.work.nextLid + 1 }
  let refused := writeRefused s t none lid (recUnits r)
  match data with
  | some (b, ts) =>
    if !recordOk r || !tenantServed s t || decide (2 ^ 28 < grainCount b ∨ t ≠ jobTenant job) then refused
    else
      let l := launchOf s r lid job (s.job job).current tier none b ts
      let l := { l with cls := cls, graph := tag, waits := waitedFor r ((s.job job).graph tag).members }
      match mapPlace s l with
      | some at_ => admitLaunch s l at_
      | none => refused
  | none => refused

/-- The class of a render graph: 1 where D(n + 1) lies closer than its declared run time plus 0.5 ms (R309). -/
def graphClass (s : State) (elapsed : Nat) (q : Request) (g : RenderGraph) : BitVec 2 :=
  if timeLeft s q.frame.toNat elapsed < g.runTime + 500000 then 1 else 2

/-- RERENDER_REQUEST (R308, R309): the oldest request is taken, and its render graph launched, if it has one. -/
def execRerenderRequest (elapsed : Nat) (s : State) : Out :=
  let y := s.sys.layers
  match y.requests with
  | [] => .next s
  | q :: rest =>
    let s1 := s.withLayers { y with requests := rest }
    let g := sparseGet {} y.graphs q.graph.toNat
    if q.graph = 0 ∨ g.records = [] then .next s1
    else
      let job := (s.layer q.id.toNat).tenant.toNat * 16
      let tag := 65536 + s.sys.work.nextLid
      let s2 := g.records.foldl (admitRender q.tier (graphClass s elapsed q g) job tag) s1
      let x := s2.job job
      .next (if (x.graph tag).record.expect = 0 then s2 else s2.putJob job (x.putGraph tag { x.graph tag with closed := true }))

end Sys2Proof.Machine
end

