-- ==== Sys2Proof/Machine/Host.lean ====
section
/-! DEFINITION. Page walks (R336), inbound writes (R340, R365), launch rings, collective sets and alias apertures (R342 to R348). -/

namespace Sys2Proof.Machine

/-! ### Page walks -/

/-- PAGE_WALK (R336): the TLBs of the core in focus and of its die hold the leaf; a walk that fails caches nothing. The core has work, so it
wakes (R372). -/
def execPageWalk (tn : Fin 16) (va : Word) (s : State) : Out :=
  let s := wakeCore s s.hereCore
  .next (if canonical va && (localAddr va).isNone then fillTlb s (BitVec.ofNat 4 tn.val) va else s)

/-! ### Inbound requests (R340) -/

/-- The virtual address that an offset of a virtual function's BAR2 names. -/
def b2Address (s : State) (f off : Nat) : Word := sparseGet 0 s.sys.host.b2va f + BitVec.ofNat 64 off

/-- Whether the PF's BAR2 addresses the staging region: in recovery, and while the boot ROM waits for a push (R362, R363). -/
def staging (s : State) : Bool := decide (s.sys.boot.state = 4) || (decide (s.sys.boot.state = 1) && s.sys.boot.fromHost)

/-- Bytes that BAR2 of a function spans: a power of two from 1 GiB to 64 GiB (R338, log 34). -/
def bar2Size (s : State) (f : Nat) : Nat := 2 ^ (30 + Nat.min 6 (sparseGet 6 s.sys.host.bar2 f))

/-- The physical addresses of an inbound request that BAR2 takes, or none where it fails: a virtual function's is a user access of its tenant,
the PF's offset is the physical address (log 34), or one in the staging region. -/
def inboundRun (s : State) (f : Nat) (acc : Access) (off n : Nat) : Option (List Nat) :=
  if f < 16 then
    match physRun s (BitVec.ofNat 4 f) false acc (b2Address s f off) none n with
    | .ok pas => some pas
    | .error _ => none
  else if staging s then (if off + n ≤ stageSize then some (runFrom (stagingPa s + off) n) else none)
  else
    let pas := runFrom off n
    if pas.any fun pa => decide (homeOf s pa = .none) then none else some pas

/-- The walks of an inbound request of a virtual function (R337, R340). -/
def inboundWalks (s : State) (f off n : Nat) : State := if f < 16 then agentWalks s (BitVec.ofNat 4 f) (b2Address s f off) n else s

/-- Answer an inbound read: the bytes, or none for Unsupported Request. -/
def reply (s : State) (bs : List Byte) : State :=
  { s.withHost { s.sys.host with replies := s.sys.host.replies ++ [bs] } with fresh := s.fresh + 1 }

/-- The attributes with which an inbound write goes on to a port, where it meets the host aperture (R341, log 34). -/
def inboundRequester (s : State) (f off : Nat) : Requester := if f < 16 then requesterAt s (BitVec.ofNat 4 f) (b2Address s f off) else {}

/-- Count a discarded inbound write. -/
def countDrop (s : State) (f : Nat) : State :=
  s.withHost { s.sys.host with b2drop := sparsePut 0 s.sys.host.b2drop f (sparseGet 0 s.sys.host.b2drop f + 1) }

/-- INBOUND_WRITE (R340, R365), of 1 to 512 bytes (R338) that BAR2 takes: in arrival order, whole or not at all. -/
def execInboundWrite (f : Fin 17) (off : Nat) (bs : List Byte) (s : State) : Out :=
  if bs.length = 0 ∨ 512 < bs.length ∨ bar2Size s f.val < off + bs.length then .next s
  else match inboundRun s f.val .write off bs.length with
    | some pas => .next (storeRun (metWriting (inboundWalks s f.val off bs.length) pas) (inboundRequester s f.val off) pas bs)
    | none => .next (countDrop (inboundWalks s f.val off bs.length) f.val)

/-! ### Registers of a function -/

/-- B2VA_WRITE (R340): only of a virtual function (R339), and only 1 GiB aligned. -/
def execB2vaWrite (f : Fin 17) (v : Word) (s : State) : Out :=
  .next (if f.val < 16 ∧ v.toNat % 2 ^ 30 = 0 then s.withHost { s.sys.host with b2va := sparsePut 0 s.sys.host.b2va f.val v } else s)

/-- HAPBASE_WRITE (R341): only 1 TiB aligned. -/
def execHapbaseWrite (v : Word) (s : State) : Out :=
  .next (if v.toNat % 2 ^ 40 = 0 then s.withHost { s.sys.host with hapbase := v } else s)

/-! ### Launch rings (R342) -/

/-- Note a refused write. -/
def ringError (s : State) (j : Nat) : State := s.putRing j { s.ring j with err := true }

/-- TAIL_WRITE: the entries that the tail passes are requested, with the module's tier (R147). -/
def execTailWrite (j : JobId) (v : BitVec 32) (s : State) : Out :=
  let r := s.ring (jobNum j)
  .next (if 2 ^ r.lsize.toNat < (v - r.head).toNat then ringError s (jobNum j) else s.putRing (jobNum j) { r with
    tail := v, tiers := if v = r.tail then r.tiers else r.tiers ++ [(v, s.sys.layers.tier)] })

/-- RING_ENABLE: bit 6 of the control register. Enabling begins the ring's job, with phases counted from 0 (R345). -/
def execRingEnable (j : JobId) (v : Word) (s : State) : Out :=
  let n := jobNum j
  let r := s.ring n
  if !v.getLsbD 6 then .next (s.putRing n { r with en := false })
  else if r.en then .next s
  else if r.lsize.toNat < 6 ∨ 16 < r.lsize.toNat ∨ r.gbase = 0 then .next (ringError s n)
  else .next ((s.putRing n { r with en := true }).putJob n { tenant := jobTenant n })

/-- RING_CONFIG_WRITE: a guarded field, from its place in its register. -/
def execRingConfigWrite (j : JobId) (f : RingField) (v : Word) (s : State) : Out :=
  let n := jobNum j
  let r := s.ring n
  if r.en then .next (ringError s n)
  else .next (s.putRing n (match f with
    | .rbase => { r with rbase := v &&& 0xFFFFFFFFFFFFF000 }
    | .lsize => { r with lsize := v.setWidth 5 }
    | .cbase => { r with cbase := v &&& 0xFFFFFFFFFFFFFFE0 }
    | .gbase => { r with gbase := v &&& 0xFFFFFFFFFFFFFFE0 }))

/-! ### Collective sets (R346) -/

/-- Whether a launch that names a set is live. -/
def setInUse (s : State) (vf k : Nat) : Bool :=
  s.sys.work.launches.any fun e => decide (e.2.tenant.toNat = vf ∧ e.2.cset = k) && !e.2.record.done

/-- Zero every residual of a set (R356). -/
def clearResiduals (s : State) (vf k : Nat) : State :=
  s.withSys { s.sys with resids := s.sys.resids.filter fun r => !decide (r.vf = vf ∧ r.set = k) }

/-- The commands of a set are counted anew, and what has come for it is dropped (log 25). -/
def restartKeys (s : State) (vf k : Nat) : State :=
  s.withSys { s.sys with
    keys := s.sys.keys.filter fun x => !decide (x.vf = vf ∧ x.set = k)
    peers := s.sys.peers.filter fun x => !decide (x.vf = vf ∧ x.set = k) }

/-- COLLECTIVE_SET_WRITE: of sets 1 to 255. DESIGN CHOICE (log 25): a set that is not valid has no commands; the commands of one that becomes
valid are counted from its first. -/
def execCollectiveSetWrite (vf : Fin 16) (k : Fin 256) (v : Word) (s : State) : Out :=
  let old := sparseGet {} s.sys.csets (vf.val * 256 + k.val)
  let new : CollSet := { valid := v.getLsbD 63, members := v.setWidth 16 }
  if k.val = 0 ∨ (new.members ≠ old.members ∧ setInUse s vf.val k.val = true) then .next s
  else
    let s1 := s.withSys { s.sys with csets := sparsePut {} s.sys.csets (vf.val * 256 + k.val) new }
    let s1 := if new.valid then s1 else restartKeys s1 vf.val k.val
    .next (if v.getLsbD 16 then clearResiduals s1 vf.val k.val else s1)

/-- CLR: the clr bit of a set. -/
def execClr (vf : Fin 16) (k : Fin 256) (s : State) : Out := .next (if k.val = 0 then s else clearResiduals s vf.val k.val)

/-! ### Alias apertures (R348) -/

/-- The aperture of a die by its number. -/
def State.aperture (s : State) (n : Nat) : Aperture := sparseGet {} s.sys.apertures n

/-- Replace an aperture. -/
def State.putAperture (s : State) (n : Nat) (a : Aperture) : State :=
  s.withSys { s.sys with apertures := sparsePut {} s.sys.apertures n a }

/-- The bytes from the source base to the end of the last source row. -/
def Aperture.reach (a : Aperture) : Nat := (128 * a.nbr.toNat - 1) * a.pitch.toNat + 128 * a.nbc.toNat * a.elem

/-- Whether a physical range lies in memory: in the canopy or in the LPDDR 6 of one module (R332). -/
def rangeInMemory (a n : Nat) : Bool :=
  decide (a % 2 ^ 48 + n ≤ 0xC00000000) || decide (0x1000000000 ≤ a % 2 ^ 48 ∧ a % 2 ^ 48 + n ≤ 0x9000000000)

/-- Whether enabling is refused. -/
def apertureRefused (a : Aperture) : Bool :=
  decide (2 ^ 30 < a.cover) || decide (a.src = 0 ∨ a.nbc = 0 ∨ a.pitch = 0 ∨ a.nbr = 0 ∨ a.esize = 0 ∨ a.esize = 3)
    || !rangeInMemory a.src.toNat a.reach

/-- APERTURE_ENABLE: bit 63 of the register. -/
def execApertureEnable (d : Fin 16) (a : Fin 8) (v : Word) (s : State) : Out :=
  let n := d.val * 8 + a.val
  let x := s.aperture n
  .next (if v.getLsbD 63 then (if x.en || apertureRefused x then s else s.putAperture n { x with en := true })
    else s.putAperture n { x with en := false })

/-- APERTURE_CONFIG_WRITE: a field, from its place in its register. -/
def execApertureConfigWrite (d : Fin 16) (a : Fin 8) (f : ApField) (v : Word) (s : State) : Out :=
  let n := d.val * 8 + a.val
  let x := s.aperture n
  if x.en then .next s
  else .next (s.putAperture n (match f with
    | .src => { x with src := v.setWidth 52 }
    | .pitch => { x with pitch := v.setWidth 32 }
    | .nbc => { x with nbc := (v >>> 32).setWidth 16 }
    | .nbr => { x with nbr := (v >>> 16).setWidth 16 }
    | .esize => { x with esize := v.setWidth 2 }))

end Sys2Proof.Machine
end

