-- ==== Sys2Proof/Machine/Firmware.lean ====
section
/-! DEFINITION. Boot and recovery (R361 to R363), the mailbox and its commands (R370, R371): updates and attestation (R378, R379), tenants
(R304, R306, R380), copy-core routines (R307), core supervisors (R314). -/

namespace Sys2Proof.Machine

/-! ### Images (R361, R362) -/

/-- A number in an image, little-endian, from an offset and a size. -/
def imageField (img : List Byte) (off n : Nat) : Nat := ofBytes ((img.drop off).take n)

/-- The security version of an image. -/
def imageVersion (img : List Byte) : Nat := imageField img 0x010 8

/-- The payload of an image. -/
def imagePayload (img : List Byte) : List Byte := (img.drop 0x1000).take (imageField img 0x008 8)

/-- The digest of an image: over bytes 0x000 to 0x77F and the payload. -/
def imageDigest (img : List Byte) : List Byte := Config.shake256 (img.take 0x780 ++ imagePayload img)

/-- Whether magic and header are right: the version, the payload's length within the image, the reserved bytes and the signature's length. -/
def headerOk (img : List Byte) : Bool :=
  decide (0x1000 + imageField img 0x008 8 ≤ img.length ∧ imageField img 0x000 4 = 0x49464D4C ∧ imageField img 0x004 4 = 1
    ∧ imageField img 0x018 40 = 0 ∧ imageField img 0x741 63 = 0 ∧ imageField img 0x780 2 ≤ 1662)

/-- Verification (R362 step 3): the cause of a failure, or none. -/
def imageCause (img : List Byte) (fusedMin : Nat) : Option (BitVec 8) :=
  let key := (img.drop 0x040).take 1793
  if !headerOk img then some 1
  else if Config.shake256 key ≠ Config.fusedKeyHash then some 2
  else if imageVersion img < fusedMin then some 3
  else if !Config.falconVerify key (imageDigest img) ((img.drop 0x782).take (imageField img 0x780 2)) then some 4
  else none

/-! ### Boot (R362, R363) -/

/-- Replace the boot state. -/
def State.withBoot (s : State) (b : Boot) : State := s.withSys { s.sys with boot := b }

/-- The boot status changes, which raises PF vector 0. -/
def bootState (s : State) (v : BitVec 4) (cause : BitVec 8) : State :=
  raiseVector (s.withBoot { s.sys.boot with state := v, cause := cause }) 16 0

/-- The bytes of a forester's private SRAM (R2). -/
def sramSize : Nat := 524288

/-- A forester whose SRAM holds bytes from its first address on. A payload that is longer is cut at the end of the SRAM (DESIGN CHOICE,
log 22). -/
def loadSram (f : Forester) (bs : List Byte) : Forester :=
  { f with sram := ((bs.take sramSize).mapIdx fun i b => (i, b)).foldl (fun m x => sparsePut 0 m x.1 x.2) f.sram }

/-- The payload is copied to the forester of every die (R362), to the first address of its SRAM (DESIGN CHOICE, log 22). -/
def copyPayload (s : State) (img : List Byte) : State :=
  let fs := (List.range 16).foldl (fun m d => sparsePut {} m d (loadSram (sparseGet {} m d) (imagePayload img))) s.sys.foresters
  s.withSys { s.sys with boot := { s.sys.boot with image := img }, foresters := fs }

/-- Steps 3 and 4 on an image: it runs, or the ROM enters recovery. -/
def verifyAndRun (s : State) (img : List Byte) : State :=
  let s := bootState s 2 0
  match imageCause img s.sys.boot.fusedMin with
  | some c => bootState s 4 c
  | none => bootState (copyPayload s img) 3 0

/-- The image in flash. -/
def flashOf (b : Boot) : List Byte := b.flash.getD Config.flashImage

/-- The module after a reset or a loss of power: as at first, but for the flash and the fuses (R361, R362, R378; log 2). The steps listed and
the free values used stay the model's own. -/
def powerCycle (s : State) : State :=
  { State.reset with
    agenda := s.agenda
    fresh := s.fresh
    sys := { State.reset.sys with boot := { flash := s.sys.boot.flash, fusedMin := s.sys.boot.fusedMin } } }

/-- BOOT: from flash, or, where the boot strap selects the host, waiting for a push. A module that has left reset is reset first. -/
def execBoot (fromHost : Bool) (s : State) : Out :=
  let s := if s.sys.boot.state = 0 then s else powerCycle s
  let s1 := bootState (s.withBoot { s.sys.boot with fromHost := fromHost }) 1 0
  .next (if fromHost then s1 else verifyAndRun s1 (flashOf s1.sys.boot))

/-- The staged image. DESIGN CHOICE (log 22): its length is that of the register at PF 0x020, which the host may write after the stage. -/
def stagedImage (s : State) : List Byte := (runFrom (stagingPa s) s.sys.boot.stageLen).map (inboundByte s)

/-- The staged image is read where it lies (R372, R376). -/
def imageRead (s : State) : State := agentReads s {} (runFrom (stagingPa s) s.sys.boot.stageLen)

/-- RECOVERY_PUSH: the length is written, and bit 63 starts the ROM. -/
def execRecoveryPush (len : Nat) (s : State) : Out :=
  let b := s.sys.boot
  if staging s = false ∨ stageSize < len then .next s
  else
    let s1 := s.withBoot { b with stageLen := len }
    .next (verifyAndRun (imageRead s1) (stagedImage s1))

/-! ### The mailbox (R370) -/

/-- Replace the mailbox. -/
def State.withMail (s : State) (m : Mailbox) : State := s.withSys { s.sys with mail := m }

/-- Write arguments from `arg0` on. -/
def putArgs (m : Mailbox) (as : List Word) : Mailbox :=
  { m with args := Vector.ofFn fun i : Fin 32 => (as[i.val]?).getD m.args[i.val] }

/-- A command ends with a result and a detail. -/
def mailDone (s : State) (result : BitVec 8) (detail : BitVec 16 := 0) : State :=
  s.withMail { s.sys.mail with busy := false, waits := none, result := result, detail := detail }

/-- Results of R370. -/
def resDone : BitVec 8 := 0x00
def resBusy : BitVec 8 := 0x01
def resBad : BitVec 8 := 0x02
def resVerify : BitVec 8 := 0x03
def resNotPermitted : BitVec 8 := 0x04

/-- A command in progress that waits. -/
def mailWait (s : State) (w : MailWait) : State := s.withMail { s.sys.mail with busy := true, waits := some w }

/-- The host has written the arguments and op and then go: ignored while a command is in progress, which sets the result. The head forester
takes commands once it runs the image (R362). -/
def mailCommand (op : BitVec 16) (as : List Word) (s : State) (f : State → State) : Out :=
  if !foresters s then .next s
  else if s.sys.mail.busy then .next (s.withMail { s.sys.mail with result := resBusy })
  else .next (f (s.withMail { putArgs s.sys.mail as with op := op }))

/-- SET_POWER_CAP (R374). -/
def execSetPowerCap (watts : Word) (s : State) : Out :=
  mailCommand 0x0001 [watts] s fun s =>
    if 1000 ≤ watts.toNat ∧ watts.toNat ≤ 5600 then mailDone (s.withMail { s.sys.mail with cap := watts.toNat }) resDone
    else mailDone s resBad

/-! ### Tenants (R304, R306, R380) -/

/-- A rectangle as a tenant command gives it. -/
structure Rect where
  x : Nat
  y : Nat
  w : Nat
  h : Nat
  deriving DecidableEq, Repr

/-- The rectangle of an argument. -/
def rectOf (v : Word) : Rect := ⟨bitsOf v 7 0, bitsOf v 15 8, bitsOf v 23 16, bitsOf v 31 24⟩

/-- Multiples of 4 inside the grid. -/
def rectInGrid (r : Rect) : Bool :=
  decide (r.x % 4 = 0 ∧ r.y % 4 = 0 ∧ r.w % 4 = 0 ∧ r.h % 4 = 0 ∧ r.x + r.w ≤ 64 ∧ r.y + r.h ≤ 64)

/-- Whether a rectangle and a tenant's have a core in common. -/
def overlaps (r : Rect) (t : Tenant) : Bool :=
  t.live && decide (r.x < t.x0 + t.w ∧ t.x0 < r.x + r.w ∧ r.y < t.y0 + t.h ∧ t.y0 < r.y + r.h)

/-- Whether a tenant may have a rectangle. -/
def rectAllowed (s : State) (tn : Nat) (r : Rect) : Bool :=
  rectInGrid r && (List.range 16).all fun k => decide (k = tn) || !overlaps r (sparseGet {} s.sys.tenants k)

/-- Replace a tenant. -/
def State.putTenant (s : State) (tn : Nat) (t : Tenant) : State :=
  s.withSys { s.sys with tenants := sparsePut {} s.sys.tenants tn t }

/-- A tenant by its number. -/
def tenantNum (s : State) (tn : Nat) : Tenant := sparseGet {} s.sys.tenants tn

/-- The root table that the forester sets for a new tenant (R331): 64 KiB aligned, in canopy, apart from what is in use while
there is room (log 23). -/
def newRoot (s : State) (tn : Nat) : Nat :=
  let named := s.sys.host.mid.toNat * 2 ^ 48 + Config.rootBase tn s.fresh % 0xC0000 * 65536
  (placeCanopy s 65536 named 65536).getD named

/-- CREATE_TENANT. -/
def execCreateTenant (tn rect : Word) (s : State) : Out :=
  mailCommand 0x0010 [tn, rect] s fun s =>
    let n := tn.toNat
    let r := rectOf rect
    let old := tenantNum s n
    if 16 ≤ n ∨ old.live = true ∨ rectAllowed s n r = false then mailDone s resBad
    else
      let t := { old with live := true, x0 := r.x, y0 := r.y, w := r.w, h := r.h, root := some (newRoot s n) }
      mailDone { s.putTenant n t with fresh := s.fresh + 1 } resDone

/-- Whether a launch of a tenant that is live has a core that a rectangle leaves out. -/
def launchOutside (s : State) (tn : Nat) (r : Rect) : Bool :=
  s.sys.work.launches.any fun e => decide (e.2.tenant.toNat = tn)
    && e.2.mesh.any fun c => !inRect { live := true, x0 := r.x, y0 := r.y, w := r.w, h := r.h } c

/-- Give a tenant its new rectangle. -/
def putRect (s : State) (tn : Nat) (r : Rect) : State :=
  s.putTenant tn { tenantNum s tn with x0 := r.x, y0 := r.y, w := r.w, h := r.h }

/-- RESIZE_TENANT: cores are given up once no launch of the tenant is left on them. -/
def execResizeTenant (tn rect : Word) (s : State) : Out :=
  mailCommand 0x0011 [tn, rect] s fun s =>
    let n := tn.toNat
    let r := rectOf rect
    if 16 ≤ n ∨ (tenantNum s n).live = false ∨ rectAllowed s n r = false then mailDone s resBad
    else if launchOutside s n r then mailWait s (.resize n r.x r.y r.w r.h)
    else mailDone (putRect s n r) resDone

/-- Whether a tenant has a launch left, admitted or requested by a unit (R380). -/
def tenantBusy (s : State) (tn : Nat) : Bool :=
  (s.sys.work.launches.any fun e => decide (e.2.tenant.toNat = tn))
    || s.sys.work.deviceQ.any fun e => e.2.any fun q => decide ((jobTenant q.job).toNat = tn)

/-- A tenant is gone: its bitmaps are cleared, and its translations invalidated as by `tlbinv.tenant` (R306). -/
def removeTenant (s : State) (tn : Nat) : State :=
  let s := s.putTenant tn { tenantNum s tn with live := false, x0 := 0, y0 := 0, w := 0, h := 0, root := none }
  dropTlb s fun e => decide (e.tenant.toNat = tn)

/-- DESTROY_TENANT: after every launch has ended; or, without draining, the bitmaps are cleared and the launches cancelled at once. -/
def execDestroyTenant (tn : Word) (noDrain : Bool) (s : State) : Out :=
  mailCommand 0x0012 [tn, if noDrain then 1 else 0] s fun s =>
    let n := tn.toNat
    if 16 ≤ n ∨ (tenantNum s n).live = false then mailDone s resBad
    else
      let s := if noDrain then
          cancelWhere (cancelRequests (s.putTenant n { tenantNum s n with live := false })
            fun q => decide ((jobTenant q.job).toNat = n)) fun l => decide (l.tenant.toNat = n)
        else s
      if tenantBusy s n then mailWait s (.destroy n) else mailDone (removeTenant s n) resDone

/-- The instruction caches of the cores of a tenant's rectangle are emptied. -/
def emptyCaches (s : State) (t : Tenant) : State :=
  { s with
    core := if inRect t s.hereCore then { s.core with icache := [] } else s.core
    cores := sparseMap {} (fun c k => if inRect t c then { k with icache := [] } else k) s.cores }

/-- SET_CORE_SUPERVISOR (R314): the register of every die. -/
def execSetCoreSupervisor (tn entry : Word) (s : State) : Out :=
  mailCommand 0x0041 [tn, entry] s fun s =>
    if 16 ≤ tn.toNat then mailDone s resBad
    else
      let t := tenantNum s tn.toNat
      mailDone (emptyCaches (s.putTenant tn.toNat { t with entry := entry ||| 1 }) t) resDone

/-! ### Copy-core routines (R307) -/

/-- Whether a `cpyx` with an index is in flight on a grove. -/
def routineInUse (s : State) (grove idx : Nat) : Bool :=
  (allCommands s).any fun c =>
    (match c.op with | .cpyx .. => true | _ => false)
      && decide (coreNum (placeCore c.place) / 16 = grove ∧ c.xcfg.toNat / 2 ^ 24 = idx)

/-- Load a routine on the groves where its index is not in use. -/
def loadRoutine (s : State) (idx : Nat) (id : Word) (groves : List Nat) : State :=
  let free := groves.filter fun g => !routineInUse s g idx
  s.withMail { s.sys.mail with
    routines := free.foldl (fun m g => sparsePut 0 m (g * 256 + idx) id) s.sys.mail.routines }

/-- The groves of a tenant's rectangle. -/
def rectGroves (t : Tenant) : List Nat := ((rectCores t).filter fun c => decide (c % 16 = 0)).map (· / 16)

/-- Load what can be loaded; the command is done when no grove is left. -/
def goOnLoading (s : State) (idx : Nat) (id : Word) (groves : List Nat) : State :=
  let rest := groves.filter fun g => routineInUse s g idx
  let s := loadRoutine s idx id groves
  if rest.isEmpty then mailDone s resDone else mailWait s (.routine idx id rest)

/-- LOAD_COPY_CORE_ROUTINE: the image is named by a number of its own (log 21). -/
def execLoadCopyCoreRoutine (img idx tn : Word) (s : State) : Out :=
  mailCommand 0x0040 [img, idx, tn] s fun s =>
    if 0xEF < idx.toNat ∨ 16 ≤ tn.toNat ∨ (tenantNum s tn.toNat).live = false then mailDone s resBad
    else
      goOnLoading { s with fresh := s.fresh + 1 } idx.toNat (BitVec.ofNat 64 (s.fresh + 1)) (rectGroves (tenantNum s tn.toNat))

/-! ### Updates and attestation (R378, R379) -/

/-- Bytes of host memory at a bus address, which are not the module's (log 13). -/
def busBytes (s : State) (bus : Nat) (n : Nat) : List Byte := (List.range n).map fun i => Config.hostByte (bus + i) s.fresh

/-- What verification found, as the result of a command. -/
def mailVerified (s : State) (c : Option (BitVec 8)) : State :=
  match c with
  | none => mailDone s resDone
  | some c => mailDone s resVerify (c.setWidth 16)

/-- STAGE_IMAGE: into the staging region in canopy. DESIGN CHOICE (log 22): one refused for its length stages nothing, and what the stage before it
verified may still be committed. -/
def execStageImage (addr len : Word) (s : State) : Out :=
  mailCommand 0x0020 [addr, len] s fun s =>
    if stageSize < len.toNat then mailDone s resBad
    else
      let img := busBytes s addr.toNat len.toNat
      let c := imageCause img s.sys.boot.fusedMin
      let s1 := storePhys { s with fresh := s.fresh + 1 } {} (stagingPa s) img
      mailVerified (s1.withBoot { s1.sys.boot with stageLen := len.toNat, verified := c.isNone }) c

/-- Flash while an image is being written to it: what a loss of power would leave, which does not verify (R378). -/
def tornImage (s : State) (img : List Byte) : List Byte :=
  let t := Config.tornFlash img
  if (imageCause t s.sys.boot.fusedMin).isNone then [] else t

/-- COMMIT_STAGED_IMAGE: written to flash, which takes time. -/
def execCommitStagedImage (s : State) : Out :=
  mailCommand 0x0021 [] s fun s =>
    if !s.sys.boot.verified then mailDone s resNotPermitted
    else
      let img := stagedImage s
      let s := imageRead s
      mailWait (s.withBoot { s.sys.boot with flash := some (tornImage s img) }) (.commit img)

/-- The image is in flash: it is read back and verified again. -/
def endCommit (s : State) (img : List Byte) : State :=
  mailVerified (s.withBoot { s.sys.boot with flash := some img }) (imageCause img s.sys.boot.fusedMin)

/-- RAISE_FUSED_MINIMUM. -/
def execRaiseFusedMinimum (v : Word) (s : State) : Out :=
  mailCommand 0x0022 [v] s fun s =>
    let b := s.sys.boot
    if b.state = 3 ∧ v.toNat = imageVersion b.image ∧ b.fusedMin < v.toNat then mailDone (s.withBoot { b with fusedMin := v.toNat }) resDone
    else mailDone s resNotPermitted

/-- The tenant rectangles in force. -/
def tenantRects (s : State) : List Nat :=
  ((List.range 16).map fun k =>
    let t := tenantNum s k
    if t.live then [k, t.x0, t.y0, t.w, t.h] else []).flatten

/-- Write bytes to the host. -/
def postHost (s : State) (bus : Nat) (bs : List Byte) : State :=
  s.withHost { s.sys.host with posted := s.sys.host.posted ++ bs.mapIdx fun i b => ⟨bus + i, b, {}⟩ }

/-- An attestation report (R364): the order of its parts is that of the rule's list (log 22). -/
def reportOf (s : State) (nonce : List Word) : List Byte :=
  let b := s.sys.boot
  (nonce.map wordBytes).flatten ++ Config.serial ++ imageDigest b.image ++ toBytes 8 (imageVersion b.image) ++ Config.fusedKeyHash
    ++ toBytes 1 s.sys.host.mid.toNat ++ Config.shake256 ((tenantRects s).map fun n => BitVec.ofNat 8 n)

/-- ATTESTATION_REPORT: the report, its signature and the certificate are written to the bus address (R379). -/
def execAttestationReport (nonce : List Word) (addr : Word) (s : State) : Out :=
  let n4 := (List.range 4).map fun i => (nonce[i]?).getD 0
  mailCommand 0x0030 (n4 ++ [addr]) s fun s =>
    let r := reportOf s n4
    mailDone (postHost s addr.toNat (r ++ Config.deviceSign r ++ Config.certificate)) resDone

/-! ### A command in progress -/

/-- Go on with the mailbox command in progress, where what it waits for has come. -/
def settleMail (s : State) : State :=
  match s.sys.mail.waits with
  | none => s
  | some (.destroy n) => if tenantBusy s n then s else mailDone (removeTenant s n) resDone
  | some (.resize n x y w h) => if launchOutside s n ⟨x, y, w, h⟩ then s else mailDone (putRect s n ⟨x, y, w, h⟩) resDone
  | some (.routine idx id groves) => goOnLoading s idx id groves
  | some (.commit img) => endCommit s img

end Sys2Proof.Machine
end

