-- ==== Sys2Proof/Machine/Graphics.lean ====
section
/-! DEFINITION. Graphics helpers of major 0x26 (R221 to R226): edge functions, ray-box tests, texel decoding, traversal. Their
floating-point steps are FP32 rounded to nearest and set no flags. -/

namespace Sys2Proof.Machine

/-- FP32 patterns: sum, difference, product and fused multiply-add, rounded to nearest. -/
def fadd (a b : Nat) : Nat := (addVal fp32 .rne (fp32.value a) (fp32.value b)).pat
def fsub (a b : Nat) : Nat := (addVal fp32 .rne (fp32.value a) (fp32.value b).negate).pat
def fmul (a b : Nat) : Nat := (mulVal fp32 .rne (fp32.value a) (fp32.value b)).pat
def ffma (a b c : Nat) : Nat := (fmaVal fp32 .rne (fp32.value a) (fp32.value b) (fp32.value c)).pat
def fmin (a b : Nat) : Nat := (minMaxPat fp32 false a b).pat
def fmax (a b : Nat) : Nat := (minMaxPat fp32 true a b).pat
def frel (q : VCond) (a b : Nat) : Bool := (comparePat fp32 q a b).1

/-! ### `edge` (R221) -/

/-- Whether a sample lies inside edge `i` of the record at `r`. -/
def insideEdge (c : Core) (r x y i : Nat) : Bool :=
  let a := elemAt c r 4 (3 * i)
  let b := elemAt c r 4 (3 * i + 1)
  let e := ffma a x (ffma b y (elemAt c r 4 (3 * i + 2)))
  frel .gt e 0 || (frel .eq e 0 && (frel .gt a 0 || (frel .eq a 0 && frel .gt b 0)))

/-- The coverage word of a sample. -/
def coverage (c : Core) (r q : Nat) : Nat :=
  let x := elemAt c q 4 0
  let y := elemAt c q 4 1
  let i0 := bitNat (insideEdge c r x y 0)
  let i1 := bitNat (insideEdge c r x y 1)
  let i2 := bitNat (insideEdge c r x y 2)
  i0 + 2 * i1 + 4 * i2 + 8 * (i0 * i1 * i2)

/-- `edge.f32` (R221). -/
def execEdge (d a b : PReg) (s : State) : Out :=
  let n := vlen s
  let ops : List VOperand := [vdst d 4 n, ⟨a, false, 48, 1, 16, true, false⟩, vsrc b 8 n]
  vectorOp ops true noIndex noExtra
    (runStream ops (groupsOf 32 n) (.fixed 2) noToll false
      (fun c e => putElem (addrOf s d) 4 e { pat := coverage c (addrOf s a) (addrOf s b + 8 * e) })) s

/-! ### `boxt` (R222) -/

/-- The slab test of a box at `x` against a ray's origin and inverse direction at `r`: the entry distance, or none for a miss. -/
def slab (c : Core) (r x tmin tmax : Nat) : Option Nat :=
  let lo (k : Nat) : Nat := elemAt c x 4 k
  let hi (k : Nat) : Nat := elemAt c x 4 (k + 3)
  let t (p k : Nat) : Nat := fmul (fsub p (elemAt c r 4 k)) (elemAt c r 4 (k + 3))
  let near (k : Nat) : Nat := fmin (t (lo k) k) (t (hi k) k)
  let far (k : Nat) : Nat := fmax (t (lo k) k) (t (hi k) k)
  if frel .gt (lo 0) (hi 0) || frel .gt (lo 1) (hi 1) || frel .gt (lo 2) (hi 2) then none
  else
    let tn := fmax (fmax (fmax tmin (near 0)) (near 1)) (near 2)
    let tf := fmin (fmin (fmin tmax (far 0)) (far 1)) (far 2)
    if frel .le tn tf then some tn else none

/-- `boxt.f32` (R222): a miss gives +∞. -/
def execBoxt (d a b : PReg) (s : State) : Out :=
  let n := vlen s
  let ops : List VOperand := [vdst d 4 n, ⟨a, false, 32, 1, 16, true, false⟩, vsrc b 24 n]
  vectorOp ops true noIndex noExtra
    (runStream ops (groupsOf 32 n) (.fixed 4) noToll false
      (fun c e =>
        let r := addrOf s a
        putElem (addrOf s d) 4 e { pat := (slab c r (addrOf s b + 24 * e) (elemAt c r 4 6) (elemAt c r 4 7)).getD fp32.top })) s

/-! ### `txdec` (R223) -/

/-- One channel of a texel: endpoints and index of the block at `x`. -/
def texelChannel (c : Core) (x t ch : Nat) : Nat :=
  let i := ofBytes (bytesAt c.spad (x + 8) 8) / 2 ^ (4 * t) % 16
  (elemAt c x 1 ch * (15 - i) + elemAt c (x + 4) 1 ch * i + 7) / 15

/-- A channel as an element of the destination type. -/
def channelElem (t : VType) (v : Nat) : Nat :=
  match fmtOf t with
  | some f => (roundTo f .rne {} false false (v * 2 ^ 64 / 255) (-64) (decide (v * 2 ^ 64 % 255 ≠ 0))).pat
  | none => v

/-- The block number of a texel word. -/
def texelBlock (i : Nat) : Nat := i / 16

/-- The first texel block out of reach, over all repetitions (R206). -/
def texelOutside (ops : List VOperand) (a b : PReg) (s : State) : Option Nat :=
  (List.range (vlen s)).findSome? fun e =>
    (List.range (repsLeft s)).findSome? fun r =>
      let i := elemAt s.core (ptrAt (s.ptr b) (steps ops b) r) 4 e
      spadFirstBad s.core s.th (ptrAt (s.ptr a) (steps ops a) r + 16 * texelBlock i) 16

/-- `txdec` (R223). A later group takes the block numbers that stand in `pb` when it runs (log 44). -/
def execTxdec (t : VType) (d a b : PReg) (s : State) : Out :=
  let n := vlen s
  let k := elemSize t
  let ops : List VOperand := [⟨d, true, 4 * k, n, k, false, true⟩, ⟨a, false, 16, 0, 16, true, false⟩, vsrc b 4 n]
  let block (c : Core) (e : Nat) : Nat := addrOf s a + 16 * texelBlock (elemAt c (addrOf s b) 4 e)
  vectorOp ops true (texelOutside ops a b) (fun s r => indexedRanges ops a b 16 texelBlock false s r)
    (runStream ops (groupsOf 32 n) (.fixed 8) noToll false
      (fun c e =>
        let i := elemAt c (addrOf s b) 4 e % 16
        if !inReach s c (block c e) 16 then putElem (addrOf s d) (4 * k) e { pat := (Config.freeWord (s.fresh + e)).toNat }
        else { writes := [(addrOf s d + 4 * k * e,
            ((List.range 4).map fun ch => toBytes k (channelElem t (texelChannel c (block c e) i ch))).flatten)] })) s

/-! ### `trav` (R224 to R226) -/

/-- A stack entry of a ray. -/
structure TravEntry where
  ref : Nat
  depth : Nat
  tnear : Nat
  deriving DecidableEq, Repr

/-- The fields of a ray record that `trav` writes (R225), with the ray's far limit. -/
structure TravRay where
  tmax : Nat
  node : Nat
  depth : Nat
  rdepth : Nat
  budget : Nat
  status : Nat
  leaf : Nat
  ltn : Nat
  trail : Nat
  sp : Nat
  st0 : TravEntry
  st1 : TravEntry
  st2 : TravEntry
  st3 : TravEntry
  deriving DecidableEq, Repr

/-- A stack entry read from a record. -/
def travEntryAt (c : Core) (a : Nat) : TravEntry := ⟨elemAt c a 4 0, elemAt c a 4 1, elemAt c a 4 2⟩

/-- A ray read from its record (R225). -/
def travRayAt (c : Core) (a : Nat) : TravRay :=
  { tmax := elemAt c a 4 7, node := elemAt c a 4 8, depth := elemAt c a 4 9, rdepth := elemAt c a 4 10, sp := elemAt c a 4 11
    budget := elemAt c a 4 12, status := elemAt c a 4 13, leaf := elemAt c a 4 14, ltn := elemAt c a 4 15
    trail := elemAt c a 8 8
    st0 := travEntryAt c (a + 72), st1 := travEntryAt c (a + 84), st2 := travEntryAt c (a + 96), st3 := travEntryAt c (a + 108) }

/-- The bytes of a stack entry. -/
def travEntryBytes (e : TravEntry) : List Byte := toBytes 4 e.ref ++ toBytes 4 e.depth ++ toBytes 4 e.tnear

/-- Bytes 32 to 119 of a ray record. -/
def travBytes (r : TravRay) : List Byte :=
  toBytes 4 r.node ++ toBytes 4 r.depth ++ toBytes 4 r.rdepth ++ toBytes 4 r.sp ++ toBytes 4 r.budget ++ toBytes 4 r.status
    ++ toBytes 4 r.leaf ++ toBytes 4 r.ltn ++ toBytes 8 r.trail
    ++ travEntryBytes r.st0 ++ travEntryBytes r.st1 ++ travEntryBytes r.st2 ++ travEntryBytes r.st3

/-- Stack entry `k`. -/
def travStack (r : TravRay) (k : Nat) : TravEntry := if k = 0 then r.st0 else if k = 1 then r.st1 else if k = 2 then r.st2 else r.st3

/-- Bit `k` of the trail; there is none above 63. -/
def trailBit (r : TravRay) (k : Nat) : Bool := decide (k ≤ 63) && r.trail.testBit k

/-- The trail with bit `k` set or cleared. -/
def putTrail (trail k : Nat) (v : Bool) : Nat :=
  if 63 < k then trail
  else if trail.testBit k = v then trail else if v then trail + 2 ^ k else trail - 2 ^ k

/-- The trail with bits k + 1 to 63 cleared. -/
def cutTrail (trail k : Nat) : Nat := trail % 2 ^ (k + 1)

/-- Go to a child at depth `k` (R226 `take`). -/
def travTake (r : TravRay) (ref k t : Nat) : TravRay :=
  if 63 < k then { r with status := 4 }
  else
    let r := { r with trail := cutTrail r.trail k }
    if 2 ^ 31 ≤ ref then { r with leaf := ref % 2 ^ 31, ltn := t, status := 1, node := 0xFFFFFFFE, depth := k }
    else { r with node := ref, depth := k }

/-- Push a deferred sibling; a full stack loses its oldest entry (R226 `push`). -/
def travPush (r : TravRay) (ref k t : Nat) : TravRay :=
  let e : TravEntry := ⟨ref, k, t⟩
  if r.sp = 4 then { r with st0 := r.st1, st1 := r.st2, st2 := r.st3, st3 := e }
  else if r.sp = 0 then { r with st0 := e, sp := 1 }
  else if r.sp = 1 then { r with st1 := e, sp := 2 }
  else if r.sp = 2 then { r with st2 := e, sp := 3 }
  else { r with st3 := e, sp := 4 }

/-- The largest k in 1 … n with trail bit k clear. -/
def clearTrail (r : TravRay) : Nat → Option Nat
  | 0 => none
  | n + 1 => if trailBit r (n + 1) then clearTrail r n else some (n + 1)

/-- An empty stack: restart below the deepest clear trail bit, or be done (R226 `pop`). -/
def travRestart (r : TravRay) (fd : Nat) : TravRay :=
  match clearTrail r (min fd 63) with
  | none => { r with status := 2, node := 0xFFFFFFFF }
  | some l => { r with trail := cutTrail (putTrail r.trail l true) l, node := 0, depth := 0, rdepth := l }

/-- Pop entries until one is not culled (R226 `pop`); `n` is the stack count. -/
def travPop (r : TravRay) (fd : Nat) : Nat → TravRay
  | 0 => travRestart { r with sp := 0 } fd
  | n + 1 =>
    let e := travStack r n
    let r := { r with sp := n, trail := cutTrail (putTrail r.trail e.depth true) e.depth }
    if frel .le e.tnear r.tmax then travTake r e.ref e.depth e.tnear else travPop r fd n

/-- A child's reference and hit: none where it is empty or missed. -/
def childHit (c : Core) (ray node : Nat) (tmax i : Nat) : Nat × Option Nat :=
  let ref := elemAt c (node + 48) 4 i
  (ref, if ref = 0xFFFFFFFF then none else slab c ray (node + 24 * i) (elemAt c ray 4 6) tmax)

/-- Visit a node that lies within the window (R226 `step`): the ray record is at `a`, the node at `x`. -/
def travVisit (c : Core) (a x : Nat) (r : TravRay) : TravRay :=
  let d := r.depth
  if d < r.rdepth then
    let k := childHit c a x r.tmax (bitNat (trailBit r (d + 1)))
    match k.2 with
    | none => travPop r (d + 1) r.sp
    | some t =>
      if d + 1 < r.rdepth then
        if 2 ^ 31 ≤ k.1 then { r with status := 4 } else { r with node := k.1, depth := d + 1 }
      else travTake { r with rdepth := 0 } k.1 (d + 1) t
  else
    let k0 := childHit c a x r.tmax 0
    let k1 := childHit c a x r.tmax 1
    match k0.2, k1.2 with
    | some t0, some t1 =>
      let r := travPush r k1.1 (d + 1) t1
      travTake { r with trail := putTrail r.trail (d + 1) false } k0.1 (d + 1) t0
    | some t0, none => travTake { r with trail := putTrail r.trail (d + 1) false } k0.1 (d + 1) t0
    | none, some t1 => travTake { r with trail := putTrail r.trail (d + 1) true } k1.1 (d + 1) t1
    | none, none => travPop r d r.sp

/-- Whether a record's depths, stack count and live stack entries lie within R225. -/
def travSane (r : TravRay) : Bool :=
  decide (r.depth ≤ 63 ∧ r.rdepth ≤ 63 ∧ r.sp ≤ 4) && (List.range r.sp).all fun k => decide ((travStack r k).depth ≤ 63)

/-- Whether the 64 bytes of a node lie where the thread may reach. -/
def nodeInside (s : State) (c : Core) (x : Nat) : Bool := (spadFirstBad c s.th x 64).isNone

/-- One step of a ray (R226): the record at `a`, the hierarchy at `h`. -/
def travStep (s : State) (c : Core) (a h : Nat) (r : TravRay) : TravRay :=
  if r.node = 0xFFFFFFFE then travPop r r.depth r.sp
  else if r.budget = 0 then { r with status := 3 }
  else
    let r := { r with budget := r.budget - 1 }
    if nodeInside s c (h + 64 * r.node) then travVisit c a (h + 64 * r.node) r else { r with status := 4 }

/-- What `trav` does to the record at `a`: nothing unless its status is 0. A record outside R225 is left undefined, but a function of
its contents (R227, log 24). -/
def travElem (s : State) (h : Nat) (c : Core) (a : Nat) : VEffect :=
  let r := travRayAt c a
  if r.status ≠ 0 then { writes := [] }
  else if travSane r then { writes := [(a + 32, travBytes (travStep s c a h r))] }
  else { writes := [(a + 32, toBytes 88 (Config.travUndefined (bytesAt c.spad a 128)))] }

/-- The node a ray would read. -/
def travNode (s : State) (h a : Nat) : List VRange :=
  let r := travRayAt s.core a
  let x := h + 64 * r.node
  if decide (r.status = 0 ∧ r.node ≠ 0xFFFFFFFE ∧ r.budget ≠ 0) && nodeInside s s.core x then [⟨x, 64, false⟩] else []

/-- `trav.f32` (R226): groups of 4 rays. -/
def execTrav (d a : PReg) (s : State) : Out :=
  let n := vlen s
  let ops : List VOperand := [⟨d, true, 128, n, 16, true, true⟩, ⟨a, false, 64, 0, 64, true, false⟩]
  vectorOp ops true noIndex
    (fun s r => ((List.range n).map fun e => travNode s (addrOf s a)
      (ptrAt (s.ptr d) true r + 128 * e)).flatten)
    (runStream ops (groupsOf 4 n) (.fixed 8) noToll false (fun c e => travElem s (addrOf s a) c (addrOf s d + 128 * e))) s

end Sys2Proof.Machine
end

