-- ==== Sys2Proof/Decode.lean ====
section
/-! DEFINITION. Decoding any bytes to an instruction or a named rejection, and the encoder (R149-R171). -/

namespace Sys2Proof

/-- Bits lo + n - 1 down to lo of an instruction word. -/
def fld (w lo n : Nat) : Nat := w / 2 ^ lo % 2 ^ n

/-- Code of a width (R161). -/
def Width.code : Width → Nat
  | .w64 => 0
  | .w32 => 1
  | .w16 => 2
  | .w8 => 3

/-- Width of a code; a code the tables leave out falls to some value here and is refused by `decode`, whose result must encode to the same word. -/
def Width.ofCode : Nat → Width
  | 0 => .w64
  | 1 => .w32
  | 2 => .w16
  | _ => .w8

/-- Code of a vector type (R165). -/
def VType.code : VType → Nat
  | .i8 => 0
  | .u8 => 1
  | .i16 => 2
  | .i32 => 3
  | .f32 => 4
  | .f16 => 5
  | .bf16 => 6
  | .f8e5 => 7
  | .f8e4 => 8
  | .u16 => 9
  | .u32 => 10

/-- VType of a code; a code the tables leave out falls to some value here and is refused by `decode`, whose result must encode to the same word. -/
def VType.ofCode : Nat → VType
  | 0 => .i8
  | 1 => .u8
  | 2 => .i16
  | 3 => .i32
  | 4 => .f32
  | 5 => .f16
  | 6 => .bf16
  | 7 => .f8e5
  | 8 => .f8e4
  | 9 => .u16
  | _ => .u32

/-- Code of a rounding mode (R86). -/
def Round.code : Round → Nat
  | .rne => 0
  | .rtz => 1
  | .rdn => 2
  | .rup => 3
  | .sr => 4

/-- Round of a code; a code the tables leave out falls to some value here and is refused by `decode`, whose result must encode to the same word. -/
def Round.ofCode : Nat → Round
  | 0 => .rne
  | 1 => .rtz
  | 2 => .rdn
  | 3 => .rup
  | _ => .sr

/-- Code of a scalar condition (R162). -/
def Cond.code : Cond → Nat
  | .eq => 0
  | .ne => 1
  | .lt => 2
  | .ltu => 3
  | .le => 4
  | .leu => 5

/-- Cond of a code; a code the tables leave out falls to some value here and is refused by `decode`, whose result must encode to the same word. -/
def Cond.ofCode : Nat → Cond
  | 0 => .eq
  | 1 => .ne
  | 2 => .lt
  | 3 => .ltu
  | 4 => .le
  | _ => .leu

/-- Code of a vector condition (R211). -/
def VCond.code : VCond → Nat
  | .eq => 0
  | .ne => 1
  | .lt => 2
  | .le => 3
  | .gt => 4
  | .ge => 5

/-- VCond of a code; a code the tables leave out falls to some value here and is refused by `decode`, whose result must encode to the same word. -/
def VCond.ofCode : Nat → VCond
  | 0 => .eq
  | 1 => .ne
  | 2 => .lt
  | 3 => .le
  | 4 => .gt
  | _ => .ge

/-- Code of a special register (R152). -/
def SReg.code : SReg → Nat
  | .cid => 0
  | .tid => 1
  | .gid => 2
  | .did => 3
  | .mid => 4
  | .lid => 5
  | .cyc => 8
  | .vl => 16
  | .flags => 17
  | .qtier => 18
  | .cmdst => 19
  | .spbase => 20
  | .splim => 21
  | .scbase => 22
  | .sclim => 23
  | .wsp => 24
  | .wlim => 25
  | .mcfg => 26
  | .xcfg => 27
  | .status => 32
  | .evcode => 33
  | .evaddr => 34
  | .epc0 => 35
  | .epc1 => 36
  | .epc2 => 37
  | .eann => 38
  | .uentry => 48
  | .wdlim => 49
  | .svec => 256
  | .sarea => 257
  | .sscratch => 258

/-- SReg of a code; a code the tables leave out falls to some value here and is refused by `decode`, whose result must encode to the same word. -/
def SReg.ofCode : Nat → SReg
  | 0 => .cid
  | 1 => .tid
  | 2 => .gid
  | 3 => .did
  | 4 => .mid
  | 5 => .lid
  | 8 => .cyc
  | 16 => .vl
  | 17 => .flags
  | 18 => .qtier
  | 19 => .cmdst
  | 20 => .spbase
  | 21 => .splim
  | 22 => .scbase
  | 23 => .sclim
  | 24 => .wsp
  | 25 => .wlim
  | 26 => .mcfg
  | 27 => .xcfg
  | 32 => .status
  | 33 => .evcode
  | 34 => .evaddr
  | 35 => .epc0
  | 36 => .epc1
  | 37 => .epc2
  | 38 => .eann
  | 48 => .uentry
  | 49 => .wdlim
  | 256 => .svec
  | 257 => .sarea
  | _ => .sscratch

/-- Code of a 16-bit second operand (R154): bit 15 is i, bits 14:10 the register or immediate. -/
def Src16.code : Src16 → Nat
  | .reg r => r.val
  | .imm v => 32 + v.toNat

/-- Second operand of a code. -/
def Src16.ofCode (n : Nat) : Src16 := if n < 32 then .reg (Fin.ofNat 32 n) else .imm (BitVec.ofNat 5 n)

/-- The fields of a 16-bit instruction, by its operation (R154). -/
def fields16 (w : Nat) : Instr :=
  match fld w 1 4 with
  | 0 => .mov16 (Fin.ofNat 32 (fld w 5 5)) (Src16.ofCode (fld w 10 6))
  | 1 => .add16 (Fin.ofNat 32 (fld w 5 5)) (Src16.ofCode (fld w 10 6))
  | 2 => .sub16 (Fin.ofNat 32 (fld w 5 5)) (Src16.ofCode (fld w 10 6))
  | 3 => .and16 (Fin.ofNat 32 (fld w 5 5)) (Src16.ofCode (fld w 10 6))
  | 4 => .or16 (Fin.ofNat 32 (fld w 5 5)) (Src16.ofCode (fld w 10 6))
  | 5 => .xor16 (Fin.ofNat 32 (fld w 5 5)) (Src16.ofCode (fld w 10 6))
  | 6 => .shl16 (Fin.ofNat 32 (fld w 5 5)) (Src16.ofCode (fld w 10 6))
  | 7 => .shr16 (Fin.ofNat 32 (fld w 5 5)) (Src16.ofCode (fld w 10 6))
  | 8 => .sra16 (Fin.ofNat 32 (fld w 5 5)) (Src16.ofCode (fld w 10 6))
  | 9 => .mul16 (Fin.ofNat 32 (fld w 5 5)) (Src16.ofCode (fld w 10 6))
  | 10 => .min16 (Fin.ofNat 32 (fld w 5 5)) (Src16.ofCode (fld w 10 6))
  | 11 => .max16 (Fin.ofNat 32 (fld w 5 5)) (Src16.ofCode (fld w 10 6))
  | 12 => .ldw16 (Fin.ofNat 32 (fld w 5 5)) (Fin.ofNat 32 (fld w 10 5)) (decide (fld w 15 1 = 1))
  | 13 => .stw16 (Fin.ofNat 32 (fld w 5 5)) (Fin.ofNat 32 (fld w 10 5)) (decide (fld w 15 1 = 1))
  | 14 => .ldd16 (Fin.ofNat 32 (fld w 5 5)) (Fin.ofNat 32 (fld w 10 5)) (decide (fld w 15 1 = 1))
  | _ => .std16 (Fin.ofNat 32 (fld w 5 5)) (Fin.ofNat 32 (fld w 10 5)) (decide (fld w 15 1 = 1))

/-- Fields of major 0x01 by its function code (R160). -/
def major01 (w : Nat) : Option Instr :=
  match fld w 22 8 with
  | 0 => some (.add (Width.ofCode (fld w 30 2)) (Fin.ofNat 32 (fld w 7 5)) (Fin.ofNat 32 (fld w 12 5)) (Fin.ofNat 32 (fld w 17 5)))
  | 1 => some (.sub (Width.ofCode (fld w 30 2)) (Fin.ofNat 32 (fld w 7 5)) (Fin.ofNat 32 (fld w 12 5)) (Fin.ofNat 32 (fld w 17 5)))
  | 2 => some (.mul (Width.ofCode (fld w 30 2)) (Fin.ofNat 32 (fld w 7 5)) (Fin.ofNat 32 (fld w 12 5)) (Fin.ofNat 32 (fld w 17 5)))
  | 3 => some (.mulh (Width.ofCode (fld w 30 2)) (Fin.ofNat 32 (fld w 7 5)) (Fin.ofNat 32 (fld w 12 5)) (Fin.ofNat 32 (fld w 17 5)))
  | 4 => some (.mulhu (Width.ofCode (fld w 30 2)) (Fin.ofNat 32 (fld w 7 5)) (Fin.ofNat 32 (fld w 12 5)) (Fin.ofNat 32 (fld w 17 5)))
  | 5 => some (.div (Width.ofCode (fld w 30 2)) (Fin.ofNat 32 (fld w 7 5)) (Fin.ofNat 32 (fld w 12 5)) (Fin.ofNat 32 (fld w 17 5)))
  | 6 => some (.divu (Width.ofCode (fld w 30 2)) (Fin.ofNat 32 (fld w 7 5)) (Fin.ofNat 32 (fld w 12 5)) (Fin.ofNat 32 (fld w 17 5)))
  | 7 => some (.rem (Width.ofCode (fld w 30 2)) (Fin.ofNat 32 (fld w 7 5)) (Fin.ofNat 32 (fld w 12 5)) (Fin.ofNat 32 (fld w 17 5)))
  | 8 => some (.remu (Width.ofCode (fld w 30 2)) (Fin.ofNat 32 (fld w 7 5)) (Fin.ofNat 32 (fld w 12 5)) (Fin.ofNat 32 (fld w 17 5)))
  | 16 => some (.and (Fin.ofNat 32 (fld w 7 5)) (Fin.ofNat 32 (fld w 12 5)) (Fin.ofNat 32 (fld w 17 5)))
  | 17 => some (.or (Fin.ofNat 32 (fld w 7 5)) (Fin.ofNat 32 (fld w 12 5)) (Fin.ofNat 32 (fld w 17 5)))
  | 18 => some (.xor (Fin.ofNat 32 (fld w 7 5)) (Fin.ofNat 32 (fld w 12 5)) (Fin.ofNat 32 (fld w 17 5)))
  | 19 => some (.andn (Fin.ofNat 32 (fld w 7 5)) (Fin.ofNat 32 (fld w 12 5)) (Fin.ofNat 32 (fld w 17 5)))
  | 20 => some (.orn (Fin.ofNat 32 (fld w 7 5)) (Fin.ofNat 32 (fld w 12 5)) (Fin.ofNat 32 (fld w 17 5)))
  | 24 => some (.shl (Width.ofCode (fld w 30 2)) (Fin.ofNat 32 (fld w 7 5)) (Fin.ofNat 32 (fld w 12 5)) (Fin.ofNat 32 (fld w 17 5)))
  | 25 => some (.shr (Width.ofCode (fld w 30 2)) (Fin.ofNat 32 (fld w 7 5)) (Fin.ofNat 32 (fld w 12 5)) (Fin.ofNat 32 (fld w 17 5)))
  | 26 => some (.sra (Width.ofCode (fld w 30 2)) (Fin.ofNat 32 (fld w 7 5)) (Fin.ofNat 32 (fld w 12 5)) (Fin.ofNat 32 (fld w 17 5)))
  | 27 => some (.rol (Width.ofCode (fld w 30 2)) (Fin.ofNat 32 (fld w 7 5)) (Fin.ofNat 32 (fld w 12 5)) (Fin.ofNat 32 (fld w 17 5)))
  | 28 => some (.ror (Width.ofCode (fld w 30 2)) (Fin.ofNat 32 (fld w 7 5)) (Fin.ofNat 32 (fld w 12 5)) (Fin.ofNat 32 (fld w 17 5)))
  | 32 => some (.min (Width.ofCode (fld w 30 2)) (Fin.ofNat 32 (fld w 7 5)) (Fin.ofNat 32 (fld w 12 5)) (Fin.ofNat 32 (fld w 17 5)))
  | 33 => some (.max (Width.ofCode (fld w 30 2)) (Fin.ofNat 32 (fld w 7 5)) (Fin.ofNat 32 (fld w 12 5)) (Fin.ofNat 32 (fld w 17 5)))
  | 34 => some (.minu (Width.ofCode (fld w 30 2)) (Fin.ofNat 32 (fld w 7 5)) (Fin.ofNat 32 (fld w 12 5)) (Fin.ofNat 32 (fld w 17 5)))
  | 35 => some (.maxu (Width.ofCode (fld w 30 2)) (Fin.ofNat 32 (fld w 7 5)) (Fin.ofNat 32 (fld w 12 5)) (Fin.ofNat 32 (fld w 17 5)))
  | 40 => some (.clz (Width.ofCode (fld w 30 2)) (Fin.ofNat 32 (fld w 7 5)) (Fin.ofNat 32 (fld w 12 5)))
  | 41 => some (.ctz (Width.ofCode (fld w 30 2)) (Fin.ofNat 32 (fld w 7 5)) (Fin.ofNat 32 (fld w 12 5)))
  | 42 => some (.popc (Width.ofCode (fld w 30 2)) (Fin.ofNat 32 (fld w 7 5)) (Fin.ofNat 32 (fld w 12 5)))
  | 43 => some (.sext (Width.ofCode (fld w 30 2)) (Fin.ofNat 32 (fld w 7 5)) (Fin.ofNat 32 (fld w 12 5)))
  | 44 => some (.zext (Width.ofCode (fld w 30 2)) (Fin.ofNat 32 (fld w 7 5)) (Fin.ofNat 32 (fld w 12 5)))
  | 48 => some (.bfx (Fin.ofNat 32 (fld w 7 5)) (Fin.ofNat 32 (fld w 12 5)) (Fin.ofNat 32 (fld w 17 5)))
  | 49 => some (.bfxu (Fin.ofNat 32 (fld w 7 5)) (Fin.ofNat 32 (fld w 12 5)) (Fin.ofNat 32 (fld w 17 5)))
  | 50 => some (.bfi (Fin.ofNat 32 (fld w 7 5)) (Fin.ofNat 32 (fld w 12 5)) (Fin.ofNat 32 (fld w 17 5)))
  | 51 => some (.bswap (Width.ofCode (fld w 30 2)) (Fin.ofNat 32 (fld w 7 5)) (Fin.ofNat 32 (fld w 12 5)))
  | _ => none

/-- Fields of major 0x02 (R160). -/
def major02 (w : Nat) : Option Instr := some (.addi (Fin.ofNat 32 (fld w 7 5)) (Fin.ofNat 32 (fld w 12 5)) (BitVec.ofNat 15 (fld w 17 15)))

/-- Fields of major 0x03 (R160). -/
def major03 (w : Nat) : Option Instr := some (.andi (Fin.ofNat 32 (fld w 7 5)) (Fin.ofNat 32 (fld w 12 5)) (BitVec.ofNat 15 (fld w 17 15)))

/-- Fields of major 0x04 (R160). -/
def major04 (w : Nat) : Option Instr := some (.ori (Fin.ofNat 32 (fld w 7 5)) (Fin.ofNat 32 (fld w 12 5)) (BitVec.ofNat 15 (fld w 17 15)))

/-- Fields of major 0x05 (R160). -/
def major05 (w : Nat) : Option Instr := some (.xori (Fin.ofNat 32 (fld w 7 5)) (Fin.ofNat 32 (fld w 12 5)) (BitVec.ofNat 15 (fld w 17 15)))

/-- Fields of major 0x06 by its function code (R160). -/
def major06 (w : Nat) : Option Instr :=
  match fld w 23 2 with
  | 0 => some (.shli (Width.ofCode (fld w 25 2)) (Fin.ofNat 32 (fld w 7 5)) (Fin.ofNat 32 (fld w 12 5)) (BitVec.ofNat 6 (fld w 17 6)))
  | 1 => some (.shri (Width.ofCode (fld w 25 2)) (Fin.ofNat 32 (fld w 7 5)) (Fin.ofNat 32 (fld w 12 5)) (BitVec.ofNat 6 (fld w 17 6)))
  | 2 => some (.srai (Width.ofCode (fld w 25 2)) (Fin.ofNat 32 (fld w 7 5)) (Fin.ofNat 32 (fld w 12 5)) (BitVec.ofNat 6 (fld w 17 6)))
  | _ => none

/-- Fields of major 0x07 (R160). -/
def major07 (w : Nat) : Option Instr := some (.cmpi (Cond.ofCode (fld w 9 3)) (Fin.ofNat 4 (fld w 7 2)) (Fin.ofNat 32 (fld w 12 5)) (BitVec.ofNat 15 (fld w 17 15)))

/-- Fields of major 0x08 by its function code (R160). -/
def major08 (w : Nat) : Option Instr :=
  match fld w 22 8 with
  | 0 => some (.cmp (Cond.ofCode (fld w 9 3)) (Width.ofCode (fld w 30 2)) (Fin.ofNat 4 (fld w 7 2)) (Fin.ofNat 32 (fld w 12 5)) (Fin.ofNat 32 (fld w 17 5)))
  | _ => none

/-- Fields of major 0x09 (R160). -/
def major09 (w : Nat) : Option Instr := some (.li (Fin.ofNat 32 (fld w 7 5)) (BitVec.ofNat 20 (fld w 12 20)))

/-- Fields of major 0x0A (R160). -/
def major0A (w : Nat) : Option Instr := some (.lui (Fin.ofNat 32 (fld w 7 5)) (BitVec.ofNat 20 (fld w 12 20)))

/-- Fields of major 0x0B (R160). -/
def major0B (w : Nat) : Option Instr := some (.lea (Fin.ofNat 32 (fld w 7 5)) (BitVec.ofNat 20 (fld w 12 20)))

/-- Fields of major 0x0C (R160). -/
def major0C (w : Nat) : Option Instr := some (.ldb (Fin.ofNat 32 (fld w 7 5)) (Fin.ofNat 32 (fld w 12 5)) (BitVec.ofNat 15 (fld w 17 15)))

/-- Fields of major 0x0D (R160). -/
def major0D (w : Nat) : Option Instr := some (.ldbu (Fin.ofNat 32 (fld w 7 5)) (Fin.ofNat 32 (fld w 12 5)) (BitVec.ofNat 15 (fld w 17 15)))

/-- Fields of major 0x0E (R160). -/
def major0E (w : Nat) : Option Instr := some (.ldh (Fin.ofNat 32 (fld w 7 5)) (Fin.ofNat 32 (fld w 12 5)) (BitVec.ofNat 15 (fld w 17 15)))

/-- Fields of major 0x0F (R160). -/
def major0F (w : Nat) : Option Instr := some (.ldhu (Fin.ofNat 32 (fld w 7 5)) (Fin.ofNat 32 (fld w 12 5)) (BitVec.ofNat 15 (fld w 17 15)))

/-- Fields of major 0x10 (R160). -/
def major10 (w : Nat) : Option Instr := some (.ldw (Fin.ofNat 32 (fld w 7 5)) (Fin.ofNat 32 (fld w 12 5)) (BitVec.ofNat 15 (fld w 17 15)))

/-- Fields of major 0x11 (R160). -/
def major11 (w : Nat) : Option Instr := some (.ldwu (Fin.ofNat 32 (fld w 7 5)) (Fin.ofNat 32 (fld w 12 5)) (BitVec.ofNat 15 (fld w 17 15)))

/-- Fields of major 0x12 (R160). -/
def major12 (w : Nat) : Option Instr := some (.ldd (Fin.ofNat 32 (fld w 7 5)) (Fin.ofNat 32 (fld w 12 5)) (BitVec.ofNat 15 (fld w 17 15)))

/-- Fields of major 0x13 (R160). -/
def major13 (w : Nat) : Option Instr := some (.stb (Fin.ofNat 32 (fld w 7 5)) (Fin.ofNat 32 (fld w 12 5)) (BitVec.ofNat 15 (fld w 17 15)))

/-- Fields of major 0x14 (R160). -/
def major14 (w : Nat) : Option Instr := some (.sth (Fin.ofNat 32 (fld w 7 5)) (Fin.ofNat 32 (fld w 12 5)) (BitVec.ofNat 15 (fld w 17 15)))

/-- Fields of major 0x15 (R160). -/
def major15 (w : Nat) : Option Instr := some (.stw (Fin.ofNat 32 (fld w 7 5)) (Fin.ofNat 32 (fld w 12 5)) (BitVec.ofNat 15 (fld w 17 15)))

/-- Fields of major 0x16 (R160). -/
def major16 (w : Nat) : Option Instr := some (.std (Fin.ofNat 32 (fld w 7 5)) (Fin.ofNat 32 (fld w 12 5)) (BitVec.ofNat 15 (fld w 17 15)))

/-- Fields of major 0x17 by its function code (R160). -/
def major17 (w : Nat) : Option Instr :=
  match fld w 22 8 with
  | 0 => some (.ldAcq (Width.ofCode (fld w 30 2)) (Fin.ofNat 32 (fld w 7 5)) (Fin.ofNat 32 (fld w 12 5)))
  | 1 => some (.ldFe (Width.ofCode (fld w 30 2)) (Fin.ofNat 32 (fld w 7 5)) (Fin.ofNat 32 (fld w 12 5)))
  | 2 => some (.ldFek (Width.ofCode (fld w 30 2)) (Fin.ofNat 32 (fld w 7 5)) (Fin.ofNat 32 (fld w 12 5)))
  | 8 => some (.stRel (Width.ofCode (fld w 30 2)) (Fin.ofNat 32 (fld w 7 5)) (Fin.ofNat 32 (fld w 12 5)))
  | 9 => some (.stFill (Width.ofCode (fld w 30 2)) (Fin.ofNat 32 (fld w 7 5)) (Fin.ofNat 32 (fld w 12 5)))
  | _ => none

/-- Fields of major 0x18 by its function code (R160). -/
def major18 (w : Nat) : Option Instr :=
  match fld w 22 10 with
  | 0 => some (.tlook (Fin.ofNat 32 (fld w 7 5)) (Fin.ofNat 32 (fld w 12 5)))
  | 1 => some (.tinst (Fin.ofNat 32 (fld w 12 5)) (Fin.ofNat 32 (fld w 17 5)) (BitVec.ofNat 5 (fld w 7 5)))
  | 2 => some (.tdrop (Fin.ofNat 32 (fld w 12 5)))
  | _ => none

/-- Fields of major 0x19 by its function code (R160). -/
def major19 (w : Nat) : Option Instr :=
  match fld w 9 2 with
  | 1 => some (.bt (Fin.ofNat 4 (fld w 7 2)) (BitVec.ofNat 21 (fld w 11 21)))
  | 0 => some (.bf (Fin.ofNat 4 (fld w 7 2)) (BitVec.ofNat 21 (fld w 11 21)))
  | 3 => some (.btN (Fin.ofNat 4 (fld w 7 2)) (BitVec.ofNat 21 (fld w 11 21)))
  | _ => some (.bfN (Fin.ofNat 4 (fld w 7 2)) (BitVec.ofNat 21 (fld w 11 21)))

/-- Fields of major 0x1A (R160). -/
def major1A (w : Nat) : Option Instr := some (.jmp (BitVec.ofNat 25 (fld w 7 25)))

/-- Fields of major 0x1B (R160). -/
def major1B (w : Nat) : Option Instr := some (.call (BitVec.ofNat 25 (fld w 7 25)))

/-- Fields of major 0x1C by its function code (R160). -/
def major1C (w : Nat) : Option Instr :=
  match fld w 22 10 with
  | 0 => some (.jmpr (Fin.ofNat 32 (fld w 12 5)))
  | 1 => some (.callr (Fin.ofNat 32 (fld w 12 5)))
  | 2 => some (.ret)
  | 8 => some (.rep (BitVec.ofNat 10 (fld w 12 10)))
  | 9 => some (.repr (Fin.ofNat 32 (fld w 12 5)))
  | 16 => some (.endUnit)
  | 17 => some (.yield)
  | 18 => some (.nop)
  | 24 => some (.trap (BitVec.ofNat 8 (fld w 12 8)))
  | 25 => some (.brk)
  | _ => none

/-- Fields of major 0x1D by its function code (R160). -/
def major1D (w : Nat) : Option Instr :=
  match fld w 22 10 with
  | 0 => some (.pset (Fin.ofNat 16 (fld w 7 4)) (Fin.ofNat 32 (fld w 12 5)))
  | 1 => some (.pget (Fin.ofNat 32 (fld w 7 5)) (Fin.ofNat 16 (fld w 12 4)))
  | 2 => some (.padd (Fin.ofNat 16 (fld w 7 4)) (Fin.ofNat 32 (fld w 12 5)))
  | 3 => some (.pstr (Fin.ofNat 16 (fld w 7 4)) (Fin.ofNat 32 (fld w 12 5)))
  | _ => none

/-- Fields of major 0x1E by its function code (R160). -/
def major1E (w : Nat) : Option Instr :=
  match fld w 22 8 with
  | 0 => some (.cand (Fin.ofNat 4 (fld w 7 2)) (Fin.ofNat 4 (fld w 12 2)) (Fin.ofNat 4 (fld w 17 2)))
  | 1 => some (.cor (Fin.ofNat 4 (fld w 7 2)) (Fin.ofNat 4 (fld w 12 2)) (Fin.ofNat 4 (fld w 17 2)))
  | 2 => some (.cxor (Fin.ofNat 4 (fld w 7 2)) (Fin.ofNat 4 (fld w 12 2)) (Fin.ofNat 4 (fld w 17 2)))
  | 8 => some (.cset (Fin.ofNat 4 (fld w 7 2)) (Fin.ofNat 32 (fld w 12 5)))
  | 9 => some (.cget (Fin.ofNat 32 (fld w 7 5)) (Fin.ofNat 4 (fld w 12 2)))
  | 16 => some (.sel (Fin.ofNat 32 (fld w 7 5)) (Fin.ofNat 32 (fld w 12 5)) (Fin.ofNat 32 (fld w 17 5)) (Fin.ofNat 4 (fld w 30 2)))
  | _ => none

/-- Fields of major 0x20 by its function code (R160). -/
def major20 (w : Nat) : Option Instr :=
  match fld w 26 6 with
  | 0 => some (.vaddInt (decide (fld w 23 1 = 1)) (VType.ofCode (fld w 19 4)) (Fin.ofNat 16 (fld w 7 4)) (Fin.ofNat 16 (fld w 11 4)) (Fin.ofNat 16 (fld w 15 4)))
  | 1 => some (.vsubInt (decide (fld w 23 1 = 1)) (VType.ofCode (fld w 19 4)) (Fin.ofNat 16 (fld w 7 4)) (Fin.ofNat 16 (fld w 11 4)) (Fin.ofNat 16 (fld w 15 4)))
  | 2 => some (.vmulInt (decide (fld w 23 1 = 1)) (VType.ofCode (fld w 19 4)) (Fin.ofNat 16 (fld w 7 4)) (Fin.ofNat 16 (fld w 11 4)) (Fin.ofNat 16 (fld w 15 4)))
  | 3 => some (.vminInt (VType.ofCode (fld w 19 4)) (Fin.ofNat 16 (fld w 7 4)) (Fin.ofNat 16 (fld w 11 4)) (Fin.ofNat 16 (fld w 15 4)))
  | 4 => some (.vmaxInt (VType.ofCode (fld w 19 4)) (Fin.ofNat 16 (fld w 7 4)) (Fin.ofNat 16 (fld w 11 4)) (Fin.ofNat 16 (fld w 15 4)))
  | 5 => some (.vabsInt (decide (fld w 23 1 = 1)) (VType.ofCode (fld w 19 4)) (Fin.ofNat 16 (fld w 7 4)) (Fin.ofNat 16 (fld w 11 4)))
  | 6 => some (.vnegInt (decide (fld w 23 1 = 1)) (VType.ofCode (fld w 19 4)) (Fin.ofNat 16 (fld w 7 4)) (Fin.ofNat 16 (fld w 11 4)))
  | 8 => some (.vand (VType.ofCode (fld w 19 4)) (Fin.ofNat 16 (fld w 7 4)) (Fin.ofNat 16 (fld w 11 4)) (Fin.ofNat 16 (fld w 15 4)))
  | 9 => some (.vor (VType.ofCode (fld w 19 4)) (Fin.ofNat 16 (fld w 7 4)) (Fin.ofNat 16 (fld w 11 4)) (Fin.ofNat 16 (fld w 15 4)))
  | 10 => some (.vxor (VType.ofCode (fld w 19 4)) (Fin.ofNat 16 (fld w 7 4)) (Fin.ofNat 16 (fld w 11 4)) (Fin.ofNat 16 (fld w 15 4)))
  | 12 => some (.vshl (VType.ofCode (fld w 19 4)) (Fin.ofNat 16 (fld w 7 4)) (Fin.ofNat 16 (fld w 11 4)) (Fin.ofNat 16 (fld w 15 4)))
  | 13 => some (.vshr (VType.ofCode (fld w 19 4)) (Fin.ofNat 16 (fld w 7 4)) (Fin.ofNat 16 (fld w 11 4)) (Fin.ofNat 16 (fld w 15 4)))
  | 14 => some (.vsra (VType.ofCode (fld w 19 4)) (Fin.ofNat 16 (fld w 7 4)) (Fin.ofNat 16 (fld w 11 4)) (Fin.ofNat 16 (fld w 15 4)))
  | _ => none

/-- Fields of major 0x21 by its function code (R160). -/
def major21 (w : Nat) : Option Instr :=
  match fld w 26 6 with
  | 0 => some (.vaddFp (Round.ofCode (fld w 23 3)) (VType.ofCode (fld w 19 4)) (Fin.ofNat 16 (fld w 7 4)) (Fin.ofNat 16 (fld w 11 4)) (Fin.ofNat 16 (fld w 15 4)))
  | 1 => some (.vsubFp (Round.ofCode (fld w 23 3)) (VType.ofCode (fld w 19 4)) (Fin.ofNat 16 (fld w 7 4)) (Fin.ofNat 16 (fld w 11 4)) (Fin.ofNat 16 (fld w 15 4)))
  | 2 => some (.vmulFp (Round.ofCode (fld w 23 3)) (VType.ofCode (fld w 19 4)) (Fin.ofNat 16 (fld w 7 4)) (Fin.ofNat 16 (fld w 11 4)) (Fin.ofNat 16 (fld w 15 4)))
  | 3 => some (.vminFp (VType.ofCode (fld w 19 4)) (Fin.ofNat 16 (fld w 7 4)) (Fin.ofNat 16 (fld w 11 4)) (Fin.ofNat 16 (fld w 15 4)))
  | 4 => some (.vmaxFp (VType.ofCode (fld w 19 4)) (Fin.ofNat 16 (fld w 7 4)) (Fin.ofNat 16 (fld w 11 4)) (Fin.ofNat 16 (fld w 15 4)))
  | 5 => some (.vabsFp (VType.ofCode (fld w 19 4)) (Fin.ofNat 16 (fld w 7 4)) (Fin.ofNat 16 (fld w 11 4)))
  | 6 => some (.vnegFp (VType.ofCode (fld w 19 4)) (Fin.ofNat 16 (fld w 7 4)) (Fin.ofNat 16 (fld w 11 4)))
  | 7 => some (.vdiv (Round.ofCode (fld w 23 3)) (VType.ofCode (fld w 19 4)) (Fin.ofNat 16 (fld w 7 4)) (Fin.ofNat 16 (fld w 11 4)) (Fin.ofNat 16 (fld w 15 4)))
  | 8 => some (.vsqrt (Round.ofCode (fld w 23 3)) (VType.ofCode (fld w 19 4)) (Fin.ofNat 16 (fld w 7 4)) (Fin.ofNat 16 (fld w 11 4)))
  | _ => none

/-- Fields of major 0x22 by its function code (R160). -/
def major22 (w : Nat) : Option Instr :=
  match fld w 26 6 with
  | 0 => some (.vfma (Round.ofCode (fld w 23 3)) (VType.ofCode (fld w 19 4)) (Fin.ofNat 16 (fld w 7 4)) (Fin.ofNat 16 (fld w 11 4)) (Fin.ofNat 16 (fld w 15 4)))
  | 1 => some (.vfms (Round.ofCode (fld w 23 3)) (VType.ofCode (fld w 19 4)) (Fin.ofNat 16 (fld w 7 4)) (Fin.ofNat 16 (fld w 11 4)) (Fin.ofNat 16 (fld w 15 4)))
  | _ => none

/-- Fields of major 0x23 by its function code (R160). -/
def major23 (w : Nat) : Option Instr :=
  match fld w 26 6 with
  | 0 => some (.vcmp (VCond.ofCode (fld w 23 3)) (VType.ofCode (fld w 19 4)) (Fin.ofNat 16 (fld w 7 4)) (Fin.ofNat 16 (fld w 11 4)) (Fin.ofNat 16 (fld w 15 4)))
  | 1 => some (.vsel (VType.ofCode (fld w 19 4)) (Fin.ofNat 16 (fld w 7 4)) (Fin.ofNat 16 (fld w 11 4)) (Fin.ofNat 16 (fld w 15 4)))
  | 2 => some (.vmov (VType.ofCode (fld w 19 4)) (Fin.ofNat 16 (fld w 7 4)) (Fin.ofNat 16 (fld w 11 4)))
  | 3 => some (.vbcast (VType.ofCode (fld w 19 4)) (Fin.ofNat 16 (fld w 7 4)) (Fin.ofNat 16 (fld w 11 4)))
  | _ => none

/-- Fields of major 0x24 by its function code (R160). -/
def major24 (w : Nat) : Option Instr :=
  match fld w 26 6 with
  | 32 => some (.vqnt (Round.ofCode (fld w 23 3)) (VType.ofCode (fld w 19 4)) (Fin.ofNat 16 (fld w 7 4)) (Fin.ofNat 16 (fld w 11 4)) (Fin.ofNat 8 (fld w 15 3)))
  | 33 => some (.vdeq (Round.ofCode (fld w 23 3)) (VType.ofCode (fld w 19 4)) (Fin.ofNat 16 (fld w 7 4)) (Fin.ofNat 16 (fld w 11 4)))
  | 34 => some (.vplane (decide (fld w 23 1 = 1)) (Fin.ofNat 16 (fld w 7 4)) (Fin.ofNat 16 (fld w 11 4)))
  | _ => some (.vcvt (decide (fld w 30 1 = 1)) (VType.ofCode (fld w 26 4)) (Round.ofCode (fld w 23 3)) (VType.ofCode (fld w 19 4)) (Fin.ofNat 16 (fld w 7 4)) (Fin.ofNat 16 (fld w 11 4)) (Fin.ofNat 8 (fld w 15 3)))

/-- Fields of major 0x25 by its function code (R160). -/
def major25 (w : Nat) : Option Instr :=
  match fld w 26 6 with
  | 0 => some (.vrsum (Round.ofCode (fld w 23 3)) (VType.ofCode (fld w 19 4)) (Fin.ofNat 16 (fld w 7 4)) (Fin.ofNat 16 (fld w 11 4)))
  | 1 => some (.vrmax (VType.ofCode (fld w 19 4)) (Fin.ofNat 16 (fld w 7 4)) (Fin.ofNat 16 (fld w 11 4)))
  | 2 => some (.vrmin (VType.ofCode (fld w 19 4)) (Fin.ofNat 16 (fld w 7 4)) (Fin.ofNat 16 (fld w 11 4)))
  | 8 => some (.vidx (VType.ofCode (fld w 19 4)) (Fin.ofNat 16 (fld w 7 4)))
  | 9 => some (.vgath (VType.ofCode (fld w 19 4)) (Fin.ofNat 16 (fld w 7 4)) (Fin.ofNat 16 (fld w 11 4)) (Fin.ofNat 16 (fld w 15 4)))
  | 10 => some (.vscat (VType.ofCode (fld w 19 4)) (Fin.ofNat 16 (fld w 7 4)) (Fin.ofNat 16 (fld w 11 4)) (Fin.ofNat 16 (fld w 15 4)))
  | 11 => some (.vperm (VType.ofCode (fld w 19 4)) (Fin.ofNat 16 (fld w 7 4)) (Fin.ofNat 16 (fld w 11 4)) (Fin.ofNat 16 (fld w 15 4)))
  | _ => none

/-- Fields of major 0x26 by its function code (R160). -/
def major26 (w : Nat) : Option Instr :=
  match fld w 26 6 with
  | 0 => some (.edge (Fin.ofNat 16 (fld w 7 4)) (Fin.ofNat 16 (fld w 11 4)) (Fin.ofNat 16 (fld w 15 4)))
  | 1 => some (.boxt (Fin.ofNat 16 (fld w 7 4)) (Fin.ofNat 16 (fld w 11 4)) (Fin.ofNat 16 (fld w 15 4)))
  | 2 => some (.txdec (VType.ofCode (fld w 19 4)) (Fin.ofNat 16 (fld w 7 4)) (Fin.ofNat 16 (fld w 11 4)) (Fin.ofNat 16 (fld w 15 4)))
  | 3 => some (.trav (Fin.ofNat 16 (fld w 7 4)) (Fin.ofNat 16 (fld w 11 4)))
  | _ => none

/-- Fields of major 0x28 by its function code (R160). -/
def major28 (w : Nat) : Option Instr :=
  match fld w 22 4 with
  | 0 => some (.lznew (Fin.ofNat 8 (fld w 7 3)) (Fin.ofNat 32 (fld w 12 5)) (Fin.ofNat 32 (fld w 17 5)))
  | 1 => some (.lzmov (Fin.ofNat 8 (fld w 7 3)) (Fin.ofNat 8 (fld w 12 3)))
  | 2 => some (.lzcpl (Fin.ofNat 8 (fld w 7 3)) (Fin.ofNat 8 (fld w 12 3)))
  | 3 => some (.lzlt (Fin.ofNat 4 (fld w 7 2)) (Fin.ofNat 8 (fld w 12 3)) (Fin.ofNat 32 (fld w 17 5)))
  | 4 => some (.lzlt2 (Fin.ofNat 4 (fld w 7 2)) (Fin.ofNat 8 (fld w 12 3)) (Fin.ofNat 8 (fld w 17 3)))
  | 5 => some (.lzbern (Fin.ofNat 4 (fld w 7 2)) (Fin.ofNat 8 (fld w 12 3)) (Fin.ofNat 32 (fld w 17 5)))
  | 6 => some (.lzbits (Fin.ofNat 32 (fld w 7 5)) (Fin.ofNat 8 (fld w 12 3)) (BitVec.ofNat 6 (fld w 26 6)))
  | 7 => some (.lzst (Fin.ofNat 32 (fld w 12 5)) (Fin.ofNat 8 (fld w 17 3)))
  | 8 => some (.lzld (Fin.ofNat 8 (fld w 7 3)) (Fin.ofNat 32 (fld w 12 5)))
  | _ => none

/-- Fields of major 0x29 by its function code (R160). -/
def major29 (w : Nat) : Option Instr :=
  match fld w 27 5 with
  | 0 => some (.mmaI (decide (fld w 26 1 = 1)) (Fin.ofNat 32 (fld w 21 5)) (Fin.ofNat 4 (fld w 19 2)) (Fin.ofNat 64 (fld w 7 6)) (Fin.ofNat 64 (fld w 13 6)))
  | 1 => some (.mmaS (Fin.ofNat 32 (fld w 21 5)) (Fin.ofNat 4 (fld w 19 2)) (Fin.ofNat 64 (fld w 7 6)) (Fin.ofNat 64 (fld w 13 6)))
  | 2 => some (.gmm (Fin.ofNat 32 (fld w 21 5)) (Fin.ofNat 4 (fld w 19 2)) (Fin.ofNat 64 (fld w 7 6)) (Fin.ofNat 64 (fld w 13 6)))
  | _ => none

/-- Fields of major 0x2A by its function code (R160). -/
def major2A (w : Nat) : Option Instr :=
  match fld w 27 5 with
  | 0 => some (.gath (Fin.ofNat 32 (fld w 21 5)) (Fin.ofNat 64 (fld w 7 6)))
  | 1 => some (.mmz (Fin.ofNat 32 (fld w 21 5)) (Fin.ofNat 4 (fld w 19 2)))
  | 2 => some (.mmld (Fin.ofNat 32 (fld w 21 5)) (Fin.ofNat 4 (fld w 19 2)) (Fin.ofNat 64 (fld w 7 6)))
  | 3 => some (.mmst (decide (fld w 26 1 = 1)) (Fin.ofNat 32 (fld w 21 5)) (Fin.ofNat 64 (fld w 7 6)) (Fin.ofNat 4 (fld w 19 2)))
  | _ => none

/-- Fields of major 0x2B by its function code (R160). -/
def major2B (w : Nat) : Option Instr :=
  match fld w 27 5 with
  | 0 => some (.cpy (Fin.ofNat 32 (fld w 21 5)) (Fin.ofNat 64 (fld w 7 6)) (Fin.ofNat 64 (fld w 13 6)))
  | 1 => some (.cpyt (Fin.ofNat 32 (fld w 21 5)) (Fin.ofNat 64 (fld w 7 6)) (Fin.ofNat 64 (fld w 13 6)))
  | 2 => some (.cpyx (Fin.ofNat 32 (fld w 21 5)) (Fin.ofNat 64 (fld w 7 6)) (Fin.ofNat 64 (fld w 13 6)))
  | 3 => some (.cpym (Fin.ofNat 32 (fld w 21 5)) (Fin.ofNat 4 (fld w 19 2)) (Fin.ofNat 64 (fld w 7 6)) (Fin.ofNat 64 (fld w 13 6)))
  | _ => none

/-- Fields of major 0x2C by its function code (R160). -/
def major2C (w : Nat) : Option Instr :=
  match fld w 27 5 with
  | 0 => some (.collAr (Fin.ofNat 32 (fld w 21 5)) (Fin.ofNat 64 (fld w 7 6)) (Fin.ofNat 64 (fld w 13 6)))
  | 1 => some (.collRs (Fin.ofNat 32 (fld w 21 5)) (Fin.ofNat 64 (fld w 7 6)) (Fin.ofNat 64 (fld w 13 6)))
  | 2 => some (.collAg (Fin.ofNat 32 (fld w 21 5)) (Fin.ofNat 64 (fld w 7 6)) (Fin.ofNat 64 (fld w 13 6)))
  | 16 => some (.cwait (Fin.ofNat 32 (fld w 21 5)))
  | _ => none

/-- Fields of major 0x2D by its function code (R160). -/
def major2D (w : Nat) : Option Instr :=
  match fld w 22 10 with
  | 0 => some (.nextt (Fin.ofNat 32 (fld w 7 5)) (Fin.ofNat 32 (fld w 17 5)))
  | 1 => some (.tdone (Fin.ofNat 32 (fld w 12 5)))
  | 2 => some (.tgive (Fin.ofNat 32 (fld w 12 5)))
  | 3 => some (.schw (Fin.ofNat 32 (fld w 12 5)))
  | 4 => some (.schr (Fin.ofNat 32 (fld w 12 5)))
  | _ => none

/-- Fields of major 0x2E by its function code (R160). -/
def major2E (w : Nat) : Option Instr :=
  match fld w 22 7 with
  | 0 => some (.lyrnew (Fin.ofNat 32 (fld w 7 5)))
  | 1 => some (.lyrfree (Fin.ofNat 32 (fld w 12 5)))
  | 2 => some (.lyrset (BitVec.ofNat 3 (fld w 29 3)) (Fin.ofNat 32 (fld w 12 5)) (Fin.ofNat 32 (fld w 17 5)))
  | 3 => some (.lyrget (BitVec.ofNat 3 (fld w 29 3)) (Fin.ofNat 32 (fld w 7 5)) (Fin.ofNat 32 (fld w 12 5)))
  | 4 => some (.lyrcommit (Fin.ofNat 32 (fld w 7 5)) (Fin.ofNat 32 (fld w 12 5)) (Fin.ofNat 32 (fld w 17 5)))
  | 5 => some (.lyrsplit (Fin.ofNat 32 (fld w 7 5)) (Fin.ofNat 32 (fld w 12 5)))
  | 6 => some (.lyrmerge (Fin.ofNat 32 (fld w 12 5)) (Fin.ofNat 32 (fld w 17 5)))
  | 7 => some (.lyrdep (BitVec.ofNat 3 (fld w 29 3)) (Fin.ofNat 32 (fld w 7 5)) (Fin.ofNat 32 (fld w 12 5)) (Fin.ofNat 32 (fld w 17 5)))
  | 8 => some (.lyrord (Fin.ofNat 32 (fld w 7 5)) (Fin.ofNat 32 (fld w 12 5)) (Fin.ofNat 32 (fld w 17 5)))
  | 16 => some (.pose (Fin.ofNat 32 (fld w 12 5)) (Fin.ofNat 32 (fld w 17 5)))
  | 17 => some (.rls (Fin.ofNat 32 (fld w 7 5)) (Fin.ofNat 32 (fld w 12 5)) (Fin.ofNat 32 (fld w 17 5)))
  | _ => none

/-- Fields of major 0x2F by its function code (R160). -/
def major2F (w : Nat) : Option Instr :=
  match fld w 22 4 with
  | 0 => some (.tdset (Fin.ofNat 64 (fld w 26 6)) (Fin.ofNat 32 (fld w 7 5)) (Fin.ofNat 32 (fld w 12 5)) (Fin.ofNat 32 (fld w 17 5)))
  | 1 => some (.tdget (Fin.ofNat 64 (fld w 26 6)) (Fin.ofNat 32 (fld w 7 5)) (BitVec.ofNat 5 (fld w 17 5)))
  | 2 => some (.tdinv (Fin.ofNat 64 (fld w 26 6)))
  | 8 => some (.lnch (Fin.ofNat 32 (fld w 7 5)) (Fin.ofNat 32 (fld w 12 5)))
  | _ => none

/-- Fields of major 0x30 by its function code (R160). -/
def major30 (w : Nat) : Option Instr :=
  match fld w 22 10 with
  | 0 => some (.chbind (Fin.ofNat 32 (fld w 7 5)) (Fin.ofNat 32 (fld w 12 5)))
  | 1 => some (.chfree (Fin.ofNat 32 (fld w 7 5)))
  | 2 => some (.snd (Fin.ofNat 32 (fld w 12 5)) (Fin.ofNat 32 (fld w 17 5)))
  | 3 => some (.sndE (Fin.ofNat 32 (fld w 12 5)) (Fin.ofNat 32 (fld w 17 5)))
  | _ => none

/-- Fields of major 0x31 by its function code (R160). -/
def major31 (w : Nat) : Option Instr :=
  match fld w 22 8 with
  | 0 => some (.amoAdd (decide (fld w 30 1 = 1)) (Fin.ofNat 32 (fld w 12 5)) (Fin.ofNat 32 (fld w 17 5)))
  | 1 => some (.amoMin (decide (fld w 30 1 = 1)) (Fin.ofNat 32 (fld w 12 5)) (Fin.ofNat 32 (fld w 17 5)))
  | 2 => some (.amoMax (decide (fld w 30 1 = 1)) (Fin.ofNat 32 (fld w 12 5)) (Fin.ofNat 32 (fld w 17 5)))
  | 3 => some (.amoMinu (decide (fld w 30 1 = 1)) (Fin.ofNat 32 (fld w 12 5)) (Fin.ofNat 32 (fld w 17 5)))
  | 4 => some (.amoMaxu (decide (fld w 30 1 = 1)) (Fin.ofNat 32 (fld w 12 5)) (Fin.ofNat 32 (fld w 17 5)))
  | 5 => some (.amoAnd (decide (fld w 30 1 = 1)) (Fin.ofNat 32 (fld w 12 5)) (Fin.ofNat 32 (fld w 17 5)))
  | 6 => some (.amoOr (decide (fld w 30 1 = 1)) (Fin.ofNat 32 (fld w 12 5)) (Fin.ofNat 32 (fld w 17 5)))
  | 7 => some (.amoXor (decide (fld w 30 1 = 1)) (Fin.ofNat 32 (fld w 12 5)) (Fin.ofNat 32 (fld w 17 5)))
  | _ => none

/-- Fields of major 0x32 by its function code (R160). -/
def major32 (w : Nat) : Option Instr :=
  match fld w 22 10 with
  | 0 => some (.logaddF32 (Fin.ofNat 32 (fld w 7 5)) (Fin.ofNat 32 (fld w 12 5)) (Fin.ofNat 32 (fld w 17 5)))
  | 1 => some (.phend)
  | 16 => some (.fenceCore)
  | 17 => some (.fenceGrove)
  | 18 => some (.fenceDie)
  | 19 => some (.fencePackage)
  | 20 => some (.fenceSystem)
  | 24 => some (.barCore)
  | 25 => some (.barGrove)
  | 26 => some (.barDie)
  | 27 => some (.barPackage)
  | 28 => some (.barSystem)
  | 29 => some (.barLaunch)
  | _ => none

/-- Fields of major 0x33 by its function code (R160). -/
def major33 (w : Nat) : Option Instr :=
  match fld w 22 10 with
  | 0 => some (.gang (Fin.ofNat 32 (fld w 12 5)))
  | 1 => some (.gjoin)
  | 2 => some (.gquit)
  | 8 => some (.hvlend (Fin.ofNat 32 (fld w 12 5)) (Fin.ofNat 32 (fld w 17 5)))
  | 9 => some (.hvreclaim (Fin.ofNat 32 (fld w 12 5)) (Fin.ofNat 32 (fld w 17 5)))
  | _ => none

/-- Fields of major 0x38 by its function code (R160). -/
def major38 (w : Nat) : Option Instr :=
  match fld w 22 10 with
  | 0 => some (.rfe)
  | 1 => some (.tlbinvPage (Fin.ofNat 32 (fld w 12 5)))
  | 2 => some (.tlbinvTenant (Fin.ofNat 32 (fld w 12 5)))
  | 3 => some (.tlbinvAll)
  | 4 => some (.icinv)
  | 8 => some (.ctxsv (Fin.ofNat 32 (fld w 12 5)))
  | 9 => some (.ctxld (Fin.ofNat 32 (fld w 12 5)))
  | 10 => some (.wflush)
  | 16 => some (.sig (Fin.ofNat 32 (fld w 12 5)) (Fin.ofNat 32 (fld w 17 5)))
  | 17 => some (.idle)
  | _ => none

/-- Fields of major 0x39 by its function code (R160). -/
def major39 (w : Nat) : Option Instr :=
  match fld w 29 3 with
  | 0 => some (.mfsr (Fin.ofNat 32 (fld w 7 5)) (SReg.ofCode (fld w 17 12)))
  | 1 => some (.mtsr (SReg.ofCode (fld w 17 12)) (Fin.ofNat 32 (fld w 12 5)))
  | _ => none

/-- The fields of a 32-bit instruction, by its major opcode (R160); a reserved major has none. -/
def fields32 (w : Nat) : Option Instr :=
  match fld w 1 6 with
  | 0x01 => major01 w
  | 0x02 => major02 w
  | 0x03 => major03 w
  | 0x04 => major04 w
  | 0x05 => major05 w
  | 0x06 => major06 w
  | 0x07 => major07 w
  | 0x08 => major08 w
  | 0x09 => major09 w
  | 0x0A => major0A w
  | 0x0B => major0B w
  | 0x0C => major0C w
  | 0x0D => major0D w
  | 0x0E => major0E w
  | 0x0F => major0F w
  | 0x10 => major10 w
  | 0x11 => major11 w
  | 0x12 => major12 w
  | 0x13 => major13 w
  | 0x14 => major14 w
  | 0x15 => major15 w
  | 0x16 => major16 w
  | 0x17 => major17 w
  | 0x18 => major18 w
  | 0x19 => major19 w
  | 0x1A => major1A w
  | 0x1B => major1B w
  | 0x1C => major1C w
  | 0x1D => major1D w
  | 0x1E => major1E w
  | 0x20 => major20 w
  | 0x21 => major21 w
  | 0x22 => major22 w
  | 0x23 => major23 w
  | 0x24 => major24 w
  | 0x25 => major25 w
  | 0x26 => major26 w
  | 0x28 => major28 w
  | 0x29 => major29 w
  | 0x2A => major2A w
  | 0x2B => major2B w
  | 0x2C => major2C w
  | 0x2D => major2D w
  | 0x2E => major2E w
  | 0x2F => major2F w
  | 0x30 => major30 w
  | 0x31 => major31 w
  | 0x32 => major32 w
  | 0x33 => major33 w
  | 0x38 => major38 w
  | 0x39 => major39 w
  | _ => none

/-- The encoder (R154, R156): how many bits the instruction has and its word; none for a step, which has no encoding. Fields the
instruction does not use are 0 (R158). -/
def encode : Instr → Option (Nat × Nat)
  | .mov16 d x => some (16, 0 + d.val * 32 + x.code * 1024)
  | .add16 d x => some (16, 2 + d.val * 32 + x.code * 1024)
  | .sub16 d x => some (16, 4 + d.val * 32 + x.code * 1024)
  | .and16 d x => some (16, 6 + d.val * 32 + x.code * 1024)
  | .or16 d x => some (16, 8 + d.val * 32 + x.code * 1024)
  | .xor16 d x => some (16, 10 + d.val * 32 + x.code * 1024)
  | .shl16 d x => some (16, 12 + d.val * 32 + x.code * 1024)
  | .shr16 d x => some (16, 14 + d.val * 32 + x.code * 1024)
  | .sra16 d x => some (16, 16 + d.val * 32 + x.code * 1024)
  | .mul16 d x => some (16, 18 + d.val * 32 + x.code * 1024)
  | .min16 d x => some (16, 20 + d.val * 32 + x.code * 1024)
  | .max16 d x => some (16, 22 + d.val * 32 + x.code * 1024)
  | .ldw16 d a post => some (16, 24 + d.val * 32 + a.val * 1024 + post.toNat * 32768)
  | .stw16 d a post => some (16, 26 + d.val * 32 + a.val * 1024 + post.toNat * 32768)
  | .ldd16 d a post => some (16, 28 + d.val * 32 + a.val * 1024 + post.toNat * 32768)
  | .std16 d a post => some (16, 30 + d.val * 32 + a.val * 1024 + post.toNat * 32768)
  | .add w d a b => some (32, 3 + w.code * 1073741824 + d.val * 128 + a.val * 4096 + b.val * 131072)
  | .sub w d a b => some (32, 4194307 + w.code * 1073741824 + d.val * 128 + a.val * 4096 + b.val * 131072)
  | .mul w d a b => some (32, 8388611 + w.code * 1073741824 + d.val * 128 + a.val * 4096 + b.val * 131072)
  | .mulh w d a b => some (32, 12582915 + w.code * 1073741824 + d.val * 128 + a.val * 4096 + b.val * 131072)
  | .mulhu w d a b => some (32, 16777219 + w.code * 1073741824 + d.val * 128 + a.val * 4096 + b.val * 131072)
  | .div w d a b => some (32, 20971523 + w.code * 1073741824 + d.val * 128 + a.val * 4096 + b.val * 131072)
  | .divu w d a b => some (32, 25165827 + w.code * 1073741824 + d.val * 128 + a.val * 4096 + b.val * 131072)
  | .rem w d a b => some (32, 29360131 + w.code * 1073741824 + d.val * 128 + a.val * 4096 + b.val * 131072)
  | .remu w d a b => some (32, 33554435 + w.code * 1073741824 + d.val * 128 + a.val * 4096 + b.val * 131072)
  | .and d a b => some (32, 67108867 + d.val * 128 + a.val * 4096 + b.val * 131072)
  | .or d a b => some (32, 71303171 + d.val * 128 + a.val * 4096 + b.val * 131072)
  | .xor d a b => some (32, 75497475 + d.val * 128 + a.val * 4096 + b.val * 131072)
  | .andn d a b => some (32, 79691779 + d.val * 128 + a.val * 4096 + b.val * 131072)
  | .orn d a b => some (32, 83886083 + d.val * 128 + a.val * 4096 + b.val * 131072)
  | .shl w d a b => some (32, 100663299 + w.code * 1073741824 + d.val * 128 + a.val * 4096 + b.val * 131072)
  | .shr w d a b => some (32, 104857603 + w.code * 1073741824 + d.val * 128 + a.val * 4096 + b.val * 131072)
  | .sra w d a b => some (32, 109051907 + w.code * 1073741824 + d.val * 128 + a.val * 4096 + b.val * 131072)
  | .rol w d a b => some (32, 113246211 + w.code * 1073741824 + d.val * 128 + a.val * 4096 + b.val * 131072)
  | .ror w d a b => some (32, 117440515 + w.code * 1073741824 + d.val * 128 + a.val * 4096 + b.val * 131072)
  | .min w d a b => some (32, 134217731 + w.code * 1073741824 + d.val * 128 + a.val * 4096 + b.val * 131072)
  | .max w d a b => some (32, 138412035 + w.code * 1073741824 + d.val * 128 + a.val * 4096 + b.val * 131072)
  | .minu w d a b => some (32, 142606339 + w.code * 1073741824 + d.val * 128 + a.val * 4096 + b.val * 131072)
  | .maxu w d a b => some (32, 146800643 + w.code * 1073741824 + d.val * 128 + a.val * 4096 + b.val * 131072)
  | .clz w d a => some (32, 167772163 + w.code * 1073741824 + d.val * 128 + a.val * 4096)
  | .ctz w d a => some (32, 171966467 + w.code * 1073741824 + d.val * 128 + a.val * 4096)
  | .popc w d a => some (32, 176160771 + w.code * 1073741824 + d.val * 128 + a.val * 4096)
  | .sext w d a => some (32, 180355075 + w.code * 1073741824 + d.val * 128 + a.val * 4096)
  | .zext w d a => some (32, 184549379 + w.code * 1073741824 + d.val * 128 + a.val * 4096)
  | .bfx d a b => some (32, 201326595 + d.val * 128 + a.val * 4096 + b.val * 131072)
  | .bfxu d a b => some (32, 205520899 + d.val * 128 + a.val * 4096 + b.val * 131072)
  | .bfi d a b => some (32, 209715203 + d.val * 128 + a.val * 4096 + b.val * 131072)
  | .bswap w d a => some (32, 213909507 + w.code * 1073741824 + d.val * 128 + a.val * 4096)
  | .addi d a i => some (32, 5 + d.val * 128 + a.val * 4096 + i.toNat * 131072)
  | .andi d a i => some (32, 7 + d.val * 128 + a.val * 4096 + i.toNat * 131072)
  | .ori d a i => some (32, 9 + d.val * 128 + a.val * 4096 + i.toNat * 131072)
  | .xori d a i => some (32, 11 + d.val * 128 + a.val * 4096 + i.toNat * 131072)
  | .shli w d a n => some (32, 13 + w.code * 33554432 + d.val * 128 + a.val * 4096 + n.toNat * 131072)
  | .shri w d a n => some (32, 8388621 + w.code * 33554432 + d.val * 128 + a.val * 4096 + n.toNat * 131072)
  | .srai w d a n => some (32, 16777229 + w.code * 33554432 + d.val * 128 + a.val * 4096 + n.toNat * 131072)
  | .cmpi q c a i => some (32, 15 + q.code * 512 + c.val * 128 + a.val * 4096 + i.toNat * 131072)
  | .cmp q w c a b => some (32, 17 + q.code * 512 + w.code * 1073741824 + c.val * 128 + a.val * 4096 + b.val * 131072)
  | .li d i => some (32, 19 + d.val * 128 + i.toNat * 4096)
  | .lui d i => some (32, 21 + d.val * 128 + i.toNat * 4096)
  | .lea d i => some (32, 23 + d.val * 128 + i.toNat * 4096)
  | .ldb d a i => some (32, 25 + d.val * 128 + a.val * 4096 + i.toNat * 131072)
  | .ldbu d a i => some (32, 27 + d.val * 128 + a.val * 4096 + i.toNat * 131072)
  | .ldh d a i => some (32, 29 + d.val * 128 + a.val * 4096 + i.toNat * 131072)
  | .ldhu d a i => some (32, 31 + d.val * 128 + a.val * 4096 + i.toNat * 131072)
  | .ldw d a i => some (32, 33 + d.val * 128 + a.val * 4096 + i.toNat * 131072)
  | .ldwu d a i => some (32, 35 + d.val * 128 + a.val * 4096 + i.toNat * 131072)
  | .ldd d a i => some (32, 37 + d.val * 128 + a.val * 4096 + i.toNat * 131072)
  | .stb d a i => some (32, 39 + d.val * 128 + a.val * 4096 + i.toNat * 131072)
  | .sth d a i => some (32, 41 + d.val * 128 + a.val * 4096 + i.toNat * 131072)
  | .stw d a i => some (32, 43 + d.val * 128 + a.val * 4096 + i.toNat * 131072)
  | .std d a i => some (32, 45 + d.val * 128 + a.val * 4096 + i.toNat * 131072)
  | .ldAcq w d a => some (32, 47 + w.code * 1073741824 + d.val * 128 + a.val * 4096)
  | .ldFe w d a => some (32, 4194351 + w.code * 1073741824 + d.val * 128 + a.val * 4096)
  | .ldFek w d a => some (32, 8388655 + w.code * 1073741824 + d.val * 128 + a.val * 4096)
  | .stRel w d a => some (32, 33554479 + w.code * 1073741824 + d.val * 128 + a.val * 4096)
  | .stFill w d a => some (32, 37748783 + w.code * 1073741824 + d.val * 128 + a.val * 4096)
  | .tlook d a => some (32, 49 + d.val * 128 + a.val * 4096)
  | .tinst a b k => some (32, 4194353 + a.val * 4096 + b.val * 131072 + k.toNat * 128)
  | .tdrop a => some (32, 8388657 + a.val * 4096)
  | .bt c i => some (32, 563 + c.val * 128 + i.toNat * 2048)
  | .bf c i => some (32, 51 + c.val * 128 + i.toNat * 2048)
  | .btN c i => some (32, 1587 + c.val * 128 + i.toNat * 2048)
  | .bfN c i => some (32, 1075 + c.val * 128 + i.toNat * 2048)
  | .jmp i => some (32, 53 + i.toNat * 128)
  | .call i => some (32, 55 + i.toNat * 128)
  | .jmpr a => some (32, 57 + a.val * 4096)
  | .callr a => some (32, 4194361 + a.val * 4096)
  | .ret => some (32, 8388665)
  | .rep n => some (32, 33554489 + n.toNat * 4096)
  | .repr a => some (32, 37748793 + a.val * 4096)
  | .endUnit => some (32, 67108921)
  | .yield => some (32, 71303225)
  | .nop => some (32, 75497529)
  | .trap code => some (32, 100663353 + code.toNat * 4096)
  | .brk => some (32, 104857657)
  | .pset p a => some (32, 59 + p.val * 128 + a.val * 4096)
  | .pget d p => some (32, 4194363 + d.val * 128 + p.val * 4096)
  | .padd p a => some (32, 8388667 + p.val * 128 + a.val * 4096)
  | .pstr p a => some (32, 12582971 + p.val * 128 + a.val * 4096)
  | .cand c x y => some (32, 61 + c.val * 128 + x.val * 4096 + y.val * 131072)
  | .cor c x y => some (32, 4194365 + c.val * 128 + x.val * 4096 + y.val * 131072)
  | .cxor c x y => some (32, 8388669 + c.val * 128 + x.val * 4096 + y.val * 131072)
  | .cset c a => some (32, 33554493 + c.val * 128 + a.val * 4096)
  | .cget d x => some (32, 37748797 + d.val * 128 + x.val * 4096)
  | .sel d a b c => some (32, 67108925 + d.val * 128 + a.val * 4096 + b.val * 131072 + c.val * 1073741824)
  | .vaddInt sat t d a b => some (32, 65 + sat.toNat * 8388608 + t.code * 524288 + d.val * 128 + a.val * 2048 + b.val * 32768)
  | .vsubInt sat t d a b => some (32, 67108929 + sat.toNat * 8388608 + t.code * 524288 + d.val * 128 + a.val * 2048 + b.val * 32768)
  | .vmulInt sat t d a b => some (32, 134217793 + sat.toNat * 8388608 + t.code * 524288 + d.val * 128 + a.val * 2048 + b.val * 32768)
  | .vminInt t d a b => some (32, 201326657 + t.code * 524288 + d.val * 128 + a.val * 2048 + b.val * 32768)
  | .vmaxInt t d a b => some (32, 268435521 + t.code * 524288 + d.val * 128 + a.val * 2048 + b.val * 32768)
  | .vabsInt sat t d a => some (32, 335544385 + sat.toNat * 8388608 + t.code * 524288 + d.val * 128 + a.val * 2048)
  | .vnegInt sat t d a => some (32, 402653249 + sat.toNat * 8388608 + t.code * 524288 + d.val * 128 + a.val * 2048)
  | .vand t d a b => some (32, 536870977 + t.code * 524288 + d.val * 128 + a.val * 2048 + b.val * 32768)
  | .vor t d a b => some (32, 603979841 + t.code * 524288 + d.val * 128 + a.val * 2048 + b.val * 32768)
  | .vxor t d a b => some (32, 671088705 + t.code * 524288 + d.val * 128 + a.val * 2048 + b.val * 32768)
  | .vshl t d a b => some (32, 805306433 + t.code * 524288 + d.val * 128 + a.val * 2048 + b.val * 32768)
  | .vshr t d a b => some (32, 872415297 + t.code * 524288 + d.val * 128 + a.val * 2048 + b.val * 32768)
  | .vsra t d a b => some (32, 939524161 + t.code * 524288 + d.val * 128 + a.val * 2048 + b.val * 32768)
  | .vaddFp m t d a b => some (32, 67 + m.code * 8388608 + t.code * 524288 + d.val * 128 + a.val * 2048 + b.val * 32768)
  | .vsubFp m t d a b => some (32, 67108931 + m.code * 8388608 + t.code * 524288 + d.val * 128 + a.val * 2048 + b.val * 32768)
  | .vmulFp m t d a b => some (32, 134217795 + m.code * 8388608 + t.code * 524288 + d.val * 128 + a.val * 2048 + b.val * 32768)
  | .vminFp t d a b => some (32, 201326659 + t.code * 524288 + d.val * 128 + a.val * 2048 + b.val * 32768)
  | .vmaxFp t d a b => some (32, 268435523 + t.code * 524288 + d.val * 128 + a.val * 2048 + b.val * 32768)
  | .vabsFp t d a => some (32, 335544387 + t.code * 524288 + d.val * 128 + a.val * 2048)
  | .vnegFp t d a => some (32, 402653251 + t.code * 524288 + d.val * 128 + a.val * 2048)
  | .vdiv m t d a b => some (32, 469762115 + m.code * 8388608 + t.code * 524288 + d.val * 128 + a.val * 2048 + b.val * 32768)
  | .vsqrt m t d a => some (32, 536870979 + m.code * 8388608 + t.code * 524288 + d.val * 128 + a.val * 2048)
  | .vfma m t d a b => some (32, 69 + m.code * 8388608 + t.code * 524288 + d.val * 128 + a.val * 2048 + b.val * 32768)
  | .vfms m t d a b => some (32, 67108933 + m.code * 8388608 + t.code * 524288 + d.val * 128 + a.val * 2048 + b.val * 32768)
  | .vcmp q t d a b => some (32, 71 + q.code * 8388608 + t.code * 524288 + d.val * 128 + a.val * 2048 + b.val * 32768)
  | .vsel t d a b => some (32, 67108935 + t.code * 524288 + d.val * 128 + a.val * 2048 + b.val * 32768)
  | .vmov t d a => some (32, 134217799 + t.code * 524288 + d.val * 128 + a.val * 2048)
  | .vbcast t d a => some (32, 201326663 + t.code * 524288 + d.val * 128 + a.val * 2048)
  | .vcvt sat f m t d a z => some (32, 73 + sat.toNat * 1073741824 + f.code * 67108864 + m.code * 8388608 + t.code * 524288 + d.val * 128 + a.val * 2048 + z.val * 32768)
  | .vqnt m t d a z => some (32, 2147483721 + m.code * 8388608 + t.code * 524288 + d.val * 128 + a.val * 2048 + z.val * 32768)
  | .vdeq m t d a => some (32, 2214592585 + m.code * 8388608 + t.code * 524288 + d.val * 128 + a.val * 2048)
  | .vplane join d a => some (32, 2281701449 + join.toNat * 8388608 + d.val * 128 + a.val * 2048)
  | .vrsum m t d a => some (32, 75 + m.code * 8388608 + t.code * 524288 + d.val * 128 + a.val * 2048)
  | .vrmax t d a => some (32, 67108939 + t.code * 524288 + d.val * 128 + a.val * 2048)
  | .vrmin t d a => some (32, 134217803 + t.code * 524288 + d.val * 128 + a.val * 2048)
  | .vidx t d => some (32, 536870987 + t.code * 524288 + d.val * 128)
  | .vgath t d a b => some (32, 603979851 + t.code * 524288 + d.val * 128 + a.val * 2048 + b.val * 32768)
  | .vscat t d a b => some (32, 671088715 + t.code * 524288 + d.val * 128 + a.val * 2048 + b.val * 32768)
  | .vperm t d a b => some (32, 738197579 + t.code * 524288 + d.val * 128 + a.val * 2048 + b.val * 32768)
  | .edge d a b => some (32, 2097229 + d.val * 128 + a.val * 2048 + b.val * 32768)
  | .boxt d a b => some (32, 69206093 + d.val * 128 + a.val * 2048 + b.val * 32768)
  | .txdec t d a b => some (32, 134217805 + t.code * 524288 + d.val * 128 + a.val * 2048 + b.val * 32768)
  | .trav d a => some (32, 203423821 + d.val * 128 + a.val * 2048)
  | .lznew z a b => some (32, 81 + z.val * 128 + a.val * 4096 + b.val * 131072)
  | .lzmov z y => some (32, 4194385 + z.val * 128 + y.val * 4096)
  | .lzcpl z y => some (32, 8388689 + z.val * 128 + y.val * 4096)
  | .lzlt c y b => some (32, 12582993 + c.val * 128 + y.val * 4096 + b.val * 131072)
  | .lzlt2 c y x => some (32, 16777297 + c.val * 128 + y.val * 4096 + x.val * 131072)
  | .lzbern c y b => some (32, 20971601 + c.val * 128 + y.val * 4096 + b.val * 131072)
  | .lzbits d y k => some (32, 25165905 + d.val * 128 + y.val * 4096 + k.toNat * 67108864)
  | .lzst a z => some (32, 29360209 + a.val * 4096 + z.val * 131072)
  | .lzld z a => some (32, 33554513 + z.val * 128 + a.val * 4096)
  | .mmaI sat tk m da db => some (32, 83 + sat.toNat * 67108864 + tk.val * 2097152 + m.val * 524288 + da.val * 128 + db.val * 8192)
  | .mmaS tk m da db => some (32, 134217811 + tk.val * 2097152 + m.val * 524288 + da.val * 128 + db.val * 8192)
  | .gmm tk m da db => some (32, 268435539 + tk.val * 2097152 + m.val * 524288 + da.val * 128 + db.val * 8192)
  | .gath tk da => some (32, 85 + tk.val * 2097152 + da.val * 128)
  | .mmz tk m => some (32, 134217813 + tk.val * 2097152 + m.val * 524288)
  | .mmld tk m da => some (32, 268435541 + tk.val * 2097152 + m.val * 524288 + da.val * 128)
  | .mmst free tk da m => some (32, 402653269 + free.toNat * 67108864 + tk.val * 2097152 + da.val * 128 + m.val * 524288)
  | .cpy tk da db => some (32, 87 + tk.val * 2097152 + da.val * 128 + db.val * 8192)
  | .cpyt tk da db => some (32, 134217815 + tk.val * 2097152 + da.val * 128 + db.val * 8192)
  | .cpyx tk da db => some (32, 268435543 + tk.val * 2097152 + da.val * 128 + db.val * 8192)
  | .cpym tk m da db => some (32, 402653271 + tk.val * 2097152 + m.val * 524288 + da.val * 128 + db.val * 8192)
  | .collAr tk da db => some (32, 89 + tk.val * 2097152 + da.val * 128 + db.val * 8192)
  | .collRs tk da db => some (32, 134217817 + tk.val * 2097152 + da.val * 128 + db.val * 8192)
  | .collAg tk da db => some (32, 268435545 + tk.val * 2097152 + da.val * 128 + db.val * 8192)
  | .cwait r => some (32, 2147483737 + r.val * 2097152)
  | .nextt d b => some (32, 91 + d.val * 128 + b.val * 131072)
  | .tdone a => some (32, 4194395 + a.val * 4096)
  | .tgive a => some (32, 8388699 + a.val * 4096)
  | .schw a => some (32, 12583003 + a.val * 4096)
  | .schr a => some (32, 16777307 + a.val * 4096)
  | .lyrnew d => some (32, 93 + d.val * 128)
  | .lyrfree a => some (32, 4194397 + a.val * 4096)
  | .lyrset k a b => some (32, 8388701 + k.toNat * 536870912 + a.val * 4096 + b.val * 131072)
  | .lyrget k d a => some (32, 12583005 + k.toNat * 536870912 + d.val * 128 + a.val * 4096)
  | .lyrcommit d a b => some (32, 16777309 + d.val * 128 + a.val * 4096 + b.val * 131072)
  | .lyrsplit d a => some (32, 20971613 + d.val * 128 + a.val * 4096)
  | .lyrmerge a b => some (32, 25165917 + a.val * 4096 + b.val * 131072)
  | .lyrdep k d a b => some (32, 29360221 + k.toNat * 536870912 + d.val * 128 + a.val * 4096 + b.val * 131072)
  | .lyrord d a b => some (32, 33554525 + d.val * 128 + a.val * 4096 + b.val * 131072)
  | .pose a b => some (32, 67108957 + a.val * 4096 + b.val * 131072)
  | .rls d a b => some (32, 71303261 + d.val * 128 + a.val * 4096 + b.val * 131072)
  | .tdset e d a b => some (32, 95 + e.val * 67108864 + d.val * 128 + a.val * 4096 + b.val * 131072)
  | .tdget e d k => some (32, 4194399 + e.val * 67108864 + d.val * 128 + k.toNat * 131072)
  | .tdinv e => some (32, 8388703 + e.val * 67108864)
  | .lnch d a => some (32, 33554527 + d.val * 128 + a.val * 4096)
  | .chbind g a => some (32, 97 + g.val * 128 + a.val * 4096)
  | .chfree g => some (32, 4194401 + g.val * 128)
  | .snd a b => some (32, 8388705 + a.val * 4096 + b.val * 131072)
  | .sndE a b => some (32, 12583009 + a.val * 4096 + b.val * 131072)
  | .amoAdd word a b => some (32, 99 + word.toNat * 1073741824 + a.val * 4096 + b.val * 131072)
  | .amoMin word a b => some (32, 4194403 + word.toNat * 1073741824 + a.val * 4096 + b.val * 131072)
  | .amoMax word a b => some (32, 8388707 + word.toNat * 1073741824 + a.val * 4096 + b.val * 131072)
  | .amoMinu word a b => some (32, 12583011 + word.toNat * 1073741824 + a.val * 4096 + b.val * 131072)
  | .amoMaxu word a b => some (32, 16777315 + word.toNat * 1073741824 + a.val * 4096 + b.val * 131072)
  | .amoAnd word a b => some (32, 20971619 + word.toNat * 1073741824 + a.val * 4096 + b.val * 131072)
  | .amoOr word a b => some (32, 25165923 + word.toNat * 1073741824 + a.val * 4096 + b.val * 131072)
  | .amoXor word a b => some (32, 29360227 + word.toNat * 1073741824 + a.val * 4096 + b.val * 131072)
  | .logaddF32 d a b => some (32, 101 + d.val * 128 + a.val * 4096 + b.val * 131072)
  | .phend => some (32, 4194405)
  | .fenceCore => some (32, 67108965)
  | .fenceGrove => some (32, 71303269)
  | .fenceDie => some (32, 75497573)
  | .fencePackage => some (32, 79691877)
  | .fenceSystem => some (32, 83886181)
  | .barCore => some (32, 100663397)
  | .barGrove => some (32, 104857701)
  | .barDie => some (32, 109052005)
  | .barPackage => some (32, 113246309)
  | .barSystem => some (32, 117440613)
  | .barLaunch => some (32, 121634917)
  | .gang a => some (32, 103 + a.val * 4096)
  | .gjoin => some (32, 4194407)
  | .gquit => some (32, 8388711)
  | .hvlend a b => some (32, 33554535 + a.val * 4096 + b.val * 131072)
  | .hvreclaim a b => some (32, 37748839 + a.val * 4096 + b.val * 131072)
  | .rfe => some (32, 113)
  | .tlbinvPage a => some (32, 4194417 + a.val * 4096)
  | .tlbinvTenant a => some (32, 8388721 + a.val * 4096)
  | .tlbinvAll => some (32, 12583025)
  | .icinv => some (32, 16777329)
  | .ctxsv a => some (32, 33554545 + a.val * 4096)
  | .ctxld a => some (32, 37748849 + a.val * 4096)
  | .wflush => some (32, 41943153)
  | .sig a b => some (32, 67108977 + a.val * 4096 + b.val * 131072)
  | .idle => some (32, 71303281)
  | .mfsr d n => some (32, 115 + d.val * 128 + n.code * 131072)
  | .mtsr n a => some (32, 536871027 + n.code * 131072 + a.val * 4096)
  | .windowSpill _ => none
  | .windowFill _ => none
  | .seat _ => none
  | .forwardedInstruction _ => none
  | .memoryAccessPerformed _ => none
  | .divideComplete _ => none
  | .digitBlock _ => none
  | .vectorGroup _ => none
  | .pageWalk _ _ => none
  | .engineDelivery _ _ => none
  | .commandRetire _ _ _ => none
  | .cpymProduct _ => none
  | .remoteAtomicArrival _ _ => none
  | .messageArrival _ => none
  | .tenantDrop _ => none
  | .barrierRelease _ _ _ => none
  | .reclaimClear _ => none
  | .logExtend _ => none
  | .latchSample _ => none
  | .preempt _ => none
  | .revoke _ => none
  | .signal _ => none
  | .debugRequest _ _ => none
  | .asyncMcheck _ _ => none
  | .watchdog _ => none
  | .probe _ => none
  | .bind _ => none
  | .forcedStop _ => none
  | .cooperativeStop _ => none
  | .stopWithDiscard _ => none
  | .withdraw _ => none
  | .bindRecordWrite _ _ _ _ _ => none
  | .secondVictim _ => none
  | .ageLimit _ => none
  | .launchAdmission _ => none
  | .closePhase _ => none
  | .retireJob _ => none
  | .phaseBoundary _ => none
  | .completion _ => none
  | .cancel _ => none
  | .rerenderRequest _ => none
  | .qualityStep _ _ => none
  | .frameEvaluation => none
  | .frameDeadline => none
  | .frameRelease => none
  | .ptpSync _ => none
  | .holdover => none
  | .inboundRead _ _ _ => none
  | .inboundWrite _ _ _ => none
  | .apertureReadTimeout _ => none
  | .flitReceive _ _ => none
  | .linkDown _ => none
  | .linkRetrain _ => none
  | .powerStateEntry _ => none
  | .powerStateExit _ => none
  | .clockStep _ _ => none
  | .thermalTrip _ => none
  | .scrubPass _ _ _ => none
  | .boot _ => none
  | .recoveryPush _ => none
  | .tailWrite _ _ => none
  | .ringEnable _ _ => none
  | .ringConfigWrite _ _ _ => none
  | .collectiveSetWrite _ _ _ => none
  | .clr _ _ => none
  | .b2vaWrite _ _ => none
  | .hapbaseWrite _ => none
  | .ltolWrite _ _ => none
  | .releaseEnable _ => none
  | .releaseConfigWrite _ _ => none
  | .apertureEnable _ _ _ => none
  | .apertureConfigWrite _ _ _ _ => none
  | .setPowerCap _ => none
  | .createTenant _ _ => none
  | .resizeTenant _ _ => none
  | .destroyTenant _ _ => none
  | .stageImage _ _ => none
  | .commitStagedImage => none
  | .raiseFusedMinimum _ => none
  | .attestationReport _ _ => none
  | .loadCopyCoreRoutine _ _ _ => none
  | .setCoreSupervisor _ _ => none
  | .registerWrite _ _ => none
  | .parkingComplete _ => none
  | .scheduleService _ => none
  | .layerTablePerformed _ => none
  | .permitInstalled _ => none
  | .icinvComplete _ => none
  | .tlbAcknowledgement _ => none

/-- Why bytes are no instruction: too few bytes, the halfword 0x0000 (R150), a reserved major (R160), or an encoding the tables do
not assign (R158). Each but the first raises ILLEGAL. -/
inductive Reject | truncated | zeroHalfword | reservedMajor | unassigned
  deriving DecidableEq, Repr

/-- The instruction a word stands for: its fields make a well-formed instruction whose encoding is the word itself, so that every
field it does not use is 0 and every code is one the tables allow (R158). -/
def checkWord (nbits w : Nat) (i : Instr) : Except Reject Instr :=
  if i.wf && decide (encode i = some (nbits, w)) then .ok i else .error .unassigned

/-- Decodes one instruction of given length in bits (R149). -/
def decodeWord (nbits w : Nat) : Except Reject Instr :=
  if nbits = 16 then
    if w = 0 then .error .zeroHalfword else checkWord 16 w (fields16 w)
  else
    match fields32 w with
    | some i => checkWord 32 w i
    | none => .error .reservedMajor

/-- Decodes the first instruction of a list of bytes: its first bit gives its length (R149); little-endian (R4). -/
def decodeBytes : List Byte → Except Reject (Instr × List Byte)
  | b0 :: b1 :: rest =>
    if b0.toNat % 2 = 0 then (decodeWord 16 (b0.toNat + b1.toNat * 256)).map (·, rest)
    else
      match rest with
      | b2 :: b3 :: rest =>
        (decodeWord 32 (b0.toNat + b1.toNat * 256 + b2.toNat * 65536 + b3.toNat * 16777216)).map (·, rest)
      | _ => .error .truncated
  | _ => .error .truncated

/-- The first n bytes of a number, little-endian. -/
def bytesOf : Nat → Nat → List Byte
  | 0, _ => []
  | n + 1, w => BitVec.ofNat 8 w :: bytesOf n (w / 256)

/-- The instruction the decoder reads from an instruction whose bits, numbered from bit 0 of its first halfword, are w; bits above
nbits are 0. -/
def decodeTableWord (nbits w : Nat) : Option Instr :=
  match decodeBytes (bytesOf 4 (w % 2 ^ nbits)) with
  | .ok (i, _) => some i
  | .error _ => none

end Sys2Proof
end

