-- ==== Sys2Proof/Machine/Power.lean ====
section
/-! DEFINITION. Power states (R372, R373), clock steps and the thermal trip (R374, R375), scrubbing (R377). -/

namespace Sys2Proof.Machine

/-! ### Latency tolerance (R373) -/

/-- The latency tolerance of a function. -/
def ltolOf (s : State) (f : Nat) : Nat := (sparseGet 0xFFFFFFFF s.sys.host.ltol f).toNat

/-- The tolerance in force on a core: the smallest of the PF's and those of the functions whose tenant's rectangle contains it. -/
def tolerance (s : State) (core : Nat) : Nat :=
  (List.range 16).foldl (fun m v => if inRect (s.tenant (BitVec.ofNat 4 v)) core then Nat.min m (ltolOf s v) else m) (ltolOf s 16)

/-- Whether every one of `n` cores from `c` on tolerates an exit latency. -/
def tolerates (s : State) (c n ns : Nat) : Bool := (List.range n).all fun i => decide (ns ≤ tolerance s (c + i))

/-! ### Conditions (R372) -/

/-- No slot or bank bound. -/
def coreIdle (s : State) (c : Nat) : Bool := (s.placesOn c).isEmpty

/-- Nor any window, tag-table entry, lent range or mapped tile. -/
def coreEmpty (s : State) (c : Nat) : Bool :=
  let k := s.coreBy c
  coreIdle s c && k.windows.isEmpty && k.tags.isEmpty && k.lents.isEmpty && k.owners.toList.all fun o => o.isNone

/-- All cores of a grove in C2, and its copy engine idle. -/
def groveIdle (s : State) (g : Nat) : Bool :=
  (List.range 16).all fun i =>
    s.sys.power.c2.contains (16 * g + i) && !((s.coreBy (16 * g + i)).cmds.any fun c => decide (c.cls = .copy))

/-- Whether some layer is live (R129). -/
def anyLayerLive (s : State) : Bool := s.sys.layers.table.any fun e => decide (e.2.state = 1)

/-- All groves of a die in G2, no live layer, LPDDR 6 in self-refresh, and no release in progress (R373). -/
def dieIdle (s : State) (d : Nat) : Bool :=
  ((List.range 16).all fun i => s.sys.power.g2.contains (16 * d + i)) && !anyLayerLive s && s.sys.power.refresh.contains d && !s.sys.rel.en

/-- The first core of a part, its cores, its exit latency in nanoseconds, and whether its condition holds. -/
def partRule (s : State) : Part → Nat × Nat × Nat × Bool
  | .coreC1 c => (coreNum c, 1, 20, coreIdle s (coreNum c))
  | .coreC2 c => (coreNum c, 1, 2000, coreEmpty s (coreNum c))
  | .grove d g => (16 * (16 * d.val + g.val), 16, 5000, groveIdle s (16 * d.val + g.val))
  | .die d => (256 * d.val, 256, 30000, dieIdle s d.val)

/-- Whether a part may be in its state. -/
def partMay (s : State) (x : Part) : Bool :=
  let r := partRule s x
  r.2.2.2 && tolerates s r.1 r.2.1 r.2.2.1

/-- Replace the power states. -/
def State.withPower (s : State) (p : Power) : State := s.withSys { s.sys with power := p }

/-- The L1 TLB of a core loses its entries. -/
def dropL1 (s : State) (c : Nat) : State := s.putCore c { s.coreBy c with tlb := [] }

/-- A part enters its state. A core in C2 loses the entries of its L1 TLB, a die in D1 those of its last-level TLB. -/
def enterPart (s : State) (x : Part) : State :=
  let p := s.sys.power
  match x with
  | .coreC1 c => s.withPower { p with c1 := insertNat (coreNum c) p.c1 }
  | .coreC2 c => (dropL1 s (coreNum c)).withPower { p with c2 := insertNat (coreNum c) p.c2 }
  | .grove d g => s.withPower { p with g2 := insertNat (16 * d.val + g.val) p.g2 }
  | .die d =>
    let s := s.withPower { p with d1 := insertNat d.val p.d1 }
    s.withSys { s.sys with tlb := s.sys.tlb.filter fun e => !decide (e.die = d.val) }

/-- A part leaves its state, and with it every state whose condition rests on it. -/
def leavePart (p : Power) : Part → Power
  | .coreC1 c =>
    let n := coreNum c
    { p with c1 := p.c1.filter (· ≠ n), c2 := p.c2.filter (· ≠ n), g2 := p.g2.filter (· ≠ n / 16), d1 := p.d1.filter (· ≠ n / 256) }
  | .coreC2 c =>
    let n := coreNum c
    { p with c2 := p.c2.filter (· ≠ n), g2 := p.g2.filter (· ≠ n / 16), d1 := p.d1.filter (· ≠ n / 256) }
  | .grove d g => { p with g2 := p.g2.filter (· ≠ 16 * d.val + g.val), d1 := p.d1.filter (· ≠ d.val) }
  | .die d => { p with d1 := p.d1.filter (· ≠ d.val) }

/-- POWER_STATE_ENTRY: only while the condition holds and the tolerance allows it. -/
def execPowerStateEntry (x : Part) (s : State) : Out := .next (if partMay s x then enterPart s x else s)

/-- POWER_STATE_EXIT. -/
def execPowerStateExit (x : Part) (s : State) : Out := .next (s.withPower (leavePart s.sys.power x))

/-- The grove and the die of a number. -/
def groveOf (n : Nat) : Part := .grove ⟨n / 16 % 16, Nat.mod_lt _ (by decide)⟩ ⟨n % 16, Nat.mod_lt _ (by decide)⟩
def dieOf (n : Nat) : Part := .die ⟨n % 16, Nat.mod_lt _ (by decide)⟩

/-- The parts that are in a state they may no longer be in. -/
def partsToLeave (s : State) : List Part :=
  let p := s.sys.power
  (p.c1.map (fun c => Part.coreC1 (coreOf c)) ++ p.c2.map (fun c => Part.coreC2 (coreOf c)) ++ p.g2.map groveOf ++ p.d1.map dieOf).filter
    fun x => !partMay s x

/-- Parts that may no longer be in their states leave them (R372). -/
def leaveParts (s : State) : State :=
  let l := partsToLeave s
  if l.isEmpty then s else s.withPower (l.foldl leavePart s.sys.power)

/-- LTOL_WRITE (R373): parts that a lowered tolerance does not allow leave their states. -/
def execLtolWrite (f : Fin 17) (v : BitVec 32) (s : State) : Out :=
  let s1 := s.withHost { s.sys.host with ltol := sparsePut 0xFFFFFFFF s.sys.host.ltol f.val v }
  .next (leaveParts s1)

/-! ### Clocks and heat -/

/-- The clock step of a die, in sixteenths of 1.1 GHz. -/
def clockOf (s : State) (d : Nat) : Nat := sparseGet 16 s.sys.power.clock d

/-- Set the clock step of a die. -/
def setClock (s : State) (d k : Nat) : State := s.withPower { s.sys.power with clock := sparsePut 16 s.sys.power.clock d k }

/-- Telemetry of a die. -/
def State.tele (s : State) (d : Nat) : Telemetry := sparseGet {} s.sys.tele d

/-- Replace the telemetry of a die. -/
def State.putTele (s : State) (d : Nat) (t : Telemetry) : State := s.withSys { s.sys with tele := sparsePut {} s.sys.tele d t }

/-- The module's power in milliwatts: the sum of its dies'. -/
def modulePower (s : State) : Nat := (s.sys.tele.map fun e => e.2.power.toNat).sum

/-- Whether a die has to slow down: not under its budget of 320 W, not under 750 W/cm² of local flux, at 105 °C, or the module not under its cap
(R374, R375). -/
def overLimit (s : State) (d : Nat) : Bool :=
  let t := s.tele d
  decide (320000 ≤ t.power.toNat ∨ 750 ≤ t.flux.toNat ∨ 105 * 16 ≤ t.tmax.toNat ∨ s.sys.mail.cap * 1000 ≤ modulePower s)

/-- A die's clock goes down one step, to no less than 4. -/
def slowDown (s : State) (d : Nat) : State := if 4 < clockOf s d then setClock s d (clockOf s d - 1) else s

/-- CLOCK_STEP (R374): the forester reads the local flux, in W/cm², and the power, in mW, of a die. Over a limit the die slows down; otherwise its
clock takes the step asked for, 4 to 16, one step at a time. -/
def execClockStep (d : Fin 16) (x : ClockInput) (s : State) : Out :=
  let s := s.putTele d.val { s.tele d.val with flux := BitVec.ofNat 16 x.flux, power := BitVec.ofNat 32 x.power }
  let old := clockOf s d.val
  .next (if overLimit s d.val then slowDown s d.val
    else if 4 ≤ x.k ∧ x.k ≤ 16 ∧ (x.k = old + 1 ∨ x.k + 1 = old) then setClock s d.val x.k
    else s)

/-- THERMAL_TRIP (R375): a reading of the hottest junction of a die. At 115 °C every clock stops, and an I3C in-band
interrupt is raised; at 105 °C the die slows down. -/
def execThermalTrip (x : Junction) (s : State) : Out :=
  let s := s.putTele x.did.val { s.tele x.did.val with tmax := BitVec.ofNat 16 x.sixteenths }
  .next (if 115 * 16 ≤ x.sixteenths then (s.withPower { s.sys.power with stopped := true }).withHost { s.sys.host with i3c := s.sys.host.i3c + 1 }
    else if 105 * 16 ≤ x.sixteenths then slowDown s x.did.val
    else s)

/-! ### Scrubbing (R377) -/

/-- Whether a physical address lies in the canopy or the LPDDR 6 of a die of this module (R332). -/
def inDieMemory (s : State) (d : Nat) (lpddr : Bool) (pa : Nat) : Bool :=
  let a := pa % 2 ^ 48
  decide (pa / 2 ^ 48 = s.sys.host.mid.toNat) &&
    (if lpddr then decide (0x1000000000 + 0x800000000 * d ≤ a ∧ a < 0x1000000000 + 0x800000000 * (d + 1))
     else decide (0xC0000000 * d ≤ a ∧ a < 0xC0000000 * (d + 1)))

/-- SCRUB_PASS: `found` are addresses whose words have become uncorrectable since they were last met. Every uncorrectable word of the memory
is counted and logged, and stays as it is. The die's memory has work, so it wakes (R372). -/
def execScrubPass (d : Fin 16) (lpddr : Bool) (found : List Nat) (s : State) : Out :=
  let s := wakeDie s d.val lpddr
  let new := (found.filter (inDieMemory s d.val lpddr)).map fun pa => pa / protectedSize pa * protectedSize pa
  let bad := new.foldl (fun l g => insertNat g l) s.sys.bad
  let met := bad.filter (inDieMemory s d.val lpddr)
  let t := sparseGet {} s.sys.tele d.val
  let t := { t with ue := t.ue + BitVec.ofNat 32 met.length, scrub := t.scrub + 1 }
  let s1 := s.withSys { s.sys with bad := bad, tele := sparsePut {} s.sys.tele d.val t }
  .next (met.foldl (fun s g => logError s (.scrub g)) s1)

end Sys2Proof.Machine
end

