-- ==== Sys2Proof/Machine/Issue.lean ====
section
/-! DEFINITION. What a thread does in its turn: fetching (R149, R193), the order of checks (R159), deferred and asynchronous events
(R312, R320, R321), skipping annulled entries (R193), forwarding in a gang (R25); and whose turn is next (R9 to R11). -/

namespace Sys2Proof.Machine

/-! ### Fetching -/

/-- The halfwords of the instruction at `e0`: its length in bits and its word (R149). -/
def fetchInstr (s : State) : Except Ev (Nat × Nat) :=
  match fetchHalf s s.th s.th.sr.pl s.th.pcq.e0.addr with
  | .error e => .error e
  | .ok h =>
    if h % 2 = 0 then .ok (16, h)
    else match fetchHalf s s.th s.th.sr.pl (s.th.pcq.e0.addr + 2) with
      | .error e => .error e
      | .ok h2 => .ok (32, h + 65536 * h2)

/-- The fetches of the instruction at the head, of `nbits` bits, leave what they read in TLBs and instruction cache (R270, R336). -/
def fetchedHead (s : State) (nbits : Nat) : State :=
  let a := s.th.pcq.e0.addr
  if nbits = 32 then fetched (fetched s a) (a + 2) else fetched s a

/-- Latch the length of the instruction at `e2` (R193). -/
def latchE2 (s : State) (long : Bool) : State :=
  s.withTh { s.th with pcq := { s.th.pcq with e2long := long } }

/-- Whether an instruction may be repeated: majors 0x20 to 0x25 (R198). -/
def repeatable (i : Instr) : Bool :=
  match encode i with
  | some (nbits, w) => decide (nbits = 32 ∧ 0x20 ≤ w / 2 % 64 ∧ w / 2 % 64 ≤ 0x25)
  | none => false

/-- What a thread's turn comes to. -/
inductive Action
  /-- A step of the machine for this thread: a completion, or an event that is taken. -/
  | perform (k : Task)
  /-- An instruction issues in this state. -/
  | issue (i : Instr) (s : State)
  /-- An instruction would issue while a request is eligible: the request is taken unless the instruction raises an event or retires
  the unit (R321). -/
  | contend (i : Instr) (s : State) (k : Task)
  | event (e : Ev) (s : State)
  /-- A fetch at an address has to walk the tables first: the thread waits out of rotation until the walk completes (R336). -/
  | walk (va : Word)
  | skip (s : State)
  /-- The turn passes. -/
  | pass

/-- An instruction about to issue, once it is decoded: a pending count needs an instruction that may be repeated (R198). -/
def issueChecked (i : Instr) (s : State) : Action :=
  if decide (s.th.pcq.repLeft ≠ 0) && !repeatable i then .event ⟨evIllegal, s.th.pcq.e0.addr⟩ s else .issue i s

/-- What a turn comes to that fetches at an address: a walk, where no TLB holds its leaf (R13, R336). -/
def walkFirst (s : State) (va : Word) (a : Action) : Action := if walksFor s s.th.id.tenant va then .walk va else a

/-- The walk that the fetch of the instruction at `e0` waits for: of its first halfword or, where that one is the first of two, of its second
(R336). -/
def headWalk (s : State) (a : Action) : Action :=
  let pc := s.th.pcq.e0.addr
  walkFirst s pc (match fetchHalf s s.th s.th.sr.pl pc with
    | .ok h => if h % 2 = 0 then a else walkFirst s (pc + 2) a
    | .error _ => a)

/-- Fetch and decode at `e0`, and fetch the first halfword at `e2`, which `end` alone does not need (R159, R193). -/
def prepare (s : State) : Action :=
  headWalk s <| match fetchInstr s with
  | .error e => .event e s
  | .ok (nbits, w) =>
    match decodeWord nbits w with
    | .ok .endUnit => issueChecked .endUnit (fetchedHead s nbits)
    | r =>
      walkFirst s s.th.pcq.e2.addr <| match fetchHalf s s.th s.th.sr.pl s.th.pcq.e2.addr with
      | .error e => .event e s
      | .ok h =>
        match r with
        | .ok i => issueChecked i (latchE2 (fetched (fetchedHead s nbits) s.th.pcq.e2.addr) (decide (h % 2 = 1)))
        | .error _ => .event ⟨evIllegal, s.th.pcq.e0.addr⟩ s

/-- Skip an annulled entry, once the halfword at `e2` is fetched (R193). -/
def skipAnnulled (s : State) : Action :=
  walkFirst s s.th.pcq.e2.addr <| match fetchHalf s s.th s.th.sr.pl s.th.pcq.e2.addr with
  | .error e => .event e s
  | .ok h =>
    let s := latchE2 (fetched s s.th.pcq.e2.addr) (decide (h % 2 = 1))
    .skip (s.withTh { s.th with pcq := stepQueue s.th.pcq none false })

/-- A walk for a fetch begins: its leaf goes into the TLBs, and the thread is out of rotation until the walk completes (R13, R336). -/
def beginWalk (s : State) (va : Word) : State :=
  let s := fillTlb s s.th.id.tenant va
  s.withTh { s.th with rot := .inFlight .walk }

/-! ### Events at a boundary -/

/-- The eligible request to take, in the order of R321; PREEMPT and REVOKE are held inside an open packet (R320). -/
def eligibleRequest (p : Place) (t : Thread) : Option Task :=
  if !asyncAllowed t then none
  else if t.lat.dbg.eligible then some (.debugRequest p false)
  else if t.lat.mcheck.eligible then some (.asyncMcheck p none)
  else if t.lat.preempt.eligible && decide (t.ch.pkt = 0) then some (.preempt p)
  else if t.lat.revoke.eligible && decide (t.ch.pkt = 0) then some (.revoke p)
  else if t.lat.signal.eligible then some (.signal p)
  else none

/-- Set an instruction about to issue against an eligible request (R321). -/
def against (k : Option Task) : Action → Action
  | .issue i s => match k with
    | some k => .contend i s k
    | none => .issue i s
  | a => a

/-- Whether the outcome of an instruction comes before an eligible request: a synchronous event of it, whose handler's queue it leaves, or the
retirement of its unit (R321). -/
def comesFirst (p : Place) : Out → Bool
  | .next s => !(s.thr p).bound || (s.thr p).pcq.entered
  | _ => true

/-- The step that completes an operation in flight. -/
def completionOf (p : Place) : FlightOp → Task
  | .memory | .hostLoad .. | .context | .walk => .memoryAccessPerformed p
  | .divide => .divideComplete p
  | .digit => .digitBlock p
  | .vector => .vectorGroup p
  | .schedule => .scheduleService p
  | .layer => .layerTablePerformed p
  | .permit => .permitInstalled p
  | .icinv => .icinvComplete p

/-- Whether an attached follower of this leader has a full buffer (R25). -/
def followerFull (s : State) : Bool :=
  decide (s.th.gang.state = .leader) && (gangMates s s.here).any fun q =>
    decide ((s.thr q).gang.state = .attached ∧ 4 ≤ (s.thr q).gang.buf.length)

/-- A place descriptor's dropped message taken as TENANT: the report is cleared (R254). -/
def clearDrop (s : State) : State := s.withTh { s.th with lat := { s.th.lat with drop := none } }

/-- Whether the thread's instruction is an operation in flight that completes before an event is taken (R13, R312): one that has been performed
already (R54, R341), a stalled scratchpad access, a stream between two groups, a `wflush` between two spills, or a store that its earlier
accesses hold back. -/
def completing (t : Thread) : Bool :=
  match t.rot with
  | .waiting (.got _) | .waiting (.locked _) | .waiting (.group _ _) | .waiting .release | .waiting .flush => true
  | _ => false

/-- Whether a thread's `tlbinv` lacks acknowledgements (R269). -/
def unacknowledged (t : Thread) : Bool := match t.rot with | .waiting (.tlb acked _) => !acked | _ => false

/-- An instruction that waits or is in flight, or one that is being repeated, goes on as it was issued; it is not fetched again (R13, R200). Any
other is fetched; one that an event has interrupted reissues (R323). -/
def goOn (s : State) : Action :=
  match s.th.held with
  | some i => .issue i s
  | none => prepare s

/-- Whether a parking context goes on with an operation in flight that is its instruction's own step: a stalled scratchpad access, which
completes into the bank (R32, R297). -/
def stalledAccess (t : Thread) : Bool := match t.rot with | .waiting (.locked _) => true | _ => false

/-- Whether the vector unit, or a penalty, still keeps a thread out of rotation (R80, R91). -/
def streaming (s : State) (t : Thread) : Bool :=
  match t.rot with
  | .waiting (.group _ _) => true
  | .inFlight .vector => laterCycle s.core.cyc.toNat t.stream.away
  | _ => false

/-- A turn that nothing but a request can use. -/
def requestOr (s : State) (a : Action) : Action := match eligibleRequest s.here s.th with | some k => .perform k | none => a

/-- What the turn of the thread in focus comes to (R13, R192, R193, R312, R320, R321). -/
def chooseAction (s : State) : Action :=
  let t := s.th
  if !t.bound || (t.id.parking && !stalledAccess t) then .pass
  else match t.rot with
    | .inFlight op => if decide (op = .vector) && streaming s t then .pass else .perform (completionOf s.here op)
    | _ =>
      if completing t then goOn s
      else if t.lat.watchdog then .perform (.watchdog s.here)
      else match t.lat.drop with
        | some d => .event ⟨evTenant, d⟩ (clearDrop s)
        | none =>
          if unacknowledged t then requestOr s (.perform (.tlbAcknowledgement s.here))
          else match t.gang.now with
          | some f => against (eligibleRequest s.here t) (.issue f.instr s)
          | none =>
            if !t.gang.buf.isEmpty then .perform (.forwardedInstruction s.here)
            else if t.gang.state = .attached then requestOr s .pass
            else if t.pcq.e0.annul then skipAnnulled s
            else if followerFull s then requestOr s .pass
            else against (eligibleRequest s.here t) (goOn s)

/-! ### After an instruction -/

/-- Whether a thread is waiting. -/
def isWaiting (t : Thread) : Bool := match t.rot with | .waiting _ => true | _ => false

/-- How a thread has decided a conditional branch, or where its indirect jump went: what a follower is compared in (R27). No other instruction
decides anything. -/
def verdictOf (i : Instr) (t : Thread) : Option Word :=
  match i with
  | .bt c _ | .bf c _ | .btN c _ | .bfN c _ => some (if condReg t.rf c then 1 else 0)
  | .jmpr _ | .callr _ | .ret => some t.pcq.e2.addr
  | _ => none

/-- Whether the leader forwards its instruction now (R25): when it issues; one that decides where to go on, once it is decided; `end` where
it retires the unit (R29, log 45). -/
def forwardsNow (t0 t : Thread) (i : Instr) : Bool :=
  match i with
  | .endUnit => !t.bound
  | .bt .. | .bf .. | .btN .. | .bfN .. | .jmpr _ | .callr _ | .ret => !isWaiting t
  | _ => !isWaiting t0 && decide (t0.pcq.repDone = 0)

/-- The leader forwards an instruction to every follower that is attached when it issues and still after it (R25, R27); an `end` ends them
all, after what has been forwarded before it (R29). -/
def forwardAll (s0 : State) (i : Instr) (s : State) : State :=
  let t := s.thr s0.here
  if s0.th.gang.state = .leader ∧ forwardsNow s0.th t i = true then
    (gangMates s0 s0.here).foldl (fun s q =>
      if (s0.thr q).gang.state = .attached ∧ ((s.thr q).gang.state = .attached ∨ i = .endUnit) then
        setGang s q fun g => { g with buf := (s0.thr q).gang.buf ++ [⟨i, s0.th.pcq, verdictOf i t⟩] }
      else s) s
  else s

/-- Whether a thread has performed a repetition and more of the same instruction are to come (R198, R200). -/
def repeating (t : Thread) : Bool := decide (t.rot = .inFlight .vector ∧ t.pcq.repDone ≠ 0 ∧ t.pcq.repLeft ≠ 0)

/-- A follower that has executed a forwarded instruction, every repetition of it: it detaches where it decided otherwise than the leader
(R27), and what is forwarded to it still it fetches for itself; also a follower whose leader has ended since (R29). -/
def settleFollower (p : Place) (f : Option Forward) (s : State) : State :=
  match f with
  | none => s
  | some f =>
    let t := s.thr p
    if isWaiting t || repeating t || t.gang.now.isNone then s
    else
      let parts := decide (verdictOf f.instr t ≠ f.verdict)
      s.putThr p { t with gang := { t.gang with
        now := none
        buf := if parts then [] else t.gang.buf
        state := if parts ∧ t.gang.state = .attached then .detached else t.gang.state } }

/-- Whether a thread's instruction has issued and is still to complete (R13, R198, R323). -/
def unfinished (t : Thread) : Bool :=
  match t.rot with
  | .waiting _ | .inFlight (.hostLoad ..) => true
  | _ => repeating t

/-- An instruction that is still to complete is held, so that it goes on without being fetched again (R13, R200). -/
def holdInstr (p : Place) (i : Instr) (s : State) : State :=
  let t := s.thr p
  let h := if unfinished t then some i else none
  if t.held = h then s else s.putThr p { t with held := h }

/-! ### Steps of the machine that are due -/

/-- The next step of an engine command (R53, R76): delivery while output remains, else retirement. -/
def commandStep (core : Nat) (c : Cmd) : Task :=
  match c.out with
  | some [] => (match c.op with
      | .cpym .. => if c.done then .commandRetire (coreOf core) c.cls .ok else .cpymProduct (coreOf core)
      | _ => .commandRetire (coreOf core) c.cls .ok)
  | _ => .engineDelivery (coreOf core) c.cls

/-- Steps of the machine that are due after a turn, besides those its inputs bring. -/
def dueSteps (s : State) : List Task :=
  let here := s.placesOn s.hereCore
  let clears := if reclaimDue s.core then [Task.reclaimClear (coreOf s.hereCore)] else []
  let first (k : EngClass) := ((s.core.cmds.find? fun c => decide (c.cls = k)).map (commandStep s.hereCore)).toList
  let atomics := ((s.sys.work.amos.findIdx? (amoReady s)).map fun n => Task.remoteAtomicArrival n false).toList
  let messages := ((s.sys.work.msgs.findIdx? fun m => messageFits s m || !messagePasses s m).map Task.messageArrival).toList
  let barriers := (s.sys.work.episodes.filter fun e => (missing (s.launch e.lid) e).isEmpty && e.released.isNone).map fun e =>
    Task.barrierRelease e.lid e.form e.inst
  let parks := (here.filter fun p => (s.thr p).id.parking).map Task.parkingComplete
  let seats := if here.any fun p => (s.thr p).id.harv && (s.thr p).id.seat.isNone then [Task.seat (coreOf s.hereCore)] else []
  let probes := (here.filter fun p => decide (65536 ≤ (s.thr p).ch.waitTurns)).map Task.probe
  let parts := (partsToLeave s).map Task.powerStateExit
  displacement s ++ clears ++ first .matrix ++ first .copy ++ first .coll ++ atomics ++ messages ++ barriers ++ parks ++ seats ++ probes ++ parts

/-! ### Whose turn is next (R9 to R11) -/

/-- The primary slot whose turns a thread has: its own, or the one a harvest context is seated in; none for a banked context. -/
def turnSlot (p : Place) (t : Thread) : Option Nat :=
  if p.slot.val < 8 then some p.slot.val else t.id.seat.map (·.val)

/-- Whether a thread may issue in cycle `c`: it has not issued in the 7 cycles before (R11). -/
def rested (t : Thread) (c : Nat) : Bool := match t.id.lastTurn with | some l => decide (l + 8 ≤ c ∨ c < l) | none => true

/-- The thread of the core in focus whose turn cycle `c` is (R9). A stream leaves its thread's turns free (R13). -/
def slotTurn (s : State) (c : Nat) : Option Place :=
  (s.placesOn s.hereCore).find? fun p =>
    let t := s.thr p
    decide (turnSlot p t = some (c % 8)) && !t.id.parking && rested t c && !streaming s t

/-- The places of the core in focus that have a slot's turns, by slots from the turn's slot upward (R10). -/
def slotsFrom (s : State) (c : Nat) : List Place :=
  ((List.range 8).map fun i => (s.placesOn s.hereCore).filter fun p => decide (turnSlot p (s.thr p) = some ((c + i) % 8))).flatten

/-- The banks in the order they are served, after the bank served last (R10); after the bank `b` where that one has been tried already. -/
def banksFrom (last : Nat) (b : Option Nat) : List Nat :=
  let all := (List.range 4).map fun i => (last + 1 + i) % 4
  match b with
  | none => all
  | some b => (all.dropWhile fun x => decide (x ≠ b)).drop 1

/-- The banked context that a free turn in cycle `c` goes to. -/
def bankTurn (s : State) (c : Nat) (tried : Option Nat) : Option Place :=
  (banksFrom s.core.lastBank tried).findSome? fun b =>
    (s.placesOn s.hereCore).find? fun p =>
      let t := s.thr p
      decide (p.slot.val = 8 + b) && t.id.seat.isNone && !t.id.parking && rested t c && !streaming s t

/-- The first of several places whose window moves, and whether one does. -/
def firstMove (move : State → Place → State × Bool) : List Place → State → State × Bool
  | [], s => (s, false)
  | p :: ps, s => match move s p with
    | (s', true) => (s', true)
    | (s', false) => firstMove move ps s'

/-- What a free turn in cycle `c` goes to (R10): a spill or a fill that it performs, or a banked context that may issue. -/
def useFree (s : State) (c : Nat) (tried : Option Nat) : State × Option Place :=
  match firstMove pendingSpill (slotsFrom s c) s with
  | (s1, true) => (s1, none)
  | (s1, false) => match firstMove pendingFill (slotsFrom s1 c) s1 with
    | (s2, true) => (s2, none)
    | (s2, false) => (s2, bankTurn s2 c tried)

/-- The thread whose vector group the vector unit runs in cycle `c`: round-robin among the core's streams, after the one served last (R80). -/
def groupTurn (s : State) (c : Nat) : Option Place :=
  if laterCycle c s.core.vnext then none
  else
    let ps := (s.placesOn s.hereCore).filter fun p => groupPending (s.thr p)
    match ps.find? fun p => decide (s.core.lastVector < p.slot.val) with
    | some p => some p
    | none => ps.head?

/-- Go through the cycles of the core in focus up to the next one in which a thread acts: a vector group, for which the unit is taken for one
cycle or for as long as the group says (`occupy`), a slot's turn, or a banked context in a free turn. Free turns on the way perform pending
spills and fills. -/
def runCycles : Nat → State → State
  | 0, s => s
  | n + 1, s =>
    let c := s.core.cyc.toNat + 1
    match groupTurn s c with
    | some p => (s.withCore { s.core with vnext := c + 1, lastVector := p.slot.val }).focus p
    | none =>
      let s := s.withCore { s.core with cyc := BitVec.ofNat 64 c }
      match slotTurn s c with
      | some p => s.focus p
      | none => match useFree s c none with
        | (s', some p) => s'.focus p
        | (s', none) => runCycles n s'

/-- Whether a sampling cycle of slot or bank `k` lies in the cycles after `a` up to `b` (R320). -/
def sampled (a b k : Nat) : Bool := decide ((a + 32 - k) / 32 < (b + 32 - k) / 32)

/-- Whether some request of a thread is pending and not eligible. -/
def unsampled (l : Latches) : Bool :=
  [l.preempt, l.revoke, l.signal, l.dbg, l.mcheck].any fun x => x.pending && !x.eligible

/-- The latch samples due when a core's count goes from `a` to `b` (R320). -/
def samplesDue (s : State) (core a b : Nat) : List Task :=
  ((s.placesOn core).filter fun p => unsampled (s.thr p).lat && sampled a b (p.slot.val % 8)).map Task.latchSample

/-- A bound place of the core that acts next: of the cores with a thread, the one whose count is least (log 42). -/
def nextPlace (s : State) : Option Place :=
  s.boundPlaces.foldl (fun b p => match b with
    | none => some p
    | some q =>
      if (s.coreBy (coreNum (placeCore p))).cyc.toNat < (s.coreBy (coreNum (placeCore q))).cyc.toNat then some p else some q) none

/-- The cycles until the last thread of the core in focus that its streams keep out of rotation may be back. -/
def awayCycles (s : State) : Nat :=
  (s.placesOn s.hereCore).foldl (fun m p => if streaming s (s.thr p) then max m ((s.thr p).stream.away - s.core.cyc.toNat) else m) 0

/-- Whether a stream between two repetitions lets an event or a request come first (R200, R312). DESIGN CHOICE (log 44): a deferred event is taken
there as well, which R200 does not name. -/
def pauses (p : Place) (t : Thread) : Bool :=
  (match t.rot with | .waiting (.group 0 _) => decide (t.pcq.repDone ≠ 0) | _ => false)
    && (t.lat.watchdog || t.lat.drop.isSome || (eligibleRequest p { t with rot := .ready }).isSome)

/-- The streams of the core in focus that an event or a request interrupts go on in a turn of their thread, once it is back (R13, R200). -/
def pauseStreams (s : State) : State :=
  (s.placesOn s.hereCore).foldl (fun s p =>
    let t := s.thr p
    if pauses p t then s.putThr p { t with rot := .inFlight .vector, stream := t.stream.settled } else s) s

/-- Move on to the next turn: the core's count advances to its cycle, and the samples passed are due. A turn that cannot come within 24
cycles is that of a thread that parks. With no thread bound, eight turns pass unused. -/
def nextTurn (s : State) : State :=
  match nextPlace s with
  | none => s.withCore { s.core with cyc := s.core.cyc + 8 }
  | some p =>
    let s := pauseStreams (s.focus p)
    let a := s.core.cyc.toNat
    let s' := runCycles (24 + awayCycles s % 1048577) s
    { s' with agenda := s'.agenda ++ samplesDue s' s'.hereCore a s'.core.cyc.toNat }

/-- A mailbox command in progress goes on, a slot of each port passes, and the steps due join the agenda. -/
def settleDue (s : State) : State :=
  let s := sendSlots (settleMail s)
  { s with agenda := s.agenda ++ dueSteps s }

/-- A turn has been used by the thread at a place, which it may have ended in (R10, R11). -/
def useTurn (p : Place) (s : State) : State :=
  let t := s.thr p
  let k := s.coreBy (coreNum (placeCore p))
  let s := if t.bound then s.putThr p { t with id := { t.id with lastTurn := some k.cyc.toNat } } else s
  if (turnSlot p t).isNone then s.putCore (coreNum (placeCore p)) { k with lastBank := p.slot.val - 8 } else s

/-- After a used turn: the steps due join the agenda, and the next turn begins. -/
def afterTurn (s : State) : State := nextTurn (settleDue (useTurn s.here s))

/-- After a turn that its thread did not use: it is a free turn (R9, R10). -/
def afterFree (s : State) : State :=
  let tried := if (turnSlot s.here s.th).isNone then some (s.here.slot.val - 8) else none
  let s := settleDue s
  match useFree s s.core.cyc.toNat tried with
  | (s', some p) => s'.focus p
  | (s', none) => nextTurn s'

/-- The state of a place's slot becomes running on the first issue there (R294). -/
def firstIssue (p : Place) (s : State) : State :=
  if (sparseGet {} s.sys.work.slots (placeNum p)).state = 1 then putSlot s p fun e => { e with state := 2 } else s

/-- What a step adds around an issued instruction whatever its turn: the slot's state, forwarding, a follower's settling, an instruction held. -/
def afterExec (s0 : State) (i : Instr) (s : State) : State :=
  holdInstr s0.here i (firstIssue s0.here (settleFollower s0.here s0.th.gang.now (forwardAll s0 i s)))

/-- Whether the thread in focus has a vector group that comes next. -/
def midStream (s : State) : Bool := groupPending s.th

/-- Whether the thread in focus has moved a window in this turn, which uses it (R15). -/
def movedWindow (s0 s : State) : Bool := decide ((s.thr s0.here).sr.wsp ≠ s0.th.sr.wsp)

/-- What a step adds around an instruction: a group of a stream uses no turn; a thread that waited and still waits leaves its turn free
(R9, R13), unless it has moved a window in it (R15); every other issue uses it. -/
def afterIssue (s0 : State) (i : Instr) (s : State) : State :=
  let s := afterExec s0 i s
  if midStream s0 then nextTurn (settleDue s)
  else if isWaiting s0.th && isWaiting (s.thr s0.here) && !movedWindow s0 s then afterFree s
  else afterTurn s

/-- The thread whose stalled scratchpad access no longer stalls: it is performed at once, outside its thread's turns (R50, R119). -/
def resumable (s : State) : Option Place :=
  s.boundPlaces.find? fun p =>
    match (s.thr p).rot with
    | .waiting (.locked rs) => !rangesStall (s.coreBy (coreNum (placeCore p))) rs
    | _ => false

/-- Apply a function to the next state of an outcome. -/
def mapNext (f : State → State) : Out → Out
  | .next s => .next (f s)
  | .fault r => .fault r
  | .refused r => .refused r

/-! ### Placing an instruction for the next step -/

/-- The virtual and physical address at which `withFetchWord` puts an instruction, and the leaf that maps its page for a tenant. -/
def placeAddr : Nat := 0x10000
def placeLeaf (tenant : BitVec 4) : Word := BitVec.ofNat 64 (tenant.toNat * 2 ^ 52 + placeAddr + 0x3F)

/-- A thread without a stalled access that could go on before the placed instruction: it issues again in its own turn. -/
def unstalled (t : Thread) : Thread := match t.rot with | .waiting (.locked _) => { t with rot := .ready, held := none } | _ => t

/-- The state with an instruction's bits stored in canopy where the thread in focus fetches next: the thread is bound, ready and
without pending events, its page is cached in the TLBs, its queue stands at the instruction, and nothing else is due (log 3). -/
def placeWord (s : State) (nbits w : Nat) : State :=
  let a : Word := BitVec.ofNat 64 placeAddr
  let n := nbits / 8
  let b := a + BitVec.ofNat 64 n
  let e : TlbEntry := ⟨s.here.did.val, s.th.id.tenant, placeAddr, 4096, placeLeaf s.th.id.tenant⟩
  { s with
    agenda := []
    th := { s.th with
      bound := true, rot := .ready, held := none, lat := {}, gang := {}
      id := { s.th.id with parking := false }
      pcq := { e0 := ⟨a, false⟩, e1 := ⟨b, false⟩, e2 := ⟨b + 2, false⟩ } }
    core := { s.core with tlb := e :: s.core.tlb, icache := [] }
    others := sparseMap {} (fun _ t => unstalled t) s.others
    mem := putBytes s.mem placeAddr (toBytes 16 (w % 2 ^ nbits))
    sys := { s.sys with
      bad := []
      power := { s.sys.power with stopped := false }
      tlb := e :: s.sys.tlb } }

end Sys2Proof.Machine
end

