-- ==== Sys2Proof/Machine/VectorInt.lean ====
section
/-! DEFINITION. Integer element operations of major 0x20 (R209). -/

namespace Sys2Proof.Machine

/-- An exact integer result: clamped with sat in a saturating form, otherwise modulo 2^W (R81). -/
def intRes (sat : Bool) (t : VType) (v : Int) : FpRes := if sat then clampRes t v flagSat else { pat := intPat t v }

/-- The element width in bits. -/
def elemBits (t : VType) : Nat := 8 * elemSize t

/-- A binary integer operation on exact values. -/
def intBinary (sat : Bool) (t : VType) (d a b : PReg) (f : Int → Int → Int) (s : State) : Out :=
  binaryOp t d a b false (.banks 3) false (fun x y _ => intRes sat t (f (intVal t x) (intVal t y))) s

/-- A binary operation on patterns. -/
def patBinary (t : VType) (d a b : PReg) (f : Nat → Nat → Nat) (s : State) : Out :=
  binaryOp t d a b false (.banks 3) false (fun x y _ => { pat := f x y }) s

/-- `vadd`, integer (R209). -/
def execVaddInt (sat : Bool) (t : VType) (d a b : PReg) (s : State) : Out := intBinary sat t d a b (· + ·) s

/-- `vsub`, integer (R209). -/
def execVsubInt (sat : Bool) (t : VType) (d a b : PReg) (s : State) : Out := intBinary sat t d a b (· - ·) s

/-- `vmul`, integer (R209). -/
def execVmulInt (sat : Bool) (t : VType) (d a b : PReg) (s : State) : Out := intBinary sat t d a b (· * ·) s

/-- `vmin`, integer (R209). -/
def execVminInt (t : VType) (d a b : PReg) (s : State) : Out := intBinary false t d a b min s

/-- `vmax`, integer (R209). -/
def execVmaxInt (t : VType) (d a b : PReg) (s : State) : Out := intBinary false t d a b max s

/-- `vabs`, integer (R209). -/
def execVabsInt (sat : Bool) (t : VType) (d a : PReg) (s : State) : Out :=
  unaryOp t t d a (.banks 2) false (fun _ x => intRes sat t (intVal t x).natAbs) s

/-- `vneg`, integer (R209). -/
def execVnegInt (sat : Bool) (t : VType) (d a : PReg) (s : State) : Out :=
  unaryOp t t d a (.banks 2) false (fun _ x => intRes sat t (-intVal t x)) s

/-- `vand` (R209). -/
def execVand (t : VType) (d a b : PReg) (s : State) : Out := patBinary t d a b (· &&& ·) s

/-- `vor` (R209). -/
def execVor (t : VType) (d a b : PReg) (s : State) : Out := patBinary t d a b (· ||| ·) s

/-- `vxor` (R209). -/
def execVxor (t : VType) (d a b : PReg) (s : State) : Out := patBinary t d a b (· ^^^ ·) s

/-- `vshl`: 0 for a shift by W or more (R209). -/
def execVshl (t : VType) (d a b : PReg) (s : State) : Out :=
  patBinary t d a b (fun x n => if elemBits t ≤ n then 0 else x * 2 ^ n) s

/-- `vshr` (R209). -/
def execVshr (t : VType) (d a b : PReg) (s : State) : Out :=
  patBinary t d a b (fun x n => if elemBits t ≤ n then 0 else x / 2 ^ n) s

/-- `vsra`: the sign bit fills, of an unsigned type zeros (R209). -/
def execVsra (t : VType) (d a b : PReg) (s : State) : Out :=
  patBinary t d a b (fun x n => intPat t (intVal t x / 2 ^ min n (elemBits t - 1))) s

end Sys2Proof.Machine
end

