-- ==== Sys2Proof/Machine/Groups.lean ====
section
/-! DEFINITION. The vector unit outside a thread's turns: one group of a pending stream (R80, R205). -/

namespace Sys2Proof.Machine

/-- The vector instruction of the thread in focus goes on with its next group; nothing else has groups. -/
def goOnGroup (i : Instr) (s : State) : Out :=
  match i with
  | .vaddInt sat t d a b => execVaddInt sat t d a b s
  | .vsubInt sat t d a b => execVsubInt sat t d a b s
  | .vmulInt sat t d a b => execVmulInt sat t d a b s
  | .vminInt t d a b => execVminInt t d a b s
  | .vmaxInt t d a b => execVmaxInt t d a b s
  | .vabsInt sat t d a => execVabsInt sat t d a s
  | .vnegInt sat t d a => execVnegInt sat t d a s
  | .vand t d a b => execVand t d a b s
  | .vor t d a b => execVor t d a b s
  | .vxor t d a b => execVxor t d a b s
  | .vshl t d a b => execVshl t d a b s
  | .vshr t d a b => execVshr t d a b s
  | .vsra t d a b => execVsra t d a b s
  | .vaddFp m t d a b => execVaddFp m t d a b s
  | .vsubFp m t d a b => execVsubFp m t d a b s
  | .vmulFp m t d a b => execVmulFp m t d a b s
  | .vminFp t d a b => execVminFp t d a b s
  | .vmaxFp t d a b => execVmaxFp t d a b s
  | .vabsFp t d a => execVabsFp t d a s
  | .vnegFp t d a => execVnegFp t d a s
  | .vdiv m t d a b => execVdiv m t d a b s
  | .vsqrt m t d a => execVsqrt m t d a s
  | .vfma m t d a b => execVfma m t d a b s
  | .vfms m t d a b => execVfms m t d a b s
  | .vcmp q t d a b => execVcmp q t d a b s
  | .vsel t d a b => execVsel t d a b s
  | .vmov t d a => execVmov t d a s
  | .vbcast t d a => execVbcast t d a s
  | .vcvt sat f m t d a z => execVcvt sat f m t d a z s
  | .vqnt m t d a z => execVqnt m t d a z s
  | .vdeq m t d a => execVdeq m t d a s
  | .vplane join d a => execVplane join d a s
  | .vrsum m t d a => execVrsum m t d a s
  | .vrmax t d a => execVrmax t d a s
  | .vrmin t d a => execVrmin t d a s
  | .vidx t d => execVidx t d s
  | .vgath t d a b => execVgath t d a b s
  | .vscat t d a b => execVscat t d a b s
  | .vperm t d a b => execVperm t d a b s
  | .edge d a b => execEdge d a b s
  | .boxt d a b => execBoxt d a b s
  | .txdec t d a b => execTxdec t d a b s
  | .trav d a => execTrav d a s
  | _ => .next s

/-- VECTOR_GROUP (R80, R205, R207): the vector unit runs the next group of a thread's stream; a thread whose groups have all run comes back. -/
def execVectorGroup (p : Place) (s : State) : Out :=
  let t := s.thr p
  match t.rot, t.held with
  | .waiting (.group _ _), some i => mapNext (fun u => (afterExec (s.focus p) i u).focus s.here) (goOnGroup i (s.focus p))
  | _, _ => completes p (fun op => decide (op = .vector)) s

end Sys2Proof.Machine
end

