-- ==== Sys2Proof/Machine/Lazy.lean ====
section
/-! DEFINITION. The lazy-uniform instructions of major 0x28 (R218 to R220). -/

namespace Sys2Proof.Machine

/-- `lznew`: identity from registers, no digits cached (R105). -/
def execLznew (z : ZReg) (a b : Reg) (s : State) : Out :=
  withRegs [a, b] [] s <|
    finish ((takeMsgs s [a, b]).setZ z { key := (s.reg a).setWidth 32, index := (s.reg b).setWidth 48 })

/-- `lzmov` (R105). -/
def execLzmov (z y : ZReg) (s : State) : Out := finish (s.setZ z (s.zreg y))

/-- `lzcpl` (R105). -/
def execLzcpl (z y : ZReg) (s : State) : Out := finish (s.setZ z (complement (s.zreg y)))

/-- The digits `lt` reads for an FP32 pattern: to the first difference, or to the last 1 of x (R103). -/
def ltDigits (z : ZVar) (x : BitVec 32) : Nat :=
  let e := x.toNat / 2 ^ 23 % 256
  let f := x.toNat % 2 ^ 23
  if e = 255 ∨ x.getLsbD 31 ∨ 127 ≤ e ∨ (e = 0 ∧ f = 0) then 0
  else
    let num := if e = 0 then f else f + 2 ^ 23
    let k := if e = 0 then 149 else 150 - e
    let last := k - trailingZeros num 0 24
    firstDifference z (fractionDigit num k) 1 last

/-- `lzlt` (R103, R218). -/
def execLzlt (c : CReg) (y : ZReg) (b : Reg) (s : State) : Out :=
  withRegs [b] [] s <|
    let z := s.zreg y
    let x := (s.reg b).setWidth 32
    let r := ltFloat z x
    let n := blocksFor (ltDigits z x)
    let s1 := (takeMsgs s [b]).orFlags (flagIf r.1 flagNv)
    finish ((s1.setCond c r.2).setZ y (growCache z n)) (digitRotation z n)

/-- `lzlt2`: LZLIMIT, precisely, where variates of different identity agree in 1,024 digits (R103, R104). The digits produced for it are
cached all the same: the operands keep their identities, and `n` grows (R106). -/
def execLzlt2 (c : CReg) (y x : ZReg) (s : State) : Out :=
  let za := s.zreg y
  let zb := s.zreg x
  if za.key = zb.key ∧ za.index = zb.index ∧ za.inv = zb.inv then finish (s.setCond c false)
  else match lt2 za zb with
    | none => raise evLzlimit 0 ((s.setZ y (growCache za 32)).setZ x (growCache zb 32))
    | some r =>
      let n := blocksFor (firstDifference za (digit zb) 1 1024)
      let rot := if 32 * n ≤ za.n ∧ 32 * n ≤ zb.n then Rotation.ready else .inFlight .digit
      finish (((s.setCond c r).setZ y (growCache za n)).setZ x (growCache zb n)) rot

/-- `lzbern` (R103, R218). -/
def execLzbern (c : CReg) (y : ZReg) (b : Reg) (s : State) : Out :=
  withRegs [b] [] s <|
    let z := s.zreg y
    let s1 := takeMsgs s [b]
    finish ((s1.setCond c (bern z ((s.reg b).setWidth 32))).setZ y (growCache z 1)) (digitRotation z 1)

/-- `lzbits`: k is the field plus 1 (R103, R218). -/
def execLzbits (d : Reg) (y : ZReg) (k : BitVec 6) (s : State) : Out :=
  withRegs [] [d] s <|
    let z := s.zreg y
    let n := blocksFor (k.toNat + 1)
    finish ((s.setReg d (BitVec.ofNat 64 (variateBits z (k.toNat + 1)))).setZ y (growCache z n)) (digitRotation z n)

/-- The 16 bytes that hold a variate's identity (R107). -/
def identityBytes (z : ZVar) : List Byte := toBytes 16 (z.key.toNat + z.index.toNat * 2 ^ 32 + bitNat z.inv * 2 ^ 80)

/-- A variate from 16 bytes, with nothing cached (R107). -/
def identityOf (bs : List Byte) : ZVar :=
  let v := ofBytes bs
  { key := BitVec.ofNat 32 v, index := BitVec.ofNat 48 (v / 2 ^ 32), inv := v.testBit 80 }

/-- `lzst`: one 16-byte store (R107, R220). -/
def execLzst (a : Reg) (z : ZReg) (s : State) : Out :=
  withRegs [a] [] s <|
    let ea := s.reg a
    orRaise (locate s .write ea 16) s fun loc =>
      unlessStalled (locRanges 16 true loc) s <|
        if locReleases loc && atomicsOutstanding s then waitOn .release s
        else finish (storeBytes (takeMsgs (touchStore s ea 16) [a]) (identityBytes (s.zreg z)) loc) (locRotation loc)

/-- `lzld`: one 16-byte load (R107, R220). Through the host aperture it stays in flight, as a load does (R341). -/
def execLzld (z : ZReg) (a : Reg) (s : State) : Out :=
  withRegs [a] [] s <|
    let ea := s.reg a
    withBytes ea 16 s fun s rot bs => finish ((takeMsgs s [a]).setZ z (identityOf bs)) rot

end Sys2Proof.Machine
end

