-- ==== Sys2Proof/Machine/Ports.lean ====
section
/-! DEFINITION. Receiving on an Ewesan port, and a port that goes down and comes back (R349 to R351). -/

namespace Sys2Proof.Machine

/-- Answer with nak: a management flit whose payload is empty (log 36). -/
def sendNak (s : State) (d : Nat) : State :=
  let f : Flit :=
    { lc := 2, seq := 0, ack := 0, nak := true, ddie := 0, sdie := BitVec.ofNat 4 d, tenant := 0, payload := fullPayload [], crc := 0 }
  queueFlit s d ⟨f, none⟩

/-- Count a retry of a die's port (R376). -/
def countRetry (s : State) (d : Nat) : State :=
  let t := sparseGet {} s.sys.tele d
  s.withSys { s.sys with tele := sparsePut {} s.sys.tele d { t with retry := t.retry + 1 } }

/-- Resend every flit after the last one received good, bit for bit from the replay buffer. -/
def resend (s : State) (d : Nat) (ack : BitVec 12) : State :=
  let p := s.port d
  countRetry (s.putPort d { p with
    sent := p.sent ++ p.replay.dropWhile fun f => decide (f.seq ≠ ack + 1), retries := p.retries + 1 }) d

/-- Whether a tenant's rectangle has a core of a die (R304, R305). -/
def servesDie (t : Tenant) (die : BitVec 4) : Bool := (List.range 256).any fun i => inRect t (256 * die.toNat + i)

/-- The payload of a flit of traffic from a module reaches this one (log 36): a message of a collective waits for its command, unless the router of
the destination die drops it (R305); an access of this module's memory or apertures (R332) is performed, and a read is answered in its lane class
(R352). -/
def deliverPayload (s : State) (m : Nat) (f : Flit) : State :=
  let byte (k : Nat) : Nat := ofBytes ((f.payload.drop k).take 1)
  let base := wordOf ((f.payload.drop 8).take 8)
  let data := (f.payload.drop 16).take (byte 1)
  if 2 ≤ f.lc.toNat then s
  else if byte 0 = 1 then
    if servesDie (s.tenant f.tenant) f.ddie then
      s.withSys { s.sys with peers := s.sys.peers ++ [⟨m, byte 2, byte 3, byte 4, base, ofBytes ((f.payload.drop 5).take 2), data⟩] }
    else s
  else
    let n := if byte 0 = 3 then byte 1 else data.length
    let pas := runFrom base.toNat n
    let w : Requester := ⟨f.tenant.toNat, decide (byte 7 ≠ 0)⟩
    if pas.all (ownModule s) then
      if byte 0 = 2 then storePhys (metWriting s pas) w base.toNat data
      else if byte 0 = 3 then
        let u := agentReads s w pas
        sendMessage { u with fresh := u.fresh + 1 } ⟨m, f.sdie, f.ddie, f.lc, f.tenant, .answer, 0, 0, 0, 0, w.relaxed, none⟩ base
          (pas.map (inboundByte s)) (flitsFor n)
      else s
    else s

/-- FLIT_RECEIVE: a flit that fails its CRC or arrives out of sequence is discarded and answered with nak; any other is delivered once. The
64th consecutive retry makes LINK_DOWN due. DESIGN CHOICE (log 36): retries are consecutive until a good flit without nak arrives, also one that
acknowledges nothing new. -/
def execFlitReceive (d : Fin 16) (f : Flit) (s : State) : Out :=
  let p := s.port d.val
  if p.down || !portUsed s d.val then .next s
  else if flitGood f = false ∨ f.seq ≠ p.rxSeq then .next (sendNak s d.val)
  else
    let q := acknowledged { p with rxSeq := p.rxSeq + 1, retries := if f.nak then p.retries else 0 } f.ack
    let s1 := deliverPayload (s.putPort d.val q) d.val f
    let s2 := if f.nak then resend s1 d.val f.ack else s1
    .next (if 64 ≤ (s2.port d.val).retries then { s2 with agenda := s2.agenda ++ [.linkDown d] } else s2)

/-- The commands that have a flit outstanding on a port: sent and not acknowledged, or waiting for a slot. -/
def outstanding (p : Port) : List CmdKey := p.owed.map (·.2) ++ (p.realTime ++ p.bulk).filterMap (·.cmd)

/-- A command with a flit outstanding ends with MCHECK. -/
def failOn (p : Port) (c : Cmd) : Cmd :=
  if (outstanding p).contains (flitKey c) then { c with out := some [], status := 1, src := [], done := true } else c

/-- Change every command in flight. -/
def mapCommands (s : State) (f : Cmd → Cmd) : State :=
  { s with
    core := { s.core with cmds := s.core.cmds.map f }
    cores := sparseMap {} (fun _ k => { k with cmds := k.cmds.map f }) s.cores }

/-- LINK_DOWN (R350): after 64 consecutive retries. -/
def execLinkDown (d : Fin 16) (s : State) : Out :=
  let p := s.port d.val
  if p.down ∨ p.retries < 64 then .next s
  else
    let s1 := mapCommands s (failOn p)
    .next (raiseVector (s1.putPort d.val { p with down := true, owed := [], realTime := [], bulk := [], management := [] }) 16 3)

/-- LINK_RETRAIN (R351): both directions begin again. -/
def execLinkRetrain (d : Fin 16) (s : State) : Out :=
  let p := s.port d.val
  if p.down then
    .next (raiseVector (s.putPort d.val { p with down := false, txSeq := 0, rxSeq := 0, replay := [], retries := 0 }) 16 3)
  else .next s

end Sys2Proof.Machine
end

