-- ==== Sys2Proof/Machine/Schedule.lean ====
section
/-! DEFINITION. The schedule unit's instructions (R243 to R247, R301). -/

namespace Sys2Proof.Machine

/-! ### The schedule block as words (R243) -/

/-- The block of a launch as its four words. -/
def blockWord (b : Sched) (k : Nat) : Word :=
  if k = 0 then b.ext
  else if k = 1 then
    BitVec.ofNat 64 (b.gen.toNat * 2 ^ 32 + bitNat b.pend.isSome * 2 ^ 31 + b.geom.tile.toNat * 2 ^ 8 + b.geom.order.toNat)
  else if k = 2 then b.geom.place
  else b.map

/-- The 32 bytes of a block. -/
def blockBytes (b : Sched) : List Byte := wordBytes (blockWord b 0) ++ wordBytes (blockWord b 1) ++ wordBytes (blockWord b 2) ++ wordBytes (blockWord b 3)

/-- The fields of a written block that a commit takes over, from words 1 and 2. -/
def geomOfWords (w1 w2 : Word) : SchedGeom := { tile := (w1 >>> 8).setWidth 12, order := w1.setWidth 8, place := w2 }

/-- Whether the traversal positions name each dimension below `dims` once, and 0 above (R247). -/
def orderOk (g : SchedGeom) (dims : Nat) : Bool :=
  ((List.range dims).all fun d => (List.range dims).any fun k => decide (dimAt g k = d))
    && (List.range 4).all fun k => decide (k < dims) || decide (dimAt g k = 0)

/-- Whether the tile extents obey R247. -/
def tileOk (g : SchedGeom) (dims : Nat) : Bool :=
  ((List.range 4).all fun d => decide (d < dims) || decide (tileExtent g d = 1))
    && decide (tileExtent g 0 * tileExtent g 1 * tileExtent g 2 * tileExtent g 3 ≤ 64)

/-- Whether a written block with extents `ext` may become the pending block of `b` (R247). -/
def blockOk (b : Sched) (ext : Word) (g : SchedGeom) : Bool := decide (ext = b.ext) && orderOk g b.dims && tileOk g b.dims

/-- Commit the pending block (R245). -/
def commitBlock (b : Sched) : Sched :=
  match b.pend with
  | some g => { b with geom := g, gen := b.gen + 1, pend := none }
  | none => b

/-! ### Services (R245, R246) -/

/-- The index of a core in a launch's sub-mesh: the cores before it in row-major order of the grid (R243). -/
def meshIndex (mesh : List Nat) (core : Nat) : Nat :=
  (mesh.filter fun c => decide (gridY c < gridY core ∨ (gridY c = gridY core ∧ gridX c < gridX core))).length

/-- Whether the place field admits a core (R243). -/
def placeAdmits (l : Launch) (core : Nat) : Bool :=
  l.sched.geom.place.getLsbD (64 * meshIndex l.mesh core / l.mesh.length)

/-- Whether a grain of a state may be claimed: open or handed over. -/
def claimable (v : BitVec 2) : Bool := decide (v = 0 ∨ v = 3)

/-- The tile of the next claim: the first that holds a handed-over grain, or else an open one (R245). -/
def nextTile (b : Sched) : Option Word :=
  match firstTile b b.geom fun v => decide (v = 3) with
  | some o => some o
  | none => firstTile b b.geom fun v => decide (v = 0)

/-- One service of `nextt` for a unit on a core: the state, the origin and the mask (R245). -/
def serveNext (s : State) (lid : BitVec 32) (unit : BitVec 16) (core : Nat) : State × Word × Word :=
  let l0 := s.launch lid
  let l := { l0 with sched := commitBlock l0.sched }
  let s := s.putLaunch lid l
  if !placeAdmits l core then (s, 0xFFFFFFFFFFFFFFFF, 0)
  else match nextTile l.sched with
    | none => (s, 0, 0)
    | some o =>
      let m := maskWhere l.sched l.sched.geom o claimable
      let s := markGrains s lid 1 (grainsOfMask l.sched l.sched.geom o m)
      (putClaim s lid unit (some ⟨lid, unit, l.sched.gen, l.sched.geom, o, m, 0⟩), o, m)

/-- Whether the unit's current claim holds a claimed grain (R245). -/
def holdsClaim (s : State) (lid : BitVec 32) (unit : BitVec 16) : Bool :=
  match claimOf s lid unit with
  | some c => decide (c.mask ≠ 0)
  | none => false

/-- The mask of the grains that a unit's claim still holds. -/
def heldMask (s : State) (lid : BitVec 32) (unit : BitVec 16) : Word :=
  match claimOf s lid unit with
  | some c => c.mask
  | none => 0

/-- Give up the grains of a mask, which then have state `v`: cleared or handed over; the seal count rises and open log entries are
sealed (R246, R301). -/
def releaseGrains (s : State) (lid : BitVec 32) (unit : BitVec 16) (v : BitVec 2) (m : Word) : State :=
  let s := match claimOf s lid unit with
    | some c =>
      putClaim (markGrains s lid v (grainsOfMask (s.launch lid).sched c.geom c.origin m)) lid unit
        (some { c with mask := c.mask &&& ~~~m, seals := c.seals + 1 })
    | none => s
  sealLog s lid unit

/-! ### Instructions -/

/-- `nextt` (R245). -/
def execNextt (d b : Reg) (s : State) : Out :=
  withRegs [] [d, b] s <|
    let lid := s.th.id.lid
    let u := s.th.id.unit
    if holdsClaim s lid u then raiseEv operandError s
    else releaseFirst s <|
      let r := serveNext (sealLog s lid u) lid u s.hereCore
      finish ((r.1.setReg d r.2.1).setReg b r.2.2) (.inFlight .schedule)

/-- What `tdone` and `tgive` share (R246). -/
def giveBack (v : BitVec 2) (a : Reg) (s : State) : Out :=
  withRegs [a] [] s <|
    let lid := s.th.id.lid
    let u := s.th.id.unit
    if s.reg a &&& ~~~(heldMask s lid u) ≠ 0 then raiseEv operandError s
    else releaseFirst s <| finish (releaseGrains (takeMsgs s [a]) lid u v (s.reg a)) (.inFlight .schedule)

/-- `tdone` (R246). -/
def execTdone (a : Reg) (s : State) : Out := giveBack 2 a s

/-- `tgive` (R246). -/
def execTgive (a : Reg) (s : State) : Out := giveBack 3 a s

/-- `schw`: 32 bytes become the pending block (R247). -/
def execSchw (a : Reg) (s : State) : Out :=
  withRegs [a] [] s <|
    let ea := s.reg a
    withBytes ea 32 s fun s _ bs =>
      let g := geomOfWords (wordOf ((bs.drop 8).take 8)) (wordOf ((bs.drop 16).take 8))
      let l := s.launch s.th.id.lid
      if !blockOk l.sched (wordOf (bs.take 8)) g then raiseEv operandError s
      else releaseFirst s <|
        let s1 := takeMsgs s [a]
        let s2 := s1.putLaunch s.th.id.lid { l with sched := { l.sched with pend := some g } }
        finish s2 (.inFlight .schedule)

/-- `schr`: the current block goes to 32 bytes (R247). -/
def execSchr (a : Reg) (s : State) : Out :=
  withRegs [a] [] s <|
    let ea := s.reg a
    orRaise (locate s .write ea 32) s fun loc =>
      unlessStalled (locRanges 32 true loc) s <| releaseFirst s <|
        finish (storeBytes (takeMsgs (touchStore s ea 32) [a]) (blockBytes (s.launch s.th.id.lid).sched) loc) (.inFlight .schedule)

/-- SCHEDULE_SERVICE: the service is over, and its thread comes back into rotation (R245, R302). -/
def execScheduleService (p : Place) (s : State) : Out :=
  let t := s.thr p
  .next (match t.rot with
    | .inFlight .schedule => s.putThr p { t with rot := .ready }
    | _ => s)

end Sys2Proof.Machine
end

