-- ==== Sys2Proof/Machine/Registers.lean ====
section
/-! DEFINITION. Registers as the outside sees them: the map of BAR0 (R4, R339), the control word of a slot-table entry (R293), inbound reads
(R340), register writes, and the mailbox's go (R370, R371). -/

namespace Sys2Proof.Machine

/-! ### What BAR0 shows (R339) -/

/-- A register from the numbers of its fields, each with the place of its lowest bit. -/
def regOf (fields : List (Nat × Nat)) : Word := BitVec.ofNat 64 ((fields.map fun f => f.1 * 2 ^ f.2).sum)

/-- The global registers of the PF. Where identity and `mid` stand is not given (log 35). -/
def globalReg (s : State) (o : Nat) : Word :=
  let h := s.sys.host
  if o = 0x000 then Config.identity
  else if o = 0x008 then regOf [(h.mid.toNat, 0)]
  else if o = 0x010 then h.hapbase
  else if o = 0x018 then regOf [(s.sys.boot.cause.toNat, 8), (s.sys.boot.state.toNat, 0)]
  else if o = 0x020 then regOf [(s.sys.boot.stageLen, 0)]
  else if o = 0x030 then regOf [(ltolOf s 16, 0)]
  else if o = 0x040 then regOf [((sparseGet 0 h.b2drop 16).toNat, 0)]
  else 0

/-- The registers of the release unit (R359). -/
def releaseReg (s : State) (o : Nat) : Word :=
  let r := s.sys.rel
  let port (k : Nat) : Fin 4 := ⟨k % 4, Nat.mod_lt _ (by decide)⟩
  if o = 0x000 then regOf [(bitNat r.err, 8), (r.ports.toNat, 4), (bitNat r.hold, 2), (bitNat r.lock, 1), (bitNat r.en, 0)]
  else if o = 0x008 then regOf [(r.bases.toNat, 0)]
  else if o = 0x010 then regOf [(r.basens.toNat, 0)]
  else if o = 0x018 then r.period
  else if o = 0x020 then regOf [(r.tlead.toNat, 0)]
  else if o = 0x028 then r.format
  else if o = 0x030 then regOf [(r.miss.toNat, 32), (r.plate.toNat, 0)]
  else if o = 0x038 then r.last
  else if 0x100 ≤ o ∧ o < 0x140 then (if o % 16 = 0 then r.stream[port (o / 16)] else regOf [(r.ssrc[port (o / 16)].toNat, 0)])
  else 0

/-- The registers of an alias aperture (R348). -/
def apertureReg (a : Aperture) (o : Nat) : Word :=
  if o = 0x00 then regOf [(a.src.toNat, 0)]
  else if o = 0x08 then regOf [(bitNat a.en, 63), (a.nbc.toNat, 32), (a.pitch.toNat, 0)]
  else if o = 0x10 then regOf [(a.nbr.toNat, 16), (a.esize.toNat, 0)]
  else 0

/-- The registers of a launch ring (R342). -/
def ringReg (r : Ring) (o : Nat) : Word :=
  if o = 0x00 then r.rbase
  else if o = 0x08 then regOf [(bitNat r.err, 31), (r.vec.toNat, 8), (bitNat r.ien, 7), (bitNat r.en, 6), (r.lsize.toNat, 0)]
  else if o = 0x10 then regOf [(r.head.toNat, 0)]
  else if o = 0x18 then regOf [(r.tail.toNat, 0)]
  else if o = 0x20 then r.cbase
  else if o = 0x28 then r.gbase
  else 0

/-- The region of a virtual function (R339, R346): clr of a set reads 0. -/
def regionReg (s : State) (v o : Nat) : Word :=
  if o = 0x0000 then sparseGet 0 s.sys.host.b2va v
  else if o = 0x0008 then regOf [(ltolOf s v, 0)]
  else if o = 0x0010 then regOf [((sparseGet 0 s.sys.host.b2drop v).toNat, 0)]
  else if 0x1000 ≤ o ∧ o < 0x1400 then ringReg (s.ring (v * 16 + (o - 0x1000) / 0x40)) (o % 0x40)
  else if 0x2008 ≤ o ∧ o < 0x2800 then
    let c := sparseGet {} s.sys.csets (v * 256 + (o - 0x2000) / 8)
    regOf [(bitNat c.valid, 63), (c.members.toNat, 0)]
  else 0

/-- The head forester's mailbox (R370): go reads 0. -/
def mailReg (s : State) (o : Nat) : Word :=
  let m := s.sys.mail
  if o = 0x000 then regOf [(m.op.toNat, 0)]
  else if o = 0x008 then regOf [(m.detail.toNat, 16), (m.result.toNat, 8), (bitNat m.busy, 0)]
  else if 0x100 ≤ o ∧ o < 0x200 then m.args[(⟨(o - 0x100) / 8 % 32, Nat.mod_lt _ (by decide)⟩ : Fin 32)]
  else 0

/-- The telemetry block of a die (R376): clock step 16 is read as 0. -/
def telemetryReg (s : State) (d o : Nat) : Word :=
  let t := s.tele d
  if o = 0x000 then regOf [(t.tmax.toNat, 48), (t.flux.toNat, 32), (t.power.toNat, 0)]
  else if o = 0x008 then regOf [(bitNat (s.sys.power.d1.contains d), 4), (clockOf s d % 16, 0)]
  else if o = 0x010 then regOf [(t.cesp.toNat, 32), (t.cecn.toNat, 0)]
  else if o = 0x018 then regOf [(t.cedr.toNat, 32), (t.ue.toNat, 0)]
  else if o = 0x020 then regOf [(t.retry.toNat, 32), (t.scrub.toNat, 0)]
  else 0

/-- The 8 bytes of BAR0 of a function at a multiple of 8: every offset without a register reads 0. -/
def bar0Reg (s : State) (f o : Nat) : Word :=
  if f < 16 then (if o < 0x100000 then regionReg s f o else 0)
  else if o < 0x1000 then globalReg s o
  else if 0x100000 ≤ o ∧ o < 0x101000 then releaseReg s (o - 0x100000)
  else if 0x200000 ≤ o ∧ o < 0x210000 then
    (if o % 0x1000 < 0x200 then apertureReg (s.aperture ((o - 0x200000) / 0x1000 * 8 + o % 0x1000 / 0x40)) (o % 0x40) else 0)
  else if 0x1000000 ≤ o ∧ o < 0x2000000 then regionReg s ((o - 0x1000000) / 0x100000) (o % 0x100000)
  else if 0x2000000 ≤ o ∧ o < 0x2001000 then mailReg s (o - 0x2000000)
  else if 0x3000000 ≤ o ∧ o < 0x3010000 then telemetryReg s ((o - 0x3000000) / 0x1000) (o % 0x1000)
  else 0

/-- A byte of BAR0. -/
def bar0Byte (s : State) (f o : Nat) : Byte := (bar0Reg s f (o / 8 * 8) >>> (8 * (o % 8))).setWidth 8

/-- Bytes that BAR0 of a function spans (R338). -/
def bar0Size (f : Nat) : Nat := if f < 16 then 0x100000 else 0x4000000

/-- Whether the I3C target reads a byte: of the boot status or of a telemetry block, at its offset of the PF (R362, R376, R377; DESIGN CHOICE,
log 38). -/
def i3cReads (o : Nat) : Bool := decide (0x018 ≤ o ∧ o < 0x020) || decide (0x3000000 ≤ o ∧ o < 0x3010000)

/-- The identification code of boundary scan (R377). -/
def idCode : Nat := 0x1A160A53

/-- INBOUND_READ (R340), of 1 to 4,096 bytes (R338), of BAR0 (R339) or BAR2; or a read of the I3C target or of boundary scan (R377). -/
def execInboundRead (f : Fin 17) (x : BarOffset) (n : Nat) (s : State) : Out :=
  if n = 0 ∨ 4096 < n then .next s
  else match x with
    | .bar0 off => .next (if bar0Size f.val < off + n then s else reply s ((List.range n).map fun i => bar0Byte s f.val (off + i)))
    | .bar2 off => .next (if bar2Size s f.val < off + n then s else
        match inboundRun s f.val .read off n with
        | some pas => reply (agentReads (inboundWalks s f.val off n) (inboundRequester s f.val off) pas) (pas.map (inboundByte s))
        | none => reply (inboundWalks s f.val off n) [])
    | .i3c off => .next (if (List.range n).all fun i => i3cReads (off + i) then reply s ((List.range n).map fun i => bar0Byte s 16 (off + i)) else s)
    | .idcode => .next (reply s (toBytes 4 idCode))

/-! ### Writes of BAR0 (log 35) -/

/-- The steps of a write of a launch ring's register: the guarded lsize counts as written where it changes. -/
def ringWrite (s : State) (j : JobId) (o : Nat) (v : Word) : List Task :=
  if o = 0x00 then [.ringConfigWrite j .rbase v]
  else if o = 0x08 then
    [.registerWrite (.ringErr j) v, .registerWrite (.ringVec j) v]
      ++ (if v.setWidth 5 = (s.ring (jobNum j)).lsize then [] else [.ringConfigWrite j .lsize v]) ++ [.ringEnable j v]
  else if o = 0x18 then [.tailWrite j (v.setWidth 32)]
  else if o = 0x20 then [.ringConfigWrite j .cbase v]
  else if o = 0x28 then [.ringConfigWrite j .gbase v]
  else []

/-- The steps of a write in the region of a virtual function. -/
def regionWrite (s : State) (v : Fin 16) (o : Nat) (w : Word) : List Task :=
  let f : Fin 17 := ⟨v.val, by omega⟩
  if o = 0x0000 then [.b2vaWrite f w]
  else if o = 0x0008 then [.ltolWrite f (w.setWidth 32)]
  else if 0x1000 ≤ o ∧ o < 0x1400 then ringWrite s ⟨v, ⟨(o - 0x1000) / 0x40 % 16, Nat.mod_lt _ (by decide)⟩⟩ (o % 0x40) w
  else if 0x2008 ≤ o ∧ o < 0x2800 then [.collectiveSetWrite v ⟨(o - 0x2000) / 8 % 256, Nat.mod_lt _ (by decide)⟩ w]
  else []

/-- The steps of a write of a global register. -/
def globalWrite (o : Nat) (v : Word) : List Task :=
  if o = 0x008 then [.registerWrite .mid v]
  else if o = 0x010 then [.hapbaseWrite v]
  else if o = 0x020 then .registerWrite .stageLen v :: (if v.getLsbD 63 then [.recoveryPush (v.toNat % 2 ^ 63)] else [])
  else if o = 0x030 then [.ltolWrite 16 (v.setWidth 32)]
  else []

/-- The steps of a write of a register of the release unit. -/
def releaseWrite (o : Nat) (v : Word) (elapsed : Nat) : List Task :=
  let port : Fin 4 := ⟨o / 16 % 4, Nat.mod_lt _ (by decide)⟩
  if o = 0x000 then [.registerWrite .relErr v, .registerWrite .relPorts v, .releaseEnable ⟨v, elapsed⟩]
  else if o = 0x008 then [.releaseConfigWrite .bases v]
  else if o = 0x010 then [.releaseConfigWrite .basens v]
  else if o = 0x018 then [.releaseConfigWrite .period v]
  else if o = 0x020 then [.releaseConfigWrite .tlead v]
  else if o = 0x028 then [.releaseConfigWrite .format v]
  else if 0x100 ≤ o ∧ o < 0x140 then [.registerWrite (if o % 16 = 0 then .relStream port else .relSsrc port) v]
  else []

/-- The steps of a write of a register of an alias aperture. -/
def apertureWrite (d : Fin 16) (a : Fin 8) (o : Nat) (v : Word) : List Task :=
  if o = 0x00 then [.apertureConfigWrite d a .src v]
  else if o = 0x08 then [.apertureConfigWrite d a .nbc v, .apertureConfigWrite d a .pitch v, .apertureEnable d a v]
  else if o = 0x10 then [.apertureConfigWrite d a .nbr v, .apertureConfigWrite d a .esize v]
  else []

/-- The steps of a write of the mailbox. -/
def mailWrite (o : Nat) (v : Word) : List Task :=
  if o = 0x000 then [.registerWrite .mailOp v]
  else if 0x100 ≤ o ∧ o < 0x200 then [.registerWrite (.mailArg ⟨(o - 0x100) / 8 % 32, Nat.mod_lt _ (by decide)⟩) v]
  else []

/-- The steps that a write of 8 bytes of BAR0 of a function performs, so many nanoseconds after the release clock was last read: none where no
register stands. -/
def bar0Write (s : State) (f : Fin 17) (o : Nat) (v : Word) (elapsed : Nat) : List Task :=
  if o % 8 ≠ 0 then []
  else if h : f.val < 16 then (if o < 0x100000 then regionWrite s ⟨f.val, h⟩ o v else [])
  else if o < 0x1000 then globalWrite o v
  else if 0x100000 ≤ o ∧ o < 0x101000 then releaseWrite (o - 0x100000) v elapsed
  else if 0x200000 ≤ o ∧ o < 0x210000 then
    (if o % 0x1000 < 0x200 then
      apertureWrite ⟨(o - 0x200000) / 0x1000 % 16, Nat.mod_lt _ (by decide)⟩ ⟨o % 0x1000 / 0x40 % 8, Nat.mod_lt _ (by decide)⟩ (o % 0x40) v
    else [])
  else if 0x1000000 ≤ o ∧ o < 0x2000000 then
    regionWrite s ⟨(o - 0x1000000) / 0x100000 % 16, Nat.mod_lt _ (by decide)⟩ (o % 0x100000) v
  else if 0x2000000 ≤ o ∧ o < 0x2001000 then mailWrite (o - 0x2000000) v
  else []

/-! ### The mailbox's go (R370, R371) -/

/-- Argument `k` of the mailbox. -/
def mailArg (s : State) (k : Fin 32) : Word := s.sys.mail.args[k]

/-- Perform the command in op with the arguments as they stand; any other op gives result 0x02. -/
def performMail (s : State) : Out :=
  let a := mailArg s
  let op := s.sys.mail.op
  match op.toNat with
  | 0x01 => execSetPowerCap (a 0) s
  | 0x10 => execCreateTenant (a 0) (a 1) s
  | 0x11 => execResizeTenant (a 0) (a 1) s
  | 0x12 => execDestroyTenant (a 0) ((a 1).getLsbD 0) s
  | 0x20 => execStageImage (a 0) (a 1) s
  | 0x21 => execCommitStagedImage s
  | 0x22 => execRaiseFusedMinimum (a 0) s
  | 0x30 => execAttestationReport [a 0, a 1, a 2, a 3] (a 4) s
  | 0x40 => execLoadCopyCoreRoutine (a 0) (a 1) (a 2) s
  | 0x41 => execSetCoreSupervisor (a 0) (a 1) s
  | _ => mailCommand op [] s fun s => mailDone s resBad

/-- A write of op and go: with go, while a command is in progress, it is ignored and sets the result. The arguments stay as they are. -/
def writeMailOp (s : State) (v : Word) : Out :=
  let m := s.sys.mail
  if !v.getLsbD 63 then .next (s.withMail { m with op := v.setWidth 16 })
  else if m.busy then .next (s.withMail { m with result := resBusy })
  else match performMail (s.withMail { m with op := v.setWidth 16 }) with
    | .next t => .next (t.withMail { t.sys.mail with args := m.args })
    | o => o

/-! ### The slot table's control word (R293, R294) -/

/-- The control word of a slot-table entry as the forester reads it: cmd reads 0. -/
def controlWord (e : Slot) : Word := regOf [(bitNat e.err, 24), (e.why.toNat, 16), (e.state.toNat, 0)]

/-- A write of the control word: err is cleared by a 1, then the command is performed; a reserved one is refused. -/
def writeControl (s : State) (p : Place) (v : Word) : Out :=
  let s := if v.getLsbD 24 then putSlot s p fun e => { e with err := false } else s
  match bitsOf v 7 4 with
  | 0 => .next s
  | 1 => execBind p s
  | 2 => execForcedStop p s
  | 3 => execCooperativeStop p s
  | 4 => execStopWithDiscard p s
  | 5 => execWithdraw p s
  | _ => .next (refuseSlot s p)

/-! ### Register writes -/

/-- The launch records of a render graph: `v` gives their physical address in bits 63:7 and how many they are in bits 6:0; the run time in
nanoseconds stands in the 8 bytes after them (log 32). -/
def renderGraph (s : State) (v : Word) : RenderGraph :=
  let n := Nat.min 64 (bitsOf v 6 0)
  let at_ := bitsOf v 63 7 * 128
  let bytes (a k : Nat) : List Byte := (runFrom a k).map (inboundByte s)
  { runTime := ofBytes (bytes (at_ + 64 * n) 8), records := (List.range n).map fun i => wordsOf (bytes (at_ + 64 * i) 64) 8 }

/-- The forester reads the records where they lie (R349, R372, R376). -/
def graphRead (s : State) (v : Word) : State := agentReads s {} (runFrom (bitsOf v 63 7 * 128) (64 * Nat.min 64 (bitsOf v 6 0) + 8))

/-- The forester writes a launch's pending block, by the rules of `schw` (R247, R302). -/
def writePending (s : State) (l : BitVec 32) (ext w1 w2 : Word) : State :=
  let x := s.launch l
  if launchLive s l && blockOk x.sched ext (geomOfWords w1 w2) then
    s.putLaunch l { x with sched := { x.sched with pend := some (geomOfWords w1 w2) } }
  else s

/-- Corrected errors are counted: of scratchpad, canopy, LPDDR 6 (R376). -/
def countCorrected (t : Telemetry) (m : Fin 3) (n : BitVec 32) : Telemetry :=
  match m with
  | 0 => { t with cesp := t.cesp + n }
  | 1 => { t with cecn := t.cecn + n }
  | 2 => { t with cedr := t.cedr + n }

/-- REGISTER_WRITE: a field, from its place in its register (log 35). The price step and the tier are pinned by a write (R310). -/
def execRegisterWrite (r : PlainReg) (v : Word) (s : State) : Out :=
  let h := s.sys.host
  let m := s.sys.mail
  let rel := s.sys.rel
  let y := s.sys.layers
  let w := s.sys.power
  match r with
  | .mid => .next (s.withHost { h with mid := v.setWidth 4 })
  | .ringVec j => .next (s.putRing (jobNum j) { s.ring (jobNum j) with vec := (v >>> 8).setWidth 8, ien := v.getLsbD 7 })
  | .ringErr j => .next (if v.getLsbD 31 then s.putRing (jobNum j) { s.ring (jobNum j) with err := false } else s)
  | .relErr => .next (if v.getLsbD 8 then s.withRel { rel with err := false } else s)
  | .relPorts => .next (s.withRel { rel with ports := (v >>> 4).setWidth 4 })
  | .relStream p => .next (s.withRel { rel with stream := rel.stream.set p.val (v &&& 0x7FFFFFFFFFFFFF) })
  | .relSsrc p => .next (s.withRel { rel with ssrc := rel.ssrc.set p.val (v.setWidth 32) })
  | .stageLen => .next (s.withBoot { s.sys.boot with stageLen := v.toNat % 2 ^ 63 })
  | .mailArg k => .next (s.withMail { m with args := m.args.set k.val v })
  | .mailOp => writeMailOp s v
  | .slotControl p => writeControl s p v
  | .schedBlock l ext w1 => .next (writePending s l ext w1 v)
  | .graph g => .next ((graphRead s v).withLayers { y with graphs := sparsePut {} y.graphs g.val (renderGraph s v) })
  | .priceStep => .next (s.withLayers { y with pstepNext := v.setWidth 4, pinned := true })
  | .tier => .next (s.withLayers { y with tierNext := v.setWidth 3, pinned := true })
  | .margin => .next (s.withLayers { y with margin := v.toNat })
  | .goodFrames => .next (s.withLayers { y with spareCount := v.toNat })
  | .ageLimit j => .next (s.putRing (jobNum j) { s.ring (jobNum j) with ageLimit := v })
  | .bar0 f off elapsed => .next { s with agenda := bar0Write s f off v elapsed ++ s.agenda }
  | .bar2Size f => .next (s.withHost { h with bar2 := sparsePut 6 h.bar2 f.val (Nat.min 6 v.toNat) })
  | .corrected d k => .next (s.putTele d.val (countCorrected (s.tele d.val) k (v.setWidth 32)))
  | .selfRefresh d => .next (s.withPower { w with refresh := if v.getLsbD 0 then insertNat d.val w.refresh else w.refresh.filter (· ≠ d.val) })
  | .system => .next (s.withHost { h with system := v.setWidth 16 })

end Sys2Proof.Machine
end

