-- ==== Sys2Proof/Machine/Scalar.lean ====
section
/-! DEFINITION. Integer, constant, compare, condition, selection and pointer instructions (R154, R177 to R186). -/

namespace Sys2Proof.Machine

/-! ### 16-bit forms (R154): the destination is also the first source -/

/-- A 16-bit arithmetic form: the immediate is sign-extended. -/
def alu16Signed (f : Word → Word → Word) (d : Reg) (x : Src16) (s : State) : Out :=
  regOp (d :: src16Regs x) d (f (s.reg d) (src16Signed s x)) s

/-- A 16-bit logical or shift form: the immediate is zero-extended. -/
def alu16Unsigned (f : Word → Word → Word) (d : Reg) (x : Src16) (s : State) : Out :=
  regOp (d :: src16Regs x) d (f (s.reg d) (src16Unsigned s x)) s

/-- `mov` (R154). -/
def execMov16 (d : Reg) (x : Src16) (s : State) : Out :=
  regOp (src16Regs x) d (src16Signed s x) s

/-- 16-bit `add` (R154). -/
def execAdd16 (d : Reg) (x : Src16) (s : State) : Out :=
  alu16Signed (fun a b => a + b) d x s

/-- 16-bit `sub` (R154). -/
def execSub16 (d : Reg) (x : Src16) (s : State) : Out :=
  alu16Signed (fun a b => a - b) d x s

/-- 16-bit `and` (R154). -/
def execAnd16 (d : Reg) (x : Src16) (s : State) : Out :=
  alu16Unsigned (fun a b => a &&& b) d x s

/-- 16-bit `or` (R154). -/
def execOr16 (d : Reg) (x : Src16) (s : State) : Out :=
  alu16Unsigned (fun a b => a ||| b) d x s

/-- 16-bit `xor` (R154). -/
def execXor16 (d : Reg) (x : Src16) (s : State) : Out :=
  alu16Unsigned (fun a b => a ^^^ b) d x s

/-- 16-bit `shl` (R154). -/
def execShl16 (d : Reg) (x : Src16) (s : State) : Out :=
  alu16Unsigned (fun a b => shlW .w64 a (shiftBits b)) d x s

/-- 16-bit `shr` (R154). -/
def execShr16 (d : Reg) (x : Src16) (s : State) : Out :=
  alu16Unsigned (fun a b => shrW .w64 a (shiftBits b)) d x s

/-- 16-bit `sra` (R154). -/
def execSra16 (d : Reg) (x : Src16) (s : State) : Out :=
  alu16Unsigned (fun a b => sraW .w64 a (shiftBits b)) d x s

/-- 16-bit `mul` (R154). -/
def execMul16 (d : Reg) (x : Src16) (s : State) : Out :=
  alu16Signed (fun a b => a * b) d x s

/-- 16-bit `min` (R154). -/
def execMin16 (d : Reg) (x : Src16) (s : State) : Out :=
  alu16Signed (minW .w64) d x s

/-- 16-bit `max` (R154). -/
def execMax16 (d : Reg) (x : Src16) (s : State) : Out :=
  alu16Signed (maxW .w64) d x s

/-! ### Register operations (R178 to R180) -/

/-- A two-source operation at a width. -/
def alu3 (f : Word → Word → Word) (d a b : Reg) (s : State) (rot : Rotation := .ready) : Out :=
  regOp [a, b] d (f (s.reg a) (s.reg b)) s rot

/-- A one-source operation. -/
def alu2 (f : Word → Word) (d a : Reg) (s : State) : Out := regOp [a] d (f (s.reg a)) s

/-- `add`: the sum (R178). -/
def execAdd (w : Width) (d a b : Reg) (s : State) : Out :=
  alu3 (addW w) d a b s

/-- `sub`: the difference (R178). -/
def execSub (w : Width) (d a b : Reg) (s : State) : Out :=
  alu3 (subW w) d a b s

/-- `mul`: the low half of the product (R178). -/
def execMul (w : Width) (d a b : Reg) (s : State) : Out :=
  alu3 (mulW w) d a b s

/-- `mulh`: the high half of the signed product (R178). -/
def execMulh (w : Width) (d a b : Reg) (s : State) : Out :=
  alu3 (mulhW w) d a b s

/-- `mulhu`: the high half of the unsigned product (R178). -/
def execMulhu (w : Width) (d a b : Reg) (s : State) : Out :=
  alu3 (mulhuW w) d a b s

/-- `div` (R82, R178): out of rotation until DIVIDE_COMPLETE (R13, R180). -/
def execDiv (w : Width) (d a b : Reg) (s : State) : Out :=
  alu3 (divW w) d a b s (.inFlight .divide)

/-- `divu` (R82, R178): out of rotation until DIVIDE_COMPLETE (R13, R180). -/
def execDivu (w : Width) (d a b : Reg) (s : State) : Out :=
  alu3 (divuW w) d a b s (.inFlight .divide)

/-- `rem` (R82, R178): out of rotation until DIVIDE_COMPLETE (R13, R180). -/
def execRem (w : Width) (d a b : Reg) (s : State) : Out :=
  alu3 (remW w) d a b s (.inFlight .divide)

/-- `remu` (R82, R178): out of rotation until DIVIDE_COMPLETE (R13, R180). -/
def execRemu (w : Width) (d a b : Reg) (s : State) : Out :=
  alu3 (remuW w) d a b s (.inFlight .divide)

/-- `and` (R178). -/
def execAnd (d a b : Reg) (s : State) : Out :=
  alu3 (fun a b => a &&& b) d a b s

/-- `or` (R178). -/
def execOr (d a b : Reg) (s : State) : Out :=
  alu3 (fun a b => a ||| b) d a b s

/-- `xor` (R178). -/
def execXor (d a b : Reg) (s : State) : Out :=
  alu3 (fun a b => a ^^^ b) d a b s

/-- `andn` (R178). -/
def execAndn (d a b : Reg) (s : State) : Out :=
  alu3 (fun a b => a &&& ~~~b) d a b s

/-- `orn` (R178). -/
def execOrn (d a b : Reg) (s : State) : Out :=
  alu3 (fun a b => a ||| ~~~b) d a b s

/-- `shl`: by bits 5:0 of rb (R178). -/
def execShl (w : Width) (d a b : Reg) (s : State) : Out :=
  alu3 (fun a b => shlW w a (shiftBits b)) d a b s

/-- `shr`: by bits 5:0 of rb (R178). -/
def execShr (w : Width) (d a b : Reg) (s : State) : Out :=
  alu3 (fun a b => shrW w a (shiftBits b)) d a b s

/-- `sra`: by bits 5:0 of rb (R178). -/
def execSra (w : Width) (d a b : Reg) (s : State) : Out :=
  alu3 (fun a b => sraW w a (shiftBits b)) d a b s

/-- `rol`: by bits 5:0 of rb (R178). -/
def execRol (w : Width) (d a b : Reg) (s : State) : Out :=
  alu3 (fun a b => rolW w a (shiftBits b)) d a b s

/-- `ror`: by bits 5:0 of rb (R178). -/
def execRor (w : Width) (d a b : Reg) (s : State) : Out :=
  alu3 (fun a b => rorW w a (shiftBits b)) d a b s

/-- `min` (R178). -/
def execMin (w : Width) (d a b : Reg) (s : State) : Out :=
  alu3 (minW w) d a b s

/-- `max` (R178). -/
def execMax (w : Width) (d a b : Reg) (s : State) : Out :=
  alu3 (maxW w) d a b s

/-- `minu` (R178). -/
def execMinu (w : Width) (d a b : Reg) (s : State) : Out :=
  alu3 (minuW w) d a b s

/-- `maxu` (R178). -/
def execMaxu (w : Width) (d a b : Reg) (s : State) : Out :=
  alu3 (maxuW w) d a b s

/-- `clz` (R178). -/
def execClz (w : Width) (d a : Reg) (s : State) : Out :=
  alu2 (clzW w) d a s

/-- `ctz` (R178). -/
def execCtz (w : Width) (d a : Reg) (s : State) : Out :=
  alu2 (ctzW w) d a s

/-- `popc` (R178). -/
def execPopc (w : Width) (d a : Reg) (s : State) : Out :=
  alu2 (popcW w) d a s

/-- `sext` (R178). -/
def execSext (w : Width) (d a : Reg) (s : State) : Out :=
  alu2 (fun a => sextW w (low w a)) d a s

/-- `zext` (R178). -/
def execZext (w : Width) (d a : Reg) (s : State) : Out :=
  alu2 (fun a => zextW w (low w a)) d a s

/-- `bswap` (R178). -/
def execBswap (w : Width) (d a : Reg) (s : State) : Out :=
  alu2 (bswapW w) d a s

/-- `bfx` (R179). -/
def execBfx (d a b : Reg) (s : State) : Out :=
  alu3 bfxW d a b s

/-- `bfxu` (R179). -/
def execBfxu (d a b : Reg) (s : State) : Out :=
  alu3 bfxuW d a b s

/-- `bfi`: reads its destination as a source (R179). -/
def execBfi (d a b : Reg) (s : State) : Out :=
  regOp [d, a, b] d (bfiW (s.reg d) (s.reg a) (s.reg b)) s

/-! ### Immediates and constants (R181, R182) -/

/-- `addi` (R181). -/
def execAddi (d a : Reg) (i : BitVec 15) (s : State) : Out :=
  alu2 (fun a => a + immSigned i) d a s

/-- `andi` (R181). -/
def execAndi (d a : Reg) (i : BitVec 15) (s : State) : Out :=
  alu2 (fun a => a &&& immUnsigned i) d a s

/-- `ori` (R181). -/
def execOri (d a : Reg) (i : BitVec 15) (s : State) : Out :=
  alu2 (fun a => a ||| immUnsigned i) d a s

/-- `xori` (R181). -/
def execXori (d a : Reg) (i : BitVec 15) (s : State) : Out :=
  alu2 (fun a => a ^^^ immUnsigned i) d a s

/-- `shli` (R181). -/
def execShli (w : Width) (d a : Reg) (n : BitVec 6) (s : State) : Out :=
  alu2 (fun a => shlW w a n.toNat) d a s

/-- `shri` (R181). -/
def execShri (w : Width) (d a : Reg) (n : BitVec 6) (s : State) : Out :=
  alu2 (fun a => shrW w a n.toNat) d a s

/-- `srai` (R181). -/
def execSrai (w : Width) (d a : Reg) (n : BitVec 6) (s : State) : Out :=
  alu2 (fun a => sraW w a n.toNat) d a s

/-- `li` (R182). -/
def execLi (d : Reg) (i : BitVec 20) (s : State) : Out :=
  regOp [] d (immSigned i) s

/-- `lui` (R182). -/
def execLui (d : Reg) (i : BitVec 20) (s : State) : Out :=
  regOp [] d (immSigned i * 32768) s

/-- `lea`: its own address plus a displacement in halfwords (R157, R182). -/
def execLea (d : Reg) (i : BitVec 20) (s : State) : Out :=
  regOp [] d (relTarget s i) s

/-! ### Compares, conditions, selection (R183 to R185) -/

/-- `cmpi` (R183). -/
def execCmpi (q : Cond) (c : CReg) (a : Reg) (i : BitVec 15) (s : State) : Out :=
  condOp [a] c (compareW q .w64 (s.reg a) (compareImm q i)) s

/-- `cmp` (R183). -/
def execCmp (q : Cond) (w : Width) (c : CReg) (a b : Reg) (s : State) : Out :=
  condOp [a, b] c (compareW q w (s.reg a) (s.reg b)) s

/-- `cand` (R184). -/
def execCand (c x y : CReg) (s : State) : Out :=
  condOp [] c (condReg s.th.rf x && condReg s.th.rf y) s

/-- `cor` (R184). -/
def execCor (c x y : CReg) (s : State) : Out :=
  condOp [] c (condReg s.th.rf x || condReg s.th.rf y) s

/-- `cxor` (R184). -/
def execCxor (c x y : CReg) (s : State) : Out :=
  condOp [] c (condReg s.th.rf x ^^ condReg s.th.rf y) s

/-- `cset` (R184). -/
def execCset (c : CReg) (a : Reg) (s : State) : Out :=
  condOp [a] c (decide (s.reg a ≠ 0)) s

/-- `cget` (R184). -/
def execCget (d : Reg) (x : CReg) (s : State) : Out :=
  regOp [] d (if condReg s.th.rf x then 1 else 0) s

/-- `sel` (R185). -/
def execSel (d a b : Reg) (c : CReg) (s : State) : Out :=
  alu3 (fun a b => if condReg s.th.rf c then a else b) d a b s

/-! ### Pointers (R51, R186) -/

/-- A pointer register as a 64-bit value (R51). -/
def ptrWord (p : Ptr) : Word := BitVec.ofNat 64 (p.stride.toNat * 2 ^ 20 + p.addr.toNat)

/-- An instruction that reads one register and writes a pointer. -/
def ptrOp (p : PReg) (a : Reg) (f : Ptr → Word → Ptr) (s : State) : Out :=
  withRegs [a] [] s (finish ((takeMsgs s [a]).setPtr p (f (s.ptr p) (s.reg a))))

/-- `pset` (R186). -/
def execPset (p : PReg) (a : Reg) (s : State) : Out :=
  ptrOp p a (fun _ x => { addr := x.setWidth 20, stride := (x >>> 20).setWidth 16 }) s

/-- `pget` (R186). -/
def execPget (d : Reg) (p : PReg) (s : State) : Out :=
  regOp [] d (ptrWord (s.ptr p)) s

/-- `padd` (R186). -/
def execPadd (p : PReg) (a : Reg) (s : State) : Out :=
  ptrOp p a (fun q x => { q with addr := q.addr + x.setWidth 20 }) s

/-- `pstr` (R186). -/
def execPstr (p : PReg) (a : Reg) (s : State) : Out :=
  ptrOp p a (fun q x => { q with stride := x.setWidth 16 }) s

end Sys2Proof.Machine
end

