-- ==== Sys2Proof/Machine/Dispatch.lean ====
section
/-! DEFINITION. One arm per row of the opcode table, each one call of its meaning. -/

namespace Sys2Proof.Machine

def exec (i : Instr) (s : State) : Host.Outcome State Fault Refusal :=
  match i with
  | .mov16 d x => Sys2Proof.Machine.execMov16 d x s
  | .add16 d x => Sys2Proof.Machine.execAdd16 d x s
  | .sub16 d x => Sys2Proof.Machine.execSub16 d x s
  | .and16 d x => Sys2Proof.Machine.execAnd16 d x s
  | .or16 d x => Sys2Proof.Machine.execOr16 d x s
  | .xor16 d x => Sys2Proof.Machine.execXor16 d x s
  | .shl16 d x => Sys2Proof.Machine.execShl16 d x s
  | .shr16 d x => Sys2Proof.Machine.execShr16 d x s
  | .sra16 d x => Sys2Proof.Machine.execSra16 d x s
  | .mul16 d x => Sys2Proof.Machine.execMul16 d x s
  | .min16 d x => Sys2Proof.Machine.execMin16 d x s
  | .max16 d x => Sys2Proof.Machine.execMax16 d x s
  | .ldw16 d a post => Sys2Proof.Machine.execLdw16 d a post s
  | .stw16 d a post => Sys2Proof.Machine.execStw16 d a post s
  | .ldd16 d a post => Sys2Proof.Machine.execLdd16 d a post s
  | .std16 d a post => Sys2Proof.Machine.execStd16 d a post s
  | .add w d a b => Sys2Proof.Machine.execAdd w d a b s
  | .sub w d a b => Sys2Proof.Machine.execSub w d a b s
  | .mul w d a b => Sys2Proof.Machine.execMul w d a b s
  | .mulh w d a b => Sys2Proof.Machine.execMulh w d a b s
  | .mulhu w d a b => Sys2Proof.Machine.execMulhu w d a b s
  | .div w d a b => Sys2Proof.Machine.execDiv w d a b s
  | .divu w d a b => Sys2Proof.Machine.execDivu w d a b s
  | .rem w d a b => Sys2Proof.Machine.execRem w d a b s
  | .remu w d a b => Sys2Proof.Machine.execRemu w d a b s
  | .and d a b => Sys2Proof.Machine.execAnd d a b s
  | .or d a b => Sys2Proof.Machine.execOr d a b s
  | .xor d a b => Sys2Proof.Machine.execXor d a b s
  | .andn d a b => Sys2Proof.Machine.execAndn d a b s
  | .orn d a b => Sys2Proof.Machine.execOrn d a b s
  | .shl w d a b => Sys2Proof.Machine.execShl w d a b s
  | .shr w d a b => Sys2Proof.Machine.execShr w d a b s
  | .sra w d a b => Sys2Proof.Machine.execSra w d a b s
  | .rol w d a b => Sys2Proof.Machine.execRol w d a b s
  | .ror w d a b => Sys2Proof.Machine.execRor w d a b s
  | .min w d a b => Sys2Proof.Machine.execMin w d a b s
  | .max w d a b => Sys2Proof.Machine.execMax w d a b s
  | .minu w d a b => Sys2Proof.Machine.execMinu w d a b s
  | .maxu w d a b => Sys2Proof.Machine.execMaxu w d a b s
  | .clz w d a => Sys2Proof.Machine.execClz w d a s
  | .ctz w d a => Sys2Proof.Machine.execCtz w d a s
  | .popc w d a => Sys2Proof.Machine.execPopc w d a s
  | .sext w d a => Sys2Proof.Machine.execSext w d a s
  | .zext w d a => Sys2Proof.Machine.execZext w d a s
  | .bfx d a b => Sys2Proof.Machine.execBfx d a b s
  | .bfxu d a b => Sys2Proof.Machine.execBfxu d a b s
  | .bfi d a b => Sys2Proof.Machine.execBfi d a b s
  | .bswap w d a => Sys2Proof.Machine.execBswap w d a s
  | .addi d a k => Sys2Proof.Machine.execAddi d a k s
  | .andi d a k => Sys2Proof.Machine.execAndi d a k s
  | .ori d a k => Sys2Proof.Machine.execOri d a k s
  | .xori d a k => Sys2Proof.Machine.execXori d a k s
  | .shli w d a n => Sys2Proof.Machine.execShli w d a n s
  | .shri w d a n => Sys2Proof.Machine.execShri w d a n s
  | .srai w d a n => Sys2Proof.Machine.execSrai w d a n s
  | .cmpi q c a k => Sys2Proof.Machine.execCmpi q c a k s
  | .cmp q w c a b => Sys2Proof.Machine.execCmp q w c a b s
  | .li d k => Sys2Proof.Machine.execLi d k s
  | .lui d k => Sys2Proof.Machine.execLui d k s
  | .lea d k => Sys2Proof.Machine.execLea d k s
  | .ldb d a k => Sys2Proof.Machine.execLdb d a k s
  | .ldbu d a k => Sys2Proof.Machine.execLdbu d a k s
  | .ldh d a k => Sys2Proof.Machine.execLdh d a k s
  | .ldhu d a k => Sys2Proof.Machine.execLdhu d a k s
  | .ldw d a k => Sys2Proof.Machine.execLdw d a k s
  | .ldwu d a k => Sys2Proof.Machine.execLdwu d a k s
  | .ldd d a k => Sys2Proof.Machine.execLdd d a k s
  | .stb d a k => Sys2Proof.Machine.execStb d a k s
  | .sth d a k => Sys2Proof.Machine.execSth d a k s
  | .stw d a k => Sys2Proof.Machine.execStw d a k s
  | .std d a k => Sys2Proof.Machine.execStd d a k s
  | .ldAcq w d a => Sys2Proof.Machine.execLdAcq w d a s
  | .ldFe w d a => Sys2Proof.Machine.execLdFe w d a s
  | .ldFek w d a => Sys2Proof.Machine.execLdFek w d a s
  | .stRel w d a => Sys2Proof.Machine.execStRel w d a s
  | .stFill w d a => Sys2Proof.Machine.execStFill w d a s
  | .tlook d a => Sys2Proof.Machine.execTlook d a s
  | .tinst a b k => Sys2Proof.Machine.execTinst a b k s
  | .tdrop a => Sys2Proof.Machine.execTdrop a s
  | .bt c k => Sys2Proof.Machine.execBt c k s
  | .bf c k => Sys2Proof.Machine.execBf c k s
  | .btN c k => Sys2Proof.Machine.execBtN c k s
  | .bfN c k => Sys2Proof.Machine.execBfN c k s
  | .jmp k => Sys2Proof.Machine.execJmp k s
  | .call k => Sys2Proof.Machine.execCall k s
  | .jmpr a => Sys2Proof.Machine.execJmpr a s
  | .callr a => Sys2Proof.Machine.execCallr a s
  | .ret => Sys2Proof.Machine.execRet s
  | .rep n => Sys2Proof.Machine.execRep n s
  | .repr a => Sys2Proof.Machine.execRepr a s
  | .endUnit => Sys2Proof.Machine.execEndUnit s
  | .yield => Sys2Proof.Machine.execYield s
  | .nop => Sys2Proof.Machine.execNop s
  | .trap code => Sys2Proof.Machine.execTrap code s
  | .brk => Sys2Proof.Machine.execBrk s
  | .pset p a => Sys2Proof.Machine.execPset p a s
  | .pget d p => Sys2Proof.Machine.execPget d p s
  | .padd p a => Sys2Proof.Machine.execPadd p a s
  | .pstr p a => Sys2Proof.Machine.execPstr p a s
  | .cand c x y => Sys2Proof.Machine.execCand c x y s
  | .cor c x y => Sys2Proof.Machine.execCor c x y s
  | .cxor c x y => Sys2Proof.Machine.execCxor c x y s
  | .cset c a => Sys2Proof.Machine.execCset c a s
  | .cget d x => Sys2Proof.Machine.execCget d x s
  | .sel d a b c => Sys2Proof.Machine.execSel d a b c s
  | .vaddInt sat t d a b => Sys2Proof.Machine.execVaddInt sat t d a b s
  | .vsubInt sat t d a b => Sys2Proof.Machine.execVsubInt sat t d a b s
  | .vmulInt sat t d a b => Sys2Proof.Machine.execVmulInt sat t d a b s
  | .vminInt t d a b => Sys2Proof.Machine.execVminInt t d a b s
  | .vmaxInt t d a b => Sys2Proof.Machine.execVmaxInt t d a b s
  | .vabsInt sat t d a => Sys2Proof.Machine.execVabsInt sat t d a s
  | .vnegInt sat t d a => Sys2Proof.Machine.execVnegInt sat t d a s
  | .vand t d a b => Sys2Proof.Machine.execVand t d a b s
  | .vor t d a b => Sys2Proof.Machine.execVor t d a b s
  | .vxor t d a b => Sys2Proof.Machine.execVxor t d a b s
  | .vshl t d a b => Sys2Proof.Machine.execVshl t d a b s
  | .vshr t d a b => Sys2Proof.Machine.execVshr t d a b s
  | .vsra t d a b => Sys2Proof.Machine.execVsra t d a b s
  | .vaddFp m t d a b => Sys2Proof.Machine.execVaddFp m t d a b s
  | .vsubFp m t d a b => Sys2Proof.Machine.execVsubFp m t d a b s
  | .vmulFp m t d a b => Sys2Proof.Machine.execVmulFp m t d a b s
  | .vminFp t d a b => Sys2Proof.Machine.execVminFp t d a b s
  | .vmaxFp t d a b => Sys2Proof.Machine.execVmaxFp t d a b s
  | .vabsFp t d a => Sys2Proof.Machine.execVabsFp t d a s
  | .vnegFp t d a => Sys2Proof.Machine.execVnegFp t d a s
  | .vdiv m t d a b => Sys2Proof.Machine.execVdiv m t d a b s
  | .vsqrt m t d a => Sys2Proof.Machine.execVsqrt m t d a s
  | .vfma m t d a b => Sys2Proof.Machine.execVfma m t d a b s
  | .vfms m t d a b => Sys2Proof.Machine.execVfms m t d a b s
  | .vcmp q t d a b => Sys2Proof.Machine.execVcmp q t d a b s
  | .vsel t d a b => Sys2Proof.Machine.execVsel t d a b s
  | .vmov t d a => Sys2Proof.Machine.execVmov t d a s
  | .vbcast t d a => Sys2Proof.Machine.execVbcast t d a s
  | .vcvt sat f m t d a z => Sys2Proof.Machine.execVcvt sat f m t d a z s
  | .vqnt m t d a z => Sys2Proof.Machine.execVqnt m t d a z s
  | .vdeq m t d a => Sys2Proof.Machine.execVdeq m t d a s
  | .vplane join d a => Sys2Proof.Machine.execVplane join d a s
  | .vrsum m t d a => Sys2Proof.Machine.execVrsum m t d a s
  | .vrmax t d a => Sys2Proof.Machine.execVrmax t d a s
  | .vrmin t d a => Sys2Proof.Machine.execVrmin t d a s
  | .vidx t d => Sys2Proof.Machine.execVidx t d s
  | .vgath t d a b => Sys2Proof.Machine.execVgath t d a b s
  | .vscat t d a b => Sys2Proof.Machine.execVscat t d a b s
  | .vperm t d a b => Sys2Proof.Machine.execVperm t d a b s
  | .edge d a b => Sys2Proof.Machine.execEdge d a b s
  | .boxt d a b => Sys2Proof.Machine.execBoxt d a b s
  | .txdec t d a b => Sys2Proof.Machine.execTxdec t d a b s
  | .trav d a => Sys2Proof.Machine.execTrav d a s
  | .lznew z a b => Sys2Proof.Machine.execLznew z a b s
  | .lzmov z y => Sys2Proof.Machine.execLzmov z y s
  | .lzcpl z y => Sys2Proof.Machine.execLzcpl z y s
  | .lzlt c y b => Sys2Proof.Machine.execLzlt c y b s
  | .lzlt2 c y x => Sys2Proof.Machine.execLzlt2 c y x s
  | .lzbern c y b => Sys2Proof.Machine.execLzbern c y b s
  | .lzbits d y k => Sys2Proof.Machine.execLzbits d y k s
  | .lzst a z => Sys2Proof.Machine.execLzst a z s
  | .lzld z a => Sys2Proof.Machine.execLzld z a s
  | .mmaI sat tk m da db => Sys2Proof.Machine.execMmaI sat tk m da db s
  | .mmaS tk m da db => Sys2Proof.Machine.execMmaS tk m da db s
  | .gmm tk m da db => Sys2Proof.Machine.execGmm tk m da db s
  | .gath tk da => Sys2Proof.Machine.execGath tk da s
  | .mmz tk m => Sys2Proof.Machine.execMmz tk m s
  | .mmld tk m da => Sys2Proof.Machine.execMmld tk m da s
  | .mmst free tk da m => Sys2Proof.Machine.execMmst free tk da m s
  | .cpy tk da db => Sys2Proof.Machine.execCpy tk da db s
  | .cpyt tk da db => Sys2Proof.Machine.execCpyt tk da db s
  | .cpyx tk da db => Sys2Proof.Machine.execCpyx tk da db s
  | .cpym tk m da db => Sys2Proof.Machine.execCpym tk m da db s
  | .collAr tk da db => Sys2Proof.Machine.execCollAr tk da db s
  | .collRs tk da db => Sys2Proof.Machine.execCollRs tk da db s
  | .collAg tk da db => Sys2Proof.Machine.execCollAg tk da db s
  | .cwait r => Sys2Proof.Machine.execCwait r s
  | .nextt d b => Sys2Proof.Machine.execNextt d b s
  | .tdone a => Sys2Proof.Machine.execTdone a s
  | .tgive a => Sys2Proof.Machine.execTgive a s
  | .schw a => Sys2Proof.Machine.execSchw a s
  | .schr a => Sys2Proof.Machine.execSchr a s
  | .lyrnew d => Sys2Proof.Machine.execLyrnew d s
  | .lyrfree a => Sys2Proof.Machine.execLyrfree a s
  | .lyrset k a b => Sys2Proof.Machine.execLyrset k a b s
  | .lyrget k d a => Sys2Proof.Machine.execLyrget k d a s
  | .lyrcommit d a b => Sys2Proof.Machine.execLyrcommit d a b s
  | .lyrsplit d a => Sys2Proof.Machine.execLyrsplit d a s
  | .lyrmerge a b => Sys2Proof.Machine.execLyrmerge a b s
  | .lyrdep k d a b => Sys2Proof.Machine.execLyrdep k d a b s
  | .lyrord d a b => Sys2Proof.Machine.execLyrord d a b s
  | .pose a b => Sys2Proof.Machine.execPose a b s
  | .rls d a b => Sys2Proof.Machine.execRls d a b s
  | .tdset e d a b => Sys2Proof.Machine.execTdset e d a b s
  | .tdget e d k => Sys2Proof.Machine.execTdget e d k s
  | .tdinv e => Sys2Proof.Machine.execTdinv e s
  | .lnch d a => Sys2Proof.Machine.execLnch d a s
  | .chbind g a => Sys2Proof.Machine.execChbind g a s
  | .chfree g => Sys2Proof.Machine.execChfree g s
  | .snd a b => Sys2Proof.Machine.execSnd a b s
  | .sndE a b => Sys2Proof.Machine.execSndE a b s
  | .amoAdd word a b => Sys2Proof.Machine.execAmoAdd word a b s
  | .amoMin word a b => Sys2Proof.Machine.execAmoMin word a b s
  | .amoMax word a b => Sys2Proof.Machine.execAmoMax word a b s
  | .amoMinu word a b => Sys2Proof.Machine.execAmoMinu word a b s
  | .amoMaxu word a b => Sys2Proof.Machine.execAmoMaxu word a b s
  | .amoAnd word a b => Sys2Proof.Machine.execAmoAnd word a b s
  | .amoOr word a b => Sys2Proof.Machine.execAmoOr word a b s
  | .amoXor word a b => Sys2Proof.Machine.execAmoXor word a b s
  | .logaddF32 d a b => Sys2Proof.Machine.execLogaddF32 d a b s
  | .phend => Sys2Proof.Machine.execPhend s
  | .fenceCore => Sys2Proof.Machine.execFenceCore s
  | .fenceGrove => Sys2Proof.Machine.execFenceGrove s
  | .fenceDie => Sys2Proof.Machine.execFenceDie s
  | .fencePackage => Sys2Proof.Machine.execFencePackage s
  | .fenceSystem => Sys2Proof.Machine.execFenceSystem s
  | .barCore => Sys2Proof.Machine.execBarCore s
  | .barGrove => Sys2Proof.Machine.execBarGrove s
  | .barDie => Sys2Proof.Machine.execBarDie s
  | .barPackage => Sys2Proof.Machine.execBarPackage s
  | .barSystem => Sys2Proof.Machine.execBarSystem s
  | .barLaunch => Sys2Proof.Machine.execBarLaunch s
  | .gang a => Sys2Proof.Machine.execGang a s
  | .gjoin => Sys2Proof.Machine.execGjoin s
  | .gquit => Sys2Proof.Machine.execGquit s
  | .hvlend a b => Sys2Proof.Machine.execHvlend a b s
  | .hvreclaim a b => Sys2Proof.Machine.execHvreclaim a b s
  | .rfe => Sys2Proof.Machine.execRfe s
  | .tlbinvPage a => Sys2Proof.Machine.execTlbinvPage a s
  | .tlbinvTenant a => Sys2Proof.Machine.execTlbinvTenant a s
  | .tlbinvAll => Sys2Proof.Machine.execTlbinvAll s
  | .icinv => Sys2Proof.Machine.execIcinv s
  | .ctxsv a => Sys2Proof.Machine.execCtxsv a s
  | .ctxld a => Sys2Proof.Machine.execCtxld a s
  | .wflush => Sys2Proof.Machine.execWflush s
  | .sig a b => Sys2Proof.Machine.execSig a b s
  | .idle => Sys2Proof.Machine.execIdle s
  | .mfsr d n => Sys2Proof.Machine.execMfsr d n s
  | .mtsr n a => Sys2Proof.Machine.execMtsr n a s
  | .windowSpill p => Sys2Proof.Machine.execWindowSpill p s
  | .windowFill p => Sys2Proof.Machine.execWindowFill p s
  | .seat c => Sys2Proof.Machine.execSeat c s
  | .forwardedInstruction p => Sys2Proof.Machine.execForwardedInstruction p s
  | .memoryAccessPerformed p => Sys2Proof.Machine.execMemoryAccessPerformed p s
  | .divideComplete p => Sys2Proof.Machine.execDivideComplete p s
  | .digitBlock p => Sys2Proof.Machine.execDigitBlock p s
  | .vectorGroup p => Sys2Proof.Machine.execVectorGroup p s
  | .pageWalk tn va => Sys2Proof.Machine.execPageWalk tn va s
  | .engineDelivery c k => Sys2Proof.Machine.execEngineDelivery c k s
  | .commandRetire c k e => Sys2Proof.Machine.execCommandRetire c k e s
  | .cpymProduct c => Sys2Proof.Machine.execCpymProduct c s
  | .remoteAtomicArrival n bad => Sys2Proof.Machine.execRemoteAtomicArrival n bad s
  | .messageArrival n => Sys2Proof.Machine.execMessageArrival n s
  | .tenantDrop n => Sys2Proof.Machine.execTenantDrop n s
  | .barrierRelease l f k => Sys2Proof.Machine.execBarrierRelease l f k s
  | .reclaimClear c => Sys2Proof.Machine.execReclaimClear c s
  | .logExtend j => Sys2Proof.Machine.execLogExtend j s
  | .latchSample p => Sys2Proof.Machine.execLatchSample p s
  | .preempt p => Sys2Proof.Machine.execPreempt p s
  | .revoke p => Sys2Proof.Machine.execRevoke p s
  | .signal p => Sys2Proof.Machine.execSignal p s
  | .debugRequest p arrives => Sys2Proof.Machine.execDebugRequest p arrives s
  | .asyncMcheck p arrives => Sys2Proof.Machine.execAsyncMcheck p arrives s
  | .watchdog p => Sys2Proof.Machine.execWatchdog p s
  | .probe p => Sys2Proof.Machine.execProbe p s
  | .bind p => Sys2Proof.Machine.execBind p s
  | .forcedStop p => Sys2Proof.Machine.execForcedStop p s
  | .cooperativeStop p => Sys2Proof.Machine.execCooperativeStop p s
  | .stopWithDiscard p => Sys2Proof.Machine.execStopWithDiscard p s
  | .withdraw p => Sys2Proof.Machine.execWithdraw p s
  | .bindRecordWrite p w0 w1 w2 w3 => Sys2Proof.Machine.execBindRecordWrite p w0 w1 w2 w3 s
  | .secondVictim p => Sys2Proof.Machine.execSecondVictim p s
  | .ageLimit l => Sys2Proof.Machine.execAgeLimit l s
  | .launchAdmission src => Sys2Proof.Machine.execLaunchAdmission src s
  | .closePhase j => Sys2Proof.Machine.execClosePhase j s
  | .retireJob j => Sys2Proof.Machine.execRetireJob j s
  | .phaseBoundary j => Sys2Proof.Machine.execPhaseBoundary j s
  | .completion o => Sys2Proof.Machine.execCompletion o s
  | .cancel o => Sys2Proof.Machine.execCancel o s
  | .rerenderRequest elapsed => Sys2Proof.Machine.execRerenderRequest elapsed s
  | .qualityStep work elapsed => Sys2Proof.Machine.execQualityStep work elapsed s
  | .frameEvaluation => Sys2Proof.Machine.execFrameEvaluation s
  | .frameDeadline => Sys2Proof.Machine.execFrameDeadline s
  | .frameRelease => Sys2Proof.Machine.execFrameRelease s
  | .ptpSync off => Sys2Proof.Machine.execPtpSync off s
  | .holdover => Sys2Proof.Machine.execHoldover s
  | .inboundRead f x n => Sys2Proof.Machine.execInboundRead f x n s
  | .inboundWrite f off bs => Sys2Proof.Machine.execInboundWrite f off bs s
  | .apertureReadTimeout p => Sys2Proof.Machine.execApertureReadTimeout p s
  | .flitReceive d f => Sys2Proof.Machine.execFlitReceive d f s
  | .linkDown d => Sys2Proof.Machine.execLinkDown d s
  | .linkRetrain d => Sys2Proof.Machine.execLinkRetrain d s
  | .powerStateEntry x => Sys2Proof.Machine.execPowerStateEntry x s
  | .powerStateExit x => Sys2Proof.Machine.execPowerStateExit x s
  | .clockStep d x => Sys2Proof.Machine.execClockStep d x s
  | .thermalTrip x => Sys2Proof.Machine.execThermalTrip x s
  | .scrubPass d lpddr found => Sys2Proof.Machine.execScrubPass d lpddr found s
  | .boot fromHost => Sys2Proof.Machine.execBoot fromHost s
  | .recoveryPush len => Sys2Proof.Machine.execRecoveryPush len s
  | .tailWrite j v => Sys2Proof.Machine.execTailWrite j v s
  | .ringEnable j v => Sys2Proof.Machine.execRingEnable j v s
  | .ringConfigWrite j f v => Sys2Proof.Machine.execRingConfigWrite j f v s
  | .collectiveSetWrite vf k v => Sys2Proof.Machine.execCollectiveSetWrite vf k v s
  | .clr vf k => Sys2Proof.Machine.execClr vf k s
  | .b2vaWrite f v => Sys2Proof.Machine.execB2vaWrite f v s
  | .hapbaseWrite v => Sys2Proof.Machine.execHapbaseWrite v s
  | .ltolWrite f v => Sys2Proof.Machine.execLtolWrite f v s
  | .releaseEnable x => Sys2Proof.Machine.execReleaseEnable x s
  | .releaseConfigWrite f v => Sys2Proof.Machine.execReleaseConfigWrite f v s
  | .apertureEnable d a v => Sys2Proof.Machine.execApertureEnable d a v s
  | .apertureConfigWrite d a f v => Sys2Proof.Machine.execApertureConfigWrite d a f v s
  | .setPowerCap watts => Sys2Proof.Machine.execSetPowerCap watts s
  | .createTenant tn rect => Sys2Proof.Machine.execCreateTenant tn rect s
  | .resizeTenant tn rect => Sys2Proof.Machine.execResizeTenant tn rect s
  | .destroyTenant tn noDrain => Sys2Proof.Machine.execDestroyTenant tn noDrain s
  | .stageImage addr len => Sys2Proof.Machine.execStageImage addr len s
  | .commitStagedImage => Sys2Proof.Machine.execCommitStagedImage s
  | .raiseFusedMinimum v => Sys2Proof.Machine.execRaiseFusedMinimum v s
  | .attestationReport nonce addr => Sys2Proof.Machine.execAttestationReport nonce addr s
  | .loadCopyCoreRoutine img idx tn => Sys2Proof.Machine.execLoadCopyCoreRoutine img idx tn s
  | .setCoreSupervisor tn entry => Sys2Proof.Machine.execSetCoreSupervisor tn entry s
  | .registerWrite r v => Sys2Proof.Machine.execRegisterWrite r v s
  | .parkingComplete p => Sys2Proof.Machine.execParkingComplete p s
  | .scheduleService p => Sys2Proof.Machine.execScheduleService p s
  | .layerTablePerformed p => Sys2Proof.Machine.execLayerTablePerformed p s
  | .permitInstalled p => Sys2Proof.Machine.execPermitInstalled p s
  | .icinvComplete p => Sys2Proof.Machine.execIcinvComplete p s
  | .tlbAcknowledgement p => Sys2Proof.Machine.execTlbAcknowledgement p s

end Sys2Proof.Machine
end

