-- ==== Sys2Proof/Machine/Perform.lean ====
section
/-! DEFINITION. Performing a listed step of the machine: one call of its meaning for each. -/

namespace Sys2Proof.Machine

/-- Perform a step. -/
def perform (k : Task) (s : State) : Out :=
  match k with
  | .windowSpill p => execWindowSpill p s
  | .windowFill p => execWindowFill p s
  | .seat c => execSeat c s
  | .forwardedInstruction p => execForwardedInstruction p s
  | .memoryAccessPerformed p => execMemoryAccessPerformed p s
  | .divideComplete p => execDivideComplete p s
  | .digitBlock p => execDigitBlock p s
  | .vectorGroup p => execVectorGroup p s
  | .pageWalk tn va => execPageWalk tn va s
  | .engineDelivery c k => execEngineDelivery c k s
  | .commandRetire c k e => execCommandRetire c k e s
  | .cpymProduct c => execCpymProduct c s
  | .remoteAtomicArrival n bad => execRemoteAtomicArrival n bad s
  | .messageArrival n => execMessageArrival n s
  | .tenantDrop n => execTenantDrop n s
  | .barrierRelease l f k => execBarrierRelease l f k s
  | .reclaimClear c => execReclaimClear c s
  | .logExtend j => execLogExtend j s
  | .latchSample p => execLatchSample p s
  | .preempt p => execPreempt p s
  | .revoke p => execRevoke p s
  | .signal p => execSignal p s
  | .debugRequest p arrives => execDebugRequest p arrives s
  | .asyncMcheck p arrives => execAsyncMcheck p arrives s
  | .watchdog p => execWatchdog p s
  | .probe p => execProbe p s
  | .bind p => execBind p s
  | .forcedStop p => execForcedStop p s
  | .cooperativeStop p => execCooperativeStop p s
  | .stopWithDiscard p => execStopWithDiscard p s
  | .withdraw p => execWithdraw p s
  | .bindRecordWrite p w0 w1 w2 w3 => execBindRecordWrite p w0 w1 w2 w3 s
  | .secondVictim p => execSecondVictim p s
  | .ageLimit l => execAgeLimit l s
  | .launchAdmission src => execLaunchAdmission src s
  | .closePhase j => execClosePhase j s
  | .retireJob j => execRetireJob j s
  | .phaseBoundary j => execPhaseBoundary j s
  | .completion o => execCompletion o s
  | .cancel o => execCancel o s
  | .rerenderRequest elapsed => execRerenderRequest elapsed s
  | .qualityStep work elapsed => execQualityStep work elapsed s
  | .frameEvaluation => execFrameEvaluation s
  | .frameDeadline => execFrameDeadline s
  | .frameRelease => execFrameRelease s
  | .ptpSync off => execPtpSync off s
  | .holdover => execHoldover s
  | .inboundRead f x n => execInboundRead f x n s
  | .inboundWrite f off bs => execInboundWrite f off bs s
  | .apertureReadTimeout p => execApertureReadTimeout p s
  | .flitReceive d f => execFlitReceive d f s
  | .linkDown d => execLinkDown d s
  | .linkRetrain d => execLinkRetrain d s
  | .powerStateEntry x => execPowerStateEntry x s
  | .powerStateExit x => execPowerStateExit x s
  | .clockStep d x => execClockStep d x s
  | .thermalTrip x => execThermalTrip x s
  | .scrubPass d lpddr found => execScrubPass d lpddr found s
  | .boot fromHost => execBoot fromHost s
  | .recoveryPush len => execRecoveryPush len s
  | .tailWrite j v => execTailWrite j v s
  | .ringEnable j v => execRingEnable j v s
  | .ringConfigWrite j f v => execRingConfigWrite j f v s
  | .collectiveSetWrite vf k v => execCollectiveSetWrite vf k v s
  | .clr vf k => execClr vf k s
  | .b2vaWrite f v => execB2vaWrite f v s
  | .hapbaseWrite v => execHapbaseWrite v s
  | .ltolWrite f v => execLtolWrite f v s
  | .releaseEnable x => execReleaseEnable x s
  | .releaseConfigWrite f v => execReleaseConfigWrite f v s
  | .apertureEnable d a v => execApertureEnable d a v s
  | .apertureConfigWrite d a f v => execApertureConfigWrite d a f v s
  | .setPowerCap watts => execSetPowerCap watts s
  | .createTenant tn rect => execCreateTenant tn rect s
  | .resizeTenant tn rect => execResizeTenant tn rect s
  | .destroyTenant tn noDrain => execDestroyTenant tn noDrain s
  | .stageImage addr len => execStageImage addr len s
  | .commitStagedImage => execCommitStagedImage s
  | .raiseFusedMinimum v => execRaiseFusedMinimum v s
  | .attestationReport nonce addr => execAttestationReport nonce addr s
  | .loadCopyCoreRoutine img idx tn => execLoadCopyCoreRoutine img idx tn s
  | .setCoreSupervisor tn entry => execSetCoreSupervisor tn entry s
  | .registerWrite r v => execRegisterWrite r v s
  | .parkingComplete p => execParkingComplete p s
  | .scheduleService p => execScheduleService p s
  | .layerTablePerformed p => execLayerTablePerformed p s
  | .permitInstalled p => execPermitInstalled p s
  | .icinvComplete p => execIcinvComplete p s
  | .tlbAcknowledgement p => execTlbAcknowledgement p s

end Sys2Proof.Machine
end

