-- ==== Sys2Proof/Machine/Step.lean ====
section
/-! DEFINITION. One step of the machine. -/

namespace Sys2Proof.Machine

/-- What the thread in focus does. `done` closes an issue, given the state in which it issued and the instruction; `close` closes an event,
and `unused` a turn in which nothing issues. -/
def act (s : State) (done : State → Instr → State → State) (close unused : State → State) : Host.Outcome State Fault Refusal :=
  match chooseAction s with
  | .perform k => perform k s
  | .issue i s' => mapNext (done s' i) (exec i s')
  | .contend i s' k => if comesFirst s.here (exec i s') then mapNext (done s' i) (exec i s') else perform k s
  | .event e s' => mapNext close (raiseEv e s')
  | .walk va => .next (unused (beginWalk s va))
  | .skip s' => .next s'
  | .pass => .next (unused s)

/-- One step: a stalled access that may go on, outside its thread's turns (R50); then a listed step of the machine; otherwise the turn of the
thread in focus. After a thermal trip nothing steps until a reset (R375). -/
def step (s : State) : Host.Outcome State Fault Refusal :=
  if s.sys.power.stopped then
    match s.agenda with
    | .boot h :: rest => perform (.boot h) { s with agenda := rest }
    | _ => .fault .thermalStop
  else match resumable s with
    | some p =>
      let back (t : State) : State := t.focus s.here
      act (s.focus p) (fun s' i t => back (afterExec s' i t)) back back
    | none => match s.agenda with
      | k :: rest => perform k { s with agenda := rest }
      | [] => act s afterIssue afterTurn afterFree

/-- The state with an instruction placed where the next step fetches it. -/
def State.withFetchWord (s : State) (nbits w : Nat) : State := placeWord s nbits w

end Sys2Proof.Machine
end

