-- ==== Sys2Proof/Safety.lean ====
section
/-! DEFINITION. The terms in which claims speak: an instruction that completes, registers that can be read and written, what a
completed instruction changes and what it leaves alone, canonical memory, and a thread that an event has entered. -/

namespace Sys2Proof.Machine

/-! ### Completing -/

/-- The instruction answers a next state, and `Q` holds of it. -/
def Completes (i : Instr) (s : State) (Q : State → Prop) : Prop := ∃ t, exec i s = .next t ∧ Q t

/-- The register rules are met (R72): no bound source is empty, and no destination is bound. -/
abbrev Ready (s : State) (srcs dsts : List Reg) : Prop :=
  emptySource s.th srcs = none ∧ dsts.find? (isBound s.th) = none

/-- The thread in focus is at user level, outside any handler. -/
abbrev UserLevel (s : State) : Prop := s.th.sr.pl = false ∧ s.th.sr.se = false ∧ s.th.sr.ue = false

/-- The thread in focus is at supervisor level. -/
abbrev Supervisor (s : State) : Prop := s.th.sr.pl = true

/-! ### What is left alone -/

/-- Nothing outside the thread in focus differs. -/
structure OutsideKept (s t : State) : Prop where
  agenda : t.agenda = s.agenda
  here : t.here = s.here
  others : t.others = s.others
  mem : t.mem = s.mem
  sys : t.sys = s.sys
  fresh : t.fresh = s.fresh
  core : t.core = s.core
  cores : t.cores = s.cores

/-- A thread without what every executed instruction may change: its registers, the PC queue, the rotation, the watchdog count and its
deferred event, and whether bound registers hold a message. -/
def butRunning (t : Thread) : Thread :=
  { t with
    rf := {}, pcq := {}, rot := .ready, id := { t.id with wdcount := 0 }, lat := { t.lat with watchdog := false }
    ch := { t.ch with waitTurns := 0, binds := t.ch.binds.map fun b => { b with full := false } } }

/-- The bound registers among `srcs` are empty afterwards, and no other is (R72). -/
def MessagesTaken (s t : State) (srcs : List Reg) : Prop :=
  t.th.ch.binds = s.th.ch.binds.map fun b => if b.reg ∈ srcs then { b with full := false } else b

/-- The queue has made the step of R192, in sequence. -/
def Advanced (s t : State) : Prop := t.th.pcq = stepQueue s.th.pcq none false

/-- An instruction that began in `s` and read registers has fallen through: its thread's special registers, engine state, latches and
identity are as before, and everything outside the thread is as in `u`. -/
structure Ran (s u t : State) (srcs : List Reg) (rot : Rotation) : Prop where
  outside : OutsideKept u t
  thread : butRunning t.th = butRunning s.th
  taken : MessagesTaken s t srcs
  queue : Advanced s t
  rotation : t.th.rot = rot

/-- No register of a list is bound. -/
abbrev Unbound (s : State) (srcs : List Reg) : Prop := ∀ x ∈ srcs, isBound s.th x = false

/-- An instruction that reads registers has fallen through and has changed nothing outside its own thread but what taking messages from
bound registers changes, which is the credit of their senders (R72, R254). -/
structure Retired (s t : State) (srcs : List Reg) (rot : Rotation) : Prop where
  ran : Ran s (takeMsgs s srcs) t srcs rot
  unbound : Unbound s srcs → OutsideKept s t

/-! ### Events -/

/-- The thread in focus is in no handler. -/
abbrev NotHandling (s : State) : Prop := s.th.sr.se = false ∧ s.th.sr.ue = false

/-- A thread has entered the supervisor's handler for an event (R316): the queue and its annul bits are saved, the level and status are
those of a handler, the address is `svec`, and registers and flags are as before. -/
structure InSupervisor (old new : Thread) (code : BitVec 8) (addr : Word) : Prop where
  evcode : new.sr.evcode = code
  evaddr : new.sr.evaddr = addr
  epc0 : new.sr.epc0 = even old.pcq.e0.addr
  epc1 : new.sr.epc1 = even old.pcq.e1.addr
  epc2 : new.sr.epc2 = even old.pcq.e2.addr
  eann0 : new.sr.eann.getLsbD 0 = old.pcq.e0.annul
  eann1 : new.sr.eann.getLsbD 1 = old.pcq.e1.annul
  eann2 : new.sr.eann.getLsbD 2 = old.pcq.e2.annul
  ppl : new.sr.ppl = old.sr.pl
  pl : new.sr.pl = true
  se : new.sr.se = true
  ue : new.sr.ue = old.sr.ue
  pc : new.pcq.e0 = ⟨old.sr.svec, false⟩
  unannulled : new.pcq.e1.annul = false ∧ new.pcq.e2.annul = false
  rf : new.rf = old.rf
  flags : new.sr.flags = old.sr.flags
  rot : new.rot = .ready

/-- A thread has entered its launch's user trap handler (R313, R316): the level is as before, and the address is `uentry`. -/
structure InUserTrap (old new : Thread) (code : BitVec 8) (addr : Word) : Prop where
  evcode : new.sr.evcode = code
  evaddr : new.sr.evaddr = addr
  epc0 : new.sr.epc0 = even old.pcq.e0.addr
  epc1 : new.sr.epc1 = even old.pcq.e1.addr
  epc2 : new.sr.epc2 = even old.pcq.e2.addr
  ppl : new.sr.ppl = old.sr.ppl
  pl : new.sr.pl = old.sr.pl
  se : new.sr.se = old.sr.se
  ue : new.sr.ue = true
  pc : new.pcq.e0 = ⟨old.sr.uentry, false⟩
  unannulled : new.pcq.e1.annul = false ∧ new.pcq.e2.annul = false
  rf : new.rf = old.rf
  flags : new.sr.flags = old.sr.flags
  rot : new.rot = .ready

/-- The instruction raises an event that enters the supervisor's handler; nothing outside the thread and its gang differs from `u`, but
that an uncorrectable error is counted (R376). -/
def RaisesSuperFrom (i : Instr) (s u : State) (code : BitVec 8) (addr : Word) : Prop :=
  Completes i s fun t => InSupervisor s.th t.th code addr ∧ t.mem = u.mem ∧ t.core = u.core ∧
    t.sys = (if code = 0x10 then metError u u.here.did.val else u).sys ∧ t.here = u.here

/-- The same, nothing having happened before the event. -/
def RaisesSuper (i : Instr) (s : State) (code : BitVec 8) (addr : Word) : Prop := RaisesSuperFrom i s s code addr

/-- The threads of the core in focus that are blocked on a granule. -/
def granuleWaiters (s : State) (g : Nat) : List Place :=
  (s.placesOn s.hereCore).filter fun p =>
    match (s.thr p).rot with
    | .waiting (.granule h ..) => decide (h = g)
    | _ => false

/-- The instruction waits: its thread is out of rotation and has done nothing, and everything outside it is as in `u`. -/
def WaitsFrom (i : Instr) (s u : State) (w : Wait) : Prop :=
  Completes i s fun t => t.th.rot = .waiting w ∧ t.th.rf = s.th.rf ∧ t.th.pcq = s.th.pcq ∧ t.th.sr = s.th.sr ∧ OutsideKept u t

/-- The instruction waits, and nothing of it has happened. -/
def Waits (i : Instr) (s : State) (w : Wait) : Prop := WaitsFrom i s s w

/-- What is outside a thread that has taken the messages of `srcs` and changes its core as `f` says. -/
abbrev coreAfter (s : State) (srcs : List Reg) (f : Core → Core) : State := (takeMsgs s srcs).withCore (f (takeMsgs s srcs).core)

/-! ### What is written -/

/-- One register has been written; a write of `g0` is discarded. Every other register is as before. -/
structure WroteReg (r r' : Regs) (d : Reg) (v : Word) : Prop where
  value : rawReg r' d = if d = 0 then 0 else v
  kept : ∀ x, x ≠ d → rawReg r' x = rawReg r x
  rest : r' = { r with g := r'.g, win := r'.win }

/-- One condition register has been written; `c0` reads true. -/
structure WroteCond (r r' : Regs) (c : CReg) (v : Bool) : Prop where
  reads : ∀ x, condReg r' x = if x = 0 then true else if x = c then v else condReg r x
  rest : r' = { r with c := r'.c }

/-- One pointer register has been written. -/
structure WrotePtr (r r' : Regs) (p : PReg) (v : Ptr) : Prop where
  reads : ∀ x : PReg, r'.p[x.val] = if x = p then v else r.p[x.val]
  rest : r' = { r with p := r'.p }

/-- One lazy-uniform register has been written. -/
structure WroteZ (r r' : Regs) (z : ZReg) (v : ZVar) : Prop where
  reads : ∀ x : ZReg, r'.z[x.val] = if x = z then v else r.z[x.val]
  rest : r' = { r with z := r'.z }

/-- The register rules stop the instruction (R72, R177): a bound destination raises CHAN with its number; an empty bound source makes it
wait. Of the two the destination comes first, which is the model's choice (log 44). -/
def RegsStop (i : Instr) (s : State) (srcs dsts : List Reg) : Prop :=
  (∀ d, dsts.find? (isBound s.th) = some d → NotHandling s → RaisesSuper i s 0x0A (BitVec.ofNat 64 d.val)) ∧
  (∀ x, dsts.find? (isBound s.th) = none → emptySource s.th srcs = some x → Waits i s (.boundReg x))

/-- The instruction completes where the register rules are met: it reads `srcs`, writes `v` to `d` and changes nothing else. -/
def YieldsReg (i : Instr) (s : State) (srcs : List Reg) (d : Reg) (v : Word) (rot : Rotation := .ready) : Prop :=
  RegsStop i s srcs [d] ∧ (Ready s srcs [d] → Completes i s fun t => WroteReg s.th.rf t.th.rf d v ∧ Retired s t srcs rot)

/-- The same for a condition that is written. -/
def YieldsCond (i : Instr) (s : State) (srcs : List Reg) (c : CReg) (v : Bool) : Prop :=
  RegsStop i s srcs [] ∧ (Ready s srcs [] → Completes i s fun t => WroteCond s.th.rf t.th.rf c v ∧ Retired s t srcs .ready)

/-- The same for a pointer that is written. -/
def YieldsPtr (i : Instr) (s : State) (srcs : List Reg) (p : PReg) (v : Ptr) : Prop :=
  RegsStop i s srcs [] ∧ (Ready s srcs [] → Completes i s fun t => WrotePtr s.th.rf t.th.rf p v ∧ Retired s t srcs .ready)

/-! ### Values at a width -/

/-- The low bits of a register at an operation's width. -/
abbrev lowBits (w : Width) (x : Word) : BitVec w.bits := x.setWidth w.bits

/-- Extended to 64 bits by sign and by zeros. -/
abbrev sx {n : Nat} (x : BitVec n) : Word := x.signExtend 64
abbrev zx {n : Nat} (x : BitVec n) : Word := x.setWidth 64

/-- The relation of a compare (R183): `lt` and `le` are signed, `ltu` and `leu` unsigned. -/
def related (q : Cond) {n : Nat} (a b : BitVec n) : Bool :=
  match q with
  | .eq => a == b
  | .ne => a != b
  | .lt => a.slt b
  | .ltu => a.ult b
  | .le => a.sle b
  | .leu => a.ule b

/-! ### Memory -/

/-- Memory, the scratchpads and the lists of threads and cores are in canonical form: keys rise strictly, and nothing is listed that an
unlisted key reads as. -/
abbrev Canonical (s : State) : Prop :=
  Memory.wf s.mem = true ∧ sparseWf {} s.others = true ∧ sparseWf {} s.cores = true ∧ sparseWf 0 s.core.spad = true
    ∧ (s.cores.all fun e => sparseWf 0 e.2.spad) = true

/-- One byte of the module's memory, by the physical address of its home. -/
def memByte (s : State) (a : Nat) : Byte := sparseGet 0 s.mem a

/-- One byte of the scratchpad of the core in focus. -/
def spadByte (s : State) (a : Nat) : Byte := sparseGet 0 s.core.spad a

/-- Scratchpad bytes have been stored from `x` on, and every other one is as before. -/
def SpadStored (s t : State) (x : Nat) (bs : List Byte) : Prop :=
  (∀ k (h : k < bs.length), spadByte t (x + k) = bs[k]) ∧ ∀ y, y < x ∨ x + bs.length ≤ y → spadByte t y = spadByte s y

/-- The bytes of a store that go to the host, with their bus addresses and the attributes of the request (R341). -/
def postedBytes (s : State) (w : Requester) (pa : Nat) : List Byte → List Posted
  | [] => []
  | b :: t => (match homeOf s pa with | .host o => [⟨o, b, w⟩] | _ => []) ++ postedBytes s w (pa + 1) t

/-- Bytes have been stored from a physical address on: a byte of memory that is the home of none of them is as before; DRAM addresses
hold them; those for the host have been posted. -/
def MemStored (s t : State) (w : Requester) (pa : Nat) (bs : List Byte) : Prop :=
  (∀ m, (∀ k, k < bs.length → homeOf s (pa + k) ≠ .mem m) → memByte t m = memByte s m) ∧
  ((∀ k, k < bs.length → paKind (pa + k) = .dram) → ∀ k (h : k < bs.length), memByte t (pa + k) = bs[k]) ∧
  t.sys.host.posted = s.sys.host.posted ++ postedBytes s w pa bs

/-- A store has been performed where R187 finds its place, and nowhere else; a harvest context's store through the tag table also
writes the scratchpad slot (R34). -/
def Stored (s t : State) (bs : List Byte) : Loc → Prop
  | .spad x => SpadStored s t x bs ∧ t.mem = s.mem ∧ t.sys = s.sys
  | .phys pa kind => MemStored s t (requesterOf s.th.id.tenant kind) pa bs ∧ t.core.spad = s.core.spad
  | .tag x pa kind => MemStored s t (requesterOf s.th.id.tenant kind) pa bs ∧ SpadStored s t x bs

/-! ### Loads and stores -/

/-- The access passes the checks of R187 and does not stall. -/
abbrev Accessible (s : State) (acc : Access) (ea : Word) (n : Nat) (loc : Loc) : Prop :=
  locate s acc ea n = .ok loc ∧ locStalls s n (acc = .write) loc = false

/-- The value of loaded bytes, extended to 64 bits. -/
def loaded (n : Nat) (signed : Bool) (bs : List Byte) : Word :=
  let v := BitVec.ofNat (8 * n) (ofBytes bs)
  if signed then sx v else zx v

/-- The access raises what R187 finds wrong with it, and waits while its scratchpad bytes are held (R35, R50, R79). -/
def AccessStops (i : Instr) (s : State) (acc : Access) (ea : Word) (n : Nat) : Prop :=
  (∀ e, locate s acc ea n = .error e → NotHandling s → RaisesSuper i s e.code e.addr) ∧
  (∀ loc, locate s acc ea n = .ok loc → locStalls s n (acc = .write) loc = true → Waits i s (.locked (locRanges n (acc = .write) loc)))

/-- The bytes that an instruction reads at `ea`: data that came while it waited, or what its place holds. They leave its leaf in the TLBs
(R336) and have been read at their homes (R349, R372), in `u`, and its thread in the rotation `rot` until the access is performed (R65). -/
inductive ReadsBytes (s : State) (ea : Word) (n : Nat) : State → Rotation → List Byte → Prop
  | came (v : Nat) (h : gotData s = some v) : ReadsBytes s ea n s .ready (toBytes n v)
  | here (loc : Loc) (h : gotData s = none) (ok : Accessible s .read ea n loc) (module : isHostLoc s loc = none) :
      ReadsBytes s ea n (touchLoad s ea n loc) (loadRotation s ea loc) (loadBytes (touchLoad s ea n loc) n loc)

/-- An instruction that reads bytes and does not get them in this turn raises what the checks find, waits for locked bytes, or has the read
in flight to the host or another module with nothing else done (R341). -/
def ReadStops (i : Instr) (s : State) (ea : Word) (n : Nat) : Prop :=
  gotData s = none → AccessStops i s .read ea n ∧ ∀ loc pa, Accessible s .read ea n loc → isHostLoc s loc = some pa →
    exec i s = .next ((touchLoad s ea n loc).withTh { s.th with rot := .inFlight (.hostLoad pa ea n) })

/-- A load completes: the bytes at `ea` are in `d`. -/
def LoadYields (i : Instr) (s : State) (d a : Reg) (ea : Word) (n : Nat) (signed : Bool) : Prop :=
  RegsStop i s [a] [d] ∧ (Ready s [a] [d] → ReadStops i s ea n ∧ ∀ u rot bs, ReadsBytes s ea n u rot bs →
    Completes i s fun t => WroteReg s.th.rf t.th.rf d (loaded n signed bs) ∧ Ran s (takeMsgs u [a]) t [a] rot)

/-- What a store starts from: its leaf is in the TLBs (R336), a register stack that it meets is noted (R17), and its source registers'
messages are taken (R72). -/
abbrev storeBase (s : State) (ea : Word) (n : Nat) (srcs : List Reg) : State := takeMsgs (touchStore s ea n) srcs

/-- A store of `n` bytes has been performed by an instruction that reads `srcs`, and nothing else outside its thread has changed. -/
structure StoreDone (s t : State) (srcs : List Reg) (ea : Word) (n : Nat) (bs : List Byte) (loc : Loc) (rot : Rotation) : Prop where
  stored : Stored (storeBase s ea n srcs) t bs loc
  ran : Ran s (storeBytes (storeBase s ea n srcs) bs loc) t srcs rot

/-- A store completes: the low bytes of `d` are stored at `ea`. A release waits for the thread's earlier accesses (R111, R116). -/
def StoreYields (i : Instr) (s : State) (d a : Reg) (ea : Word) (n : Nat) : Prop :=
  RegsStop i s [a, d] [] ∧ (Ready s [a, d] [] → AccessStops i s .write ea n ∧ ∀ loc, Accessible s .write ea n loc →
    ((locReleases loc && atomicsOutstanding s) = true → Waits i s .release) ∧
    ((locReleases loc && atomicsOutstanding s) = false → Completes i s fun t =>
      t.th.rf = s.th.rf ∧ StoreDone s t [a, d] ea n (toBytes n (s.reg d).toNat) loc (locRotation loc)))

/-! ### Vector instructions -/

/-- Where a stream stands: the number of the group that is next, and the flags of those before it (R205). -/
def streamPoint (s : State) : Nat × BitVec 5 :=
  match s.th.rot with
  | .waiting (.group k acc) => (k, acc)
  | _ => (0, 0)

/-- A vector instruction has passed its checks (R52, R200, R206, R327), or stands between two groups, and no range is locked (R79). -/
def streamReady (s : State) (ops : List VOperand) (limit : Bool := true) (index : State → Option Nat := noIndex)
    (extra : State → Nat → List VRange := noExtra) : Bool :=
  (midStream s || ((streamFault ops limit s).isNone && !rangesStall s.core (operandHolds s ops) && (dataFault ops index extra s).isNone))
    && !rangesStall s.core (streamHolds s ops extra)

/-- The same, and the vector unit can take its next group (R80). -/
def streamRuns (s : State) (ops : List VOperand) (limit : Bool := true) (index : State → Option Nat := noIndex)
    (extra : State → Nat → List VRange := noExtra) : Bool :=
  streamReady s ops limit index extra && (midStream s || !unitBusy s)

/-- Every pointer of a vector instruction is aligned. -/
abbrev Aligned (s : State) (ops : List VOperand) : Prop := ∀ o ∈ ops, (s.ptr o.ptr).addr.toNat % o.align = 0

/-- The core in focus without what earlier streams of the slot in focus have overwritten (R217). -/
abbrev unfound (s : State) : Core := { s.core with found := s.core.found.filter fun x => !decide (x.slot = s.here.slot.val) }

/-- The state in which a stream's next group runs: its first one begins a new stream. -/
abbrev streamStart (s : State) : State := if midStream s then s else s.withCore (unfound s)

/-- A vector instruction that does not run: its own operand limits, then a misaligned pointer, then a byte out of reach, then what its index
data names, then an uncorrectable error raise their event, a locked range makes it wait, and so does a vector unit that other groups keep
busy (R52, R79, R80, R206, R327). The checks precede its first repetition (R200); which pointers are checked for alignment is the model's
choice (log 11), and so are checks made again after an event between two repetitions (log 44). -/
structure StreamStops (i : Instr) (s : State) (ops : List VOperand) (limit : Bool) (index : State → Option Nat)
    (extra : State → Nat → List VRange) : Prop where
  limits : NotHandling s → toCheck s = true → limit = false → RaisesSuper i s 0x0B 0
  misaligned : NotHandling s → toCheck s = true → limit = true → ∀ o,
    ops.find? (fun o => decide ((s.ptr o.ptr).addr.toNat % o.align ≠ 0)) = some o → RaisesSuper i s 0x03 (zx (s.ptr o.ptr).addr)
  outside : NotHandling s → toCheck s = true → limit = true → Aligned s ops → ∀ a,
    ops.findSome? (operandOutside s ops) = some a → RaisesSuper i s 0x05 (BitVec.ofNat 64 a)
  waits : streamFault ops limit s = none → rangesStall s.core (operandHolds s ops) = true → Waits i s (.locked (operandHolds s ops))
  indexed : NotHandling s → toCheck s = true → streamFault ops limit s = none → rangesStall s.core (operandHolds s ops) = false → ∀ a,
    index s = some a → RaisesSuper i s 0x05 (BitVec.ofNat 64 a)
  bad : NotHandling s → toCheck s = true → streamFault ops limit s = none → rangesStall s.core (operandHolds s ops) = false →
    index s = none → ∀ a, ((List.range (repsLeft s)).findSome? fun r => (streamRanges s ops extra r).findSome? (rangeBad s.core)) = some a →
    RaisesSuper i s 0x10 (BitVec.ofNat 64 a)
  held : streamFault ops limit s = none → rangesStall s.core (operandHolds s ops) = false → dataFault ops index extra s = none →
    rangesStall s.core (streamHolds s ops extra) = true → Waits i s (.locked (streamHolds s ops extra))
  busy : streamReady s ops limit index extra = true → unitBusy s = true →
    exec i s = .next ((s.withCore (unfound s)).withTh { s.th with stream := {}, rot := .waiting (.group 0 0) })

/-- One repetition of a vector instruction has been performed: nothing but scratchpad bytes of the core, the pointers it steps, the sticky
flags and the queue changes (R89, R198, R204). -/
structure RepetitionDone (s t : State) (ops : List VOperand) (flags : BitVec 5) : Prop where
  flags : t.th.sr = { s.th.sr with flags := s.th.sr.flags ||| flags }
  pointers : ∀ p : PReg, t.th.rf.p[p.val] = if steps ops p
    then { s.th.rf.p[p.val] with addr := s.th.rf.p[p.val].addr + s.th.rf.p[p.val].stride.signExtend 20 } else s.th.rf.p[p.val]
  registers : t.th.rf = { s.th.rf with p := t.th.rf.p }
  thread : butRunning { t.th with sr := s.th.sr, stream := s.th.stream } = butRunning s.th
  last : s.th.pcq.repLeft ≤ 1 → Advanced s t
  more : 1 < s.th.pcq.repLeft → t.th.rot = .waiting (.group 0 0) ∧
    t.th.pcq = { s.th.pcq with repLeft := s.th.pcq.repLeft - 1, repDone := s.th.pcq.repDone + 1 }
  rotation : s.th.pcq.repLeft ≤ 1 → t.th.rot = .ready ∨ t.th.rot = .inFlight .vector
  outside : OutsideKept (s.withCore t.core) t

/-- The elements of the group that is next. -/
def nextGroup (s : State) (groups : List (List Nat)) : List Nat := (groups[(streamPoint s).1]?).getD []

/-- What the groups of a stream that have run have read, or have overwritten (R217). -/
def lanesSoFar (s : State) : List (Nat × List Byte) := if midStream s then s.th.stream.lanes else []

/-- Whether a stream's next group is its last. -/
def lastGroup (s : State) (groups : List (List Nat)) : Bool := decide (groups.length ≤ (streamPoint s).1 + 1)

/-- The next group of a vector instruction runs, and `Q` holds of the scratchpad, the flags and the lanes it leaves; the vector unit is taken
for at least one cycle (R80). After the last one the instruction has performed a repetition; before it the stream stands at the next group,
with everything else as it was (R205). What the groups have overwritten stays noted, and what they owe their thread adds up (R91, R106, R217). -/
def GroupYields (i : Instr) (s : State) (ops : List VOperand) (groups : List (List Nat))
    (Q : Core → BitVec 5 → List (Nat × List Byte) → Prop) : Prop :=
  ∃ c fl n x, Q c fl x.lanes ∧ c = { s.core with spad := c.spad, bad := c.bad, found := c.found } ∧ 0 < n ∧ (midStream s = true → s.th.stream.toll ≤ x.toll) ∧
    (lastGroup s groups = false → exec i s =
      .next ((s.withCore (occupy s n c)).withTh { s.th with rot := .waiting (.group ((streamPoint s).1 + 1) fl), stream := x })) ∧
    (lastGroup s groups = true → Completes i s fun t => t.core = occupy s n c ∧ RepetitionDone s t ops fl)

/-- A vector instruction that stops, or whose ranges are held while it stands between two groups (R79). -/
abbrev StreamHeld (i : Instr) (s : State) (ops : List VOperand) (limit : Bool) (index : State → Option Nat)
    (extra : State → Nat → List VRange) : Prop :=
  (midStream s = false → StreamStops i s ops limit index extra) ∧
  (midStream s = true → rangesStall s.core (streamHolds s ops extra) = true → exec i s = .next s)

/-- A vector instruction runs group after group in ascending order, every element of a group reading what the group found (R205), or stops;
with `keep` its lanes are what its groups have overwritten. -/
def StreamYields (i : Instr) (s : State) (ops : List VOperand) (groups : List (List Nat)) (f : Core → Nat → VEffect)
    (limit : Bool := true) (index : State → Option Nat := noIndex) (extra : State → Nat → List VRange := noExtra) (keep : Bool := false) : Prop :=
  StreamHeld i s ops limit index extra ∧
  (streamRuns s ops limit index extra = true → GroupYields i s ops groups fun c fl lanes =>
    let u := streamStart s
    let r := runGroup f (u.core, (streamPoint s).2) (nextGroup s groups)
    c = (if keep then noteFound u f (nextGroup s groups) (lastGroup s groups) r.1 else r.1) ∧ fl = r.2 ∧ lanes = [])

/-- A vector instruction that reads every source element before it writes any: a group adds what its elements read, writing nothing, and the
last one writes what `fin` makes of all of it (R205, R217); or it stops. -/
def GatherYields (i : Instr) (s : State) (ops : List VOperand) (groups : List (List Nat)) (f : Core → Nat → VEffect)
    (fin : List (Nat × List Byte) → VEffect) (limit : Bool := true) (index : State → Option Nat := noIndex)
    (extra : State → Nat → List VRange := noExtra) : Prop :=
  StreamHeld i s ops limit index extra ∧
  (streamRuns s ops limit index extra = true → GroupYields i s ops groups fun c fl lanes =>
    let u := streamStart s
    lanes = lanesSoFar s ++ ((nextGroup s groups).map fun e => (f u.core e).writes).flatten ∧
    let seen := (nextGroup s groups).foldl (fun acc e => acc ||| (f u.core e).flags) (streamPoint s).2
    if lastGroup s groups then c = writeAll u.core (fin lanes).writes ∧ fl = seen ||| (fin lanes).flags else c = u.core ∧ fl = seen)

/-- Listed elements of a destination have been written, and no other byte of the scratchpad. -/
def ElementsWritten (c c' : Core) (dst size : Nat) (es : List Nat) (v : Nat → Nat) : Prop :=
  (∀ e ∈ es, elemAt c' dst size e = v e % 2 ^ (8 * size)) ∧
  ∀ y, (∀ e ∈ es, y < dst + e * size ∨ dst + e * size + size ≤ y) → sparseGet 0 c'.spad y = sparseGet 0 c.spad y

/-- The next group of an element operation writes the results `res` and adds their flags. -/
def ElementsYield (i : Instr) (s : State) (ops : List VOperand) (groups : List (List Nat)) (dst size : Nat) (res : Nat → FpRes) : Prop :=
  GroupYields i s ops groups fun c fl _ =>
    ElementsWritten s.core c dst size (nextGroup s groups) (fun e => (res e).pat) ∧
    fl = (nextGroup s groups).foldl (fun acc e => acc ||| (res e).flags) (streamPoint s).2

/-- A binary element operation completes (R204, R205): it runs by groups as every vector instruction does, and element `e` of a group's
destination is `f` of the elements `e` of the sources and of the old destination as the group finds them. -/
def BinaryYields (i : Instr) (s : State) (t : VType) (d a b : PReg) (readsD : Bool) (f : Nat → Nat → Nat → FpRes) : Prop :=
  let n := s.th.sr.vl.toNat
  let k := elemSize t
  let ops : List VOperand := [⟨d, true, k, n, k, readsD, true⟩, vsrc a k n, vsrc b k n]
  let res (c : Core) (e : Nat) := f (elemAt c (addrOf s a) k e) (elemAt c (addrOf s b) k e) (elemAt c (addrOf s d) k e)
  StreamYields i s ops (groupsOf (128 / k) n) (fun c e => putElem (addrOf s d) k e (res c e)) ∧
  (streamRuns s ops = true → ElementsYield i s ops (groupsOf (128 / k) n) (addrOf s d) k (res s.core))

/-- A unary element operation from type `u` to type `t` completes (R204, R205). -/
def UnaryYields (i : Instr) (s : State) (t u : VType) (d a : PReg) (f : Nat → Nat → FpRes) : Prop :=
  let n := s.th.sr.vl.toNat
  let k := elemSize t
  let j := elemSize u
  let ops : List VOperand := [vdst d k n, vsrc a j n]
  let res (c : Core) (e : Nat) := f e (elemAt c (addrOf s a) j e)
  StreamYields i s ops (groupsOf (128 / max k j) n) (fun c e => putElem (addrOf s d) k e (res c e)) ∧
  (streamRuns s ops = true → ElementsYield i s ops (groupsOf (128 / max k j) n) (addrOf s d) k (res s.core))

/-! ### Engine commands -/

/-- What a command reads at issue can be read now. -/
abbrev ReadsLatched (s : State) (p : Plan) : Prop :=
  ∀ r ∈ p.reads, spadStalls s.core r.1 r.2 false = false ∧ spadBad s.core r.1 r.2 = false

/-- A command may be issued (R228): its queue has room, the checks of its operands pass with these pages, and what is read at issue can be
read. -/
abbrev IssueReady (s : State) (tk : Reg) (p : Plan) (pages : Sparse PageHold) : Prop :=
  queueFull s.core p.cls p.alsoCopy = false ∧ entryChecks s tk p = none ∧ ReadsLatched s p ∧ p.badRead = false ∧ placeChecks s p = .ok pages

/-- A command is refused (R228 steps 2 to 5): a harvest context's by PERM with all ones where harvest contexts are barred, and with the
address where its bytes are not lent to it; a bound ticket register by CHAN; the earliest operand that fails its checks by OPERAND with
its entry, and with all ones what is read at issue and fails its check; bytes outside the launch's window by PERM with their address. It waits while its queue is full (R76). Which entry a failure is charged to, and
in which order, is the model's choice where the rules are silent (logs 17, 27). -/
structure CommandRefused (i : Instr) (s : State) (tk : Reg) (p : Plan) : Prop where
  full : queueFull s.core p.cls p.alsoCopy = true → Waits i s .classQueue
  barred : queueFull s.core p.cls p.alsoCopy = false → NotHandling s → s.th.id.harv = true → p.matrixOnly = true →
    RaisesSuper i s 0x05 0xFFFFFFFFFFFFFFFF
  unlent : queueFull s.core p.cls p.alsoCopy = false → NotHandling s → s.th.id.harv = true → p.matrixOnly = false → ∀ a,
    (((p.ops ++ p.latched).filter fun o => decide (o.t.space = 1)).findSome? fun o => tensOutside (borrowerMay s) o.t) = some a →
    RaisesSuper i s 0x05 (BitVec.ofInt 64 a)
  bound : queueFull s.core p.cls p.alsoCopy = false → NotHandling s → s.th.id.harv = false → isBound s.th tk = true →
    RaisesSuper i s 0x0A (BitVec.ofNat 64 tk.val)
  operand : queueFull s.core p.cls p.alsoCopy = false → NotHandling s → s.th.id.harv = false → isBound s.th tk = false → ∀ f,
    firstFailure (allFailures s (p.ops ++ p.latched) (p.ops ++ p.latched) 0 ++ p.own) = some f → RaisesSuper i s 0x0B f.2
  read : queueFull s.core p.cls p.alsoCopy = false → NotHandling s → s.th.id.harv = false → entryChecks s tk p = none → ReadsLatched s p →
    p.badRead = true → RaisesSuper i s 0x0B 0xFFFFFFFFFFFFFFFF
  window : queueFull s.core p.cls p.alsoCopy = false → NotHandling s → s.th.id.harv = false → isBound s.th tk = false →
    firstFailure (allFailures s (p.ops ++ p.latched) (p.ops ++ p.latched) 0 ++ p.own) = none → ReadsLatched s p → p.badRead = false → ∀ pre o post a,
    p.ops ++ p.latched = pre ++ o :: post → (∀ x ∈ pre, x.t.space = 0) → o.t.space = 1 → tensOutside (ownerMay s) o.t = some a →
    RaisesSuper i s 0x05 (BitVec.ofInt 64 a)

/-- A command has been issued (R75, R76, R228), `keys` being the counts of match keys after it (R240): it stands in its core's queue with everything latched, nothing of it performed; the ticket is
in `tk`, the count of its class is one higher, its destination granules are empty, and the TLBs hold the leaves walked, for which the thread
is out of rotation (R13, R336). Nothing else but the tiles and their owners changes. -/
structure CommandIssued (s t : State) (i : Instr) (tk : Reg) (p : Plan) (pages : Sparse PageHold) (c : Cmd)
    (keys : List KeyCount := s.sys.keys) : Prop where
  queued : t.core.cmds = s.core.cmds ++ [c]
  op : c.op = i ∧ c.cls = p.cls ∧ c.seq = seqOf ((s.th.eng.seqs p.cls).issued + 1)
  issuer : c.place = s.here ∧ c.lid = s.th.id.lid ∧ c.unit = s.th.id.unit ∧ c.tenant = s.th.id.tenant
  config : c.mcfg = s.th.sr.mcfg ∧ c.xcfg = s.th.sr.xcfg ∧ c.pages = pages
  unperformed : c.out = none ∧ c.delivered = 0 ∧ c.status = 0 ∧ c.flags = 0 ∧ c.done = false
  ticket : WroteReg s.th.rf t.th.rf tk (BitVec.ofNat 64 (classCode p.cls * 2 ^ 28 + c.seq))
  counted : t.th.eng.seqs p.cls = { s.th.eng.seqs p.cls with issued := (s.th.eng.seqs p.cls).issued + 1 }
  others : ∀ k, k ≠ p.cls → t.th.eng.seqs k = s.th.eng.seqs k
  tensors : t.th.eng.tens = s.th.eng.tens
  empties : ∀ g, g ∈ t.core.empties ↔ g ∈ s.core.empties ∨ g ∈ c.dst
  kept :
    let u := fillPages s (pagesWalked p)
    Ran (s.withEng t.th.eng) ((u.withSys { u.sys with keys := keys }).withCore { u.core with
      cmds := t.core.cmds, empties := t.core.empties, owners := t.core.owners, tiles := t.core.tiles }) t [] (issueRotation s (pagesWalked p))

/-! ### Layers -/

/-- A register that names a layer of the thread's tenant which is not free (R248). -/
abbrev NamesLayer (s : State) (a : Reg) (k : Nat) : Prop :=
  (s.reg a).toNat = k ∧ k < 4096 ∧ (s.layer k).state ≠ 0 ∧ (s.layer k).tenant = s.th.id.tenant

/-- The layer instruction completes: the layer table is as `layers` says, its requests but those `dropped` stand, and nothing else outside the
thread changes; the thread is out of rotation until the table has performed it (R137, R248). -/
def LayersBecome (i : Instr) (s : State) (srcs : List Reg) (layer : Nat → Layer) (requests : List Request)
    (regs : Regs → Prop) : Prop :=
  Completes i s fun t => regs t.th.rf ∧ (∀ k, t.layer k = layer k) ∧ t.sys.layers.requests = requests ∧
    t.sys.layers = { s.sys.layers with table := t.sys.layers.table, requests := requests } ∧
    Ran s ((takeMsgs s srcs).withLayers t.sys.layers) t srcs (.inFlight .layer)

/-! ### Transfers -/

/-- The instruction has executed and taken its step of the queue (R192): to `target` if it is taken, in sequence otherwise, with both delay
slots annulled if `annul`. Everything outside its thread is as in `u`. -/
structure Jumped (s u t : State) (srcs : List Reg) (target : Option Word) (annul : Bool) : Prop where
  outside : OutsideKept u t
  thread : butRunning t.th = butRunning s.th
  taken : MessagesTaken s t srcs
  rotation : t.th.rot = .ready
  e0 : t.th.pcq.e0 = ⟨s.th.pcq.e1.addr, s.th.pcq.e1.annul || annul⟩
  e1 : t.th.pcq.e1 = ⟨s.th.pcq.e2.addr, s.th.pcq.e2.annul || annul⟩
  e2 : t.th.pcq.e2 = ⟨target.getD (s.th.pcq.e2.addr + (if s.th.pcq.e2long then 4 else 2)), false⟩
  repetitions : t.th.pcq.repLeft = 0

/-- The same of an instruction that changes nothing outside its thread but what taking messages changes (R254). -/
structure Transferred (s t : State) (srcs : List Reg) (target : Option Word) (annul : Bool) : Prop where
  jumped : Jumped s (takeMsgs s srcs) t srcs target annul
  unbound : Unbound s srcs → OutsideKept s t

/-- The target of a displacement in halfwords, from the instruction's own address (R157). -/
def branchTarget {n : Nat} (s : State) (i : BitVec n) : Word := s.th.pcq.e0.addr + sx i + sx i

/-! ### Steps of the machine -/

/-- One thread may differ, and nothing else does. -/
structure OnlyThread (s t : State) (p : Place) : Prop where
  others : ∀ q, q ≠ p → t.thr q = s.thr q
  here : t.here = s.here
  agenda : t.agenda = s.agenda
  core : t.core = s.core
  cores : t.cores = s.cores
  mem : t.mem = s.mem
  sys : t.sys = s.sys
  fresh : t.fresh = s.fresh

/-- The step changes one thread, as `f` says. -/
def ThreadBecomes (i : Instr) (s : State) (p : Place) (f : Thread → Thread) : Prop :=
  Completes i s fun t => t.thr p = f (s.thr p) ∧ OnlyThread s t p

/-- The step has no effect. -/
abbrev NoEffect (i : Instr) (s : State) : Prop := exec i s = .next s

/-- The core of a number may differ, and nothing else does. -/
structure OnlyCore (s t : State) (n : Nat) : Prop where
  others : ∀ k, k ≠ n → t.coreBy k = s.coreBy k
  threads : ∀ q, t.thr q = s.thr q
  here : t.here = s.here
  agenda : t.agenda = s.agenda
  mem : t.mem = s.mem
  sys : t.sys = s.sys
  fresh : t.fresh = s.fresh

/-- Scratchpad bytes of the core of a number have been written from `x` on, and no other byte of its scratchpad. -/
def CoreStored (s t : State) (n x : Nat) (bs : List Byte) : Prop :=
  (∀ k (h : k < bs.length), sparseGet 0 (t.coreBy n).spad (x + k) = bs[k]) ∧
  ∀ y, y < x ∨ x + bs.length ≤ y → sparseGet 0 (t.coreBy n).spad y = sparseGet 0 (s.coreBy n).spad y

/-- Only the slot-table entry of a place changes in the module. -/
def SlotBecomes (s t : State) (p : Place) (f : Slot → Slot) : Prop :=
  t.slot p = f (s.slot p) ∧ (∀ q, q ≠ p → t.slot q = s.slot q) ∧ t.sys = { s.sys with work := { s.sys.work with slots := t.sys.work.slots } }

/-- The launch of an identifier is as given, and no other launch changes. -/
def LaunchBecomes (s t : State) (lid : BitVec 32) (l : Launch) : Prop :=
  t.launch lid = l ∧ ∀ k, k ≠ lid → t.launch k = s.launch k

/-- The module's launches, jobs, rings and slots are listed in canonical form. -/
abbrev CanonicalWork (s : State) : Prop :=
  sparseWf {} s.sys.work.launches = true ∧ sparseWf {} s.sys.work.jobs = true ∧ sparseWf {} s.sys.work.rings = true ∧
    sparseWf {} s.sys.work.slots = true ∧ sparseWf [] s.sys.work.deviceQ = true ∧
    (s.sys.work.jobs.all fun j => sparseWf {} j.2.phases && sparseWf {} j.2.graphs) = true

/-- The lists by number that claims read besides the memories: work, grains, tensor tables, tenants, ports, counters, tolerances, clocks,
layers, poses, buffers, routines, records, schedule blocks, stored-over stacks and foresters are in canonical form; a layer that the table
lists is not free. -/
abbrev CanonicalLists (s : State) : Prop :=
  CanonicalWork s ∧ (s.sys.work.launches.all fun e => sparseWf 0 e.2.sched.grains) = true ∧
    sparseWf {} s.th.eng.tens = true ∧ (s.others.all fun e => sparseWf {} e.2.eng.tens) = true ∧
    sparseWf {} s.sys.tenants = true ∧ sparseWf {} s.sys.ports = true ∧ sparseWf {} s.sys.tele = true ∧
    sparseWf 0xFFFFFFFF s.sys.host.ltol = true ∧ sparseWf 16 s.sys.power.clock = true ∧
    sparseWf freeLayer s.sys.layers.table = true ∧ (s.sys.layers.table.all fun e => decide (e.2.state ≠ 0)) = true ∧ sparseWf noPose s.sys.layers.held = true ∧
    sparseWf {} s.sys.rel.handed = true ∧ sparseWf 0 s.sys.mail.routines = true ∧
    sparseWf {} s.sys.work.records = true ∧ sparseWf {} s.sys.work.blocks = true ∧ sparseWf 0 s.sys.work.overlaid = true ∧
    sparseWf {} s.sys.foresters = true ∧ (s.sys.foresters.all fun e => sparseWf 0 e.2.sram) = true

/-! ### Turns and steps -/

/-- Nothing comes before the head of the queue of the thread in focus in its next turn: nothing is due, no stalled access may go on, it is bound
and in rotation without a deferred event, it goes on with no instruction issued before, and it neither follows a leader nor waits for its
followers. -/
structure AtHead (s : State) : Prop where
  running : s.sys.power.stopped = false
  due : s.agenda = []
  resumes : resumable s = none
  bound : s.th.bound = true ∧ s.th.id.parking = false
  ready : s.th.rot = .ready ∧ s.th.held = none
  deferred : s.th.lat.watchdog = false ∧ s.th.lat.drop = none
  gang : s.th.gang.now = none ∧ s.th.gang.buf = [] ∧ s.th.gang.state ≠ .attached ∧ followerFull s = false

/-- The thread in focus issues the instruction at its head in its next turn: the head is not annulled, and no request is eligible. -/
structure IssuesNext (s : State) : Prop extends AtHead s where
  head : s.th.pcq.e0.annul = false
  requests : eligibleRequest s.here s.th = none

end Sys2Proof.Machine
end

