-- ==== Sys2Proof/Certificates/Slice0/Obligations.lean ====
section
/-! DEFINITION. What is claimed of the model, for the provers. -/

open Sys2Proof Sys2Proof.Machine

/-! ### Decoding, stepping, reset -/

/-- R149, R154 to R171: words of the spec's examples and listings decode to the instructions they are shown for; the halfword 0x0000 and the word
0xFFFFFFFF decode to none (R150). -/
def Obligations.WordsDecode : Prop :=
  decodeTableWord 16 0xA13C = some (.ldd16 9 8 true) ∧
  decodeTableWord 16 0x2662 = some (.add16 19 (.reg 9)) ∧
  decodeTableWord 32 0x40DAC583 = some (.mulh .w32 11 12 13) ∧
  decodeTableWord 32 0x0005198D = some (.shli .w64 19 17 2) ∧
  decodeTableWord 32 0x401AC711 = some (.cmp .ltu .w32 2 12 13) ∧
  decodeTableWord 32 0xFFFF8733 = some (.btN 2 0x1FFFF0) ∧
  decodeTableWord 32 0x442AFABD = some (.sel 21 15 21 1) ∧
  decodeTableWord 32 0xFFFCB71F = some (.ldhu 14 11 0x7FFE) ∧
  decodeTableWord 32 0x4040B72F = some (.ldFe .w32 14 11) ∧
  decodeTableWord 32 0x0200B72F = some (.stRel .w64 14 11) ∧
  decodeTableWord 32 0x04000039 = some .endUnit ∧
  decodeTableWord 32 0x002205F3 = some (.mfsr 11 .flags) ∧
  decodeTableWord 32 0x00000071 = some .rfe ∧
  decodeTableWord 16 0x0000 = none ∧
  decodeTableWord 32 0xFFFFFFFF = none

/-- R149, R154 to R171: decoding an encoded well-formed instruction gives it back, with every operand at every value its encoding admits; and a
word that decodes to an instruction is that instruction's one encoding (R158: fields not used are 0). -/
def Obligations.DecodeEncodeAgree : Prop :=
  (∀ (i : Instr) (n w : Nat), i.wf = true → encode i = some (n, w) → (n = 16 ∨ n = 32) ∧ w < 2 ^ n ∧ w % 2 = n / 32 ∧ decodeWord n w = .ok i) ∧
  (∀ (i : Instr) (n w : Nat), (n = 16 ∨ n = 32) → decodeWord n w = .ok i → i.wf = true ∧ encode i = some (n, w))

/-- R149, R150, R158, R159, R192, R193, R198: in its turn a thread fetches the halfwords at the head of its queue and the first one at `e2`. If they
decode to an instruction, the step is that instruction's execution, with what was fetched in the TLBs and the instruction cache (R270, R336),
followed by what comes after a turn (forwarding, the slot's state, the next turn); if they decode to none, ILLEGAL is raised; a failed fetch
raises its event; a fetch whose leaf no TLB holds begins a walk, and the turn is free (R9, R13, R336). -/
def Obligations.StepRunsDecodedInstruction : Prop :=
  ∀ (s : State) (h0 h1 h2 : Nat), IssuesNext s →
    let half (a : Word) := fetchHalf s s.th s.th.sr.pl a
    let pc := s.th.pcq.e0.addr
    let raises (e : Ev) : Prop := step s = mapNext afterTurn (raiseEv e s)
    let walks (a : Word) : Bool := walksFor s s.th.id.tenant a
    let walking (a : Word) : Prop := step s = .next (afterFree (beginWalk s a))
    let word (n w : Nat) : Prop :=
      let s' := latchE2 (fetched (fetchedHead s n) s.th.pcq.e2.addr) (decide (h2 % 2 = 1))
      let u := fetchedHead s n
      (decodeWord n w ≠ .ok .endUnit → walks s.th.pcq.e2.addr = true → walking s.th.pcq.e2.addr) ∧
      (∀ i, decodeWord n w = .ok i → i ≠ .endUnit → walks s.th.pcq.e2.addr = false → half s.th.pcq.e2.addr = .ok h2 →
        (s.th.pcq.repLeft = 0 ∨ repeatable i = true → step s = mapNext (afterIssue s' i) (exec i s')) ∧
        (s.th.pcq.repLeft ≠ 0 → repeatable i = false → step s = mapNext afterTurn (raiseEv ⟨0x01, pc⟩ s'))) ∧
      (decodeWord n w = .ok .endUnit → s.th.pcq.repLeft = 0 → step s = mapNext (afterIssue u .endUnit) (exec .endUnit u)) ∧
      (∀ r, decodeWord n w = .error r → walks s.th.pcq.e2.addr = false → half s.th.pcq.e2.addr = .ok h2 → raises ⟨0x01, pc⟩) ∧
      (∀ e, decodeWord n w ≠ .ok .endUnit → walks s.th.pcq.e2.addr = false → half s.th.pcq.e2.addr = .error e → raises e)
    (walks pc = true → walking pc) ∧
    (walks pc = false → half pc = .ok h0 → h0 % 2 = 0 → word 16 h0) ∧
    (walks pc = false → half pc = .ok h0 → h0 % 2 = 1 → walks (pc + 2) = true → walking (pc + 2)) ∧
    (walks pc = false → half pc = .ok h0 → h0 % 2 = 1 → walks (pc + 2) = false →
      (half (pc + 2) = .ok h1 → word 32 (h0 + 65536 * h1)) ∧ ∀ e, half (pc + 2) = .error e → raises e) ∧
    (∀ e, walks pc = false → half pc = .error e → raises e)

/-- R9 to R11: the core that acts next is one whose count is least (log 42). Its next turn is that of a thread of a primary slot, or a seated
context, whose slot has the turns of that cycle, or that of a banked context where no such thread may issue in it; a group of a vector
instruction comes between turns, and its thread leaves its own free (R13, R80). A thread that has issued does not issue again within 8 cycles. A free turn performs a pending spill
before a pending fill, and either before it goes to a banked context (R16). -/
def Obligations.TurnsFollowSlots : Prop :=
  (∀ (s : State) (p : Place), Canonical s → nextPlace s = some p →
    let core := coreNum (placeCore p)
    let a := (s.coreBy core).cyc.toNat
    let t := nextTurn s
    let c := t.core.cyc.toNat
    let n := 24 + awayCycles (pauseStreams (s.focus p)) % 1048577
    let may (q : Place) : Prop := (t.thr q).id.parking = false ∧ rested (t.thr q) c = true ∧ streaming t (t.thr q) = false
    p ∈ s.boundPlaces ∧ (∀ q ∈ s.boundPlaces, a ≤ (s.coreBy (coreNum (placeCore q))).cyc.toNat) ∧ t.hereCore = core ∧
      (a + n < 2 ^ 64 → a ≤ c ∧ c ≤ a + n ∧ (midStream t = false → c < a + n → a < c ∧ may t.here ∧
        (turnSlot t.here t.th = some (c % 8) ∨
          turnSlot t.here t.th = none ∧ ∀ q ∈ t.placesOn core, turnSlot q (t.thr q) = some (c % 8) → ¬ may q)))) ∧
  (∀ (s : State) (p : Place) (c : Nat), Canonical s → (s.thr p).bound = true →
    let l := (s.coreBy (coreNum (placeCore p))).cyc.toNat
    l ≤ c → rested ((useTurn p s).thr p) c = true → l + 8 ≤ c) ∧
  (∀ (s : State) (c : Nat) (tried : Option Nat), Canonical s →
    let v := (firstMove pendingSpill (slotsFrom s c) s).1
    (∀ u p ps qs, slotsFrom s c = ps ++ p :: qs → (∀ q ∈ ps, spillPending q (s.thr q) = false) → pendingSpill s p = (u, true) →
      useFree s c tried = (u, none)) ∧
    ((∀ p ∈ slotsFrom s c, spillPending p (s.thr p) = false) → v = s) ∧
    ((firstMove pendingSpill (slotsFrom s c) s).2 = false →
      (∀ u p ps qs, slotsFrom v c = ps ++ p :: qs → (∀ q ∈ ps, (pendingFill v q).2 = false) → pendingFill v p = (u, true) →
        useFree s c tried = (u, none)) ∧
      ((∀ q ∈ slotsFrom v c, (pendingFill v q).2 = false) →
        useFree s c tried = (v, bankTurn v c tried) ∧ ∀ q, bankTurn v c tried = some q →
          8 ≤ q.slot.val ∧ (v.thr q).id.seat = none ∧ (v.thr q).id.parking = false ∧ rested (v.thr q) c = true ∧
            streaming v (v.thr q) = false)))

/-- R19, R147, R293, R304, R310, R342, R349, R359, R362, R370, R373, R374, R376: what the spec says of the module after reset. No thread is bound, no
tenant exists and no slot is bound; no ring is enabled; the boot ROM has not begun; registers with a reset value hold it; and every list is in
canonical form. -/
def Obligations.ResetLeaves : Prop :=
  let s := State.reset
  Canonical s ∧ CanonicalLists s ∧
  (∀ p, (s.thr p).bound = false ∧ (s.slot p).state = 0) ∧
  (∀ n, (tenantNum s n).live = false) ∧
  (∀ j, (s.ring j).en = false ∧ (s.ring j).head = 0 ∧ (s.ring j).tail = 0) ∧
  (∀ d, (s.port d).txSeq = 0 ∧ (s.port d).rxSeq = 0) ∧
  (∀ f, sparseGet 0xFFFFFFFF s.sys.host.ltol f = 0xFFFFFFFF) ∧
  (∀ d, sparseGet {} s.sys.tele d = {}) ∧
  s.sys.boot.state = 0 ∧ s.sys.boot.cause = 0 ∧ s.sys.mail.busy = false ∧ s.sys.mail.result = 0 ∧ s.sys.mail.cap = 5600 ∧
  s.sys.layers.tier = 7 ∧ s.sys.rel.en = false ∧ s.sys.rel.tlead = 1000000 ∧ s.sys.rel.miss = 0 ∧ s.sys.rel.plate = 0 ∧
  s.sys.power.stopped = false

/-- From every state in which the memories and the lists of threads and cores are in canonical form, a step leads to such a state: equal memories
stay equal data. The form is the model's choice (log 1). -/
def Obligations.StepKeepsMemories : Prop := ∀ (s t : State), Canonical s → step s = .next t → Canonical t

/-- From every state in which the lists by number that claims read are in canonical form, a step leads to such a state. The form is the model's
choice (log 1). -/
def Obligations.StepKeepsLists : Prop :=
  ∀ (s t : State), Canonical s → CanonicalLists s → step s = .next t → CanonicalLists t

/-- R313, R316: an instruction executed at user level leaves the thread at user level, or in the supervisor's handler for an event that it raised; and
it leaves the registers of the supervisor alone. -/
def Obligations.LevelRisesByEvents : Prop :=
  ∀ (i : Instr) (s t : State), (encode i).isSome = true → s.th.sr.pl = false → exec i s = .next t →
    (t.th.sr.pl = true → t.th.sr.se = true ∧ t.th.sr.ppl = false ∧ t.th.pcq.e0 = ⟨s.th.sr.svec, false⟩) ∧
    (t.th.bound = true → t.th.sr.svec = s.th.sr.svec ∧ t.th.sr.sarea = s.th.sr.sarea ∧ t.th.sr.sscratch = s.th.sr.sscratch)

/-! ### Scalar instructions -/

/-- R154: the 16-bit ALU forms work on 64 bits; their destination is also the first source, but for `mov`. R72, R177: as of every instruction of
registers, a bound destination raises CHAN, and an empty bound source makes it wait. That the destination comes before an empty source is the
model's choice (log 44). -/
def Obligations.CompactFormsYield : Prop :=
  ∀ (s : State) (d r : Reg) (v : BitVec 5),
    YieldsReg (.mov16 d (.reg r)) s [r] d (s.reg r) ∧
    YieldsReg (.mov16 d (.imm v)) s [] d (sx v) ∧
    YieldsReg (.add16 d (.reg r)) s [d, r] d (s.reg d + s.reg r) ∧
    YieldsReg (.sub16 d (.reg r)) s [d, r] d (s.reg d - s.reg r) ∧
    YieldsReg (.and16 d (.reg r)) s [d, r] d (s.reg d &&& s.reg r) ∧
    YieldsReg (.or16 d (.reg r)) s [d, r] d (s.reg d ||| s.reg r) ∧
    YieldsReg (.xor16 d (.reg r)) s [d, r] d (s.reg d ^^^ s.reg r) ∧
    YieldsReg (.shl16 d (.reg r)) s [d, r] d (s.reg d <<< ((s.reg r).toNat % 64)) ∧
    YieldsReg (.shr16 d (.reg r)) s [d, r] d (s.reg d >>> ((s.reg r).toNat % 64)) ∧
    YieldsReg (.sra16 d (.reg r)) s [d, r] d ((s.reg d).sshiftRight ((s.reg r).toNat % 64)) ∧
    YieldsReg (.mul16 d (.reg r)) s [d, r] d (s.reg d * s.reg r) ∧
    YieldsReg (.min16 d (.reg r)) s [d, r] d (if (s.reg d).toInt ≤ (s.reg r).toInt then s.reg d else s.reg r) ∧
    YieldsReg (.max16 d (.reg r)) s [d, r] d (if (s.reg d).toInt ≤ (s.reg r).toInt then s.reg r else s.reg d) ∧
    YieldsReg (.add16 d (.imm v)) s [d] d (s.reg d + sx v) ∧
    YieldsReg (.sub16 d (.imm v)) s [d] d (s.reg d - sx v) ∧
    YieldsReg (.and16 d (.imm v)) s [d] d (s.reg d &&& zx v) ∧
    YieldsReg (.or16 d (.imm v)) s [d] d (s.reg d ||| zx v) ∧
    YieldsReg (.xor16 d (.imm v)) s [d] d (s.reg d ^^^ zx v) ∧
    YieldsReg (.shl16 d (.imm v)) s [d] d (s.reg d <<< v.toNat) ∧
    YieldsReg (.shr16 d (.imm v)) s [d] d (s.reg d >>> v.toNat) ∧
    YieldsReg (.sra16 d (.imm v)) s [d] d ((s.reg d).sshiftRight v.toNat) ∧
    YieldsReg (.mul16 d (.imm v)) s [d] d (s.reg d * sx v) ∧
    YieldsReg (.min16 d (.imm v)) s [d] d (if (s.reg d).toInt ≤ (sx v).toInt then s.reg d else sx v) ∧
    YieldsReg (.max16 d (.imm v)) s [d] d (if (s.reg d).toInt ≤ (sx v).toInt then sx v else s.reg d)

/-- R178: sums, products, logic, minimum and maximum at every width. R82, R178, R180: division truncates; a divisor of 0 gives all ones
and the dividend; the least value over −1 gives itself and 0. The thread is out of rotation meanwhile. That a bound destination raises CHAN
before an empty source makes the instruction wait is the model's choice (log 44). -/
def Obligations.ArithmeticYields : Prop :=
  (∀ (s : State) (w : Width) (d a b : Reg),
    let A := lowBits w (s.reg a)
    let B := lowBits w (s.reg b)
    let n := w.bits
    YieldsReg (.add w d a b) s [a, b] d (sx (A + B)) ∧
    YieldsReg (.sub w d a b) s [a, b] d (sx (A - B)) ∧
    YieldsReg (.mul w d a b) s [a, b] d (sx (A * B)) ∧
    YieldsReg (.mulh w d a b) s [a, b] d (sx (((A.signExtend (2 * n) * B.signExtend (2 * n)) >>> n).setWidth n)) ∧
    YieldsReg (.mulhu w d a b) s [a, b] d (zx (((A.setWidth (2 * n) * B.setWidth (2 * n)) >>> n).setWidth n)) ∧
    YieldsReg (.and d a b) s [a, b] d (s.reg a &&& s.reg b) ∧
    YieldsReg (.or d a b) s [a, b] d (s.reg a ||| s.reg b) ∧
    YieldsReg (.xor d a b) s [a, b] d (s.reg a ^^^ s.reg b) ∧
    YieldsReg (.andn d a b) s [a, b] d (s.reg a &&& ~~~(s.reg b)) ∧
    YieldsReg (.orn d a b) s [a, b] d (s.reg a ||| ~~~(s.reg b)) ∧
    YieldsReg (.min w d a b) s [a, b] d (sx (if A.toInt ≤ B.toInt then A else B)) ∧
    YieldsReg (.max w d a b) s [a, b] d (sx (if A.toInt ≤ B.toInt then B else A)) ∧
    YieldsReg (.minu w d a b) s [a, b] d (zx (if A.toNat ≤ B.toNat then A else B)) ∧
    YieldsReg (.maxu w d a b) s [a, b] d (zx (if A.toNat ≤ B.toNat then B else A))) ∧
  (∀ (s : State) (w : Width) (d a b : Reg),
    let A := lowBits w (s.reg a)
    let B := lowBits w (s.reg b)
    YieldsReg (.div w d a b) s [a, b] d (sx (if B = 0 then BitVec.allOnes w.bits else A.sdiv B)) (.inFlight .divide) ∧
    YieldsReg (.divu w d a b) s [a, b] d (zx (if B = 0 then BitVec.allOnes w.bits else A / B)) (.inFlight .divide) ∧
    YieldsReg (.rem w d a b) s [a, b] d (sx (if B = 0 then A else A.srem B)) (.inFlight .divide) ∧
    YieldsReg (.remu w d a b) s [a, b] d (zx (if B = 0 then A else A % B)) (.inFlight .divide))

/-- R178, R179: bit counts, extensions, byte reversal and bit fields. That a bound destination raises CHAN before an empty source makes the
instruction wait is the model's choice (log 44). -/
def Obligations.BitOperationsYield : Prop :=
  ∀ (s : State) (w : Width) (d a b : Reg),
    let A := lowBits w (s.reg a)
    let pos := (s.reg b).toNat % 64
    let len := Nat.min ((s.reg b).toNat / 64 % 64 + 1) (64 - pos)
    (∃ k, YieldsReg (.clz w d a) s [a] d (BitVec.ofNat 64 k) ∧ k ≤ w.bits ∧ (∀ i, i < k → A.getMsbD i = false) ∧
      (k < w.bits → A.getMsbD k = true)) ∧
    (∃ k, YieldsReg (.ctz w d a) s [a] d (BitVec.ofNat 64 k) ∧ k ≤ w.bits ∧ (∀ i, i < k → A.getLsbD i = false) ∧
      (k < w.bits → A.getLsbD k = true)) ∧
    YieldsReg (.popc w d a) s [a] d (BitVec.ofNat 64 ((List.range w.bits).filter fun i => A.getLsbD i).length) ∧
    YieldsReg (.sext w d a) s [a] d (sx A) ∧
    YieldsReg (.zext w d a) s [a] d (zx A) ∧
    (∃ v, YieldsReg (.bswap w d a) s [a] d v ∧
      ∀ i, i < 64 → v.getLsbD i = (decide (i < w.bits) && A.getLsbD (w.bits - 8 - i / 8 * 8 + i % 8))) ∧
    (∃ v, YieldsReg (.bfx d a b) s [a, b] d v ∧
      ∀ i, i < 64 → v.getLsbD i = (s.reg a).getLsbD (pos + Nat.min i (len - 1))) ∧
    (∃ v, YieldsReg (.bfxu d a b) s [a, b] d v ∧
      ∀ i, i < 64 → v.getLsbD i = (decide (i < len) && (s.reg a).getLsbD (pos + i))) ∧
    ∃ v, YieldsReg (.bfi d a b) s [d, a, b] d v ∧
      ∀ i, i < 64 → v.getLsbD i = if pos ≤ i ∧ i < pos + len then (s.reg a).getLsbD (i - pos) else (s.reg d).getLsbD i

/-- R178, R181: shifts by bits 5:0 of a register or by an immediate; rotations. R181, R182: immediates and constants. That a bound destination raises CHAN
before an empty source makes the instruction wait is the model's choice (log 44). -/
def Obligations.ShiftsAndImmediatesYield : Prop :=
  (∀ (s : State) (w : Width) (d a b : Reg) (k : BitVec 6),
    let A := lowBits w (s.reg a)
    let n := (s.reg b).toNat % 64
    YieldsReg (.shl w d a b) s [a, b] d (sx (A <<< n)) ∧
    YieldsReg (.shr w d a b) s [a, b] d (zx (A >>> n)) ∧
    YieldsReg (.sra w d a b) s [a, b] d (sx (A.sshiftRight n)) ∧
    YieldsReg (.rol w d a b) s [a, b] d (sx (A.rotateLeft n)) ∧
    YieldsReg (.ror w d a b) s [a, b] d (sx (A.rotateRight n)) ∧
    YieldsReg (.shli w d a k) s [a] d (sx (A <<< k.toNat)) ∧
    YieldsReg (.shri w d a k) s [a] d (zx (A >>> k.toNat)) ∧
    YieldsReg (.srai w d a k) s [a] d (sx (A.sshiftRight k.toNat))) ∧
  (∀ (s : State) (d a : Reg) (i : BitVec 15) (k : BitVec 20),
    YieldsReg (.addi d a i) s [a] d (s.reg a + sx i) ∧
    YieldsReg (.andi d a i) s [a] d (s.reg a &&& zx i) ∧
    YieldsReg (.ori d a i) s [a] d (s.reg a ||| zx i) ∧
    YieldsReg (.xori d a i) s [a] d (s.reg a ^^^ zx i) ∧
    YieldsReg (.li d k) s [] d (sx k) ∧
    YieldsReg (.lui d k) s [] d (sx k <<< 15) ∧
    YieldsReg (.lea d k) s [] d (s.th.pcq.e0.addr + sx k + sx k))

/-- R92, R183, R184, R185: compares, conditions and selection; `c0` reads true in every source position. R51, R186: pointer registers;
addresses wrap at 2^20, and reserved bits read 0. That a bound destination raises CHAN before an empty source makes the instruction wait is the
model's choice (log 44). -/
def Obligations.ConditionsAndPointersYield : Prop :=
  (∀ (s : State) (q : Cond) (w : Width) (c x y : CReg) (d a b : Reg) (i : BitVec 15),
    let r := s.th.rf
    YieldsCond (.cmp q w c a b) s [a, b] c (related q (lowBits w (s.reg a)) (lowBits w (s.reg b))) ∧
    YieldsCond (.cmpi q c a i) s [a] c (related q (s.reg a) (if q = .ltu ∨ q = .leu then zx i else sx i)) ∧
    YieldsCond (.cset c a) s [a] c (s.reg a != 0) ∧
    YieldsCond (.cand c x y) s [] c (condReg r x && condReg r y) ∧
    YieldsCond (.cor c x y) s [] c (condReg r x || condReg r y) ∧
    YieldsCond (.cxor c x y) s [] c (condReg r x != condReg r y) ∧
    YieldsReg (.cget d x) s [] d (if condReg r x then 1 else 0) ∧
    YieldsReg (.sel d a b x) s [a, b] d (if condReg r x then s.reg a else s.reg b) ∧
    condReg r 0 = true) ∧
  (∀ (s : State) (p : PReg) (d a : Reg),
    YieldsPtr (.pset p a) s [a] p ⟨(s.reg a).setWidth 20, (s.reg a >>> 20).setWidth 16⟩ ∧
    YieldsPtr (.padd p a) s [a] p ⟨(s.ptr p).addr + (s.reg a).setWidth 20, (s.ptr p).stride⟩ ∧
    YieldsPtr (.pstr p a) s [a] p ⟨(s.ptr p).addr, (s.reg a).setWidth 16⟩ ∧
    YieldsReg (.pget d p) s [] d (zx ((s.ptr p).stride ++ (s.ptr p).addr)))

/-! ### Loads and stores -/

/-- R155, R187, R188, R189: loads of 1, 2, 4 and 8 bytes, little-endian, extended by sign or zeros; the post-incrementing forms also step
the address register. An access raises what the checks of R187 find, with its address, and waits while its scratchpad bytes are held (R79).
That a bound destination, or stepped base, raises CHAN before an empty source and before the access is the model's choice (log 44). -/
def Obligations.LoadsYield : Prop :=
  ∀ (s : State) (d a : Reg) (i : BitVec 15) (w : Width),
    let ea := s.reg a + sx i
    let steps (x : Instr) (n : Nat) : Prop :=
      RegsStop x s [a] [d, a] ∧ (d ≠ a → Ready s [a] [d, a] → ReadStops x s (s.reg a) n ∧
        ∀ u rot bs, ReadsBytes s (s.reg a) n u rot bs → Completes x s fun t =>
          (∃ r, WroteReg s.th.rf r d (loaded n true bs) ∧ WroteReg r t.th.rf a (s.reg a + BitVec.ofNat 64 n)) ∧
          Ran s (takeMsgs u [a]) t [a] rot)
    LoadYields (.ldb d a i) s d a ea 1 true ∧
    LoadYields (.ldbu d a i) s d a ea 1 false ∧
    LoadYields (.ldh d a i) s d a ea 2 true ∧
    LoadYields (.ldhu d a i) s d a ea 2 false ∧
    LoadYields (.ldw d a i) s d a ea 4 true ∧
    LoadYields (.ldwu d a i) s d a ea 4 false ∧
    LoadYields (.ldd d a i) s d a ea 8 true ∧
    LoadYields (.ldAcq w d a) s d a (s.reg a) (w.bits / 8) true ∧
    LoadYields (.ldw16 d a false) s d a (s.reg a) 4 true ∧
    LoadYields (.ldd16 d a false) s d a (s.reg a) 8 true ∧
    steps (.ldw16 d a true) 4 ∧
    steps (.ldd16 d a true) 8

/-- R155, R187, R188, R189: stores of 1, 2, 4 and 8 bytes write those bytes and no others; the post-incrementing forms also step the
address register; a release waits for the thread's atomics (R111). An access raises what the checks of R187 find, with its address, and
waits while its scratchpad bytes are held (R79). That a bound stepped base raises CHAN before an empty source and before the access is the
model's choice (log 44). -/
def Obligations.StoresYield : Prop :=
  ∀ (s : State) (d a : Reg) (i : BitVec 15) (w : Width), Canonical s →
    let ea := s.reg a + sx i
    let steps (x : Instr) (n : Nat) : Prop :=
      RegsStop x s [a, d] [a] ∧ (Ready s [a, d] [a] → AccessStops x s .write (s.reg a) n ∧
        ∀ loc, Accessible s .write (s.reg a) n loc →
          ((locReleases loc && atomicsOutstanding s) = true → Waits x s .release) ∧
          ((locReleases loc && atomicsOutstanding s) = false → Completes x s fun t =>
            WroteReg s.th.rf t.th.rf a (s.reg a + BitVec.ofNat 64 n) ∧
            StoreDone s t [a, d] (s.reg a) n (toBytes n (s.reg d).toNat) loc (locRotation loc)))
    StoreYields (.stb d a i) s d a ea 1 ∧
    StoreYields (.sth d a i) s d a ea 2 ∧
    StoreYields (.stw d a i) s d a ea 4 ∧
    StoreYields (.std d a i) s d a ea 8 ∧
    StoreYields (.stw16 d a false) s d a (s.reg a) 4 ∧
    StoreYields (.std16 d a false) s d a (s.reg a) 8 ∧
    (atomicsOutstanding s = false → StoreYields (.stRel w d a) s d a (s.reg a) (w.bits / 8)) ∧
    (∀ loc, atomicsOutstanding s = true → Ready s [a, d] [] → locate s .write (s.reg a) (w.bits / 8) = .ok loc → locOrders loc = true →
      Waits (.stRel w d a) s .release) ∧
    steps (.stw16 d a true) 4 ∧
    steps (.std16 d a true) 8

/-- R49, R187, R311, R327, R331, R335: the checks of an access and their order, with the event each raises and its address. Alignment comes
first; then a local-window address must lie in the thread's window and not be lent, and one that must be local is no other; any other is
translated: it is canonical, a leaf maps it to a place that exists, and the leaf permits the access; last, an uncorrectable error is
reported, but for a store that overwrites its protected words whole. -/
def Obligations.AccessChecksInOrder : Prop :=
  ∀ (s : State) (acc : Access) (va : Word) (n : Nat) (needLocal : Bool), 0 < n →
    let tenant := s.th.id.tenant
    let finds (r : Except Ev Loc) : Prop := locate s acc va n needLocal = r
    (va.toNat % n ≠ 0 → finds (.error ⟨0x03, va⟩)) ∧
    (va.toNat % n = 0 → 0xFFFFFFFFFFF00000 ≤ va.toNat →
      let x := va.toNat - 0xFFFFFFFFFFF00000
      let error : Prop := (acc = .read ∨ n < 16) ∧ ∃ g ∈ s.core.bad, x < 16 * (g + 1) ∧ 16 * g < x + n
      ((∃ k, k < n ∧ spadAllowed s.core s.th (x + k) = false) → finds (.error ⟨0x05, BitVec.ofNat 64 x⟩)) ∧
      ((∀ k, k < n → spadAllowed s.core s.th (x + k) = true) →
        (error → finds (.error ⟨0x10, va⟩)) ∧ (¬ error → finds (.ok (.spad x))))) ∧
    (va.toNat % n = 0 → va.toNat < 0xFFFFFFFFFFF00000 → needLocal = true → finds (.error ⟨0x06, va⟩)) ∧
    (va.toNat % n = 0 → va.toNat < 0xFFFFFFFFFFF00000 → needLocal = false →
      (canonical va = false → finds (.error ⟨0x04, va⟩)) ∧
      (canonical va = true → findLeaf s tenant va = .fail → finds (.error ⟨0x04, va⟩)) ∧
      (canonical va = true → findLeaf s tenant va = .bad → finds (.error ⟨0x10, va⟩)) ∧
      (∀ base size e, canonical va = true → findLeaf s tenant va = .leaf base size e →
        let pa := leafFrame e + (va.toNat % 2 ^ 52 - base)
        let kind := leafKind e
        let right : Bool := match acc with | .read => e.getLsbD 2 | .write => e.getLsbD 3 | .fetch => e.getLsbD 4
        let permits : Prop := leafTenant e = tenant.toNat ∧ right = true ∧ (s.th.sr.pl = true ∨ e.getLsbD 5 = true)
        let error : Prop := physReports s acc pa n = true
        (homeOf s pa = .none → finds (.error ⟨0x04, va⟩)) ∧
        (homeOf s pa ≠ .none → ¬ permits → finds (.error ⟨0x05, va⟩)) ∧
        (homeOf s pa ≠ .none → permits → harvestSlot s va pa = none →
          (error → finds (.error ⟨0x10, va⟩)) ∧ (¬ error → finds (.ok (.phys pa kind)))) ∧
        (homeOf s pa ≠ .none → permits → ∀ x, harvestSlot s va pa = some x →
          (acc ≠ .write → finds (if spadReports s.core acc x n then .error ⟨0x10, va⟩ else .ok (.spad x))) ∧
          (acc = .write → finds (if spadReports s.core acc x n || physReports s acc pa n then .error ⟨0x10, va⟩ else .ok (.tag x pa kind))))))

/-- R53, R54, R190: full/empty loads and the filling store on a granule of the thread's window. A full granule is loaded from, and `ld.fe`
leaves it empty; on an empty one both loads wait. `st.fill` stores, fills an empty granule and raises FEPROTO on a full one; one that
another thread is blocked on in `ld.fe` raises it too. R54: a fill hands the data to every thread blocked on the granule in the same step,
and the granule is empty afterwards just when one of them was blocked in `ld.fe`; a load that resumes takes those data up, and does nothing to the
granule then. -/
def Obligations.FullEmptyAccessesYield : Prop :=
  (∀ (s : State) (w : Width) (d a : Reg) (x : Nat), Canonical s →
    let ea := s.reg a
    let n := w.bits / 8
    let g := x / 16
    (Ready s [a] [d] → gotData s = none → locate s .read ea n true = .ok (.spad x) → beingCleared s.core g = false →
      (g ∉ s.core.empties →
        YieldsReg (.ldFek w d a) s [a] d (loaded n true (bytesAt s.core.spad x n)) ∧
        Completes (.ldFe w d a) s fun t =>
          WroteReg s.th.rf t.th.rf d (loaded n true (bytesAt s.core.spad x n)) ∧
          Ran s (coreAfter s [a] fun c => setGranule c g true) t [a] .ready ∧ g ∈ t.core.empties) ∧
      (g ∈ s.core.empties → feBlocked s g = false →
        Waits (.ldFek w d a) s (.granule g false x n) ∧ Waits (.ldFe w d a) s (.granule g true x n)) ∧
      (g ∈ s.core.empties → feBlocked s g = true → blockedHere s g = false → NotHandling s →
        RaisesSuper (.ldFek w d a) s 0x07 ea ∧ RaisesSuper (.ldFe w d a) s 0x07 ea)) ∧
    (∀ v, Ready s [a] [d] → s.th.rot = .waiting (.got v) →
      YieldsReg (.ldFek w d a) s [a] d (loaded n true (toBytes n v)) ∧ YieldsReg (.ldFe w d a) s [a] d (loaded n true (toBytes n v))) ∧
    (Ready s [a, d] [] → locate s .write ea n true = .ok (.spad x) → spadStalls s.core x n true = false →
      (g ∈ s.core.empties → granuleWaiters s g = [] →
        Completes (.stFill w d a) s fun t =>
          t.th.rf = s.th.rf ∧ SpadStored s t x (toBytes n (s.reg d).toNat) ∧ g ∉ t.core.empties ∧
          Ran s (coreAfter s [a, d] fun c => setGranule (spadStore c x (toBytes n (s.reg d).toNat)) g false) t [a, d] .ready) ∧
      (g ∉ s.core.empties → NotHandling s → RaisesSuper (.stFill w d a) s 0x07 ea))) ∧
  (∀ (s : State) (core g : Nat) (p : Place) (fe : Bool) (x n : Nat), Canonical s → p ∈ s.placesOn core →
    (s.thr p).rot = .waiting (.granule g fe x n) →
    ((fillGranule s core g).thr p).rot = .waiting (.got (ofBytes (bytesAt (s.coreBy core).spad x n))) ∧
    (fe = true → g ∈ ((fillGranule s core g).coreBy core).empties) ∧
    ((∀ q ∈ s.placesOn core, ∀ y m, (s.thr q).rot ≠ .waiting (.granule g true y m)) →
      g ∉ ((fillGranule s core g).coreBy core).empties))

/-- R57, R58, R191: the tag table. `tlook` answers the scratchpad address of a covered address and all ones for one that no entry of the
launch covers; `tinst` adds an entry where R58 allows it; `tdrop` removes the entry that covers its address. -/
def Obligations.TagTableYields : Prop :=
  ∀ (s : State) (d a b : Reg) (k : BitVec 5), Canonical s →
    let va := (s.reg a).toNat
    let covers (g : Tag) : Prop := g.lid = s.th.id.lid ∧ g.va.toNat ≤ va ∧ va < g.va.toNat + 2 ^ g.k
    (Ready s [a] [d] →
      (∀ g pre post, s.core.tags = pre ++ g :: post → covers g → (∀ h ∈ pre, ¬ covers h) →
        YieldsReg (.tlook d a) s [a] d (BitVec.ofNat 64 (g.sp + (va - g.va.toNat)))) ∧
      ((∀ g ∈ s.core.tags, ¬ covers g) → YieldsReg (.tlook d a) s [a] d 0xFFFFFFFFFFFFFFFF)) ∧
    (Ready s [a, b] [] →
      (6 ≤ k.toNat → k.toNat ≤ 12 → va % 2 ^ k.toNat = 0 → (s.reg b).toNat % 2 ^ k.toNat = 0 →
        tagRangeOk s (s.reg b).toNat (2 ^ k.toNat) = true →
        (∀ g ∈ s.core.tags, ¬ (g.lid = s.th.id.lid ∧ g.va.toNat < va + 2 ^ k.toNat ∧ va < g.va.toNat + 2 ^ g.k)) →
        s.core.tags.length < 256 →
        Completes (.tinst a b k) s fun t => t.th.rf = s.th.rf ∧
          Ran s (coreAfter s [a, b] fun c => { c with tags := c.tags ++ [⟨s.th.id.lid, s.reg a, k.toNat, (s.reg b).toNat⟩] }) t [a, b] .ready) ∧
      (NotHandling s → (k.toNat < 6 ∨ 12 < k.toNat ∨ 256 ≤ s.core.tags.length) → RaisesSuper (.tinst a b k) s 0x0B 0)) ∧
    (Ready s [a] [] → Completes (.tdrop a) s fun t => t.th.rf = s.th.rf ∧
      (∀ g, g ∈ t.core.tags ↔ g ∈ s.core.tags ∧ ¬ covers g) ∧
      Ran s (coreAfter s [a] fun c => { c with tags := t.core.tags }) t [a] .ready)

/-! ### Control transfers -/

/-- R192, R194, R195, R198, R199, R201: branches, jumps, the repeat prefix and `nop` step the queue; the `.n` forms annul both delay slots
when they are not taken; an odd jump target raises ALIGN, more than 1,024 repetitions OPERAND. -/
def Obligations.TransfersStepQueue : Prop :=
  ∀ (s : State) (c : CReg) (i : BitVec 21) (j : BitVec 25) (n : BitVec 10) (a : Reg), Canonical s →
    let v := condReg s.th.rf c
    let plain (x : Instr) (srcs : List Reg) (target : Option Word) (annul : Bool) : Prop :=
      Completes x s fun t => t.th.rf = s.th.rf ∧ Transferred s t srcs target annul
    plain (.bt c i) [] (if v then some (branchTarget s i) else none) false ∧
    plain (.bf c i) [] (if v then none else some (branchTarget s i)) false ∧
    plain (.btN c i) [] (if v then some (branchTarget s i) else none) (!v) ∧
    plain (.bfN c i) [] (if v then none else some (branchTarget s i)) v ∧
    plain (.jmp j) [] (some (branchTarget s j)) false ∧
    plain .nop [] none false ∧
    (Ready s [a] [] → (s.reg a).getLsbD 0 = false → plain (.jmpr a) [a] (some (s.reg a)) false) ∧
    (Ready s [a] [] → (s.reg a).getLsbD 0 = true → NotHandling s → RaisesSuper (.jmpr a) s 0x03 (s.reg a)) ∧
    (Completes (.rep n) s fun t => t.th.rf = s.th.rf ∧ t.th.pcq.repLeft = n.toNat + 1 ∧ t.th.pcq.repDone = 0 ∧
      Transferred s (t.withTh { t.th with pcq := { t.th.pcq with repLeft := 0 } }) [] none false) ∧
    (Ready s [a] [] → 1 ≤ (s.reg a).toNat → (s.reg a).toNat ≤ 1024 → Completes (.repr a) s fun t =>
      t.th.rf = s.th.rf ∧ t.th.pcq.repLeft = (s.reg a).toNat ∧ t.th.pcq.repDone = 0 ∧
      Transferred s (t.withTh { t.th with pcq := { t.th.pcq with repLeft := 0 } }) [a] none false) ∧
    (Ready s [a] [] → s.reg a = 0 → Completes (.repr a) s fun t => t.th.rf = s.th.rf ∧
      t.th.pcq.e0 = ⟨s.th.pcq.e1.addr, true⟩ ∧ t.th.pcq.repLeft = 0 ∧ OutsideKept (takeMsgs s [a]) t ∧ butRunning t.th = butRunning s.th) ∧
    (Ready s [a] [] → 1024 < (s.reg a).toNat → NotHandling s → RaisesSuper (.repr a) s 0x0B 0)

/-- R14, R196: a call's window is the caller's shifted by 16 registers, with the return address (the one after both delay slots) in `s8`;
a return goes to `s8` and gives the caller its own registers back. A call that has to spill to a register stack on an SO page spills nothing
while the thread's earlier accesses are outstanding (R116). Globals, pointers, conditions and variates are as before. -/
def Obligations.CallsSlideWindows : Prop :=
  ∀ (s : State) (j : BitVec 25) (a : Reg), Canonical s →
    let after := s.th.pcq.e2.addr + (if s.th.pcq.e2long then 4 else 2)
    let called (t : State) : Prop :=
      (∀ k (h : k < 8), t.th.rf.win[k] = s.th.rf.win[k + 16]) ∧ t.th.rf.win[8] = after ∧
      t.th.rf.olds = ownRegs s.th.rf.win :: s.th.rf.olds ∧ t.th.rf.depth = s.th.rf.depth + 1 ∧
      t.th.rf.g = s.th.rf.g ∧ t.th.rf.p = s.th.rf.p ∧ t.th.rf.c = s.th.rf.c ∧ t.th.rf.z = s.th.rf.z
    (s.th.rf.olds.length < 3 →
      (Completes (.call j) s fun t => called t ∧ Jumped s { s with fresh := t.fresh } t [] (some (branchTarget s j)) false) ∧
      (Ready s [a] [] → (s.reg a).getLsbD 0 = false →
        Completes (.callr a) s fun t => called t ∧ Jumped s { takeMsgs s [a] with fresh := t.fresh } t [a] (some (s.reg a)) false)) ∧
    (Ready s [a] [] → (s.reg a).getLsbD 0 = true → NotHandling s → RaisesSuper (.callr a) s 0x03 (s.reg a)) ∧
    (∀ u, spillOldest s s.here true = .moved u → 3 ≤ s.th.rf.olds.length → spillHeld s s.here = true → Waits (.call j) s .window) ∧
    (∀ own olds, s.th.rf.win[8].getLsbD 0 = false → 1 < s.th.rf.depth → s.th.rf.olds = own :: olds →
      Completes .ret s fun t =>
        (∀ k (h : k < 16), t.th.rf.win[k] = own[k]) ∧ (∀ k (h : k < 8), t.th.rf.win[k + 16] = s.th.rf.win[k]) ∧
        t.th.rf.olds = olds ∧ t.th.rf.depth = s.th.rf.depth - 1 ∧
        t.th.rf.g = s.th.rf.g ∧ t.th.rf.p = s.th.rf.p ∧ t.th.rf.c = s.th.rf.c ∧ t.th.rf.z = s.th.rf.z ∧
        Transferred s t [] (some s.th.rf.win[8]) false) ∧
    (s.th.rf.win[8].getLsbD 0 = true → NotHandling s → RaisesSuper .ret s 0x03 s.th.rf.win[8]) ∧
    (s.th.rf.win[8].getLsbD 0 = false → s.th.rf.depth ≤ 1 → NotHandling s → RaisesSuper .ret s 0x08 s.th.sr.wsp)

/-- R38, R39, R202, R203, R313: `yield` starts the watchdog count again and lets a cooperative request become an eligible PREEMPT; `trap`
executes and then raises SWTRAP, to the user trap entry for codes below 128 where the launch has one; `brk` raises DEBUG. -/
def Obligations.YieldsAndTraps : Prop :=
  ∀ (s : State) (code : BitVec 8),
    (Completes .yield s fun t => t.th.rf = s.th.rf ∧ t.th.id.wdcount = 0 ∧ Transferred s
        (t.withTh { t.th with lat := { t.th.lat with coop := s.th.lat.coop, preempt := s.th.lat.preempt } }) [] none false ∧
      (s.th.lat.coop = true → NotHandling s → s.th.ch.pkt = 0 → t.th.lat.coop = false ∧ t.th.lat.preempt = { pending := true, eligible := true }) ∧
      (s.th.lat.coop = false → t.th.lat.preempt = s.th.lat.preempt ∧ t.th.lat.coop = false)) ∧
    (NotHandling s → (128 ≤ code.toNat ∨ s.th.sr.hasUentry = false) → Completes (.trap code) s fun t =>
      InSupervisor (retireTh s.th .ready none false) t.th 0x20 (zx code) ∧ t.mem = s.mem ∧ t.core = s.core ∧ t.sys = s.sys) ∧
    (NotHandling s → code.toNat < 128 → s.th.sr.hasUentry = true → Completes (.trap code) s fun t =>
      InUserTrap (retireTh s.th .ready none false) t.th 0x20 (zx code) ∧ t.mem = s.mem ∧ t.core = s.core ∧ t.sys = s.sys) ∧
    (NotHandling s → RaisesSuper .brk s 0x43 s.th.pcq.e0.addr)

/-- R317, R268: `rfe` restores level, status, queue, annul bits and a pending repetition; outside a handler it raises PRIV at user level. An
annulled head is then skipped once its fetch has the leaf (R193, R336), whatever requests are eligible. -/
def Obligations.ReturnFromEvent : Prop :=
  ∀ (s : State),
    let restored (t : State) : Prop :=
      t.th.pcq.e0 = ⟨s.th.sr.epc0, s.th.sr.eann.getLsbD 0⟩ ∧ t.th.pcq.e1 = ⟨s.th.sr.epc1, s.th.sr.eann.getLsbD 1⟩ ∧
      t.th.pcq.e2 = ⟨s.th.sr.epc2, s.th.sr.eann.getLsbD 2⟩ ∧ t.th.pcq.repLeft = s.th.sr.repc.toNat ∧
      t.th.pcq.repDone = (if s.th.sr.repc = 0 then 0 else s.th.sr.rept.toNat) ∧ t.th.rf = s.th.rf ∧ t.mem = s.mem ∧ t.core = s.core ∧ t.others = s.others ∧
      t.th.rot = .ready
    (Supervisor s → Completes .rfe s fun t => restored t ∧ t.th.sr = { s.th.sr with pl := s.th.sr.ppl, se := false, repc := 0, rept := 0 }) ∧
    (s.th.sr.pl = false → s.th.sr.ue = true →
      Completes .rfe s fun t => restored t ∧ t.th.sr = { s.th.sr with ue := false, repc := 0, rept := 0 } ∧ t.sys = s.sys) ∧
    (UserLevel s → RaisesSuper .rfe s 0x02 s.th.pcq.e0.addr) ∧
    (∀ h, AtHead s → s.th.pcq.e0.annul = true → walksFor s s.th.id.tenant s.th.pcq.e2.addr = false → fetchHalf s s.th s.th.sr.pl s.th.pcq.e2.addr = .ok h →
      ∃ t, step s = .next t ∧ t.th.pcq.e0 = s.th.pcq.e1 ∧ t.th.pcq.e1 = s.th.pcq.e2 ∧
        t.th.pcq.e2 = ⟨s.th.pcq.e2.addr + (if h % 2 = 1 then 4 else 2), false⟩ ∧
        t = (fetched s s.th.pcq.e2.addr).withTh { s.th with pcq := t.th.pcq })

/-! ### Vector instructions -/

/-- R52, R79, R204 to R206, R327: every vector instruction runs group after group, and stops in the order of its checks: its own limits, a
misaligned pointer, a byte out of reach, index data, an uncorrectable error; a locked range makes it wait. R81, R209: integer element
operations work on exact values; a saturating form clamps and sets SAT where it does, another wraps modulo
2^W; shifts by W or more give 0, or all sign bits. Which pointers are checked for alignment, and that a right shift of an unsigned type fills
with zeros, is the model's choice (log 11); so is that the checks precede the first repetition alone, but for an event between two (log 44). -/
def Obligations.VectorIntegersYield : Prop :=
  ∀ (s : State) (sat : Bool) (t : VType) (d a b : PReg), Canonical s →
    let v := intVal t
    let res (sat : Bool) (x : Int) : FpRes :=
      { pat := intPat t (if sat then clampInt t x else x), flags := if sat && decide (clampInt t x ≠ x) then 16 else 0 }
    let w := 8 * elemSize t
    BinaryYields (.vaddInt sat t d a b) s t d a b false (fun x y _ => res sat (v x + v y)) ∧
    BinaryYields (.vsubInt sat t d a b) s t d a b false (fun x y _ => res sat (v x - v y)) ∧
    BinaryYields (.vmulInt sat t d a b) s t d a b false (fun x y _ => res sat (v x * v y)) ∧
    BinaryYields (.vminInt t d a b) s t d a b false (fun x y _ => res false (min (v x) (v y))) ∧
    BinaryYields (.vmaxInt t d a b) s t d a b false (fun x y _ => res false (max (v x) (v y))) ∧
    UnaryYields (.vabsInt sat t d a) s t t d a (fun _ x => res sat (if v x < 0 then - v x else v x)) ∧
    UnaryYields (.vnegInt sat t d a) s t t d a (fun _ x => res sat (- v x)) ∧
    BinaryYields (.vand t d a b) s t d a b false (fun x y _ => { pat := x &&& y }) ∧
    BinaryYields (.vor t d a b) s t d a b false (fun x y _ => { pat := x ||| y }) ∧
    BinaryYields (.vxor t d a b) s t d a b false (fun x y _ => { pat := x ^^^ y }) ∧
    BinaryYields (.vshl t d a b) s t d a b false (fun x n _ => { pat := if w ≤ n then 0 else x <<< n }) ∧
    BinaryYields (.vshr t d a b) s t d a b false (fun x n _ => { pat := if w ≤ n then 0 else x >>> n }) ∧
    BinaryYields (.vsra t d a b) s t d a b false (fun x n _ => { pat := intPat t (v x / 2 ^ (if n < w then n else w - 1)) })

/-- R210: floating-point element operations on the values of a format, rounded by the mode; the fused ones read the old destination as
addend. The absolute value of a number clears its sign. Which pointers are checked for alignment, and when, is the model's choice (logs 11,
44). -/
def Obligations.VectorFloatsYield : Prop :=
  ∀ (s : State) (m : Round) (t : VType) (f : Fmt) (d a b : PReg), Canonical s → fmtOf t = some f →
    let v := f.value
    BinaryYields (.vaddFp m t d a b) s t d a b false (fun x y _ => addVal f m (v x) (v y)) ∧
    BinaryYields (.vsubFp m t d a b) s t d a b false (fun x y _ => addVal f m (v x) (v y).negate) ∧
    BinaryYields (.vmulFp m t d a b) s t d a b false (fun x y _ => mulVal f m (v x) (v y)) ∧
    BinaryYields (.vminFp t d a b) s t d a b false (fun x y _ => minMaxPat f false x y) ∧
    BinaryYields (.vmaxFp t d a b) s t d a b false (fun x y _ => minMaxPat f true x y) ∧
    UnaryYields (.vabsFp t d a) s t t d a (fun _ x => absPat f x) ∧
    (∀ x, (v x).isNan = false → absPat f x = { pat := x % 2 ^ (f.ew + f.fw) }) ∧
    UnaryYields (.vnegFp t d a) s t t d a (fun _ x => negPat f x) ∧
    BinaryYields (.vdiv m t d a b) s t d a b false (fun x y _ => divVal f m (v x) (v y)) ∧
    UnaryYields (.vsqrt m t d a) s t t d a (fun _ x => sqrtVal f m (v x)) ∧
    BinaryYields (.vfma m t d a b) s t d a b true (fun x y w => fmaVal f m (v x) (v y) (v w)) ∧
    BinaryYields (.vfms m t d a b) s t d a b true (fun x y w => fmaVal f m (v x) (v y) (v w).negate)

/-- R211, R212, R217: compares write all ones or zeros, selection takes the old destination as mask, conversions go element by element
with the variate of their element (R109), `vbcast` writes one element everywhere, and `vidx` counts on over repetitions. R213 to R217:
block quantisation, planes, reductions, gather, scatter and permutation run by groups; the shared exponents of a block stand at the
companion pointer, an odd pointer there raises OPERAND; gather, scatter, permutation, reductions and the joining of planes read every source
before any write of theirs changes one. Which pointers are checked for alignment, and when, and what index data that has changed since the
checks reaches, is the model's choice (logs 11, 44). -/
def Obligations.VectorMovesYield : Prop :=
  (∀ (s : State) (q : VCond) (sat : Bool) (m : Round) (t u : VType) (d a b : PReg) (z : ZReg), Canonical s →
    let n := s.th.sr.vl.toNat
    let k := elemSize t
    BinaryYields (.vcmp q t d a b) s t d a b false (fun x y _ =>
      { pat := if (compareElem q t x y).1 then 2 ^ (8 * k) - 1 else 0, flags := (compareElem q t x y).2 }) ∧
    BinaryYields (.vsel t d a b) s t d a b true (fun x y w => { pat := if w = 0 then y else x }) ∧
    UnaryYields (.vmov t d a) s t t d a (fun _ x => { pat := x }) ∧
    UnaryYields (.vcvt sat u m t d a z) s t u d a (fun e x =>
      convert u t m (elementVariate (s.zreg z) s.th.pcq.repDone n e) sat x) ∧
    (let ops : List VOperand := [vdst d k n, ⟨a, false, k, 1, k, true, false⟩]
     StreamYields (.vbcast t d a) s ops (groupsOf (128 / k) n)
      (fun c e => putElem (addrOf s d) k e { pat := elemAt c (addrOf s a) k 0 })) ∧
    (let ops : List VOperand := [vdst d k n, ⟨a, false, k, 1, k, true, false⟩]
     streamRuns s ops = true → ElementsYield (.vbcast t d a) s ops (groupsOf (128 / k) n) (addrOf s d) k
      fun _ => { pat := elemAt s.core (addrOf s a) k 0 }) ∧
    (streamRuns s [vdst d k n] = true → ElementsYield (.vidx t d) s [vdst d k n] (groupsOf (128 / k) n) (addrOf s d) k
      fun e => indexElem t (s.th.pcq.repDone * n + e))) ∧
  (∀ (s : State) (m : Round) (t : VType) (d a b : PReg) (z : ZReg) (join : Bool), Canonical s →
    let n := s.th.sr.vl.toNat
    let k := elemSize t
    StreamYields (.vqnt m t d a z) s [vdst d k n, vsrc a 4 n, vdst (companion d) 1 (blocks n)]
      (groupsOf 1 (blocks n)) (quantBlock s m t d a z) (decide (d.val % 2 = 0)) ∧
    StreamYields (.vdeq m t d a) s [vdst d 4 n, vsrc a k n, vsrc (companion a) 1 (blocks n)] (groupsOf 32 n)
      (fun c e => putElem (addrOf s d) 4 e
        (dequantise t m (elemAt c (addrOf s (companion a)) 1 (e / 32)) (elemAt c (addrOf s a) k e))) (decide (a.val % 2 = 0)) ∧
    (let ops : List VOperand := [⟨d, true, 1, n, 16, false, true⟩, ⟨a, true, 1, n, 16, true, false⟩]
     let groups := groupsOf 1 (n / 128)
     (join = true → GatherYields (.vplane join d a) s ops groups (planeUnit s true d a) writeAsRead (decide (n % 128 = 0))) ∧
     (join = false → StreamYields (.vplane join d a) s ops groups (planeUnit s false d a) (decide (n % 128 = 0)))) ∧
    (let src (c : Core) (e : Nat) : VEffect :=
       { writes := [(addrOf s a + e * k, bytesAt c.spad (addrOf s a + e * k) k)] }
     let read (xs : List (Nat × List Byte)) (e : Nat) : Nat := ofBytes ((xs[e]?).getD (0, [])).2
     let reduces (i : Instr) (j : Nat) (op : Nat → Nat → FpRes) (conv : Nat → Nat) : Prop :=
       GatherYields i s [vdst d j 1, vsrc a k n] (groupsOf (128 / max k j) n) src fun xs =>
         putElem (addrOf s d) j 0 (reduceTree op (fun e => conv (read xs e % 2 ^ (8 * k))) n)
     (∀ f, fmtOf t = some f → reduces (.vrsum m t d a) k (fun x y => addVal f m (f.value x) (f.value y)) fun x => x) ∧
     (fmtOf t = none → reduces (.vrsum m t d a) 4 (fun x y => { pat := (x + y) % 2 ^ 32 }) fun x => intPat .u32 (intVal t x)) ∧
     reduces (.vrmax t d a) k (minMaxElem t true) (fun x => x) ∧
     reduces (.vrmin t d a) k (minMaxElem t false) (fun x => x)) ∧
    (let ops : List VOperand := [vdst d k n, ⟨a, false, k, 0, k, true, false⟩, vsrc b 4 n]
     let index := indexedOutside ops a b k wholeIndex
     let extra (s : State) := indexedRanges ops a b k wholeIndex false (s.withCore (asFound s s.core))
     let at_ (c : Core) (e : Nat) := addrOf s a + elemAt c (addrOf s b) 4 e * k
     let found := asFound s s.core
     StreamYields (.vgath t d a b) s ops (groupsOf 32 n)
      (fun c e => putElem (addrOf s d) k e { pat := reachedElem s (asFound s c) (at_ (asFound s c) e) k e }) true index extra true ∧
     (streamRuns s ops true index extra = true → (∀ e, e < n → inReach s found (at_ found e) k = true) →
      ElementsYield (.vgath t d a b) s ops (groupsOf 32 n) (addrOf s d) k fun e => { pat := elemAt found (at_ found e) k 0 })) ∧
    (let ops : List VOperand := [⟨d, false, k, if s.th.id.harv then 1 else 0, k, false, true⟩, vsrc a k n, vsrc b 4 n]
     GatherYields (.vscat t d a b) s ops (groupsOf 32 n)
      (fun c e => if inReach s c (addrOf s d + elemAt c (addrOf s b) 4 e * k) k
        then putElem (addrOf s d) k (elemAt c (addrOf s b) 4 e) { pat := elemAt c (addrOf s a) k e } else { writes := [] })
      (fun xs => { writes := xs }) true (indexedOutside ops d b k wholeIndex) (indexedRanges ops d b k wholeIndex true)) ∧
    (let ops : List VOperand := [vdst d k n, vsrc a k n, vsrc b 4 n]
     GatherYields (.vperm t d a b) s ops (groupsOf 32 n) (fun c e => putElem (addrOf s d) k e
      { pat := if elemAt c (addrOf s b) 4 e < n then elemAt c (addrOf s a) k (elemAt c (addrOf s b) 4 e) else 0 })
      (fun xs => { writes := xs })))

/-! ### Lazy-uniform variates -/

/-- R221 to R226: the graphics helpers run by groups on the edge, box, texture and ray records they are given. R101 to R107, R218 to R220:
the variate registers. `lznew` gives an identity with no digit cached, `lzmov` copies, `lzcpl` complements every digit; the decisions
write their condition and cache the digit blocks they read; a variate is stored as 16 bytes and loaded back with nothing cached; two that agree in
1,024 digits raise LZLIMIT, with the digits produced cached. Which pointers are checked for alignment, when, that a box is aligned to its 24
bytes, and what index data that has changed since the checks reaches, is the model's choice (logs 11, 44). -/
def Obligations.GraphicsAndVariatesYield : Prop :=
  (∀ (s : State) (t : VType) (d a b : PReg), Canonical s →
    let n := s.th.sr.vl.toNat
    let k := elemSize t
    StreamYields (.edge d a b) s [vdst d 4 n, ⟨a, false, 48, 1, 16, true, false⟩, vsrc b 8 n] (groupsOf 32 n)
      (fun c e => putElem (addrOf s d) 4 e { pat := coverage c (addrOf s a) (addrOf s b + 8 * e) }) ∧
    StreamYields (.boxt d a b) s [vdst d 4 n, ⟨a, false, 32, 1, 16, true, false⟩, vsrc b 24 n] (groupsOf 32 n)
      (fun c e => putElem (addrOf s d) 4 e
        { pat := (slab c (addrOf s a) (addrOf s b + 24 * e) (elemAt c (addrOf s a) 4 6) (elemAt c (addrOf s a) 4 7)).getD 0x7F800000 }) ∧
    (let ops : List VOperand := [⟨d, true, 4 * k, n, k, false, true⟩, ⟨a, false, 16, 0, 16, true, false⟩, vsrc b 4 n]
     let block (c : Core) (e : Nat) := addrOf s a + 16 * (elemAt c (addrOf s b) 4 e / 16)
     StreamYields (.txdec t d a b) s ops (groupsOf 32 n)
      (fun c e => if inReach s c (block c e) 16
        then { writes := [(addrOf s d + 4 * k * e, ((List.range 4).map fun ch =>
          toBytes k (channelElem t (texelChannel c (block c e) (elemAt c (addrOf s b) 4 e % 16) ch))).flatten)] }
        else putElem (addrOf s d) (4 * k) e { pat := (Config.freeWord (s.fresh + e)).toNat })
      true (texelOutside ops a b) (indexedRanges ops a b 16 texelBlock false)) ∧
    StreamYields (.trav d a) s [⟨d, true, 128, n, 16, true, true⟩, ⟨a, false, 64, 0, 64, true, false⟩] (groupsOf 4 n)
      (fun c e => travElem s (addrOf s a) c (addrOf s d + 128 * e)) true noIndex
      (fun s r => ((List.range n).map fun e => travNode s (addrOf s a) (ptrAt (s.ptr d) true r + 128 * e)).flatten)) ∧
  (∀ (s : State) (z y x : ZReg) (c : CReg) (d a b : Reg) (k : BitVec 6), Canonical s →
    let u := s.zreg y
    let decides (i : Instr) (srcs : List Reg) (v : Bool) (blocks : Nat) : Prop :=
      Completes i s fun t => ∃ r, WroteCond s.th.rf r c v ∧ WroteZ r t.th.rf y (growCache u blocks) ∧
        Retired s t srcs (if 32 * blocks ≤ u.n then .ready else .inFlight .digit)
    (Ready s [a, b] [] → Completes (.lznew z a b) s fun t =>
      WroteZ s.th.rf t.th.rf z ⟨(s.reg a).setWidth 32, (s.reg b).setWidth 48, false, 0, 0⟩ ∧ Retired s t [a, b] .ready) ∧
    (Completes (.lzmov z y) s fun t => WroteZ s.th.rf t.th.rf z u ∧ Retired s t [] .ready) ∧
    (Completes (.lzcpl z y) s fun t => WroteZ s.th.rf t.th.rf z (complement u) ∧ Retired s t [] .ready ∧
      ∀ i, digit (complement u) i = !digit u i) ∧
    (Ready s [b] [] →
      let v := (s.reg b).setWidth 32
      ((ltFloat u v).1 = false → decides (.lzlt c y b) [b] (ltFloat u v).2 (blocksFor (ltDigits u v))) ∧
      ((ltFloat u v).1 = true → Completes (.lzlt c y b) s fun t => condReg t.th.rf c = (c == 0) ∧
        t.th.sr = { s.th.sr with flags := s.th.sr.flags ||| 8 }) ∧
      decides (.lzbern c y b) [b] (bern u v) 1) ∧
    (u.key = (s.zreg x).key → u.index = (s.zreg x).index → u.inv = (s.zreg x).inv →
      YieldsCond (.lzlt2 c y x) s [] c false) ∧
    (¬ (u.key = (s.zreg x).key ∧ u.index = (s.zreg x).index ∧ u.inv = (s.zreg x).inv) → lt2 u (s.zreg x) = none → NotHandling s → y ≠ x →
      Completes (.lzlt2 c y x) s fun t => ∃ r r', WroteZ s.th.rf r y (growCache u 32) ∧ WroteZ r r' x (growCache (s.zreg x) 32) ∧
        InSupervisor { s.th with rf := r' } t.th 0x09 0 ∧ t.mem = s.mem ∧ t.core = s.core ∧ t.sys = s.sys) ∧
    (∀ r, lt2 u (s.zreg x) = some r → Completes (.lzlt2 c y x) s fun t => condReg t.th.rf c = if c = 0 then true else r) ∧
    (Ready s [] [d] → Completes (.lzbits d y k) s fun t =>
      ∃ r, WroteReg s.th.rf r d (BitVec.ofNat 64 (variateBits u (k.toNat + 1))) ∧
        WroteZ r t.th.rf y (growCache u (blocksFor (k.toNat + 1))) ∧
        Retired s t [] (if 32 * blocksFor (k.toNat + 1) ≤ u.n then .ready else .inFlight .digit)) ∧
    (Ready s [a] [] → AccessStops (.lzst a y) s .write (s.reg a) 16 ∧ ∀ loc, Accessible s .write (s.reg a) 16 loc →
      (locReleases loc && atomicsOutstanding s) = false →
      Completes (.lzst a y) s fun t => t.th.rf = s.th.rf ∧ StoreDone s t [a] (s.reg a) 16 (identityBytes u) loc (locRotation loc)) ∧
    (Ready s [a] [] → ReadStops (.lzld z a) s (s.reg a) 16 ∧ ∀ v rot bs, ReadsBytes s (s.reg a) 16 v rot bs →
      Completes (.lzld z a) s fun t => WroteZ s.th.rf t.th.rf z (identityOf bs) ∧ Ran s (takeMsgs v [a]) t [a] rot) ∧
    identityOf (identityBytes u) = ⟨u.key, u.index, u.inv, 0, 0⟩)

/-! ### Engine commands -/

/-- R228, R231 to R236: matrix and gather commands are queued with their operands, configuration and tile latched; `mmz` and `mmld` map
their name to a free tile, which then holds zeros, or wait for one; `mmst.free` unmaps it. A harvest context may not issue one; a full queue
makes them wait; a failed operand raises OPERAND with its entry, bytes out of reach PERM with their address. Which entry a failure is charged to where
the rules are silent (`gmm`'s companion, a failure tied to no entry) is the model's choice (logs 17, 27). -/
def Obligations.MatrixCommandsIssue : Prop :=
  ∀ (s : State) (sat free : Bool) (tk : Reg) (m : MReg) (da db : DReg) (pages : Sparse PageHold), Canonical s →
    let issued (i : Instr) (p : Plan) (Q : State → Cmd → Prop) : Prop :=
      CommandRefused i s tk p ∧ (IssueReady s tk p pages → p.maps = none → p.cls = .matrix ∧
        Completes i s fun t => ∃ c, CommandIssued s t i tk p pages c ∧ Q t c)
    let factors (t : State) (c : Cmd) : Prop :=
      c.da = s.tens da ∧ c.db = s.tens db ∧ c.tile = s.tile m ∧ t.core.owners = s.core.owners ∧ t.core.tiles = s.core.tiles ∧
      t.th.eng.gather = s.th.eng.gather
    let maps (i : Instr) (p : Plan) (e : TEntry) : Prop := CommandRefused i s tk p ∧ (IssueReady s tk p pages → p.maps = some m →
      (∀ k, s.tile m = some k → Completes i s fun t => ∃ c, CommandIssued s t i tk p pages c ∧ c.tile = some k ∧ c.da = e ∧
        t.core.owners = s.core.owners ∧ t.core.tiles = s.core.tiles) ∧
      (∀ k, s.tile m = none → freeTile s.core = some k → Completes i s fun t => ∃ c, CommandIssued s t i tk p pages c ∧
        c.tile = some k ∧ c.da = e ∧ t.core.owners = s.core.owners.set k.val (some ⟨s.th.id.lid, s.th.id.unit, some m⟩) ∧
        t.core.tiles = s.core.tiles.set k.val []) ∧
      (s.tile m = none → freeTile s.core = none → Waits i s .tile))
    issued (.mmaI sat tk m da db) (productPlan s m da db false (rowsMatch s da db)) factors ∧
    issued (.mmaS tk m da db) (productPlan s m da db true (rowsMatch s da db)) factors ∧
    issued (.gmm tk m da db) (gmmPlan s m da db) (fun t c => factors t c ∧
      c.counts = (readCounts s (tensOf (s.tens (companionEntry db)))).map Int.toNat) ∧
    ((tensOf (s.tens da)).fmt = fmtE8 → issued (.gath tk da) (gathScalePlan s da) (fun t c =>
      c.da = s.tens da ∧ t.th.eng.gather = s.th.eng.gather)) ∧
    ((tensOf (s.tens da)).fmt ≠ fmtE8 → issued (.gath tk da) (gathAPlan s da) (fun t c =>
      c.da = s.tens da ∧ t.th.eng.gather = some ⟨da, s.tens da, cfgPa s.th.sr.mcfg⟩)) ∧
    maps (.mmz tk m) { cls := .matrix, matrixOnly := true, ops := [], maps := some m } {} ∧
    (∀ own, own = failIf (!decide (((tensOf (s.tens da)).fmt = fmtInt32 ∨ (tensOf (s.tens da)).fmt = fmtFp32) ∧
        (tensOf (s.tens da)).rows ≤ 128 ∧ (tensOf (s.tens da)).cols ≤ 128)) 0 da →
      maps (.mmld tk m da) { cls := .matrix, matrixOnly := true, ops := [srcOpnd s da], maps := some m, own := own } (s.tens da)) ∧
    (∀ own, own = failIf (!decide (3 ≤ (tensOf (s.tens da)).fmt ∧ (tensOf (s.tens da)).fmt ≤ 6 ∧ (tensOf (s.tens da)).rows ≤ 128 ∧
        (tensOf (s.tens da)).cols ≤ 128)) 0 da ++ failFree (s.tile m).isNone →
      issued (.mmst free tk da m) { cls := .matrix, matrixOnly := true, ops := [dstOpnd s da], own := own } (fun t c =>
        c.da = s.tens da ∧ c.tile = s.tile m ∧
        (free = false → t.core.owners = s.core.owners) ∧
        (∀ k, free = true → s.tile m = some k → t.core.owners = s.core.owners.set k.val (some ⟨s.th.id.lid, s.th.id.unit, none⟩)))) ∧
    (s.th.id.harv = true → NotHandling s → queueFull s.core .matrix false = false →
      RaisesSuper (.mmaS tk m da db) s 0x05 0xFFFFFFFFFFFFFFFF)

/-- R228, R237 to R241: copies, `cpym` and collectives are queued with both entries latched, in the queue of their class,
or are refused as matrix commands are. R240: a collective is numbered among the commands that its module issues with its match key, modulo
65,536, which is the model's choice (log 25). Which entry a failure is charged to where the rules are silent (`cpym`'s A, a failure tied to no
entry) is the model's choice (logs 17, 27). -/
def Obligations.CopiesAndCollectivesIssue : Prop :=
  ∀ (s : State) (tk : Reg) (m : MReg) (da db : DReg) (pages : Sparse PageHold), Canonical s →
    let issuedAs (keys : List KeyCount) (i : Instr) (p : Plan) (cls : EngClass) (Q : State → Cmd → Prop) : Prop :=
      CommandRefused i s tk p ∧ (IssueReady s tk p pages → p.cls = cls ∧ Completes i s fun t => ∃ c, CommandIssued s t i tk p pages c keys ∧
        c.da = s.tens da ∧ c.db = s.tens db ∧ t.core.owners = s.core.owners ∧ t.core.tiles = s.core.tiles ∧
        t.th.eng.gather = s.th.eng.gather ∧ Q t c)
    let issued (i : Instr) (p : Plan) (cls : EngClass) (Q : Cmd → Prop) : Prop := issuedAs s.sys.keys i p cls fun _ => Q
    let l := s.launch s.th.id.lid
    let key := tensOf (s.tens db)
    let use : CollUse := ⟨l.job / 16, l.cset, l.compressed, 0⟩
    let n := keyCount s use key
    let collective (i : Instr) (p : Plan) : Prop := issuedAs (countKey s use key).sys.keys i p .coll fun t c =>
      c.coll = some { use with nth := n } ∧ keyCount t use key = (n + 1) % 65536
    let count (t : Tens) := t.rows * t.cols
    let routine : Plan :=
      { cls := .copy, ops := [dstOpnd s da, srcOpnd s db], own := failFree (!routineLoaded s (s.th.sr.xcfg.toNat / 2 ^ 24)) }
    issued (.cpy tk da db) (copyPlan s da db copyMismatch) .copy (fun _ => True) ∧
    issued (.cpyt tk da db) (copyPlan s da db transposeMismatch) .copy (fun _ => True) ∧
    issued (.cpyx tk da db) routine .copy (fun _ => True) ∧
    issued (.cpym tk m da db) (cpymPlan s m da db) .matrix (fun c => c.tile = s.tile m ∧ c.gather = s.th.eng.gather) ∧
    collective (.collAr tk da db)
      (collPlan s da db reduceFmt (fun a b => decide (a.fmt ≠ b.fmt ∨ count a ≠ count b)) fun _ _ _ => false) ∧
    collective (.collRs tk da db)
      (collPlan s da db reduceFmt (fun a b => decide (a.fmt ≠ b.fmt))
        fun g a b => decide (count b % g ≠ 0 ∨ count a ≠ count b / g)) ∧
    collective (.collAg tk da db)
      (collPlan s da db (fun t => decide (t.fmt ≠ fmtBpi)) (fun a b => decide (a.fmt ≠ b.fmt))
        fun g a b => decide (count a ≠ g * count b))

/-- R66, R75, R77, R229, R242: the tensor table keeps what `tdset` writes but for the reserved bits of word 2, `tdget` reads it and
`tdinv` clears the valid bit; `cwait` completes when every command of the class up to its ticket has retired without an error to report,
waits while one has not, and raises CMDERR for the earliest error. That a ticket is the register's low 32 bits is read from R75 (log 15). -/
def Obligations.TensorTableAndTickets : Prop :=
  ∀ (s : State) (e : DReg) (d a b r : Reg) (k : BitVec 5), Canonical s →
    let x := s.tens e
    let entry (t : State) (v : TEntry) : Prop := t.tens e = v ∧ (∀ f, f ≠ e → t.tens f = s.tens f) ∧
      t.th.eng = { s.th.eng with tens := t.th.eng.tens } ∧ t.th.rf = s.th.rf
    (RegsStop (.tdset e d a b) s [a, b, d] [] ∧ (Ready s [a, b, d] [] → sparseWf {} s.th.eng.tens = true → Completes (.tdset e d a b) s fun t =>
      entry t ⟨s.reg a, s.reg b, s.reg d &&& ~~~0xFFE⟩ ∧ Ran (s.withEng t.th.eng) (takeMsgs s [a, b, d]) t [a, b, d] .ready)) ∧
    YieldsReg (.tdget e d k) s [] d (if k = 0 then x.w0 else if k = 1 then x.w1 else x.w2) ∧
    (sparseWf {} s.th.eng.tens = true → Completes (.tdinv e) s fun t =>
      entry t { x with w2 := x.w2 &&& ~~~1 } ∧ Retired (s.withEng t.th.eng) t [] .ready) ∧
    RegsStop (.cwait r) s [r] [] ∧
    (Ready s [r] [] →
      let t := (s.reg r).toNat % 2 ^ 32
      let seq := t % 2 ^ 28
      (NotHandling s → (ticketClass t = none ∨ ∃ c, ticketClass t = some c ∧ seqIssued (s.th.eng.seqs c) seq = false) →
        RaisesSuper (.cwait r) s 0x0B 0) ∧
      ∀ c, ticketClass t = some c → seqIssued (s.th.eng.seqs c) seq = true →
        let q := s.th.eng.seqs c
        let finished : Prop := ∀ x ∈ allCommands s, x.lid = s.th.id.lid → x.unit = s.th.id.unit → x.cls = c →
          issuedAfter q x.seq < issuedAfter q seq
        (finished → unreported s c (s.th.eng.seqs c) seq = none →
          Completes (.cwait r) s fun t => t.th.rf = s.th.rf ∧ Retired s t [r] .ready) ∧
        (¬ finished → Waits (.cwait r) s .ticket) ∧
        (∀ q, finished → unreported s c (s.th.eng.seqs c) seq = some q → q.cls = c → NotHandling s → Completes (.cwait r) s fun t =>
          t.th.sr.evcode = 0x0C ∧ t.th.sr.evaddr = ticketWord c q.seq ∧
          t.th.sr.cmdst = BitVec.ofNat 64 (q.count * 2 ^ 32 + q.status.toNat) ∧ t.th.pcq.e0 = ⟨s.th.sr.svec, false⟩ ∧
          t.th.rf = s.th.rf))

/-! ### Schedule and layers -/

/-- R243, R245: a service of `nextt` commits a pending block, answers all ones on a core that the place field leaves out and zeros
where no grain is left, and otherwise claims every open or handed-over grain of the first tile, for the unit; a unit whose current claim still holds a grain raises
OPERAND. R246, R247: `tdone` clears
and `tgive` hands over the grains of a mask that the unit's claim holds, and a mask that names another raises OPERAND; `schw` makes the 32
bytes the pending block, `schr` writes the current one. -/
def Obligations.ScheduleInstructionsClaim : Prop :=
  (∀ (s : State) (d b : Reg), Canonical s → sparseWf {} s.sys.work.launches = true →
    let lid := s.th.id.lid
    let u := s.th.id.unit
    let l := s.launch lid
    let k := commitBlock l.sched
    let answers (origin mask : Word) (Q : State → Prop) : Prop := Completes (.nextt d b) s fun t =>
      (∃ r, WroteReg s.th.rf r d origin ∧ WroteReg r t.th.rf b mask) ∧ t.th.rot = .inFlight .schedule ∧ Advanced s t ∧
      t.th.sr = s.th.sr ∧ t.core = s.core ∧ t.others = s.others ∧ (t.launch lid).sched.pend = none ∧
      (t.launch lid).sched.gen = (if l.sched.pend.isSome then l.sched.gen + 1 else l.sched.gen) ∧ Q t
    (Ready s [] [d, b] → NotHandling s → heldMask s lid u ≠ 0 → RaisesSuper (.nextt d b) s 0x0B 0) ∧
    (Ready s [] [d, b] → heldMask s lid u = 0 → atomicsOutstanding s = false → sparseWf 0 l.sched.grains = true →
      (placeAdmits { l with sched := k } s.hereCore = false → answers 0xFFFFFFFFFFFFFFFF 0 (fun t => t.mem = s.mem)) ∧
      (placeAdmits { l with sched := k } s.hereCore = true → nextTile k = none → answers 0 0 (fun t => t.mem = s.mem)) ∧
      (∀ o, placeAdmits { l with sched := k } s.hereCore = true → nextTile k = some o →
        let m := maskWhere k k.geom o claimable
        answers o m fun t => claimOf t lid u = some ⟨lid, u, k.gen, k.geom, o, m, 0⟩ ∧
          ∀ g, sparseGet 0 (t.launch lid).sched.grains g =
            if g ∈ grainsOfMask k k.geom o m then 1 else sparseGet 0 l.sched.grains g))) ∧
  (∀ (s : State) (a : Reg), Canonical s → sparseWf {} s.sys.work.launches = true → atomicsOutstanding s = false →
    Ready s [a] [] →
    let lid := s.th.id.lid
    let u := s.th.id.unit
    let l := s.launch lid
    let ea := s.reg a
    let gives (i : Instr) (v : BitVec 2) : Prop :=
      (∀ c, claimOf s lid u = some c → s.reg a &&& ~~~c.mask = 0 → sparseWf 0 l.sched.grains = true → Completes i s fun t =>
        claimOf t lid u = some { c with mask := c.mask &&& ~~~(s.reg a), seals := c.seals + 1 } ∧
        (∀ g, sparseGet 0 (t.launch lid).sched.grains g =
          if g ∈ grainsOfMask l.sched c.geom c.origin (s.reg a) then v else sparseGet 0 l.sched.grains g) ∧
        (∀ j ∈ t.sys.work.jobs, ∀ p ∈ j.2.phases, ∀ e ∈ p.2.log, e.lid = lid → e.unit = u → e.opened = false) ∧
        t.th.rf = s.th.rf ∧ t.th.sr = s.th.sr ∧ Advanced s t ∧ t.th.rot = .inFlight .schedule) ∧
      (NotHandling s → s.reg a &&& ~~~(heldMask s lid u) ≠ 0 → RaisesSuper i s 0x0B 0)
    gives (.tdone a) 2 ∧ gives (.tgive a) 3 ∧
    ReadStops (.schw a) s ea 32 ∧
    (∀ u rot bs, ReadsBytes s ea 32 u rot bs →
      let w (k : Nat) := wordOf ((bs.drop (8 * k)).take 8)
      let g : SchedGeom := { tile := (w 1 >>> 8).setWidth 12, order := (w 1).setWidth 8, place := w 2 }
      (blockOk l.sched (w 0) g = true → Completes (.schw a) s fun t =>
        t.launch lid = { l with sched := { l.sched with pend := some g } } ∧ t.th.rf = s.th.rf ∧ t.mem = (takeMsgs u [a]).mem ∧
        Advanced s t ∧ t.th.rot = .inFlight .schedule) ∧
      (NotHandling s → blockOk l.sched (w 0) g = false → RaisesSuperFrom (.schw a) s u 0x0B 0)) ∧
    AccessStops (.schr a) s .write ea 32 ∧
    (∀ loc, Accessible s .write ea 32 loc → Completes (.schr a) s fun t => t.th.rf = s.th.rf ∧
      StoreDone s t [a] ea 32 (blockBytes l.sched) loc (.inFlight .schedule)))

/-- R129, R130, R138, R139, R140, R248: making, freeing, splitting and merging layers, and their fields. R136, R141, R249: `lyrcommit`
takes translation and image over, clears age, error and light, and charges the light of every layer that depends on it; `lyrord` stores
the tenant's layers in order and answers their number. Where the slot stands that a merge makes of two in a third layer is the model's reading
(log 20); `lyrdep` of a slot above 3 raises OPERAND. -/
def Obligations.LayerInstructionsChangeTable : Prop :=
  (∀ (s : State) (d a b : Reg) (k : BitVec 3) (m n : Nat), Canonical s → atomicsOutstanding s = false →
    sparseWf freeLayer s.sys.layers.table = true →
    let req := s.sys.layers.requests
    let only (k : Nat) (l : Layer) (j : Nat) : Layer := if j = k then l else s.layer j
    let same (r : Regs) : Prop := r = s.th.rf
    (Ready s [] [d] →
      (freeId s.sys.layers.table 4096 0 = some n → LayersBecome (.lyrnew d) s []
        (only n { id := BitVec.ofNat 16 n, tenant := s.th.id.tenant }) req (WroteReg s.th.rf · d (BitVec.ofNat 64 n))) ∧
      (freeId s.sys.layers.table 4096 0 = none → NotHandling s → RaisesSuper (.lyrnew d) s 0x0B 0)) ∧
    (Ready s [a] [] → NamesLayer s a m → LayersBecome (.lyrfree a) s [a]
      (fun j => if j = m then freeLayer else dropCaster m (s.layer j)) (req.filter fun r => decide (r.id.toNat ≠ m)) same) ∧
    (Ready s [a] [] → NotHandling s → 4096 ≤ (s.reg a).toNat → RaisesSuper (.lyrfree a) s 0x0B 0) ∧
    (Ready s [a] [d] → NamesLayer s a m → freeId s.sys.layers.table 4096 0 = some n → LayersBecome (.lyrsplit d a) s [a]
      (only n { s.layer m with id := BitVec.ofNat 16 n }) req (WroteReg s.th.rf · d (BitVec.ofNat 64 n))) ∧
    (Ready s [a, b] [] → NamesLayer s a m → NamesLayer s b n → m ≠ n →
      (mergedDeps (s.layer m) (s.layer n) m n).length ≤ 4 → LayersBecome (.lyrmerge a b) s [a, b]
      (fun j => if j = m then mergedLayer (s.layer m) (s.layer n) (mergedDeps (s.layer m) (s.layer n) m n)
        else if j = n then freeLayer else renameCaster m n (s.layer j))
      (req.filter fun r => decide (r.id.toNat ≠ n)) same) ∧
    (Ready s [a, b] [] → NamesLayer s a m →
      (∀ l, writeLayer (s.layer m) k (s.reg b) = some l → LayersBecome (.lyrset k a b) s [a, b] (only m l) req same) ∧
      (writeLayer (s.layer m) k (s.reg b) = none → NotHandling s → RaisesSuper (.lyrset k a b) s 0x0B 0)) ∧
    (Ready s [a] [d] → NamesLayer s a m → YieldsReg (.lyrget k d a) s [a] d (layerWord (s.layer m) k) (.inFlight .layer)) ∧
    (∀ h : k.toNat < 4, Ready s [a, b, d] [] → NamesLayer s a m →
      (s.reg b = 0xFFFF → LayersBecome (.lyrdep k d a b) s [a, b, d]
        (only m { s.layer m with deps := (s.layer m).deps.set k.toNat 0xFFFF0000 }) req same) ∧
      (NamesLayer s b n → n ≠ m → LayersBecome (.lyrdep k d a b) s [a, b, d]
        (only m { s.layer m with deps := (s.layer m).deps.set k.toNat (depOf n ((s.reg d).toNat % 65536)) }) req same)) ∧
    (4 ≤ k.toNat → Ready s [a, b, d] [] → NotHandling s → NamesLayer s a m → (s.reg b = 0xFFFF ∨ NamesLayer s b n) →
      RaisesSuper (.lyrdep k d a b) s 0x0B 0)) ∧
  (∀ (s : State) (d a b : Reg) (m : Nat) (p : Pose), Canonical s → atomicsOutstanding s = false →
    sparseWf freeLayer s.sys.layers.table = true →
    let y := s.sys.layers
    (Ready s [a, b, d] [] → NamesLayer s a m → histPose y (s.reg b).toNat = some p → LayersBecome (.lyrcommit d a b) s [a, b, d]
      (fun j => chargeLight m (if j = m
        then { s.layer m with tx := p.cx, ty := p.cy, tz := p.cz, img := s.reg d, age := 0, lit := 0, err := 0, fresh := true, state := 1 }
        else s.layer j)) y.requests (· = s.th.rf)) ∧
    (Ready s [a, b, d] [] → NamesLayer s a m → NotHandling s → histPose y (s.reg b).toNat = none → RaisesSuper (.lyrcommit d a b) s 0x0B 0) ∧
    (let n := (s.reg a).toNat
     let list := orderedLayers y.table s.th.id.tenant
     Ready s [a, b] [d] → frameBeyond s n = false →
      (∀ locs, evaluated s n = true → (s.reg b).toNat % 8 = 0 → checkList s (s.reg b) list.length = .ok locs →
        (locs.any fun x => locStalls s 8 true x.2) = false → Completes (.lyrord d a b) s fun t =>
          WroteReg s.th.rf t.th.rf d (BitVec.ofNat 64 list.length) ∧
          Ran s (writeList (takeMsgs s [a, b]) locs (listWords 0 list)) t [a, b] (.inFlight .layer)) ∧
      (evaluated s n = false → Waits (.lyrord d a b) s .evaluation)) ∧
    (Ready s [a, b] [d] → frameBeyond s (s.reg a).toNat = true → NotHandling s → RaisesSuper (.lyrord d a b) s 0x0B 0))

/-- R131, R132, R145, R250: `pose` holds a pose for a frame to come, counts a late one and refuses one that is not finite or too far
ahead; `rls` hands a buffer over for a frame that may still be released, and says why otherwise, with the leaves of the buffer's pages in the TLBs
(R336). -/
def Obligations.PosesAndReleases : Prop :=
  ∀ (s : State) (d a b : Reg), Canonical s → atomicsOutstanding s = false →
    let y := s.sys.layers
    let r := s.sys.rel
    (Ready s [a, b] [] → ReadStops (.pose a b) s (s.reg b) 16 ∧ ∀ u rot bs, ReadsBytes s (s.reg b) 16 u rot bs →
      let p := poseOf bs
      let m := (s.reg a).toNat
      let v := takeMsgs u [a, b]
      (poseOk p = true → frameBeyond s m = false → evaluated s m = false → sparseWf noPose y.held = true →
        Completes (.pose a b) s fun t => (∀ n, heldPose t.sys.layers n = if n = m then some p else heldPose y n) ∧
          t.th.rf = s.th.rf ∧ t.mem = v.mem ∧ t.sys.rel = r ∧ Advanced s t ∧ t.th.rot = .inFlight .layer ∧
          (y.last = some ((m : Int) - 1) → Task.frameEvaluation ∈ t.agenda)) ∧
      (poseOk p = true → frameBeyond s m = false → evaluated s m = true →
        Completes (.pose a b) s fun t => t.th.rf = s.th.rf ∧
          Ran s (v.withRel { r with plate := r.plate + 1 }) t [a, b] (.inFlight .layer)) ∧
      (NotHandling s → (poseOk p = false ∨ frameBeyond s m = true) → RaisesSuperFrom (.pose a b) s u 0x0B 0)) ∧
    RegsStop (.rls d a b) s [a, b] [d] ∧
    (let m := (s.reg b).toNat
     let v := takeMsgs (fillPages s (runPages (s.reg a) (frameBytes r))) [a, b]
     let answers (k : Word) : Prop := Completes (.rls d a b) s fun t =>
      WroteReg s.th.rf t.th.rf d k ∧ Ran s v t [a, b] (.inFlight .layer)
     Ready s [a, b] [d] → (s.reg a).toNat % 4096 = 0 → checkPages s (s.reg a) ((frameBytes r + 4095) / 4096) = none →
      sparseWf {} r.handed = true →
      (∀ k, r.en = true → r.passed = some k → k < m → m ≤ k + 4 → handedBuffer r m = none → Completes (.rls d a b) s fun t =>
        WroteReg s.th.rf t.th.rf d 0 ∧ handedBuffer t.sys.rel m = some ⟨s.reg a, s.th.id.tenant, deadline r m - r.now⟩ ∧
        (∀ n, n ≠ m → handedBuffer t.sys.rel n = handedBuffer r n) ∧
        Ran s (v.withRel { r with handed := t.sys.rel.handed }) t [a, b] (.inFlight .layer)) ∧
      (∀ k, r.en = true → r.passed = some k → (m : Int) ≤ k → answers 1) ∧
      (∀ k, r.en = true → r.passed = some k → k < m → m ≤ k + 4 → (handedBuffer r m).isSome = true →
        answers 2) ∧
      (∀ k, r.en = true → r.passed = some k → k + 4 < m → answers 3) ∧
      (r.en = false → answers 3)) ∧
    (Ready s [a, b] [d] → NotHandling s →
      ((s.reg a).toNat % 4096 ≠ 0 → RaisesSuper (.rls d a b) s 0x03 (s.reg a)) ∧
      (∀ e, (s.reg a).toNat % 4096 = 0 → checkPages s (s.reg a) ((frameBytes r + 4095) / 4096) = some e →
        RaisesSuper (.rls d a b) s e.code e.addr))

/-! ### Launches, channels, atomics -/

/-- R251: `lnch` reads a launch record and puts it in its die's queue under the next launch identifier, which is its result; a record that
it may not request raises OPERAND; with 64 records queued it waits. That the child's phase is the job's current one is the model's reading
(log 26). -/
def Obligations.LaunchRequestsQueue : Prop :=
  ∀ (s : State) (d a : Reg), Canonical s → sparseWf [] s.sys.work.deviceQ = true → Ready s [a] [d] → atomicsOutstanding s = false →
    ReadStops (.lnch d a) s (s.reg a) 64 ∧ ∀ u rot bs, ReadsBytes s (s.reg a) 64 u rot bs →
    let w := s.sys.work
    let die := s.here.did.val
    let r := wordsOf bs 8
    let l := s.launch s.th.id.lid
    (lnchOk s r = true → (deviceQueue s die).length < 64 → Completes (.lnch d a) s fun t =>
      WroteReg s.th.rf t.th.rf d (BitVec.ofNat 64 (w.nextLid % 2 ^ 32)) ∧
      deviceQueue t die = deviceQueue s die ++ [{
        job := l.job, phase := (s.job l.job).current, lid := BitVec.ofNat 32 w.nextLid, tier := s.sys.layers.tier, words := r }] ∧
      (∀ k, k ≠ die → deviceQueue t k = deviceQueue s k) ∧
      Ran s ((takeMsgs u [a]).withWork { w with deviceQ := t.sys.work.deviceQ, nextLid := w.nextLid + 1 }) t [a] rot) ∧
    (lnchOk s r = true → 64 ≤ (deviceQueue s die).length → WaitsFrom (.lnch d a) s u .launchQueue) ∧
    (lnchOk s r = false → NotHandling s → RaisesSuperFrom (.lnch d a) s u 0x0B 0)

/-- R73, R252, R253: `chbind` binds a register to a sender and installs a permit with credit at the sender's core; `chfree` undoes both,
unless a message is held or on its way, and leaves a value of no meaning in the register (log 7). R254, R255: a send spends the credit of
its permit and puts the message on its way, to where the receiver named by the descriptor now stands (R256); without the credit it waits,
without the permit it raises CHAN, and a message too many for its packet raises OPERAND first (log 44). `snd` opens or goes on with a
packet of at most 15 messages before its last, `snd.e` ends it. -/
def Obligations.ChannelsCarryMessages : Prop :=
  (∀ (s : State) (g a : Reg), Canonical s →
    let v := s.reg a
    let q := placeOfDesc v
    let c := coreNum (placeCore q)
    (∀ x, emptySource s.th [a] = some x → Waits (.chbind g a) s (.boundReg x)) ∧
    (emptySource s.th [a] = none → descOk v 0 0 = true → descInTenant s v = true →
      (isBound s.th g = false → s.th.ch.binds.length < 4 → portOk s g.val q = true → (s.coreBy c).permits.length < 64 →
        (pathInside s s.th.id.tenant s.hereCore c = true → Completes (.chbind g a) s fun t =>
          let u := takeMsgs s [a]
          t.th.ch.binds = (s.th.ch.binds.map fun b => if b.reg = a then { b with full := false } else b) ++ [⟨g, q, false, 0⟩] ∧
          t.th.rf = s.th.rf ∧ t.th.sr = s.th.sr ∧ Advanced s t ∧ t.th.rot = .inFlight .permit ∧
          OutsideKept (u.putCore c { u.coreBy c with permits := (u.coreBy c).permits ++ [⟨q.slot, s.here, g.val, true⟩] }) t) ∧
        (pathInside s s.th.id.tenant s.hereCore c = false → NotHandling s → RaisesSuper (.chbind g a) s 0x0F v)) ∧
      ((isBound s.th g = true ∨ 4 ≤ s.th.ch.binds.length ∨ portOk s g.val q = false ∨ 64 ≤ (s.coreBy c).permits.length) →
        NotHandling s → RaisesSuper (.chbind g a) s 0x0A v)) ∧
    (emptySource s.th [a] = none → NotHandling s → descOk v 0 0 = true → descInTenant s v = false →
      RaisesSuper (.chbind g a) s 0x0F v) ∧
    (emptySource s.th [a] = none → NotHandling s → descOk v 0 0 = false → RaisesSuper (.chbind g a) s 0x0B 0) ∧
    (∀ b, bindingOf s.th g = some b →
      (b.full = false → messageWaits s g.val = false → Completes (.chfree g) s fun t =>
        t.th.ch.binds = s.th.ch.binds.filter (fun x => decide (x.reg ≠ g)) ∧
        (∀ p ∈ (t.coreBy (coreNum (placeCore b.sender))).permits, ¬ (p.slot = b.sender.slot ∧ p.dst = s.here ∧ p.reg = g.val)) ∧
        (∀ x, x ≠ g → rawReg t.th.rf x = rawReg s.th.rf x) ∧ t.th.sr = s.th.sr ∧ Advanced s t ∧ t.th.rot = .inFlight .permit ∧
        OutsideKept { freeBinding s s.here b with fresh := s.fresh + 1 } t) ∧
      ((b.full = true ∨ messageWaits s g.val = true) → NotHandling s → RaisesSuper (.chfree g) s 0x0A (BitVec.ofNat 64 g.val))) ∧
    (bindingOf s.th g = none → NotHandling s → RaisesSuper (.chfree g) s 0x0A (BitVec.ofNat 64 g.val))) ∧
  (∀ (s : State) (a b : Reg) (p : Permit), Canonical s → Ready s [a, b] [] →
    let v := s.reg a
    let g := descReg v
    let q := receiverOf s (placeOfDesc v) g
    let inModule : Prop := v.toNat / 2 ^ 20 % 16 = s.sys.host.mid.toNat
    let spent (x : Permit) : Permit := if x.slot = s.here.slot ∧ x.dst = q ∧ x.reg = g then { x with credit := false } else x
    let sends (i : Instr) (open_ : Prop) (pkt : Nat) : Prop :=
      (descOk v 1 6 = true → open_ → inModule → permitFor s.core s.here.slot q g = some p →
        (p.credit = true → atomicsOutstanding s = false → Completes i s fun t => t.th.rf = s.th.rf ∧
          Ran (s.withTh { s.th with ch := { s.th.ch with pkt := pkt } })
            (takeMsgs ((s.withCore { s.core with permits := s.core.permits.map spent }).withWork { s.sys.work with
              msgs := s.sys.work.msgs ++ [⟨s.here, s.th.id.lid, s.th.id.unit, s.th.id.tenant, q, g, s.reg b⟩] }) [a, b]) t [a, b] .ready) ∧
        (p.credit = false → Waits i s (.credit q g))) ∧
      (descOk v 1 6 = true → open_ → (¬ inModule ∨ permitFor s.core s.here.slot q g = none) → NotHandling s → RaisesSuper i s 0x0A v) ∧
      ((descOk v 1 6 = false ∨ ¬ open_) → NotHandling s → RaisesSuper i s 0x0B 0)
    sends (.snd a b) (s.th.ch.pkt < 15) (s.th.ch.pkt + 1) ∧ sends (.sndE a b) True 0)

/-- R257, R258: a bank atomic on the issuing core is performed at once on the bytes of its target; one on another core of the sub-mesh
leaves the core, and the thread goes on; with 32 of the core on their way it waits. A misaligned target raises ALIGN. -/
def Obligations.AtomicsPerformOrLeave : Prop :=
  ∀ (s : State) (word : Bool) (a b : Reg) (c x : Nat), Canonical s → Ready s [a, b] [] →
    let n := if word then 4 else 8
    let ea := s.reg a
    let v := (s.reg b).toNat % 2 ^ (8 * n)
    let old := ofBytes (bytesAt s.core.spad x n)
    let sg (k : Nat) : Int := (BitVec.ofNat (8 * n) k).toInt
    let atomic (i : Instr) (op : AmoOp) (new : Nat) : Prop :=
      (amoChecks s ea n = .ok (c, x) → c = s.hereCore → spadStalls s.core x n true = false → Completes i s fun t =>
        t.th.rf = s.th.rf ∧ SpadStored s t x (toBytes n new) ∧
        Ran s (coreAfter s [a, b] fun k => { k with spad := t.core.spad, found := foundBut k x n }) t [a, b] .ready) ∧
      (amoChecks s ea n = .ok (c, x) → c = s.hereCore → spadStalls s.core x n true = true → Waits i s (.locked [(x, n, true)])) ∧
      (amoChecks s ea n = .ok (c, x) → c ≠ s.hereCore →
        let away := (s.sys.work.amos.filter fun m => decide (coreNum (placeCore m.src) = s.hereCore)).length
        (away < 32 → Completes i s fun t => t.th.rf = s.th.rf ∧
          Ran s ((takeMsgs s [a, b]).withWork { s.sys.work with amos := s.sys.work.amos ++
            [⟨op, word, s.here, s.th.id.lid, s.th.id.unit, s.th.id.tenant, c, x, s.reg b⟩] }) t [a, b] .ready) ∧
        (32 ≤ away → Waits i s .atomicEntry)) ∧
      (∀ e, amoChecks s ea n = .error e → NotHandling s → RaisesSuper i s e.code e.addr) ∧
      (ea.toNat % n ≠ 0 → NotHandling s → RaisesSuper i s 0x03 ea)
    atomic (.amoAdd word a b) .add ((old + v) % 2 ^ (8 * n)) ∧
    atomic (.amoMin word a b) .min (if sg old ≤ sg v then old else v) ∧
    atomic (.amoMax word a b) .max (if sg v ≤ sg old then old else v) ∧
    atomic (.amoMinu word a b) .minu (if old ≤ v then old else v) ∧
    atomic (.amoMaxu word a b) .maxu (if v ≤ old then old else v) ∧
    atomic (.amoAnd word a b) .and (old &&& v) ∧
    atomic (.amoOr word a b) .or (old ||| v) ∧
    atomic (.amoXor word a b) .xor (old ^^^ v)

/-- R121, R259, R301, R336: `logadd.f32` appends an entry to the log of its launch's phase, discarded at once where its launch has been
cancelled, leaves its leaf in the TLBs and memory alone; a local or misaligned address raises an event; a full log area makes it wait. R111, R260, R261: a fence of any scope, and `phend`, wait for the thread's remote atomics;
`phend` closes the phase of its launch if that is the job's current one, so that the next one begins, and does nothing if it is closed
already. -/
def Obligations.LogsFencesAndPhaseEnds : Prop :=
  (∀ (s : State) (d a b : Reg) (pa : Nat), Canonical s → CanonicalWork s → Ready s [a, b, d] [] →
    let l := s.launch s.th.id.lid
    let phase := (s.job l.job).phase l.phase
    let ea := s.reg a
    let claim := claimOf s s.th.id.lid s.th.id.unit
    (logTarget s ea = .ok pa → phase.logFull = false → Completes (.logaddF32 d a b) s fun t =>
      ((t.job l.job).phase l.phase) = { phase with
        log := phase.log ++ [{
          pa := pa, key := (s.reg b).setWidth 32, val := (s.reg d).setWidth 32, lid := s.th.id.lid, unit := s.th.id.unit
          claim := claim.map fun c => (c.gen, c.origin), seals := (claim.map (·.seals)).getD 0, opened := true, discarded := bornCancelled s l }]
        logFull := Config.logFills l.job l.phase (phase.log.length + 1) } ∧
      (∀ k, k ≠ l.phase → (t.job l.job).phase k = (s.job l.job).phase k) ∧ (∀ j, j ≠ l.job → t.job j = s.job j) ∧
      t.th.rf = s.th.rf ∧
      Ran s ((takeMsgs (fillTlb s s.th.id.tenant ea) [a, b, d]).withWork { s.sys.work with jobs := t.sys.work.jobs }) t [a, b, d]
        (if walksFor s s.th.id.tenant ea then .inFlight .walk else .ready)) ∧
    (logTarget s ea = .ok pa → phase.logFull = true → Waits (.logaddF32 d a b) s .logSpace) ∧
    (ea.toNat % 4 ≠ 0 → NotHandling s → RaisesSuper (.logaddF32 d a b) s 0x03 ea) ∧
    (ea.toNat % 4 = 0 → 0xFFFFFFFFFFF00000 ≤ ea.toNat → NotHandling s → RaisesSuper (.logaddF32 d a b) s 0x06 ea)) ∧
  (∀ (s : State), Canonical s → CanonicalWork s →
    let l := s.launch s.th.id.lid
    let fences (i : Instr) : Prop :=
      (atomicsOutstanding s = false → Completes i s fun t => t.th.rf = s.th.rf ∧ Retired s t [] .ready) ∧
      (atomicsOutstanding s = true → Waits i s .accesses)
    fences .fenceCore ∧ fences .fenceGrove ∧ fences .fenceDie ∧ fences .fencePackage ∧ fences .fenceSystem ∧
    (s.th.id.harv = false → atomicsOutstanding s = false →
      (l.phase = (s.job l.job).current → Completes .phend s fun t =>
        ((t.job l.job).phase l.phase).closed = true ∧ (t.job l.job).current = l.phase + 1 ∧ (∀ j, j ≠ l.job → t.job j = s.job j) ∧
        t.th.rf = s.th.rf ∧ t.th.sr = s.th.sr ∧ t.core = s.core ∧ t.others = s.others ∧ Advanced s t ∧ t.th.rot = .ready) ∧
      (l.phase ≠ (s.job l.job).current → Completes .phend s fun t => t.th.rf = s.th.rf ∧ Retired s t [] .ready)) ∧
    (s.th.id.harv = false → atomicsOutstanding s = true → Waits .phend s .release) ∧
    (s.th.id.harv = true → NotHandling s → Completes .phend s fun t =>
      t.th.sr.evcode = 0x05 ∧ t.th.pcq.e0 = ⟨s.th.sr.svec, false⟩ ∧ t.th.rf = s.th.rf ∧ t.sys = s.sys ∧ t.mem = s.mem))

/-! ### Barriers, gangs, lending -/

/-- R262: a unit that comes to a barrier begins an episode of its form or arrives at the one under way, and waits; once the episode is
released it goes on, and the episode forgets it; an episode is released when every participant has arrived or ended and its accesses are
performed. -/
def Obligations.BarriersHoldUnits : Prop :=
  ∀ (s : State) (e : Episode) (l : BitVec 32) (k : Nat), Canonical s →
    let lid := s.th.id.lid
    let u := s.th.id.unit.toNat
    let es := s.sys.work.episodes
    let barrier (i : Instr) (f : BarForm) : Prop :=
      (∀ r, es.find? (arrivedAt lid f u) = some e → e.released = some r → Completes i s fun t =>
        (∀ x, x ≠ e → x.released ≠ some [] → (x ∈ t.sys.work.episodes ↔ x ∈ es ∨ x = { e with released := some (r.filter (· ≠ u)) })) ∧
        t.th.rf = s.th.rf ∧ Retired (s.withWork { s.sys.work with episodes := t.sys.work.episodes }) t [] .ready) ∧
      (es.find? (arrivedAt lid f u) = some e → e.released = none → Waits i s (.barrier f)) ∧
      (es.find? (arrivedAt lid f u) = none →
        es.find? (fun x => decide (x.lid = lid ∧ x.form = f ∧ x.inst = instanceOf f s.hereCore) && x.released.isNone) = some e →
        u ∈ e.parts → Completes i s fun t => { e with arrived := insertNat u e.arrived } ∈ t.sys.work.episodes ∧
          t.th.rot = .waiting (.barrier f) ∧ t.th.rf = s.th.rf ∧ t.th.pcq = s.th.pcq ∧ t.core = s.core ∧ t.mem = s.mem) ∧
      (es.find? (arrivedAt lid f u) = none →
        (∀ x ∈ es, ¬ (x.lid = lid ∧ x.form = f ∧ x.inst = instanceOf f s.hereCore ∧ x.released = none)) → Completes i s fun t =>
        t.sys.work.episodes = es ++ [⟨lid, f, instanceOf f s.hereCore, participants s f, [u], none⟩] ∧
        t.th.rot = .waiting (.barrier f) ∧ t.th.rf = s.th.rf ∧ t.th.pcq = s.th.pcq ∧ t.core = s.core ∧ t.mem = s.mem)
    barrier .barCore .core ∧ barrier .barGrove .grove ∧ barrier .barDie .die ∧ barrier .barPackage .package ∧
    barrier .barSystem .system ∧ barrier .barLaunch .launch ∧
    (∀ f, es.find? (fun x => decide (x.lid = l ∧ x.form = f ∧ x.inst = k) && x.released.isNone) = some e →
      ((∀ p ∈ e.parts, p ∈ e.arrived ∨ p ∈ (s.launch l).gone) →
        (∀ m ∈ s.sys.work.amos, m.lid = l → m.unit.toNat ∉ e.parts) → (∃ p ∈ e.arrived, p ∉ (s.launch l).gone) →
        Completes (.barrierRelease l f k) s fun t =>
          { e with released := some (e.arrived.filter (· ∉ (s.launch l).gone)) } ∈ t.sys.work.episodes ∧
          t = s.withWork { s.sys.work with episodes := t.sys.work.episodes }) ∧
      ((∃ p ∈ e.parts, p ∉ e.arrived ∧ p ∉ (s.launch l).gone) → NoEffect (.barrierRelease l f k) s))

/-- R24 to R29, R263, R264: with the last member's `gang` a gang forms: every member has the rectangle, the north-west one leads, and the
others stand where it stands; until then a member waits. `gjoin` attaches the members that have detached, once each waits in it; `gquit`
leaves. That `gang` raises OPERAND whatever its unit's kind (log 44), and that a leader's `gquit` leaves its followers in no gang (log 45), is
the model's choice. -/
def Obligations.GangsFormAndPart : Prop :=
  ∀ (s : State) (a : Reg), Canonical s →
    let r : BitVec 8 := (s.reg a).setWidth 8
    let ps := gangPlaces r s.here
    (Ready s [a] [] → gangOk s (s.reg a) = true → s.th.gang.state = .none → s.th.id.harv = false →
      ((∀ p ∈ ps, p = s.here ∨ waitsGang s s.th.id.lid r p = true) → Completes (.gang a) s fun t =>
        (∀ p ∈ ps, (t.thr p).gang.rect = r ∧ (t.thr p).gang.state = (if isLeaderPlace r p then .leader else .attached) ∧
          (t.thr p).rf = (s.thr p).rf ∧ (t.thr p).rot = .ready) ∧
        (∀ p ∈ ps, ∀ l ∈ ps, isLeaderPlace r l = true → (t.thr p).pcq = (t.thr l).pcq) ∧
        ((∀ p ∈ ps, (s.thr p).ch.binds = []) → t.mem = s.mem ∧ t.sys = s.sys)) ∧
      ((∃ p ∈ ps, p ≠ s.here ∧ waitsGang s s.th.id.lid r p = false) → Waits (.gang a) s (.gang r a))) ∧
    (Ready s [a] [] → NotHandling s → (gangOk s (s.reg a) = false ∨ s.th.gang.state ≠ .none) → RaisesSuper (.gang a) s 0x0B 0) ∧
    ((s.th.gang.state = .none ∨ s.th.gang.state = .attached) → Completes .gjoin s fun t => t.th.rf = s.th.rf ∧ Retired s t [] .ready) ∧
    (s.th.gang.state = .detached → Waits .gjoin s .gjoin) ∧
    (s.th.gang.state = .leader → (∀ u ∈ s.sys.work.saved, savedMember s u = false) →
      let apart := (gangMates s s.here).filter fun p => decide ((s.thr p).gang.state = .detached)
      ((∀ p ∈ apart, (s.thr p).rot = .waiting .gjoin) → Completes .gjoin s fun t =>
        (∀ p ∈ apart, (t.thr p).gang.state = .attached ∧ (t.thr p).pcq = t.th.pcq ∧ (t.thr p).rf = (s.thr p).rf) ∧
        t.th.rf = s.th.rf ∧ t.th.gang = s.th.gang ∧ Advanced s t ∧ t.th.rot = .ready ∧ t.mem = s.mem ∧ t.sys = s.sys) ∧
      ((∃ p ∈ apart, (s.thr p).rot ≠ .waiting .gjoin) → Waits .gjoin s .gjoin)) ∧
    (Completes .gquit s fun t => t.th.gang.state = .none ∧
      (s.th.gang.state = .leader → ∀ p ∈ gangMates s s.here, (t.thr p).gang.state = .none) ∧
      (s.th.gang.state ≠ .leader → t.others = s.others ∧ t.sys = s.sys) ∧ t.th.rf = s.th.rf ∧ t.th.sr = s.th.sr ∧ t.core = s.core ∧
      t.mem = s.mem ∧ (∀ u ∈ t.sys.work.saved, s.th.gang.state = .leader → savedMember s u = false) ∧
      t.sys = { s.sys with work := { s.sys.work with saved := t.sys.work.saved } } ∧ Advanced s t ∧ t.th.rot = .ready)

/-- R35, R265, R266: `hvlend` lends a range of the launch's window to a harvest launch; `hvreclaim` takes it back, drops the tag-table
entries into it, and leaves it to be cleared, 256 bytes at a time: zeros in empty granules. That PERM of `hvlend` reports the range's base is
the model's choice (log 29). -/
def Obligations.RangesAreLentAndReclaimed : Prop :=
  ∀ (s : State) (a b : Reg) (c : CoreId) (base len : Nat) (rest : List (Nat × Nat)), Canonical s →
    let l : Lent := ⟨s.th.id.lid, (s.reg a >>> 32).setWidth 32, (s.reg a).toNat % 2 ^ 20, (s.reg b).toNat⟩
    let k := s.coreBy (coreNum c)
    (Ready s [a, b] [] → lendChecks s (s.reg a) (s.reg b) = .ok l →
      (∀ x ∈ s.core.cmds, x.lid = s.th.id.lid → ∀ y ∈ commandRanges x, rangeMeets l.base l.len y = false) →
      Completes (.hvlend a b) s fun t => t.th.rf = s.th.rf ∧
        Ran s (coreAfter s [a, b] fun k => { k with lents := k.lents ++ [l] }) t [a, b] .ready) ∧
    (Ready s [a, b] [] → NotHandling s → ∀ e, lendChecks s (s.reg a) (s.reg b) = .error e → RaisesSuper (.hvlend a b) s e.code e.addr) ∧
    (Ready s [a, b] [] → (s.reg a).toNat / 2 ^ 20 % 2 ^ 12 = 0 → l ∈ s.core.lents →
      (∀ x ∈ s.core.cmds, borrowerWrites l x = false) → Completes (.hvreclaim a b) s fun t => t.th.rf = s.th.rf ∧
        (∀ g, g ∈ t.core.tags ↔ g ∈ s.core.tags ∧ ¬ (g.sp < l.base + l.len ∧ l.base < g.sp + 2 ^ g.k)) ∧
        Ran s (coreAfter s [a, b] fun k => { k with
          tags := t.core.tags, lents := k.lents.filter (· ≠ l), clearing := k.clearing ++ [(l.base, l.len)] }) t [a, b] .ready) ∧
    (Ready s [a, b] [] → NotHandling s → l ∉ s.core.lents → RaisesSuper (.hvreclaim a b) s 0x0B 0) ∧
    (k.reclaims = [] → k.clearing = (base, len) :: rest → Completes (.reclaimClear c) s fun t =>
      CoreStored s t (coreNum c) base (List.replicate 256 0) ∧
      (∀ g, g ∈ (t.coreBy (coreNum c)).empties ↔ g ∈ k.empties ∨ base / 16 ≤ g ∧ g < base / 16 + 16) ∧
      t.coreBy (coreNum c) = { k with
        spad := (t.coreBy (coreNum c)).spad, empties := (t.coreBy (coreNum c)).empties, bad := (t.coreBy (coreNum c)).bad
        found := foundBut k base 256
        clearing := if len ≤ 256 then rest else (base + 256, len - 256) :: rest } ∧ OnlyCore s t (coreNum c)) ∧
    (k.reclaims = [l] → k.clearing = [] → (∃ x ∈ k.cmds, borrowerWrites l x = true) → Completes (.reclaimClear c) s fun t =>
      t.coreBy (coreNum c) = k ∧ OnlyCore s t (coreNum c)) ∧
    (k.reclaims = [] → k.clearing = [] → Completes (.reclaimClear c) s fun t => t.coreBy (coreNum c) = k ∧ OnlyCore s t (coreNum c))

/-! ### System instructions -/

/-- R152, R267, R315: `mfsr` reads a special register, zero-extended, `status` with its fields in place; what the level may not read
raises PRIV. R152, R267, R315, R318: `mtsr` writes the bits of a special register's width, of `status` only its writable fields, of `epc0`
to `epc2` all but bit 0; what the level may not write raises PRIV, at user level and at supervisor level, and a vector length of 0 raises OPERAND
(R153). -/
def Obligations.SpecialRegistersMove : Prop :=
  (∀ (s : State) (d : Reg), Canonical s →
    let r := s.th.sr
    let w := windowOf s.core s.th
    let reads (n : SReg) (v : Word) : Prop := YieldsReg (.mfsr d n) s [] d v
    let shielded (n : SReg) (v : Word) : Prop :=
      (Supervisor s → reads n v) ∧ (UserLevel s → RaisesSuper (.mfsr d n) s 0x02 s.th.pcq.e0.addr)
    reads .cid (BitVec.ofNat 64 s.here.cid.val) ∧ reads .tid (BitVec.ofNat 64 s.here.slot.val) ∧
    reads .gid (BitVec.ofNat 64 (s.here.cid.val / 16)) ∧ reads .did (BitVec.ofNat 64 s.here.did.val) ∧
    reads .mid (zx s.sys.host.mid) ∧ reads .lid (zx s.th.id.lid) ∧ reads .cyc s.core.cyc ∧ reads .vl (zx r.vl) ∧
    reads .flags (zx r.flags) ∧ reads .qtier (zx r.qtier) ∧ reads .cmdst r.cmdst ∧
    reads .spbase (BitVec.ofNat 64 w.spBase) ∧ reads .splim (BitVec.ofNat 64 w.spLim) ∧
    reads .scbase (BitVec.ofNat 64 w.scBase) ∧ reads .sclim (BitVec.ofNat 64 w.scLim) ∧
    reads .wsp r.wsp ∧ reads .wlim r.wlim ∧ reads .mcfg (zx r.mcfg) ∧ reads .xcfg (zx r.xcfg) ∧
    reads .evcode (zx r.evcode) ∧ reads .evaddr r.evaddr ∧
    (epcUndefined s.th = false → reads .epc0 r.epc0 ∧ reads .epc1 r.epc1 ∧ reads .epc2 r.epc2) ∧
    (∀ n, (n = .epc0 ∨ n = .epc1 ∨ n = .epc2) → epcUndefined s.th = true → Ready s [] [d] → Completes (.mfsr d n) s fun t =>
      ∃ v, WroteReg s.th.rf t.th.rf d v ∧ Ran s { s with fresh := s.fresh + 3 } t [] .ready) ∧
    reads .eann (zx r.eann) ∧ reads .uentry r.uentry ∧ reads .wdlim (zx r.wdlim) ∧
    shielded .svec r.svec ∧ shielded .sarea r.sarea ∧ shielded .sscratch r.sscratch ∧
    (∃ v : Word, reads .status v ∧ v.extractLsb' 27 11 = r.rept ∧ v.extractLsb' 16 11 = r.repc ∧ v.getLsbD 8 = s.th.id.harv ∧
      v.getLsbD 5 = r.ue ∧ v.getLsbD 4 = r.se ∧ v.getLsbD 1 = r.ppl ∧ v.getLsbD 0 = r.pl ∧
      v.extractLsb' 6 2 = (match s.th.gang.state with | .none => 0 | .leader => 1 | .attached => 2 | .detached => 3) ∧
      v.extractLsb' 38 26 = 0 ∧ v.extractLsb' 9 7 = 0 ∧ v.extractLsb' 2 2 = 0)) ∧
  (∀ (s : State) (a : Reg), Canonical s →
    let r := s.th.sr
    let v := s.reg a
    let writes (n : SReg) (r' : Sregs) : Prop := Ready s [a] [] → Completes (.mtsr n a) s fun t =>
      t.th.rf = s.th.rf ∧ Ran (s.withSr r') (takeMsgs s [a]) t [a] .ready
    let forbidden (n : SReg) : Prop := UserLevel s → RaisesSuper (.mtsr n a) s 0x02 s.th.pcq.e0.addr
    let guarded (n : SReg) (r' : Sregs) : Prop := (Supervisor s → writes n r') ∧ forbidden n
    let readOnly (n : SReg) : Prop := NotHandling s → RaisesSuper (.mtsr n a) s 0x02 s.th.pcq.e0.addr
    (v.toNat % 65536 ≠ 0 → writes .vl { r with vl := v.setWidth 16 }) ∧
    (Ready s [a] [] → v.toNat % 65536 = 0 → NotHandling s → RaisesSuper (.mtsr .vl a) s 0x0B 0) ∧
    writes .flags { r with flags := v.setWidth 5 } ∧
    writes .mcfg { r with mcfg := v.setWidth 32 &&& 0x7777 } ∧
    writes .xcfg { r with xcfg := v.setWidth 32 } ∧
    writes .evcode { r with evcode := v.setWidth 8 } ∧
    writes .evaddr { r with evaddr := v } ∧
    writes .epc0 { r with epc0 := v &&& ~~~1 } ∧
    writes .epc1 { r with epc1 := v &&& ~~~1 } ∧
    writes .epc2 { r with epc2 := v &&& ~~~1 } ∧
    writes .eann { r with eann := v.setWidth 3 } ∧
    guarded .wsp { r with wsp := v } ∧
    guarded .wlim { r with wlim := v } ∧
    guarded .status { r with rept := v.extractLsb' 27 11, repc := v.extractLsb' 16 11, ue := v.getLsbD 5, ppl := v.getLsbD 1 } ∧
    guarded .uentry { r with uentry := v } ∧
    guarded .svec { r with svec := v } ∧
    guarded .sarea { r with sarea := v } ∧
    guarded .sscratch { r with sscratch := v } ∧
    readOnly .cid ∧ readOnly .tid ∧ readOnly .gid ∧ readOnly .did ∧ readOnly .mid ∧ readOnly .lid ∧ readOnly .cyc ∧ readOnly .qtier ∧
    readOnly .cmdst ∧ readOnly .spbase ∧ readOnly .splim ∧ readOnly .scbase ∧ readOnly .sclim ∧ readOnly .wdlim)

/-- R271, R272, R328 to R330: `ctxsv` of a thread with one resident window writes its area and its context extension and nothing else;
`ctxld` loads both; `wflush` writes the windows below the current one to the register stack, one a turn, and waits for the thread's earlier
accesses where the stack lies on an SO page (R116). R328 to R330: loading what a
thread without bound registers has saved gives back its registers, its special registers, its tensor table and its counts; one window is
resident. Where the `xarea` word to be read has an uncorrectable error, `ctxsv` raises MCHECK (R327). That `ctxsv` writes `wsp` and `wlim` into
the header, that digit 1 of a variate stands in bit 63 of its cache, and that a request which reached the latch since the save stays, is the
model's reading (log 14). -/
def Obligations.ContextsMove : Prop :=
  (∀ (s : State) (a : Reg) (pa xpa : Nat) (w : Vector Word 16) (pas : List Nat), Canonical s → Supervisor s →
    let area := if a = 0 then s.th.sr.sarea else s.reg a
    let xarea (u : State) : Word := wordOf (physBytes u (pa + 16) 8) &&& 0xFFFFFFFFFFFFF800
    let tenant := s.th.id.tenant
    let opened (u : State) (pas : List Nat) : State := reachRead (areaTouched u area (xarea u)) (coreSender u false (requesterOf tenant 0)) pas
    let stored (u : State) (at_ : Nat) (bs : List Byte) : State := storePhys u (requesterOf tenant 0) at_ bs
    let saves : State :=
      stored (stored (opened s (runFrom (pa + 16) 8)) pa (wordsBytes (areaWord s (xarea s)) 0 128)) xpa (wordsBytes (extWord s) 0 256)
    let flushed (t : State) (olds : List (Vector Word 16)) : Prop :=
      OutsideKept (storeRun (fillRun s tenant s.th.sr.wsp 128) (requesterAt s tenant s.th.sr.wsp) pas (windowBytes w)) t ∧
      t.th.rf = { s.th.rf with olds := olds, spillFails := false } ∧ t.th.sr = { s.th.sr with wsp := s.th.sr.wsp + 128 }
    RegsStop (.ctxsv a) s [a] [] ∧ RegsStop (.ctxld a) s [a] [] ∧
    (Ready s [a] [] → s.th.rf.olds = [] → atomicsOutstanding s = false →
      areaAddr s .write area 1024 = .ok pa →
      (anyBad s (pa + 16) 8 = false → areaAddr s .write (xarea s) 2048 = .ok xpa → Completes (.ctxsv a) s fun t =>
        t.th.rf = s.th.rf ∧ Ran (s.withTh { s.th with lat := { s.th.lat with
          signal := s.th.lat.signal.saved, mcheck := s.th.lat.mcheck.saved, dbg := s.th.lat.dbg.saved
          saved := s.th.lat.saved || decide (area = s.th.sr.sarea), late := if area = s.th.sr.sarea then 0 else s.th.lat.late } })
          (takeMsgs saves [a]) t [a] (.inFlight .context)) ∧
      (anyBad s (pa + 16) 8 = true → NotHandling s → RaisesSuper (.ctxsv a) s 0x10 area)) ∧
    (Ready s [a] [] →
      let u := takeMsgs s [a]
      areaAddr u .read area 1024 = .ok pa → areaAddr u .read (xarea u) 2048 = .ok xpa → Completes (.ctxld a) s fun t =>
        let ext := physBytes u xpa 2048
        let v := opened u (runFrom pa 1024 ++ runFrom xpa 2048)
        let l := loadContext (inFlightOf v v.th.id.lid v.th.id.unit) v.th (physBytes v pa 1024) ext
        t.th.rf = l.rf ∧ t.th.sr = l.sr ∧ t.th.ch.binds = l.ch.binds ∧ t.th.eng = l.eng ∧ t.th.gang = l.gang ∧
        OutsideKept (v.withCore { v.core with
          permits := (v.core.permits.filter fun p => !decide (p.slot = s.here.slot)) ++ extPermits s.here.slot ext }) t ∧
        Advanced s t ∧ t.th.rot = .inFlight .context) ∧
    (Ready s [a] [] → area.toNat % 1024 ≠ 0 → NotHandling s → atomicsOutstanding s = false →
      RaisesSuper (.ctxsv a) s 0x03 area ∧ RaisesSuper (.ctxld a) s 0x03 area) ∧
    (s.th.rf.olds = [] → Completes .wflush s fun t => t.th.rf = s.th.rf ∧ Retired s t [] .ready) ∧
    (∀ olds, s.th.rf.olds = olds ++ [w] → s.th.sr.wsp.toNat + 128 ≤ s.th.sr.wlim.toNat →
      physRun s tenant true .write s.th.sr.wsp none 128 = .ok pas → runPartlyBad s pas = false →
      (spillHeld s s.here = true → Waits .wflush s .release) ∧
      (spillHeld s s.here = false →
        (olds = [] → Completes .wflush s fun t => flushed t [] ∧ Advanced s t ∧
          t.th.rot = if spillWalks s then .inFlight .walk else .ready) ∧
        (olds ≠ [] → Completes .wflush s fun t => flushed t olds ∧ t.th.pcq = s.th.pcq ∧ t.th.rot = .waiting .flush))) ∧
    (s.th.rf.olds ≠ [] → s.th.sr.wlim.toNat < s.th.sr.wsp.toNat + 128 → NotHandling s → RaisesSuper .wflush s 0x08 s.th.sr.wsp)) ∧
  (∀ (s : State) (x : Word) (flight : EngClass → Nat) (t : Thread),
    let old := s.th
    let l := loadContext flight t (wordsBytes (areaWord s x) 0 128) (wordsBytes (extWord s) 0 256)
    let fresh (l : Latch) : Bool := l.pending && !l.kept
    old.ch.binds = [] → old.rf.depth < 2 ^ 32 → old.ch.pkt < 64 → old.id.wdcount < 2 ^ 32 →
    (∀ r, rawReg l.rf r = rawReg old.rf r) ∧ (∀ c, condReg l.rf c = condReg old.rf c) ∧ l.rf.p = old.rf.p ∧
    (∀ z : ZReg, let u := old.rf.z[z.val]
      (u.n = 0 ∨ u.n = 32 ∨ u.n = 64) → (u.n = 0 → u.cache = 0) → l.rf.z[z.val] = u) ∧
    l.rf.depth = old.rf.depth ∧ l.rf.olds = [] ∧ l.sr.vl = old.sr.vl ∧ l.sr.flags = old.sr.flags ∧
    l.sr.mcfg = old.sr.mcfg &&& 0x7777 ∧ l.sr.xcfg = old.sr.xcfg ∧ l.sr.cmdst = old.sr.cmdst ∧ l.sr.wsp = old.sr.wsp ∧
    l.sr.wlim = old.sr.wlim ∧ l.sr.rept = old.sr.rept ∧ l.sr.repc = old.sr.repc ∧ l.sr.ue = old.sr.ue ∧ l.sr.se = old.sr.se ∧
    l.sr.ppl = old.sr.ppl ∧ l.sr.pl = old.sr.pl ∧ l.sr.evcode = old.sr.evcode ∧ l.sr.evaddr = old.sr.evaddr ∧
    l.sr.eann = old.sr.eann ∧ (old.sr.epc0.getLsbD 0 = false → l.sr.epc0 = old.sr.epc0) ∧
    (old.sr.epc1.getLsbD 0 = false → l.sr.epc1 = old.sr.epc1) ∧ (old.sr.epc2.getLsbD 0 = false → l.sr.epc2 = old.sr.epc2) ∧
    l.ch.pkt = old.ch.pkt ∧ l.ch.binds = [] ∧ l.id.wdcount = old.id.wdcount ∧
    ((∀ g, old.eng.gather = some g → g.pa < 16) → l.eng.gather = old.eng.gather) ∧
    (∀ k, k < 64 → sparseGet {} l.eng.tens k =
      let e := sparseGet {} old.eng.tens k
      { e with w2 := e.w2 &&& ~~~0xFFE }) ∧
    (fresh t.lat.signal = false → l.lat.signal.pending = old.lat.signal.pending ∧ l.lat.sigv = old.lat.sigv) ∧
    (fresh t.lat.mcheck = false → l.lat.mcheck.pending = old.lat.mcheck.pending ∧ l.lat.mcka = old.lat.mcka) ∧
    (fresh t.lat.dbg = false → l.lat.dbg.pending = old.lat.dbg.pending) ∧
    (fresh t.lat.signal = true → l.lat.signal = t.lat.signal ∧ l.lat.sigv = t.lat.sigv) ∧
    (fresh t.lat.mcheck = true → l.lat.mcheck = t.lat.mcheck ∧ l.lat.mcka = t.lat.mcka) ∧
    (fresh t.lat.dbg = true → l.lat.dbg = t.lat.dbg))

/-- R159, R269, R270: at supervisor level `tlbinv` drops the cached translations it names and waits for the commands that hold one, and
`icinv` takes its time; at user level every privileged instruction raises PRIV. R273, R274, R322: `sig` delivers a signal to the latch of
a thread of its tenant, and waits while that is full; `idle` completes when a request is eligible and waits otherwise, and in a stopping
handler that has saved to `sarea` it vacates the slot, once the thread's remote atomics are performed (R126); the requests, senders and permits
that have changed since the save then join the area. -/
def Obligations.PrivilegedInstructionsCheckLevel : Prop :=
  (∀ (s : State) (a b : Reg), Canonical s →
    let e0 := s.th.pcq.e0.addr
    let v := s.reg a
    let page (base size : Nat) : Prop := base ≤ v.toNat % 2 ^ 52 ∧ v.toNat % 2 ^ 52 < base + size
    let invalidates (i : Instr) (srcs : List Reg) (hit : TlbEntry → Bool) (holds : Cmd → Prop) : Prop :=
      let dropped (t : State) : Prop := t.th.rf = s.th.rf ∧ (∀ e, e ∈ t.sys.tlb ↔ e ∈ s.sys.tlb ∧ hit e = false) ∧
        ∀ n e, e ∈ (t.coreBy n).tlb ↔ e ∈ (s.coreBy n).tlb ∧ hit e = false
      let held (t : State) (acked : Bool) (ks : List _) : Prop := dropped t ∧ t.th.rot = .waiting (.tlb acked ks) ∧
        t.th.pcq = s.th.pcq ∧ t.th.sr = s.th.sr ∧ OutsideKept (dropTlb s hit) t
      ((∀ acked ks, s.th.rot ≠ .waiting (.tlb acked ks)) → Completes i s fun t => ∃ ks, held t false ks ∧
        ∀ c ∈ allCommands s, holds c → cmdKey c ∈ ks) ∧
      (∀ ks, s.th.rot = .waiting (.tlb true ks) → (∀ c ∈ allCommands s, cmdKey c ∉ ks) → Completes i s fun t =>
        dropped t ∧ Ran s (takeMsgs (dropTlb s hit) srcs) t srcs .ready) ∧
      (∀ acked ks, s.th.rot = .waiting (.tlb acked ks) → (acked = false ∨ ∃ c ∈ allCommands s, cmdKey c ∈ ks) →
        Completes i s fun t => ∃ ks', held t acked ks' ∧ ∀ c ∈ allCommands s, cmdKey c ∈ ks → cmdKey c ∈ ks')
    (UserLevel s →
      RaisesSuper (.tlbinvPage a) s 0x02 e0 ∧ RaisesSuper (.tlbinvTenant a) s 0x02 e0 ∧ RaisesSuper .tlbinvAll s 0x02 e0 ∧
      RaisesSuper .icinv s 0x02 e0 ∧ RaisesSuper (.ctxsv a) s 0x02 e0 ∧ RaisesSuper (.ctxld a) s 0x02 e0 ∧
      RaisesSuper .wflush s 0x02 e0 ∧ RaisesSuper (.sig a b) s 0x02 e0 ∧ RaisesSuper .idle s 0x02 e0) ∧
    (Supervisor s →
      (Completes .icinv s fun t => t.th.rf = s.th.rf ∧ Ran s (s.withCore { s.core with icache := [] }) t [] (.inFlight .icinv)) ∧
      invalidates .tlbinvAll [] (fun _ => true) (fun c => c.pages ≠ []) ∧
      (Ready s [a] [] → v.toNat < 16 → invalidates (.tlbinvTenant a) [a] (fun e => decide (e.tenant.toNat = v.toNat))
        fun c => c.tenant.toNat = v.toNat ∧ c.pages ≠ []) ∧
      (Ready s [a] [] → invalidates (.tlbinvPage a) [a]
        (fun e => decide (e.tenant = s.th.id.tenant ∧ e.va ≤ v.toNat % 2 ^ 52 ∧ v.toNat % 2 ^ 52 < e.va + e.size))
        fun c => c.tenant = s.th.id.tenant ∧ ∃ p ∈ c.pages, page p.2.base p.2.size) ∧
      (Ready s [a] [] → 16 ≤ v.toNat → NotHandling s → RaisesSuper (.tlbinvTenant a) s 0x0B 0))) ∧
  (∀ (s : State) (a b : Reg), Canonical s → Supervisor s →
    let v := s.reg a
    let q := placeOfDesc v
    (Ready s [a, b] [] → descOk v 0 0 = true → descInTenant s v = true → (s.thr q).bound = true → (s.slot q).state ≠ 1 →
      (pathInside s s.th.id.tenant s.hereCore (coreNum (placeCore q)) = false → NotHandling s → RaisesSuper (.sig a b) s 0x0F v) ∧
      (pathInside s s.th.id.tenant s.hereCore (coreNum (placeCore q)) = true → (s.thr q).lat.signal.pending = false →
        Completes (.sig a b) s fun t =>
        (t.thr q).lat = { (s.thr q).lat with
          signal := { pending := true }, sigv := s.reg b, watchdog := (t.thr q).lat.watchdog } ∧
        (∀ p, p ≠ q → p ≠ s.here → t.thr p = s.thr p) ∧ t.th.rf = s.th.rf ∧ t.th.sr = s.th.sr ∧ Advanced s t ∧ t.th.rot = .ready ∧
        t.mem = (takeMsgs s [a, b]).mem ∧ t.sys = (takeMsgs s [a, b]).sys) ∧
      (pathInside s s.th.id.tenant s.hereCore (coreNum (placeCore q)) = true → (s.thr q).lat.signal.pending = true → Waits (.sig a b) s .signalLatch)) ∧
    (Ready s [a, b] [] → NotHandling s →
      (descOk v 0 0 = false → RaisesSuper (.sig a b) s 0x0B 0) ∧
      (descOk v 0 0 = true → descInTenant s v = false → RaisesSuper (.sig a b) s 0x0F v) ∧
      (descOk v 0 0 = true → descInTenant s v = true → ((s.thr q).bound = false ∨ (s.slot q).state = 1) →
        RaisesSuper (.sig a b) s 0x0B 0)) ∧
    ((s.th.sr.se && s.th.lat.stopping && s.th.lat.saved) = false → (s.th.lat.coop = false ∨ s.th.sr.se = true) →
      (anyEligible s.th.lat = true → Completes .idle s fun t => t.th.rf = s.th.rf ∧ Retired s t [] .ready) ∧
      (anyEligible s.th.lat = false → Waits .idle s .idle)) ∧
    ((s.th.sr.se && s.th.lat.stopping && s.th.lat.saved) = true → s.th.lat.discard = true → sparseWf {} s.sys.work.slots = true →
      Completes .idle s fun t => t.th.bound = false ∧ t.slot s.here = { s.slot s.here with state := 0, why := 0x03 }) ∧
    ((s.th.sr.se && s.th.lat.stopping && s.th.lat.saved) = true → s.th.lat.discard = false → atomicsOutstanding s = true → Waits .idle s .release) ∧
    ((s.th.sr.se && s.th.lat.stopping && s.th.lat.saved) = true → s.th.lat.discard = false → atomicsOutstanding s = false →
      sparseWf {} s.sys.work.slots = true →
      Completes .idle s fun t => t.th = unbound s.th ∧ t.slot s.here = { s.slot s.here with state := 0, why := 0x02 } ∧
        (∀ p, p ≠ s.here → t.slot p = s.slot p) ∧
      (∃ u ∈ t.sys.work.saved, u.lid = s.th.id.lid ∧ u.unit = s.th.id.unit ∧ u.place = s.here ∧ u.sarea = s.th.sr.sarea) ∧
      (∀ p ∈ t.core.permits, p.slot ≠ s.here.slot) ∧ t.core.owners = s.core.owners ∧ t.core.tiles = s.core.tiles ∧
      t.mem = (latePermits (lateSenders (lateRequests (lateMessages s)))).mem ∧
      (s.th.lat.signal.pending = false → s.th.lat.mcheck.pending = false → s.th.lat.dbg.pending = false →
        t.mem = (latePermits (lateSenders (lateMessages s))).mem)))

/-! ### Steps of the hardware -/

/-- R21, R255, R293, R298: `end` waits for the unit's engine commands; then the unit counts as ended in its launch's record, and its slot
is empty with why 0x01. Grains still claimed and an open packet raise OPERAND. R13, R65, R180, R253, R269, R270: an operation in flight
completes, and its thread comes back into rotation with everything else as before; a completion that finds no such operation has no
effect. R80, R205: the vector unit runs the next group of a stream (stated of `vadd`). A load through the host aperture gets data from
outside, and MCHECK after a time-out (R341). R31 to R33, R297: a banked harvest
context that has waited longest is seated in a free primary slot; parking completes once the context's remote atomics are performed. R25:
a follower takes up the oldest forwarded instruction with the leader's queue. -/
def Obligations.UnitsEndAndThreadsReturn : Prop :=
  (∀ (s : State), Canonical s → CanonicalWork s →
    let lid := s.th.id.lid
    (claimHeld s = false → s.th.ch.pkt = 0 →
      (commandsOutstanding s.th.eng = false → Completes .endUnit s fun t => t.th = unbound s.th ∧
        t.slot s.here = { s.slot s.here with state := 0, why := 0x01 } ∧ (∀ p, p ≠ s.here → t.slot p = s.slot p) ∧
        (t.launch lid).record.ended = (s.launch lid).record.ended + 1 ∧
        ((∀ u ∈ (s.launch lid).stops, u = s.th.id.unit.toNat) → (t.launch lid).record.cancelled = (s.launch lid).record.cancelled) ∧ s.th.id.unit.toNat ∈ (t.launch lid).gone ∧
        claimOf t lid s.th.id.unit = none ∧
        (∀ o, o ∈ t.core.owners.toList → ∀ x, o = some x → ¬ (x.lid = lid ∧ x.unit = s.th.id.unit)) ∧
        (∀ k, k ≠ lid → t.launch k = s.launch k)) ∧
      (commandsOutstanding s.th.eng = true → Waits .endUnit s .commands)) ∧
    ((claimHeld s = true ∨ s.th.ch.pkt ≠ 0) → NotHandling s → RaisesSuper .endUnit s 0x0B 0)) ∧
  (∀ (s : State) (p : Place) (bus n : Nat) (va : Word), Canonical s →
    let rot := (s.thr p).rot
    let returns (i : Instr) (op : FlightOp) : Prop :=
      (rot = .inFlight op → ThreadBecomes i s p fun t => { t with rot := .ready }) ∧ (rot = .ready → NoEffect i s)
    returns (.memoryAccessPerformed p) .memory ∧ returns (.memoryAccessPerformed p) .context ∧
    returns (.divideComplete p) .divide ∧ returns (.digitBlock p) .digit ∧ returns (.vectorGroup p) .vector ∧
    returns (.scheduleService p) .schedule ∧ returns (.layerTablePerformed p) .layer ∧ returns (.permitInstalled p) .permit ∧
    returns (.icinvComplete p) .icinv ∧ returns (.memoryAccessPerformed p) .walk ∧
    (∀ acked ks, rot = .waiting (.tlb acked ks) → ThreadBecomes (.tlbAcknowledgement p) s p fun t =>
      { t with rot := .waiting (.tlb true ks) }) ∧
    (rot = .ready → NoEffect (.tlbAcknowledgement p) s) ∧
    (∀ (k : Nat) (acc : BitVec 5) (sat : Bool) (t : VType) (d a b : PReg), let i : Instr := .vaddInt sat t d a b
      rot = .waiting (.group k acc) → (s.thr p).held = some i →
        exec (.vectorGroup p) s = mapNext (fun u => (afterExec (s.focus p) i u).focus s.here) (exec i (s.focus p))) ∧
    (rot = .inFlight (.hostLoad bus va n) → Completes (.memoryAccessPerformed p) s fun t =>
      ∃ v, v < 256 ^ n ∧ t.thr p = { s.thr p with rot := .waiting (.got v) } ∧ OnlyThread { s with fresh := s.fresh + 1 } t p) ∧
    (rot = .inFlight (.hostLoad bus va n) → (s.thr p).sr.se = false → (s.thr p).sr.ue = false →
      Completes (.apertureReadTimeout p) s fun t => InSupervisor (s.thr p) (t.thr p) 0x10 va ∧ t.mem = s.mem ∧ t.sys = s.sys) ∧
    (rot = .ready → NoEffect (.apertureReadTimeout p) s)) ∧
  (∀ (s : State) (c : CoreId) (k : Fin 8) (p : Place) (f : Forward) (rest : List Forward), Canonical s →
    ((List.finRange 8).find? (fun j => slotFree s (coreNum c) j.val) = some k → longestBanked s (coreNum c) = some p →
      ThreadBecomes (.seat c) s p fun t => { t with id := { t.id with seat := some k } }) ∧
    ((∀ j : Fin 8, slotFree s (coreNum c) j.val = false) → NoEffect (.seat c) s) ∧
    ((s.thr p).id.parking = true → amosOutstanding s (s.thr p).id.lid (s.thr p).id.unit = false →
      ThreadBecomes (.parkingComplete p) s p fun t => { t with id := { t.id with parking := false } }) ∧
    (amosOutstanding s (s.thr p).id.lid (s.thr p).id.unit = true → NoEffect (.parkingComplete p) s) ∧
    ((s.thr p).gang.now = none → (s.thr p).gang.buf = f :: rest →
      (skipsForward (s.thr p) f = false → ThreadBecomes (.forwardedInstruction p) s p fun t =>
        { t with pcq := followerQueue t f, gang := { t.gang with buf := rest, now := some f } }) ∧
      (skipsForward (s.thr p) f = true → ThreadBecomes (.forwardedInstruction p) s p fun t =>
        { t with pcq := stepQueue f.queue none false, gang := { t.gang with buf := rest } })))

/-- R14 to R16, R196, R327: a spill writes the oldest resident window's registers at `wsp` and steps it by 128; a fill reads them back
from there. A spill that fails raises nothing and is not tried again in the background (R16); one to a stack on an SO page waits for the
thread's earlier accesses (R116). A call with four windows resident spills first; a fill that meets an uncorrectable error becomes an asynchronous machine
check. R336, R349: both go through the TLBs of the window's core and reach their homes. That a window stored over by the program comes back
with free contents, by the count of the windows spilled then, is the model's rule (logs 7, 14). -/
def Obligations.WindowsSpillAndFill : Prop :=
  ∀ (s : State) (p : Place) (w : Vector Word 16) (olds : List (Vector Word 16)) (pas : List Nat) (j : BitVec 25), Canonical s →
    let t := s.thr p
    let f := s.focus p
    let outside (u x : State) : Prop := u.mem = x.mem ∧ u.sys = x.sys ∧ (∀ n, u.coreBy n = x.coreBy n) ∧ u.here = s.here ∧ u.agenda = s.agenda
    let spilled (g u : State) (q : Place) (old : Thread) : Prop :=
      (u.thr q).rf = { old.rf with olds := olds, spillFails := false } ∧ (u.thr q).sr = { old.sr with wsp := old.sr.wsp + 128 } ∧
      outside u (storeRun (fillRun g old.id.tenant old.sr.wsp 128) (requesterAt g old.id.tenant old.sr.wsp) pas (windowBytes w))
    let roomy (g : State) (q : Thread) : Prop := q.rf.olds = olds ++ [w] ∧ q.sr.wsp.toNat + 128 ≤ q.sr.wlim.toNat ∧
      physRun g q.id.tenant q.sr.pl .write q.sr.wsp none 128 = .ok pas ∧ runPartlyBad g pas = false
    let below := t.sr.wsp - 128
    windowOfBytes (windowBytes w) = w ∧
    (roomy f t → 2 ≤ olds.length → t.id.parking = false → (8 ≤ p.slot.val → t.id.seat.isSome = true) → t.rf.spillFails = false →
      (spillHeld f p = false → Completes (.windowSpill p) s fun u =>
        spilled f u p t ∧ (u.thr p).pcq = t.pcq ∧ (u.thr p).rot = t.rot ∧ ∀ q, q ≠ p → u.thr q = s.thr q) ∧
      (spillHeld f p = true → NoEffect (.windowSpill p) s)) ∧
    ((t.rf.olds.length < 3 ∨ t.rf.spillFails = true) → NoEffect (.windowSpill p) s) ∧
    (3 ≤ t.rf.olds.length → t.id.parking = false → (8 ≤ p.slot.val → t.id.seat.isSome = true) → t.sr.wlim.toNat < t.sr.wsp.toNat + 128 →
      ThreadBecomes (.windowSpill p) s p fun t => { t with rf := { t.rf with spillFails := true } }) ∧
    (roomy s s.th → 2 ≤ olds.length → spillHeld s s.here = false → Completes (.call j) s fun u =>
      spilled s u s.here s.th ∧ u.th.pcq = s.th.pcq ∧ u.th.rot = .waiting .window) ∧
    (t.rot = .waiting .window → t.rf.olds = [] → 1 < t.rf.depth → t.lat.mcheck.pending = false →
      physRun f t.id.tenant t.sr.pl .read below none 128 = .ok pas →
      let stored := sparseGet 0 s.sys.work.overlaid (unitKey t.id.lid t.id.unit)
      (runBad s pas = false → stored < spilledWindows t → Completes (.windowFill p) s fun u =>
        u.thr p = { t with rf := { t.rf with olds := [windowOfBytes (pas.map (physByte s))], spillFails := false }, sr := { t.sr with wsp := below } } ∧
        (∀ q, q ≠ p → u.thr q = s.thr q) ∧
        outside u (reachRead (fillRun f t.id.tenant below 128) (coreSender f false (requesterAt f t.id.tenant below)) pas)) ∧
      (runBad s pas = false → spilledWindows t ≤ stored → Completes (.windowFill p) s fun u => (∃ v,
        u.thr p = { t with rf := { t.rf with olds := [v], spillFails := false }, sr := { t.sr with wsp := below } }) ∧ u.mem = s.mem ∧
        ∀ q, q ≠ p → u.thr q = s.thr q) ∧
      (runBad s pas = true → Completes (.windowFill p) s fun u => u.thr p = { t with
        lat := { t.lat with mcheck := { t.lat.mcheck with pending := true, kept := false }, mcka := below } } ∧ OnlyThread (metError s p.did.val) u p)) ∧
    (t.lat.mcheck.pending = true → NoEffect (.windowFill p) s)

/-- R320: a sample makes what is pending eligible. R39, R273, R316, R320, R326, R327: an eligible request that may be taken enters the
supervisor's handler with its code and address, and its latch is empty; a request that arrives is pending; a deferred WATCHDOG is taken
with the limit, and its count begins again. -/
def Obligations.RequestsAreTaken : Prop :=
  ∀ (s : State) (p : Place) (a : Word), Canonical s →
    let t := s.thr p
    let taken (i : Instr) (code : BitVec 8) (addr : Word) (lat : Latches → Latches) : Prop := Completes i s fun u =>
      InSupervisor t (u.thr p) code addr ∧ (u.thr p).id.wdcount = (if code = 0x0E then 0 else t.id.wdcount) ∧
      (u.thr p).lat = { lat t.lat with stopping := decide (code = 0x40 ∨ code = 0x41), saved := false, late := 0 } ∧
      u.mem = s.mem ∧ u.sys = s.sys ∧ u.core = s.core
    let sampled (l : Latch) : Latch := { l with eligible := l.eligible || l.pending }
    let discarded (i : Instr) : Prop := Completes i s fun u => (u.thr p).bound = false ∧ (u.slot p).state = 0 ∧ (u.slot p).why = 0x03
    (asyncAllowed t = true →
      (t.lat.discard = false → t.lat.preempt.eligible = true → t.ch.pkt = 0 →
        taken (.preempt p) 0x40 0 fun l => { l with preempt := {} }) ∧
      (t.lat.discard = false → t.lat.revoke.eligible = true → t.ch.pkt = 0 →
        taken (.revoke p) 0x41 0 fun l => { l with revoke := {} }) ∧
      (sparseWf {} s.sys.work.slots = true → t.lat.discard = true → t.ch.pkt = 0 →
        (t.lat.preempt.eligible = true → discarded (.preempt p)) ∧ (t.lat.revoke.eligible = true → discarded (.revoke p))) ∧
      (t.lat.signal.eligible = true → taken (.signal p) 0x42 t.lat.sigv fun l => { l with signal := {} }) ∧
      (t.lat.dbg.eligible = true → taken (.debugRequest p false) 0x43 0 fun l => { l with dbg := {} }) ∧
      (t.lat.mcheck.eligible = true → taken (.asyncMcheck p none) 0x44 t.lat.mcka fun l => { l with mcheck := {} })) ∧
    (asyncAllowed t = false → NoEffect (.preempt p) s ∧ NoEffect (.revoke p) s ∧ NoEffect (.signal p) s ∧
      NoEffect (.debugRequest p false) s ∧ NoEffect (.asyncMcheck p none) s) ∧
    (t.ch.pkt ≠ 0 → NoEffect (.preempt p) s ∧ NoEffect (.revoke p) s) ∧
    ((t.sr.se = true ∨ t.sr.ue = true) → asyncAllowed t = false) ∧
    (t.bound = true →
      (ThreadBecomes (.debugRequest p true) s p fun t => { t with lat := { t.lat with dbg := { t.lat.dbg with pending := true, kept := false } } }) ∧
      (ThreadBecomes (.asyncMcheck p (some a)) s p fun t =>
        { t with lat := { t.lat with mcheck := { t.lat.mcheck with pending := true, kept := false }, mcka := a } })) ∧
    (t.bound = true → t.lat.watchdog = true → t.sr.se = false → t.sr.ue = false →
      taken (.watchdog p) 0x0E (zx t.sr.wdlim) fun l => { l with watchdog := false }) ∧
    (t.lat.watchdog = false → NoEffect (.watchdog p) s) ∧
    (ThreadBecomes (.latchSample p) s p fun t => { t with lat := { t.lat with
      preempt := sampled t.lat.preempt, revoke := sampled t.lat.revoke, signal := sampled t.lat.signal
      dbg := sampled t.lat.dbg, mcheck := sampled t.lat.mcheck } })

/-- R325: a probe of a thread that has waited 65,536 turns and finds its way back raises WAITCYCLE in every thread on its way, each with
the descriptor of the next, and the cycle is logged; without a cycle, or before that, nothing happens. R319, R294, R303: an event in a
handler stops the unit with discard: its slot is empty with why 0x03, its launch counts it as cancelled, and code and address are logged.
R331, R336, R372: a walk that finds a leaf caches it for the core and the die in focus; one that fails caches nothing; either wakes the
core. -/
def Obligations.ProbesDoubleEventsAndWalks : Prop :=
  (∀ (s : State) (p q : Place) (g h : Reg) (b c : Binding), Canonical s → p ≠ q →
    let mid := s.sys.host.mid
    let calm (x : Place) : Prop := (s.thr x).bound = true ∧ (s.thr x).sr.se = false ∧ (s.thr x).sr.ue = false
    (s.thr p).rot = .waiting (.boundReg g) → bindingOf (s.thr p) g = some b → b.sender = q → calm p →
      (65536 ≤ (s.thr p).ch.waitTurns →
        (calm q → (s.thr q).rot = .waiting (.boundReg h) → bindingOf (s.thr q) h = some c → c.sender = p →
          Completes (.probe p) s fun t =>
            InSupervisor (s.thr p) (t.thr p) 0x0D (descriptor mid q 0) ∧ InSupervisor (s.thr q) (t.thr q) 0x0D (descriptor mid p 0) ∧
            .waitCycle [descriptor mid p 0, descriptor mid q 0] ∈ t.sys.host.errlog ∧ t.mem = s.mem) ∧
        (calm q → (s.thr q).rot = .waiting (.credit p h.val) → Completes (.probe p) s fun t =>
            InSupervisor (s.thr p) (t.thr p) 0x0D (descriptor mid q 0) ∧ InSupervisor (s.thr q) (t.thr q) 0x0D (descriptor mid p 0)) ∧
        (waitEdge (s.thr q) = none → NoEffect (.probe p) s)) ∧
      ((s.thr p).ch.waitTurns < 65536 → NoEffect (.probe p) s)) ∧
  (∀ (s : State) (p : Place) (ps : List Place), Canonical s → ps.Nodup → ps.head? = some p →
    let mid := s.sys.host.mid
    let next (k : Nat) : Place := ps.getD ((k + 1) % ps.length) p
    let waits (x y : Place) : Prop :=
      (∃ g b, (s.thr x).rot = .waiting (.boundReg g) ∧ bindingOf (s.thr x) g = some b ∧ b.sender = y) ∨
      ∃ g, (s.thr x).rot = .waiting (.credit y g)
    (∀ k (h : k < ps.length),
      (s.thr ps[k]).bound = true ∧ (s.thr ps[k]).sr.se = false ∧ (s.thr ps[k]).sr.ue = false ∧ waits ps[k] (next k)) →
    65536 ≤ (s.thr p).ch.waitTurns → Completes (.probe p) s fun t =>
      (∀ k (h : k < ps.length), InSupervisor (s.thr ps[k]) (t.thr ps[k]) 0x0D (descriptor mid (next k) 0)) ∧
      .waitCycle (ps.map fun x => descriptor mid x 0) ∈ t.sys.host.errlog ∧ t.mem = s.mem) ∧
  (∀ (s : State) (p : Place) (code : BitVec 8) (addr : Word), Canonical s → CanonicalWork s →
    let old := s.thr p
    (old.sr.se = true ∨ old.sr.ue = true) →
    let t := takeEvent s p code addr
    let l := s.launch old.id.lid
    let l' := t.launch old.id.lid
    t.thr p = unbound old ∧ t.slot p = { s.slot p with state := 0, why := 0x03 } ∧
    claimOf t old.id.lid old.id.unit = none ∧ .doubleEvent p code addr ∈ t.sys.host.errlog ∧
    (l.stops = [] → placeOfUnit s old.id.lid old.id.unit = some p →
      (∀ q, q ≠ p → ¬ ((s.thr q).bound = true ∧ (s.thr q).id.lid = old.id.lid ∧ (s.thr q).id.unit = old.id.unit)) →
      ((∀ c ∈ allCommands s, ¬ (c.lid = old.id.lid ∧ c.unit = old.id.unit)) →
        l'.record.cancelled = l.record.cancelled + 1 ∧ l'.record.ended = l.record.ended ∧ old.id.unit.toNat ∈ l'.gone) ∧
      ((∃ c ∈ allCommands s, c.lid = old.id.lid ∧ c.unit = old.id.unit) →
        l'.record.cancelled = l.record.cancelled ∧ l'.stops = [old.id.unit.toNat]))) ∧
  (∀ (s : State) (tn : Fin 16) (va : Word) (base size : Nat) (e : Word), Canonical s →
    let tenant := BitVec.ofNat 4 tn.val
    let die := s.here.did.val
    let x := wakeCore s s.hereCore
    let uncached : Prop := (∀ y ∈ s.sys.tlb, y.die = die → y.covers tenant va = false) ∧ ∀ y ∈ s.core.tlb, y.covers tenant va = false
    (canonical va = true → va.toNat < 0xFFFFFFFFFFF00000 → uncached → walkRoot s tenant va = .leaf base size e →
      Completes (.pageWalk tn va) s fun t =>
        ⟨die, tenant, base, size, e⟩ ∈ t.sys.tlb ∧ ⟨die, tenant, base, size, e⟩ ∈ t.core.tlb ∧ findLeaf t tenant va = .leaf base size e ∧
        t.th = s.th ∧ t.others = s.others ∧ t.mem = s.mem ∧ t.cores = s.cores ∧ t.sys = { x.sys with
          tlb := t.sys.tlb, ports := t.sys.ports, host := { x.sys.host with reads := t.sys.host.reads }, power := { x.sys.power with d1 := t.sys.power.d1, refresh := t.sys.power.refresh } } ∧
        t.core = { s.core with tlb := t.core.tlb }) ∧
    (canonical va = true → uncached → (walkRoot s tenant va = .fail ∨ walkRoot s tenant va = .bad) →
      exec (.pageWalk tn va) s = .next x) ∧
    ((canonical va = false ∨ 0xFFFFFFFFFFF00000 ≤ va.toNat) → exec (.pageWalk tn va) s = .next x) ∧
    s.hereCore ∉ x.sys.power.c1 ∧ s.hereCore ∉ x.sys.power.c2 ∧ s.hereCore / 16 ∉ x.sys.power.g2 ∧ die ∉ x.sys.power.d1)

/-- R53, R76, R77, R79, R89, R239: the first command of a class reads its sources, delivers its output granule by granule, in which full
granules take the place of empty ones, and retires: its unit's count goes up, its flags join the unit's, and an error stands in the inbox.
`cpym`'s product follows its last delivery. R266: what a reclaim has still to clear is neither read nor delivered to. -/
def Obligations.EngineCommandsAdvance : Prop :=
  ∀ (s : State) (core : CoreId) (k : EngClass) (pre post : List Cmd) (x : Cmd), Canonical s →
    let n := coreNum core
    let c := s.coreBy n
    splitCmds k c.cmds = some (pre, x, post) →
    (∀ a bytes rest, x.out = some (⟨.spad a, bytes⟩ :: rest) → heldEarlier pre (a / 16) = false → beingCleared c (a / 16) = false →
      (∀ q ∈ s.placesOn n, ∀ fe y m, (s.thr q).rot ≠ .waiting (.granule (a / 16) fe y m)) →
      Completes (.engineDelivery core k) s fun t =>
        CoreStored s t n a bytes ∧ (∀ g, g ∈ (t.coreBy n).empties ↔ g ∈ c.empties ∧ g ≠ a / 16) ∧
        (t.coreBy n).cmds = pre ++
          { x with out := some rest, delivered := x.delivered + 1, dst := x.dst.filter (· ≠ a / 16) } :: post ∧
        OnlyCore s t n) ∧
    (∀ a bytes rest, x.out = some (⟨.spad a, bytes⟩ :: rest) → (heldEarlier pre (a / 16) = true ∨ beingCleared c (a / 16) = true) →
      NoEffect (.engineDelivery core k) s) ∧
    (x.out = none → (atomicsBefore s x = true ∨ clearingMeets c x.src = true) → NoEffect (.engineDelivery core k) s) ∧
    (x.out = none → x.cls ≠ .coll → atomicsBefore s x = false → clearingMeets c x.src = false → Completes (.engineDelivery core k) s fun t =>
      t.mem = s.mem ∧ t.sys = { s.sys with
        tele := t.sys.tele, ports := t.sys.ports, host := { s.sys.host with reads := t.sys.host.reads }, power := { s.sys.power with d1 := t.sys.power.d1, refresh := t.sys.power.refresh } } ∧
      (∀ q, t.thr q = s.thr q) ∧ (t.coreBy n).spad = c.spad ∧ (t.coreBy n).empties = c.empties ∧
      ∃ y, y.out.isSome = true ∧ (t.coreBy n).cmds = pre ++ y :: post) ∧
    ((s.launch x.lid).stops = [] → (s.launch x.lid).cancelling = false → cmdDone s x = true → x.status = 0 → ∀ p, placeOfUnit s x.lid x.unit = some p →
      (∀ free tk da m, x.op ≠ .mmst free tk da m) → Completes (.commandRetire core k .ok) s fun t =>
        (t.coreBy n) = { c with cmds := pre ++ post } ∧
        (t.thr p).eng.seqs x.cls = { (s.thr p).eng.seqs x.cls with retired := ((s.thr p).eng.seqs x.cls).retired + 1 } ∧
        (t.thr p).sr = { (s.thr p).sr with flags := (s.thr p).sr.flags ||| x.flags } ∧ (t.thr p).rf = (s.thr p).rf ∧
        (∀ q, q ≠ p → t.thr q = s.thr q) ∧ t.mem = s.mem ∧ t.sys = s.sys) ∧
    (cmdDone s x = true → x.status ≠ 0 → ∀ p, placeOfUnit s x.lid x.unit = some p → Completes (.commandRetire core k .ok) s fun t =>
      (t.coreBy n).cmds = pre ++ post ∧ ⟨x.lid, x.unit, x.cls, x.seq, x.status, x.delivered, 0⟩ ∈ t.sys.work.inbox) ∧
    (cmdDone s x = false → NoEffect (.commandRetire core k .ok) s) ∧
    (∀ tk m da db g, k = .matrix → x.op = .cpym tk m da db → x.out = some [] → x.gather = some g → x.done = false →
      clearingMeets c (x.src ++ rangesOf (tensOf x.da)) = false →
      (x.status ≠ 0 → Completes (.cpymProduct core) s fun t =>
        (t.coreBy n) = { c with cmds := pre ++ { x with done := true, src := [] } :: post } ∧ OnlyCore s t n) ∧
      (x.status = 0 → Completes (.cpymProduct core) s fun t =>
        ∃ y, y.done = true ∧ (t.coreBy n).cmds = pre ++ y :: post ∧ (t.coreBy n).spad = c.spad ∧
          OnlyCore (if y.status = 1 then metError s x.place.did.val else s) t n))

/-! ### Messages and atomics on their way -/

/-- R72, R254, R258, R305, R312, R372: a message fills the empty register it is for, or waits; a router that does not pass it drops it and
the unit that sent it will take TENANT, wherever that unit is bound or saved. An atomic wakes the core of its bank and is performed there
once its launch has a window there, is discarded once its launch has ended, and an uncorrectable error there is reported. -/
def Obligations.TrafficArrives : Prop :=
  ∀ (s : State) (k : Nat) (m : Msg) (ms : List Msg) (a : Amo) (as : List Amo), Canonical s →
    let w := s.sys.work
    let receives (t : Thread) : Thread := { t with ch := { t.ch with
      binds := t.ch.binds.map fun b => if b.reg.val = m.reg then { b with full := true, held := m.val } else b } }
    let d := descriptor s.sys.host.mid m.dst m.reg
    let sender := placeOfUnit s m.lid m.unit
    let told (u : Saved) : Saved := if u.lid = m.lid ∧ u.unit = m.unit then { u with drop := some d } else u
    let dropped (t : State) : Prop := t.mem = s.mem ∧ t.core = s.core ∧
      (∀ p, t.thr p = if sender = some p then { s.thr p with lat := { (s.thr p).lat with drop := some d } } else s.thr p) ∧
      t.sys.work = { w with msgs := ms, saved := if sender.isSome then w.saved else w.saved.map told }
    let old := ofBytes (bytesAt (s.coreBy a.core).spad a.addr (amoBytes a.word))
    let new := amoResult a.op (amoBytes a.word) old (a.val.toNat % 2 ^ (8 * amoBytes a.word))
    (takeNth w.msgs k = some (m, ms) →
      (messagePasses s m = true → messageFits s m = true → Completes (.messageArrival k) s fun t =>
        t.thr m.dst = receives (s.thr m.dst) ∧ OnlyThread (s.withWork { w with msgs := ms }) t m.dst) ∧
      (messagePasses s m = true → messageFits s m = false → NoEffect (.messageArrival k) s) ∧
      (messagePasses s m = false → Completes (.messageArrival k) s dropped ∧ Completes (.tenantDrop k) s dropped) ∧
      (messagePasses s m = true → NoEffect (.tenantDrop k) s)) ∧
    (takeNth w.msgs k = none → NoEffect (.messageArrival k) s ∧ NoEffect (.tenantDrop k) s) ∧
    (takeNth w.amos k = some (a, as) → pathInside s a.tenant (coreNum (placeCore a.src)) a.core = true →
      (launchLive s a.lid = false → exec (.remoteAtomicArrival k false) s = .next (s.withWork { w with amos := as })) ∧
      (launchLive s a.lid = true → windowGranted (s.coreBy a.core) a.lid = false → NoEffect (.remoteAtomicArrival k false) s) ∧
      (launchLive s a.lid = true → windowGranted (s.coreBy a.core) a.lid = true →
        spadStalls (s.coreBy a.core) a.addr (amoBytes a.word) true = false →
        (spadBad (s.coreBy a.core) a.addr (amoBytes a.word) = false → Completes (.remoteAtomicArrival k false) s fun t =>
          CoreStored s t a.core a.addr (toBytes (amoBytes a.word) new) ∧
          t.coreBy a.core = { s.coreBy a.core with spad := (t.coreBy a.core).spad, found := foundBut (s.coreBy a.core) a.addr (amoBytes a.word) } ∧
          OnlyCore (wakeCore (s.withWork { w with amos := as }) a.core) t a.core) ∧
        ((s.thr a.src).bound = true → (s.thr a.src).id.lid = a.lid → (s.thr a.src).id.unit = a.unit →
          Completes (.remoteAtomicArrival k true) s fun t =>
            (t.thr a.src).lat = { (s.thr a.src).lat with
              mcheck := { (s.thr a.src).lat.mcheck with pending := true, kept := false }, mcka := BitVec.ofNat 64 a.addr } ∧
            OnlyThread (metError (wakeCore (s.withWork { w with amos := as }) a.core) (a.core / 256)) t a.src) ∧
        a.core ∉ (wakeCore s a.core).sys.power.c1 ∧ a.core ∉ (wakeCore s a.core).sys.power.c2))

/-! ### The slot table -/

/-- R36, R40, R292 to R296: a bind record is written only to an empty entry, its reserved bits stay 0; forced and cooperative stops, stops
with discard and withdrawals act in the states that allow them and set err in the others, as a reserved command does. The slot that a second
victim leaves is for the launch it is displaced for. That a stop with discard found in state binding ends the unit at once, unbound, with
reason 0x03, is the model's choice (log 23). -/
def Obligations.SlotCommandsObeyStates : Prop :=
  ∀ (s : State) (p q : Place) (l : Launch) (lid : BitVec 32) (w0 w1 w2 w3 : Word), Canonical s → CanonicalWork s →
    let e := s.slot p
    let t := s.thr p
    let refused (i : Instr) : Prop := Completes i s fun u => SlotBecomes s u p (fun e => { e with err := true }) ∧
      (∀ x, u.thr x = s.thr x) ∧ u.mem = s.mem
    let stops (i : Instr) (lat : Latches) (x : Place) : Prop := Completes i s fun u =>
      u.slot x = { s.slot x with state := 4 } ∧ (∀ y, y ≠ x → u.slot y = s.slot y) ∧
      u.sys = { s.sys with work := { s.sys.work with slots := u.sys.work.slots, reserved := u.sys.work.reserved } } ∧
      (∀ r, r.1 ≠ p → r.1 ≠ x → (r ∈ u.sys.work.reserved ↔ r ∈ s.sys.work.reserved)) ∧
      u.thr x = { s.thr x with lat := lat } ∧ (∀ y, y ≠ x → u.thr y = s.thr y) ∧ u.mem = s.mem
    let preempts (l : Latches) : Latches := { l with preempt := { l.preempt with pending := true }, coop := false }
    let revokes (l : Latches) : Latches := { l with revoke := { l.revoke with pending := true } }
    (e.state = 0 → Completes (.bindRecordWrite p w0 w1 w2 w3) s fun u =>
      SlotBecomes s u p (fun e => { e with
        w0 := w0 &&& ~~~1, w1 := w1, w2 := w2 &&& ~~~0x3FF, w3 := w3 &&& ~~~0x1F0 }) ∧ (∀ x, u.thr x = s.thr x) ∧ u.mem = s.mem) ∧
    (e.state ≠ 0 → refused (.bindRecordWrite p w0 w1 w2 w3)) ∧
    ((e.state = 2 ∨ e.state = 3) → p.slot.val < 8 → stops (.forcedStop p) (preempts t.lat) p) ∧
    ((e.state = 2 ∨ e.state = 3) → 8 ≤ p.slot.val → stops (.forcedStop p) (revokes t.lat) p) ∧
    (e.state ≠ 2 → e.state ≠ 3 → refused (.forcedStop p)) ∧
    (e.state = 3 → 8 ≤ p.slot.val → stops (.withdraw p) (revokes t.lat) p) ∧
    (e.state ≠ 3 → refused (.withdraw p)) ∧
    (e.state = 2 → ThreadBecomes (.cooperativeStop p) s p fun t => { t with lat := { t.lat with coop := true } }) ∧
    (e.state ≠ 2 → refused (.cooperativeStop p)) ∧
    (e.state = 1 → Completes (.stopWithDiscard p) s fun u =>
      u.thr p = unbound t ∧ u.slot p = { e with state := 0, why := 0x03 } ∧ claimOf u t.id.lid t.id.unit = none ∧
      ((s.launch t.id.lid).stops = [] → (∀ x, x ≠ p → (s.thr x).bound = true → (s.thr x).id.lid ≠ t.id.lid) →
        (∀ c ∈ allCommands s, c.lid ≠ t.id.lid) →
        (u.launch t.id.lid).record.cancelled = (s.launch t.id.lid).record.cancelled + 1 ∧
        t.id.unit.toNat ∈ (u.launch t.id.lid).gone)) ∧
    ((e.state = 2 ∨ e.state = 3) → p.slot.val < 8 → stops (.stopWithDiscard p) { preempts t.lat with discard := true } p) ∧
    ((e.state = 2 ∨ e.state = 3) → 8 ≤ p.slot.val → stops (.stopWithDiscard p) { revokes t.lat with discard := true } p) ∧
    (∀ v : Word, v.getLsbD 24 = false →
      let cmd := v.toNat / 16 % 16
      let acts (c : Nat) (i : Instr) : Prop := cmd = c → exec (.registerWrite (.slotControl p) v) s = exec i s
      (cmd = 0 → NoEffect (.registerWrite (.slotControl p) v) s) ∧ acts 1 (.bind p) ∧ acts 2 (.forcedStop p) ∧
      acts 3 (.cooperativeStop p) ∧ acts 4 (.stopWithDiscard p) ∧ acts 5 (.withdraw p) ∧
      (6 ≤ cmd → refused (.registerWrite (.slotControl p) v))) ∧
    (e.state ≠ 1 → e.state ≠ 2 → e.state ≠ 3 → refused (.stopWithDiscard p)) ∧
    (e.state = 4 → waitingUrgent s (coreNum (placeCore p)) = some l → victim s l.mesh = some q →
      stops (.secondVictim p) (preempts (s.thr q).lat) q ∧
      Completes (.secondVictim p) s fun u => (q, l.lid) ∈ u.sys.work.reserved) ∧
    (e.state ≠ 4 → NoEffect (.secondVictim p) s) ∧
    (launchLive s lid = true → Completes (.ageLimit lid) s fun u => LaunchBecomes s u lid { s.launch lid with aged := true } ∧
      (∀ x, u.thr x = s.thr x) ∧ u.mem = s.mem) ∧
    (launchLive s lid = false → NoEffect (.ageLimit lid) s)

/-- R20, R292, R294, R314, R328: a bind starts a unit at its launch's entry with the argument in `s0`, at user level, with the special
registers of its launch and tenant; the dispatch hardware refuses a record that breaks its rules. -/
def Obligations.BindsStartUnits : Prop :=
  ∀ (s s1 : State) (p : Place), Canonical s → CanonicalWork s →
    let e := s.slot p
    let l := s.launch (slotLid e)
    (e.state = 0 → bindRefused s p e = false → foresterBinds s p e = true → savedOf s (slotLid e) (slotUnit e) = none →
      ensureWindow s l (coreNum (placeCore p)) = some s1 → Completes (.bind p) s fun u =>
        let t := u.thr p
        t.bound = true ∧ t.rot = .ready ∧ t.pcq.e0 = ⟨e.w0, false⟩ ∧ rawReg t.rf 8 = e.w1 ∧ (∀ r, r ≠ 8 → rawReg t.rf r = 0) ∧
        t.rf.olds = [] ∧ t.rf.depth = 1 ∧ t.id.lid = slotLid e ∧ t.id.unit = slotUnit e ∧ t.id.tenant = slotTenant e ∧
        t.id.cls = slotClass e ∧ t.id.harv = slotHarv e ∧ t.sr.pl = false ∧ t.sr.se = false ∧ t.sr.ue = false ∧ t.sr.vl = 1 ∧
        t.sr.sarea = e.w2 ∧ t.sr.svec = (s.tenant (slotTenant e)).entry &&& ~~~1 ∧ t.sr.wdlim = l.wdlim ∧ t.sr.qtier = l.qtier ∧
        t.sr.uentry = l.trap ∧ t.sr.hasUentry = l.hasTrap ∧ t.ch.binds = [] ∧ t.lat = {} ∧
        u.slot p = { e with state := if slotHarv e then 3 else 1 } ∧
        (slotUnit e).toNat ∈ (u.launch (slotLid e)).seen) ∧
    (e.state ≠ 0 → Completes (.bind p) s fun u => SlotBecomes s u p fun e => { e with err := true }) ∧
    (e.state = 0 → bindRefused s p e = true → Completes (.bind p) s fun u =>
      u.slot p = { e with state := 0, why := 0x04 } ∧ (∀ q, q ≠ p → u.slot q = s.slot q) ∧ (∀ x, u.thr x = s.thr x) ∧
      u.sys = { s.sys with work := { s.sys.work with slots := u.sys.work.slots, irqs := s.sys.work.irqs ++ [p] } })

/-! ### Launches and what they belong to -/

/-- R291, R300, R342 to R345, R380: the next entry of a ring that is enabled and not empty is admitted as a launch under the next identifier,
or refused; a device launch is admitted from its die's queue, one that was cancelled while it waited as a cancelled launch whether its tenant
is served or not; a control entry closes the phase, once the place of its record is free, or retires the job; the head moves on. The model's readings: a record out of range and a
device launch whose block cannot be read are refused (log 30, DEDUCED), and an entry waits while its clearing map has no room (log 23). -/
def Obligations.EntriesAreAdmitted : Prop :=
  ∀ (s : State) (j : JobId) (ws : List Word) (d : Fin 16) (q : DeviceReq) (qs : List DeviceReq) (b : Sched) (ts : List TEntry),
    Canonical s → CanonicalWork s →
    let n := jobNum j
    let r := s.ring n
    let job := s.job n
    let passed (t : State) : Prop := (∀ k, k ≠ n → t.ring k = s.ring k) ∧
      t.ring n = { r with head := r.head + 1, tiers := r.tiers.filter (·.1 ≠ r.head + 1) }
    let closes (t : State) : Prop :=
      (t.job n).current = job.current + 1 ∧ ((t.job n).phase job.current).closed = true ∧ ((t.job n).phase job.current).known = true
    let refusesAll (t : State) (tag : Nat) : Prop := t.sys.work.launches = s.sys.work.launches ∧ t.sys.work.nextLid = s.sys.work.nextLid ∧
      (∀ k, k ≠ n → t.job k = s.job k) ∧ t.job n = { job with graphs := (t.job n).graphs } ∧
      ∀ g, (t.job n).graph g = if g = tag then job.graph g else { job.graph g with closed := (t.job n).graph g |>.closed }
    let admitted (t : State) (lid : BitVec 32) (jn phase : Nat) (tier : BitVec 3) (w : LaunchRec) : Prop :=
      let l := t.launch lid
      l.lid = lid ∧ l.job = jn ∧ l.phase = phase ∧ l.graph = recTag w ∧ l.tenant = BitVec.ofNat 4 (recTenant w) ∧
      l.entry = recEntry w ∧ l.arg = recWord w 1 ∧ l.units = recUnits w ∧ l.cls = BitVec.ofNat 2 (recClass w) ∧
      l.wdlim = recWdlim w ∧ l.scratch = recScratch w * 256 ∧ l.scale = recScale w * 64 ∧ l.tens = ts ∧ l.sched.ext = b.ext ∧
      l.sched.geom = b.geom ∧ l.sched.grains = b.grains ∧ l.trap = recTrap w ∧ l.hasTrap = recHasTrap w ∧ l.qtier = tier ∧
      l.record.expect = BitVec.ofNat 32 (recUnits w) ∧ l.record.done = false
    let readies (w : LaunchRec) : Prop :=
      launchData s w = some (b, ts) ∧ tenantServed s (BitVec.ofNat 4 (recTenant w)) = true ∧ grainCount b ≤ 2 ^ 28
    let room (w : LaunchRec) (lid : BitVec 32) (jn phase : Nat) (tier : BitVec 3) (at_ : Option Word) : Bool :=
      (mapPlace s (launchOf s w lid jn phase tier at_ b ts)).isSome
    let ringRoom : Bool := room ws (BitVec.ofNat 32 s.sys.work.nextLid) n job.current (entryTier s r) (some (entryRecordAt r))
    let deviceRoom : Bool := room q.words q.lid q.job q.phase q.tier none
    foresters s = true →
    (ringReady r = true → recWord ws 0 ≠ 0 → placeHeld job (recTag ws) = false →
      (recordOk ws = true → recTenant ws = (jobTenant n).toNat → setOk s (n / 16) (recSet ws) = true → readies ws → ringRoom = false →
        NoEffect (.launchAdmission (.ring j ws)) s) ∧
      (recordOk ws = true → recTenant ws = (jobTenant n).toNat → setOk s (n / 16) (recSet ws) = true → readies ws → ringRoom = true →
        Completes (.launchAdmission (.ring j ws)) s fun t => passed t ∧ t.sys.work.nextLid = s.sys.work.nextLid + 1 ∧
          admitted t (BitVec.ofNat 32 s.sys.work.nextLid) n job.current
            (match r.tiers with | [] => s.sys.layers.tier | x :: _ => x.2) ws) ∧
      ((recordOk ws = false ∨ recTenant ws ≠ (jobTenant n).toNat ∨ setOk s (n / 16) (recSet ws) = false) →
        Completes (.launchAdmission (.ring j ws)) s fun t => passed t ∧ refusesAll t (recTag ws))) ∧
    (ringReady r = true → recWord ws 0 = 0 → bitsOf (recWord ws 1) 7 0 ≠ 1 → bitsOf (recWord ws 1) 7 0 ≠ 2 →
      Completes (.launchAdmission (.ring j ws)) s fun t => passed t ∧ refusesAll t 0) ∧
    (ringReady r = true → recWord ws 0 ≠ 0 → placeHeld job (recTag ws) = true → NoEffect (.launchAdmission (.ring j ws)) s) ∧
    (ringReady r = false → NoEffect (.launchAdmission (.ring j ws)) s ∧ NoEffect (.closePhase j) s ∧ NoEffect (.retireJob j) s) ∧
    (deviceQueue s d.val = q :: qs → launchData s q.words = some (b, ts) → (q.cancelled = false → readies q.words) → deviceRoom = true →
      Completes (.launchAdmission (.device d)) s fun t =>
        deviceQueue t d.val = qs ∧ admitted t q.lid q.job q.phase q.tier q.words ∧
        (q.cancelled = true → (t.launch q.lid).record.cancel = true ∧ (t.launch q.lid).record.cancelled = (t.launch q.lid).record.expect)) ∧
    (deviceQueue s d.val = q :: qs → q.cancelled = false →
      (launchData s q.words = none ∨ tenantServed s (BitVec.ofNat 4 (recTenant q.words)) = false) → Completes (.launchAdmission (.device d)) s fun t =>
      deviceQueue t d.val = qs ∧ t.sys.work.launches = s.sys.work.launches ∧
      (∀ k, sparseGet {} t.sys.work.records k = if k = q.lid.toNat
        then { expect := BitVec.ofNat 32 (recUnits q.words), refused := true, done := true } else sparseGet {} s.sys.work.records k)) ∧
    (deviceQueue s d.val = [] → NoEffect (.launchAdmission (.device d)) s) ∧
    (ringReady r = true →
      (placeHeld job 0 = false → Completes (.closePhase j) s fun t => passed t ∧ closes t ∧ t.sys.work.launches = s.sys.work.launches) ∧
      (placeHeld job 0 = true → NoEffect (.closePhase j) s ∧
        (recWord ws 0 = 0 → bitsOf (recWord ws 1) 7 0 = 1 → NoEffect (.launchAdmission (.ring j ws)) s)) ∧
      (Completes (.retireJob j) s fun t => passed t ∧ (t.job n).retired = true ∧ (t.job n).current = job.current ∧
        t.sys.work.launches = s.sys.work.launches) ∧
      (recWord ws 0 = 0 → bitsOf (recWord ws 1) 7 0 = 1 → placeHeld job 0 = false →
        Completes (.launchAdmission (.ring j ws)) s fun t => passed t ∧ closes t) ∧
      (recWord ws 0 = 0 → bitsOf (recWord ws 1) 7 0 = 2 → Completes (.launchAdmission (.ring j ws)) s fun t =>
        passed t ∧ (t.job n).retired = true))

/-- R122: the merge of one word takes its entries by key and then by value, adds them to the word in FP32 with round to nearest even, and
counts them; a word with an uncorrectable error keeps its value and loses its entries (R327). R121, R127, R298, R299: a phase that is
closed with all its members done comes to its boundary, its log is merged and empty, and the next phase may start; a launch with nothing
left completes, is counted in its phase or graph, and leaves every core, while its schedule block keeps what it holds (R282); phases and jobs
complete in turn. -/
def Obligations.WorkCompletes : Prop :=
  (∀ (s : State) (log : List LogEntry) (r : Record) (pa : Nat), Canonical s →
    let es := sortedEntries log pa
    es.Perm (log.filter fun e => decide (e.pa = pa)) ∧
    es.Pairwise (fun a b => a.key.toNat < b.key.toNat ∨ (a.key = b.key ∧ a.val.toNat ≤ b.val.toNat)) ∧
    ((∀ k, k < 4 → paKind (pa + k) = .dram) → anyBad s pa 4 = false →
      let sum := addEntries es (ofBytes (physBytes s pa 4)) 0
      let m := mergeWord log (s, r) pa
      MemStored s m.1 {} pa (toBytes 4 sum.1) ∧ m.2.mflags = r.mflags ||| sum.2 ∧
      m.2.merged = r.merged + BitVec.ofNat 64 es.length ∧ m.2.lost = r.lost) ∧
    (anyBad s pa 4 = true →
      let m := mergeWord log (s, r) pa
      m.1.mem = s.mem ∧ m.2.lost = r.lost + BitVec.ofNat 32 es.length ∧ m.2.merged = r.merged ∧
      .mergeMcheck pa ∈ m.1.sys.host.errlog) ∧
    (∀ e es acc f, addEntries (e :: es) acc f =
      (let x := addVal fp32 .rne (fp32.value acc) (fp32.value e.val.toNat); addEntries es x.pat (f ||| x.flags)))) ∧
  (∀ (s : State) (j : JobId) (lid : BitVec 32) (tag : Nat), Canonical s → CanonicalWork s →
    let n := jobNum j
    let job := s.job n
    let p := job.boundary
    let l := s.launch lid
    (phaseQuiet s n p = true → Completes (.phaseBoundary j) s fun t =>
      ((t.job n).phase p).merged = true ∧ ((t.job n).phase p).log = [] ∧ (t.job n).boundary = p + 1 ∧
      (∀ k, k ≠ p → (t.job n).phase k = job.phase k) ∧ ((job.phase p).log = [] → ((t.job n).phase p).record = (job.phase p).record) ∧
      t.th = s.th ∧ t.core = s.core ∧ t.sys.work.launches = s.sys.work.launches) ∧
    (phaseQuiet s n p = false → NoEffect (.phaseBoundary j) s) ∧
    (Completes (.logExtend j) s fun t => (∀ k, ((t.job n).phase k).logFull = false ∧ ((t.job n).phase k).log = (job.phase k).log) ∧
      t = s.withWork { s.sys.work with jobs := t.sys.work.jobs }) ∧
    (hasLaunch s lid = true → l.lid = lid → launchQuiet s l = true → Completes (.completion (.launch lid)) s fun t =>
      hasLaunch t lid = false ∧ sparseGet {} t.sys.work.blocks lid.toNat = l.sched ∧ (∀ c, ∀ w ∈ (t.coreBy c).windows, w.lid ≠ lid) ∧ (∀ c, ∀ g ∈ (t.coreBy c).tags, g.lid ≠ lid) ∧
      (∀ k, k ≠ lid → t.launch k = s.launch k) ∧
      (l.graph = 0 → l.record.cancel = false → ((t.job l.job).phase l.phase).record.ended = ((s.job l.job).phase l.phase).record.ended + 1) ∧
      (l.graph = 0 → l.record.cancel = true →
        ((t.job l.job).phase l.phase).record.cancelled = ((s.job l.job).phase l.phase).record.cancelled + 1) ∧
      (l.graph ≠ 0 → l.record.cancel = false →
        ((t.job l.job).graph l.graph).record.ended = ((s.job l.job).graph l.graph).record.ended + 1)) ∧
    ((hasLaunch s lid = false ∨ launchQuiet s l = false) → NoEffect (.completion (.launch lid)) s) ∧
    ((job.graph tag).closed = true → (job.graph tag).record.full = true → (job.graph tag).record.done = false →
      (job.graph tag).record.expect ≠ 0 → graphPending s n tag = false → Completes (.completion (.graph j tag)) s fun t =>
        ((t.job n).graph tag).record.done = true) ∧
    (graphPending s n tag = true → NoEffect (.completion (.graph j tag)) s) ∧
    (∀ k, (job.phase k).merged = true → (job.phase k).record.done = false → Completes (.completion (.phase j k)) s fun t =>
      ((t.job n).phase k).record.done = true) ∧
    (job.retired = true → job.record.done = false → (∀ x ∈ job.phases, x.2.known = true → x.2.record.done = true) →
      Completes (.completion (.job j)) s fun t => (t.job n).record.done = true) ∧
    (∀ k, NoEffect (.completion (.unit lid k)) s))

/-- R23, R59, R300, R301, R303: cancelling a launch stops every unit that has not ended, marks the launch's log entries discarded and drops its
tag-table entries; a unit
counts as cancelled once nothing of it is in flight, and then the record says so; cancelling a unit leaves the launch running; a cancelled
phase or job says so in its record, and what is done already stays as it is; a graph whose members all wait for their admission is cancelled. -/
def Obligations.CancellingCounts : Prop :=
  ∀ (s : State) (lid : BitVec 32) (u : Nat) (j : JobId), Canonical s → CanonicalWork s →
    let l := s.launch lid
    let n := jobNum j
    let idle : Prop := (∀ c ∈ allCommands s, c.lid ≠ lid) ∧ ∀ p, (s.thr p).bound = true → (s.thr p).id.lid ≠ lid
    let jobless : Prop := ∀ e ∈ s.sys.work.launches, e.2.job ≠ n
    (hasLaunch s lid = true → l.record.done = false → l.cancelling = false → Completes (.cancel (.launch lid)) s fun t =>
      (t.launch lid).cancelling = true ∧ (t.launch lid).record.ended = l.record.ended ∧
      (∀ k, k < l.units → k ∈ (t.launch lid).gone ∨ k ∈ (t.launch lid).stops) ∧
      (∀ x ∈ t.sys.work.jobs, ∀ p ∈ x.2.phases, ∀ e ∈ p.2.log, e.lid = lid → e.discarded = true) ∧
      (∀ c, ∀ g ∈ (t.coreBy c).tags, g.lid ≠ lid) ∧
      (l.seen = [] → l.stops = [] → idle → (t.launch lid).record.cancel = true ∧ (t.launch lid).record.cancelled = l.record.cancelled +
        BitVec.ofNat 32 ((List.range l.units).filter (· ∉ l.gone)).length)) ∧
    ((∀ e ∈ s.sys.work.deviceQ, ∀ q ∈ e.2, q.lid ≠ lid) →
      (hasLaunch s lid = false ∨ l.record.done = true ∨ l.cancelling = true) → NoEffect (.cancel (.launch lid)) s) ∧
    (hasLaunch s lid = true → u < l.units → u < 65536 → l.cancelling = false → l.stops = [] →
      (u ∉ l.gone → idle → Completes (.cancel (.unit lid u)) s fun t =>
        (t.launch lid).record.cancelled = l.record.cancelled + 1 ∧ u ∈ (t.launch lid).gone ∧
        (t.launch lid).record.cancel = l.record.cancel) ∧
      (∀ p, u ∉ l.gone → placeOfUnit s lid (BitVec.ofNat 16 u) = some p → (s.slot p).state = 2 → Completes (.cancel (.unit lid u)) s fun t =>
        (t.thr p).lat.discard = true ∧ (t.slot p).state = 4 ∧ (t.launch lid).stops = [u] ∧ (t.launch lid).record = l.record) ∧
      (u ∈ l.gone → NoEffect (.cancel (.unit lid u)) s)) ∧
    (∀ p, ((s.job n).phase p).record.done = false → Completes (.cancel (.phase j p)) s fun t =>
      ((t.job n).phase p).cancelled = true ∧ (jobless → ((t.job n).phase p).record.cancel = true)) ∧
    ((s.job n).record.done = false → Completes (.cancel (.job j)) s fun t =>
      (t.job n).cancelled = true ∧ (jobless → (t.job n).record.cancel = true)) ∧
    (∀ tag, tag ≠ 0 → graphPending s n tag = true → ((s.job n).graph tag).record.expect = 0 →
      Completes (.cancel (.graph j tag)) s fun t => ((t.job n).graph tag).cancelled = true) ∧
    NoEffect (.cancel (.graph j 0)) s

/-! ### Frames -/

/-- R133, R146, R357 to R360: while the release unit is on, the deadline of the next frame passes with its buffer due to leave, or with a
miss that is counted and streams the last buffer again; a release leaves in order, as the lines of its buffer; turning the unit off leaves
only the frame in progress; the registers are guarded; the clock follows its master. The nanoseconds that have passed since the clock was last
read come with the write that turns the unit on. The model's choices: that the frame in progress is the
first one due (log 47); the lines of a frame and the bytes of a line (log 33, PRESUMED); the margin of a good frame in 256ths of the period
(log 32). -/
def Obligations.ReleasesFollowDeadlines : Prop :=
  ∀ (s : State) (k : Int) (b : FrameBuf) (v : Word) (m elapsed : Nat) (again : Bool) (rest : List DueFrame) (off : Int), Canonical s →
    let r := s.sys.rel
    let n := (k + 1).toNat
    let y := s.sys.layers
    let enable : Instr := .releaseEnable ⟨v, elapsed⟩
    let first := firstFrame { r with now := r.now + elapsed }
    let guarded (f : RelField) (r' : Release) : Prop :=
      (r.en = false → exec (.releaseConfigWrite f v) s = .next (s.withRel r')) ∧
      (r.en = true → exec (.releaseConfigWrite f v) s = .next (s.withRel { r with err := true }))
    (r.en = true → r.passed = some k → y.last ≠ some ((n : Int) - 1) → sparseWf {} r.handed = true →
      (handedBuffer r n = some b → Completes .frameDeadline s fun t => t.sys.rel.passed = some (n : Int) ∧
        t.sys.rel.due = r.due ++ [⟨n, b, false⟩] ∧ handedBuffer t.sys.rel n = none ∧ t.sys.rel.miss = r.miss ∧
        t.sys.layers = { y with
          missed := false
          good := if (pnum r * 1000000000 * y.margin : Nat) ≤ b.left * (pden r * 256 : Nat) then y.good + 1 else 0 } ∧
        t.mem = s.mem) ∧
      (handedBuffer r n = none → Completes .frameDeadline s fun t => t.sys.rel.passed = some (n : Int) ∧
        t.sys.rel.miss = r.miss + 1 ∧ t.sys.layers = { y with missed := true, good := 0 } ∧
        t.sys.rel.due = r.due ++ (match r.lastBuf with | some b => [⟨n, b, true⟩] | none => []) ∧
        t.sys.host.msix = s.sys.host.msix ++ [(16, 1)] ∧ t.mem = s.mem)) ∧
    (r.en = true → r.passed = some k → y.last = some ((n : Int) - 1) → Completes .frameDeadline s fun t =>
      t.sys.layers.last = some (n : Int)) ∧
    (r.en = false → NoEffect .frameDeadline s) ∧
    (r.due = ⟨m, b, again⟩ :: rest → Completes .frameRelease s fun t => t.sys.rel.due = rest ∧
      t.sys.rel.last = (if again then r.last else BitVec.ofNat 64 m) ∧ t.sys.rel.lastBuf = (if again then r.lastBuf else some b) ∧
      releaseTime r m ≤ t.sys.rel.now ∧ t.mem = s.mem ∧
      ∃ lines : List (List Byte), t.sys.rel.streamed = r.streamed ++ [⟨m, r.ports, lines⟩] ∧ lines.length = r.format.toNat / 2 ^ 48 ∧
        ∀ l i (h : l < lines.length) (g : i < lines[l].length) pa kind, lines[l].length = lineBytes (fmtSamp r) (fmtWidth r) ∧
          (translate s b.tenant true .read (b.va + BitVec.ofNat 64 (l * (r.format.toNat % 2 ^ 24) + i)) = .ok (pa, kind) →
            anyBad s pa 1 = false → lines[l][i] = physByte s pa)) ∧
    (r.due = [] → NoEffect .frameRelease s) ∧
    (v.getLsbD 0 = true → r.en = false → enableRefused r = false → Completes enable s fun t =>
      t.sys.rel.en = true ∧ t.sys.rel.passed = some ((first : Int) - 1) ∧ t.sys.layers.last = some ((first : Int) - 1) ∧
      t.sys.rel.now = r.now + elapsed ∧
      t.sys.layers.hist = [] ∧ t.sys.layers.held = [] ∧ t.sys.layers.table = y.table ∧ t.sys.rel.due = [] ∧ t.sys.rel.lastBuf = none) ∧
    (v.getLsbD 0 = true → r.en = false → enableRefused r = true → exec enable s = .next (s.withRel { r with err := true })) ∧
    (v.getLsbD 0 = true → r.en = true → NoEffect enable s) ∧
    (v.getLsbD 0 = false → r.en = true → exec enable s = .next (s.withRel { r with en := false, due := r.due.take 1 })) ∧
    (v.getLsbD 0 = false → r.en = false → NoEffect enable s) ∧
    guarded .bases { r with bases := v.setWidth 48 } ∧ guarded .basens { r with basens := v.setWidth 30 } ∧
    guarded .period { r with period := v } ∧ guarded .tlead { r with tlead := v.setWidth 32 } ∧
    guarded .format { r with format := v &&& ~~~0xF000000 } ∧
    (Completes (.ptpSync off) s fun t => t.sys.rel.offset = off ∧ t.sys.rel.hold = false ∧
      t.sys.rel.goodSyncs = (if off.natAbs < 20 then r.goodSyncs + 1 else 0) ∧
      (t.sys.rel.lock = true ↔ off.natAbs < 20 ∧ 16 ≤ r.goodSyncs + 1)) ∧
    (Completes .holdover s fun t => t.sys.rel.hold = true ∧ t.sys.rel.lock = false ∧ t.sys.rel.now = r.now)

/-- R132, R134: a frame is evaluated in order, with its held pose, or with the last frame's once its deadline has come: the pose enters
the history of 16, every layer's age, error and price are brought up to date, and a live layer whose error passes its price posts a
request. R147, R308 to R310: a missed frame or predicted lateness raises the quality step, 32 good frames lower it, and a pin stops both;
the step takes effect with the next evaluation. A request without a registered render graph starts nothing; a graph's launches have class 1
where the deadline lies closer than its run time and 0.5 ms. The model's readings: that a frame without a pose is evaluated only once the clock
has reached its deadline (log 20, DEDUCED), and the predicted work and the elapsed time that the forester brings to a step and to a request, and
that one miss raises the step once and a change begins the count of good frames anew (log 32). -/
def Obligations.FramesAndQuality : Prop :=
  (∀ (s : State) (l : Int) (p : Pose), Canonical s → CanonicalLists s → s.sys.rel.en = true → s.sys.layers.last = some l →
    let y := s.sys.layers
    let n := (l + 1).toNat
    let clamp (x : Nat) : BitVec 16 := if x ≤ 65535 then BitVec.ofNat 16 x else 65535
    let evaluated (t : State) : Prop :=
      let z := t.sys.layers
      z.last = some (n : Int) ∧ z.hist = ((n, p) :: y.hist).take 16 ∧ heldPose z n = none ∧
      (∀ m, m ≠ n → heldPose z m = heldPose y m) ∧ z.pstep = y.pstepNext ∧ z.tier = y.tierNext ∧
      z.table.map (·.1) = y.table.map (·.1) ∧ t.mem = s.mem ∧ t.th = s.th ∧ t.core = s.core ∧
      (∀ e ∈ y.table, ∃ f ∈ z.table, f.1 = e.1 ∧
        let old := e.2
        let age := if old.fresh then old.age else clamp (old.age.toNat + 1)
        let err := clamp (parallax old p + (clamp (age.toNat * old.vres.toNat)).toNat + old.lit.toNat)
        let eprice := clamp (old.price.toNat * (4 + y.pstepNext.toNat) / 4)
        let posts := old.state = 1 ∧ eprice.toNat < err.toNat
        f.2 = { old with fresh := false, age := age, err := err, eprice := eprice, state := if posts then 2 else old.state } ∧
        (posts → ⟨BitVec.ofNat 16 e.1, err, y.tierNext, old.graph, BitVec.ofNat 64 n⟩ ∈ z.requests)) ∧
      y.requests <+: z.requests
    (heldPose y n = some p → Completes .frameEvaluation s evaluated) ∧
    (heldPose y n = none → deadline s.sys.rel n ≤ s.sys.rel.now → priorPose y = p → Completes .frameEvaluation s evaluated) ∧
    (heldPose y n = none → (s.sys.rel.now : Int) < deadline s.sys.rel n → NoEffect .frameEvaluation s)) ∧
  (∀ (s : State) (work elapsed m : Nat) (n : Int) (q : Request) (rest : List Request),
    let y := s.sys.layers
    let stepped : Layers := { y with stepsDue := m }
    let left := deadline s.sys.rel ((n - (m : Int)).toNat + 1) - (s.sys.rel.now + elapsed)
    let behind : Bool := decide (left < work)
    let becomes (z : Layers) : Prop := exec (.qualityStep work elapsed) s = .next (s.withLayers z)
    let at_ (k : Nat) : Layers := { stepped with
      quality := BitVec.ofNat 4 k, good := 0, missed := false, pstepNext := BitVec.ofNat 4 k, tierNext := BitVec.ofNat 3 (7 - k / 2) }
    let graph := sparseGet {} y.graphs q.graph.toNat
    (y.stepsDue = 0 → NoEffect (.qualityStep work elapsed) s) ∧
    (y.stepsDue = m + 1 → y.last = some n → y.pinned = false →
      ((y.missed = true ∨ behind = true) → becomes (at_ (if y.quality = 15 then 15 else y.quality.toNat + 1))) ∧
      (y.missed = false → behind = false → y.spareCount ≤ y.good → becomes (at_ (y.quality.toNat - 1))) ∧
      (y.missed = false → behind = false → y.good < y.spareCount → becomes stepped)) ∧
    (y.stepsDue = m + 1 → y.last = some n → y.pinned = true → becomes { stepped with missed := false }) ∧
    (y.requests = [] → NoEffect (.rerenderRequest elapsed) s) ∧
    (y.requests = q :: rest → (q.graph = 0 ∨ graph.records = []) →
      exec (.rerenderRequest elapsed) s = .next (s.withLayers { y with requests := rest })) ∧
    (graphClass s elapsed q graph = if deadline s.sys.rel (q.frame.toNat + 1) - (s.sys.rel.now + elapsed) < graph.runTime + 500000 then 1 else 2) ∧
    (y.requests = q :: rest → Completes (.rerenderRequest elapsed) s fun t => t.sys.layers = { y with requests := rest } ∧ t.th = s.th))

/-! ### The host -/

/-- R327, R338, R340, R365: inbound accesses of a virtual function are user accesses of its tenant, those of the physical function go to
physical memory; a read that fails is answered with nothing, a write that fails is counted, and neither changes memory; one beyond the size
of BAR0 or BAR2 has no effect. R4, R339: a read of BAR0 answers with the bytes of its registers; an offset without a register, and the bits
that only a write means anything to, read as 0, and a write at an offset without a register is ignored. R340 to R342, R346, R348:
registers of the host. A misaligned base is ignored; a ring refuses a tail that passes its size, an enable with a bad size or
without a base, and a guarded write while it is on; a set in use keeps its members; an aperture's fields are guarded and its enable is
checked. R147: the entries that a new tail passes take the tier as it then is. R292, R310, R339, R342, R359, R370: the registers without a
behaviour of their own take the bits written to their fields, and nothing else changes; an error bit is cleared by writing 1; a written
price step or tier is pinned (log 35). R370, R371: go performs the command of op with the arguments as they stand, or sets the result where
a command is in progress or no command has that op. R377: boundary scan reads IDCODE, and the I3C target the boot status and the telemetry
blocks, at their offsets of the physical function (log 38). That accesses of no byte, of too many or beyond BAR2 have no effect, that a failed
write writes nothing, and what the physical function reads where no memory is, are the model's choices (log 34). -/
def Obligations.HostAccessesServed : Prop :=
  (∀ (s : State) (f : Fin 17) (off n : Nat) (bs : List Byte) (pas : List Nat), Canonical s →
    sparseWf 0 s.sys.host.b2drop = true →
    let h := s.sys.host
    (0 < n → n ≤ 4096 → off + n ≤ bar2Size s f.val →
      (inboundRun s f.val .read off n = some pas → (∀ pa ∈ pas, anyBad s pa 1 = false) →
        Completes (.inboundRead f (.bar2 off) n) s fun t => t.sys.host.replies = h.replies ++ [pas.map (physByte s)] ∧ t.mem = s.mem ∧
          t.th = s.th ∧ t.core = s.core) ∧
      (inboundRun s f.val .read off n = none → Completes (.inboundRead f (.bar2 off) n) s fun t =>
        t.sys.host.replies = h.replies ++ [[]] ∧ t.mem = s.mem ∧ t.th = s.th)) ∧
    (0 < n → n ≤ 4096 → off + n ≤ bar0Size f.val → Completes (.inboundRead f (.bar0 off) n) s fun t =>
      t.sys.host.replies = h.replies ++ [(List.range n).map fun i => bar0Byte s f.val (off + i)] ∧ t.mem = s.mem ∧ t.th = s.th) ∧
    ((n = 0 ∨ 4096 < n ∨ bar2Size s f.val < off + n) → NoEffect (.inboundRead f (.bar2 off) n) s) ∧
    ((n = 0 ∨ 4096 < n ∨ bar0Size f.val < off + n) → NoEffect (.inboundRead f (.bar0 off) n) s) ∧
    (bs ≠ [] → bs.length ≤ 512 → off + bs.length ≤ bar2Size s f.val →
      (inboundRun s f.val .write off bs.length = some pas → Completes (.inboundWrite f off bs) s fun t =>
        t.mem = (storeRun s (inboundRequester s f.val off) pas bs).mem ∧ t.th = s.th ∧ t.core = s.core ∧ t.sys.host.b2drop = h.b2drop) ∧
      (inboundRun s f.val .write off bs.length = none → Completes (.inboundWrite f off bs) s fun t =>
        sparseGet 0 t.sys.host.b2drop f.val = sparseGet 0 h.b2drop f.val + 1 ∧ t.mem = s.mem ∧ t.th = s.th)) ∧
    (0 < n → n ≤ 4096 → Completes (.inboundRead f .idcode n) s fun t =>
      t.sys.host.replies = h.replies ++ [toBytes 4 0x1A160A53] ∧ t.mem = s.mem ∧ t.th = s.th) ∧
    (0 < n → n ≤ 4096 → ((0x18 ≤ off ∧ off + n ≤ 0x20) ∨ (0x3000000 ≤ off ∧ off + n ≤ 0x3010000)) →
      Completes (.inboundRead f (.i3c off) n) s fun t =>
        t.sys.host.replies = h.replies ++ [(List.range n).map fun i => bar0Byte s 16 (off + i)] ∧ t.mem = s.mem ∧ t.th = s.th) ∧
    ((bs = [] ∨ 512 < bs.length ∨ bar2Size s f.val < off + bs.length) → NoEffect (.inboundWrite f off bs) s) ∧
    (f.val = 16 → staging s = true → off + n ≤ 0x10000000 →
      inboundRun s f.val .read off n = some ((List.range n).map (stagingPa s + off + ·))) ∧
    (f.val < 16 → ∀ e, translate s (BitVec.ofNat 4 f.val) false .read (b2Address s f.val off) = .error e →
      0 < n → inboundRun s f.val .read off n = none)) ∧
  (∀ (s : State) (f : Fin 17) (j : JobId) (vf d : Fin 16) (c : Fin 256) (a : Fin 8) (v : Word) (tail : BitVec 32),
    Canonical s → CanonicalWork s → sparseWf 0 s.sys.host.b2va = true → sparseWf {} s.sys.csets = true →
    sparseWf {} s.sys.apertures = true →
    let h := s.sys.host
    let n := jobNum j
    let r := s.ring n
    let ring (i : Instr) (r' : Ring) : Prop := Completes i s fun t => t.ring n = r' ∧ (∀ k, k ≠ n → t.ring k = s.ring k) ∧ t.mem = s.mem
    let field (x : RingField) (r' : Ring) : Prop :=
      (r.en = false → ring (.ringConfigWrite j x v) r') ∧ (r.en = true → ring (.ringConfigWrite j x v) { r with err := true })
    let key := vf.val * 256 + c.val
    let old : CollSet := sparseGet {} s.sys.csets key
    let new : CollSet := { valid := v.getLsbD 63, members := v.setWidth 16 }
    let cleared (t : State) : Prop := ∀ x, x ∈ t.sys.resids ↔ x ∈ s.sys.resids ∧ ¬ (x.vf = vf.val ∧ x.set = c.val)
    let ap := s.aperture (d.val * 8 + a.val)
    let aperture (i : Instr) (x : Aperture) : Prop := Completes i s fun t => t.aperture (d.val * 8 + a.val) = x ∧
      (∀ k, k ≠ d.val * 8 + a.val → t.aperture k = s.aperture k) ∧ t.mem = s.mem
    let part (x : ApField) (y : Aperture) : Prop :=
      (ap.en = false → aperture (.apertureConfigWrite d a x v) y) ∧ (ap.en = true → NoEffect (.apertureConfigWrite d a x v) s)
    (f.val < 16 → v.toNat % 2 ^ 30 = 0 → Completes (.b2vaWrite f v) s fun t => sparseGet 0 t.sys.host.b2va f.val = v ∧ t.mem = s.mem) ∧
    ((f.val = 16 ∨ v.toNat % 2 ^ 30 ≠ 0) → NoEffect (.b2vaWrite f v) s) ∧
    (v.toNat % 2 ^ 40 = 0 → exec (.hapbaseWrite v) s = .next (s.withHost { h with hapbase := v })) ∧
    (v.toNat % 2 ^ 40 ≠ 0 → NoEffect (.hapbaseWrite v) s) ∧
    ((tail - r.head).toNat ≤ 2 ^ r.lsize.toNat → ring (.tailWrite j tail) { r with
      tail := tail, tiers := if tail = r.tail then r.tiers else r.tiers ++ [(tail, s.sys.layers.tier)] }) ∧
    (2 ^ r.lsize.toNat < (tail - r.head).toNat → ring (.tailWrite j tail) { r with err := true }) ∧
    (v.getLsbD 6 = true → r.en = false →
      (6 ≤ r.lsize.toNat → r.lsize.toNat ≤ 16 → r.gbase ≠ 0 → ring (.ringEnable j v) { r with en := true }) ∧
      ((r.lsize.toNat < 6 ∨ 16 < r.lsize.toNat ∨ r.gbase = 0) → ring (.ringEnable j v) { r with err := true })) ∧
    (v.getLsbD 6 = false → ring (.ringEnable j v) { r with en := false }) ∧
    field .rbase { r with rbase := v &&& ~~~0xFFF } ∧ field .lsize { r with lsize := v.setWidth 5 } ∧
    field .cbase { r with cbase := v &&& ~~~0x1F } ∧ field .gbase { r with gbase := v &&& ~~~0x1F } ∧
    (c.val ≠ 0 → (new.members = old.members ∨ setInUse s vf.val c.val = false) → Completes (.collectiveSetWrite vf c v) s fun t =>
      sparseGet {} t.sys.csets key = new ∧ (∀ k, k ≠ key → sparseGet {} t.sys.csets k = sparseGet {} s.sys.csets k) ∧
      (v.getLsbD 16 = true → cleared t) ∧ (v.getLsbD 16 = false → t.sys.resids = s.sys.resids) ∧ t.mem = s.mem) ∧
    (new.members ≠ old.members → setInUse s vf.val c.val = true → NoEffect (.collectiveSetWrite vf c v) s) ∧
    (c.val ≠ 0 → Completes (.clr vf c) s fun t => cleared t ∧ t.sys.csets = s.sys.csets ∧ t.mem = s.mem) ∧
    part .src { ap with src := v.setWidth 52 } ∧ part .pitch { ap with pitch := v.setWidth 32 } ∧
    part .nbc { ap with nbc := (v >>> 32).setWidth 16 } ∧ part .nbr { ap with nbr := (v >>> 16).setWidth 16 } ∧
    part .esize { ap with esize := v.setWidth 2 } ∧
    (v.getLsbD 63 = true → ap.en = false → apertureRefused ap = false → aperture (.apertureEnable d a v) { ap with en := true }) ∧
    (v.getLsbD 63 = true → ap.en = false → apertureRefused ap = true → NoEffect (.apertureEnable d a v) s) ∧
    (v.getLsbD 63 = false → aperture (.apertureEnable d a v) { ap with en := false })) ∧
  (∀ (s : State) (f : Fin 17) (vf d : Fin 16) (c : Fin 256) (o elapsed : Nat) (v : Word),
    let region := 0x1000000 + 0x100000 * vf.val
    bar0Reg s 16 (region + 0x2000 + 8 * c.val) &&& 0x10000 = 0 ∧ bar0Reg s 16 0x2000000 >>> 63 = 0 ∧
    bar0Reg s 16 0x10 = s.sys.host.hapbase ∧ (∀ r, r < 0x3010 → bar0Reg s 16 (region + r) = bar0Reg s vf.val r) ∧
    (bar0Reg s 16 (0x3000000 + 0x1000 * d.val + 0x20)).toNat =
      (sparseGet {} s.sys.tele d.val).retry.toNat * 2 ^ 32 + (sparseGet {} s.sys.tele d.val).scrub.toNat ∧
    ((o % 8 ≠ 0 ∨ 0x3010000 ≤ o ∨ (f.val < 16 ∧ (0x2800 ≤ o ∨ 0x18 ≤ o ∧ o < 0x1000))) →
      bar0Write s f o v elapsed = [] ∧ (o % 8 = 0 → bar0Reg s f.val o = 0)) ∧
    exec (.registerWrite (.bar0 f o elapsed) v) s = .next { s with agenda := bar0Write s f o v elapsed ++ s.agenda }) ∧
  (∀ (s : State) (v : Word) (j : JobId) (p : Fin 4) (k : Fin 32) (f : Fin 17) (d : Fin 16) (mem : Fin 3), CanonicalWork s →
    sparseWf 6 s.sys.host.bar2 = true → sparseWf {} s.sys.tele = true →
    let h := s.sys.host
    let m := s.sys.mail
    let r := s.sys.rel
    let y := s.sys.layers
    let n := jobNum j
    let writes (reg : PlainReg) (t : State) : Prop := exec (.registerWrite reg v) s = .next t
    let ring (reg : PlainReg) (r' : Ring) : Prop := Completes (.registerWrite reg v) s fun t =>
      t.ring n = r' ∧ (∀ k, k ≠ n → t.ring k = s.ring k) ∧
      t = s.withWork { s.sys.work with rings := t.sys.work.rings }
    writes .mid (s.withHost { h with mid := v.setWidth 4 }) ∧
    ring (.ringVec j) { s.ring n with vec := v.extractLsb' 8 8, ien := v.getLsbD 7 } ∧
    (v.getLsbD 31 = true → ring (.ringErr j) { s.ring n with err := false }) ∧ (v.getLsbD 31 = false → writes (.ringErr j) s) ∧
    ring (.ageLimit j) { s.ring n with ageLimit := v } ∧
    (v.getLsbD 8 = true → writes .relErr (s.withRel { r with err := false })) ∧ (v.getLsbD 8 = false → writes .relErr s) ∧
    writes .relPorts (s.withRel { r with ports := v.extractLsb' 4 4 }) ∧
    writes (.relStream p) (s.withRel { r with stream := r.stream.set p.val (v &&& 0x7FFFFFFFFFFFFF) }) ∧
    writes (.relSsrc p) (s.withRel { r with ssrc := r.ssrc.set p.val (v.setWidth 32) }) ∧
    writes (.mailArg k) (s.withSys { s.sys with mail := { m with args := m.args.set k.val v } }) ∧
    (v.getLsbD 63 = false → writes .mailOp (s.withSys { s.sys with mail := { m with op := v.setWidth 16 } })) ∧
    (v.getLsbD 63 = true →
      (m.busy = true → writes .mailOp (s.withSys { s.sys with mail := { m with result := 0x01 } })) ∧
      (m.busy = false → foresters s = true →
        let performs (op : Nat) (i : Instr) : Prop := v.toNat % 65536 = op → ∀ t, exec i s = .next t → Completes (.registerWrite .mailOp v) s
          fun u => u = t.withSys { t.sys with mail := { t.sys.mail with args := m.args } }
        performs 0x01 (.setPowerCap m.args[0]) ∧ performs 0x10 (.createTenant m.args[0] m.args[1]) ∧
        performs 0x12 (.destroyTenant m.args[0] (m.args[1].getLsbD 0)) ∧ performs 0x20 (.stageImage m.args[0] m.args[1]) ∧
        performs 0x22 (.raiseFusedMinimum m.args[0]) ∧ performs 0x41 (.setCoreSupervisor m.args[0] m.args[1]) ∧
        (v.toNat % 65536 ∉ [0x01, 0x10, 0x11, 0x12, 0x20, 0x21, 0x22, 0x30, 0x40, 0x41] →
          Completes (.registerWrite .mailOp v) s fun u => u.sys.mail.result = 0x02 ∧ u.sys.mail.busy = false ∧ u.mem = s.mem ∧
            u.th = s.th))) ∧
    writes .priceStep (s.withLayers { y with pstepNext := v.setWidth 4, pinned := true }) ∧
    writes .tier (s.withLayers { y with tierNext := v.setWidth 3, pinned := true }) ∧
    writes .margin (s.withLayers { y with margin := v.toNat }) ∧
    writes .goodFrames (s.withLayers { y with spareCount := v.toNat }) ∧
    writes .stageLen (s.withSys { s.sys with boot := { s.sys.boot with stageLen := v.toNat % 2 ^ 63 } }) ∧
    writes .system (s.withHost { h with system := v.setWidth 16 }) ∧
    (Completes (.registerWrite (.bar2Size f) v) s fun t => bar2Size t f.val = 2 ^ (30 + min 6 v.toNat) ∧
      (∀ g, g ≠ f.val → bar2Size t g = bar2Size s g) ∧ t.mem = s.mem ∧ t.th = s.th) ∧
    (Completes (.registerWrite (.corrected d mem) v) s fun t => ∀ e, (e ≠ d.val → sparseGet {} t.sys.tele e = sparseGet {} s.sys.tele e) ∧
      (e = d.val → let x := sparseGet {} s.sys.tele e
        let y := sparseGet {} t.sys.tele e
        y.ue = x.ue ∧ (mem = 0 → y.cesp = x.cesp + v.setWidth 32) ∧ (mem = 1 → y.cecn = x.cecn + v.setWidth 32) ∧
        (mem = 2 → y.cedr = x.cedr + v.setWidth 32))) ∧
    (Completes (.registerWrite (.selfRefresh d) v) s fun t =>
      ∀ e, e ∈ t.sys.power.refresh ↔ (e ∈ s.sys.power.refresh ∧ e ≠ d.val) ∨ (e = d.val ∧ v.getLsbD 0 = true)))

/-! ### Links and power -/

/-- R349 to R352: a flit that fails its check or is out of sequence is discarded and answered with nak; any other is delivered once, in
sequence, and what it acknowledges is no longer owed; a nak has every later flit sent again from the replay buffer as it was; after 64
retries the port goes down, which fails the commands that have a flit outstanding and no other, and retraining begins both directions again.
Slot 0 of a frame of 8 prefers real-time flits, the others bulk ones; management takes at most one bulk slot in 64. Where a message stands in
a payload, that a request for bytes of this module's memory or apertures is answered with flits of them in its own lane class (R332, R352), and
that a management flit carries the nak, are the model's choices (log 36). What an alias aperture has in another module leaves as flits too. -/
def Obligations.PortsDeliverOnce : Prop :=
  (∀ (s : State) (d : Fin 16) (f : Flit), Canonical s → sparseWf {} s.sys.ports = true → sparseWf {} s.sys.tele = true →
    let p := s.port d.val
    let whole : Prop := f.payload.length = 240 ∧ f.crc = Config.crc64 (flitBytes f)
    let field (k n : Nat) : Nat := ofBytes ((f.payload.drop k).take n)
    let data := (f.payload.drop 16).take (field 1 1)
    let ports (t : State) (q : Port) : Prop := t.port d.val = q ∧ ∀ k, k ≠ d.val → t.port k = s.port k
    let received (n : Nat) : Port := { p with
      rxSeq := p.rxSeq + 1, retries := n
      owed := p.owed.filter fun x => decide ((x.1 - f.ack - 1).toNat < (p.txSeq - f.ack - 1).toNat) }
    let asked := runFrom (field 8 8) (field 1 1)
    let asks : Bool := decide (f.lc.toNat < 2 ∧ field 0 1 = 3) && asked.all (ownModule s)
    let near : Prop := ∀ a ∈ asked, ownModule s a = true → remoteAddr s a = none
    let queued (q : Port) (os : List Outgoing) : Port := { q with
      realTime := q.realTime ++ (if f.lc = 0 then os else []), bulk := q.bulk ++ (if f.lc = 0 then [] else os) }
    let answers (os : List Outgoing) : Prop := os.length = flitsFor (field 1 1) ∧
      (∀ o ∈ os, o.flit.lc = f.lc ∧ o.flit.tenant = f.tenant ∧ o.flit.ddie = f.sdie ∧ o.cmd = none ∧ o.flit.payload.length = 240 ∧
        ofBytes (o.flit.payload.take 1) = 4) ∧
      ((∀ a ∈ asked, anyBad s a 1 = false) →
        (os.flatMap fun o => (o.flit.payload.drop 16).take (ofBytes ((o.flit.payload.drop 1).take 1))) = asked.map (physByte s))
    (p.down = false → portUsed s d.val = true →
      ((¬ whole ∨ f.seq ≠ p.rxSeq) → Completes (.flitReceive d f) s fun t => t.sys.peers = s.sys.peers ∧ t.mem = s.mem ∧
        ∃ o, ports t { p with management := p.management ++ [o] } ∧ o.flit.nak = true ∧ o.flit.lc = 2 ∧ o.flit.payload.length = 240) ∧
      (whole → f.seq = p.rxSeq → f.nak = false → Completes (.flitReceive d f) s fun t =>
        (near → (asks = false → ports t (received 0)) ∧ (asks = true → ∃ os, ports t (queued (received 0) os) ∧ answers os)) ∧
        t.th = s.th ∧ t.core = s.core ∧ t.agenda = s.agenda ∧
        (f.lc.toNat < 2 → field 0 1 = 1 → servesDie (s.tenant f.tenant) f.ddie = true → t.mem = s.mem ∧
          t.sys.peers = s.sys.peers ++ [⟨d.val, field 2 1, field 3 1, field 4 1, BitVec.ofNat 64 (field 8 8), field 5 2, data⟩]) ∧
        (f.lc.toNat < 2 → field 0 1 = 2 → (∀ i, i < data.length → ownModule s (field 8 8 + i) = true) →
          MemStored s t ⟨f.tenant.toNat, decide (field 7 1 ≠ 0)⟩ (field 8 8) data ∧ t.sys.peers = s.sys.peers) ∧
        ((2 ≤ f.lc.toNat ∨ (field 0 1 ≠ 1 ∧ field 0 1 ≠ 2) ∨ (field 0 1 = 1 ∧ servesDie (s.tenant f.tenant) f.ddie = false)) →
          t.mem = s.mem ∧ t.sys.peers = s.sys.peers)) ∧
      (whole → f.seq = p.rxSeq → f.nak = true → Completes (.flitReceive d f) s fun t =>
        (near → ∃ os, ports t (queued { received (p.retries + 1) with
          sent := p.sent ++ p.replay.dropWhile fun g => decide (g.seq ≠ f.ack + 1) } os) ∧
          (asks = false → os = []) ∧ (asks = true → answers os)) ∧
        (sparseGet {} t.sys.tele d.val).retry = (sparseGet {} s.sys.tele d.val).retry + 1 ∧
        (64 ≤ p.retries + 1 → Task.linkDown d ∈ t.agenda) ∧ (p.retries + 1 < 64 → t.agenda = s.agenda))) ∧
    ((p.down = true ∨ portUsed s d.val = false) → NoEffect (.flitReceive d f) s) ∧
    (p.down = false → 64 ≤ p.retries → Completes (.linkDown d) s fun t =>
      ports t { p with down := true, owed := [], realTime := [], bulk := [], management := [] } ∧
      t.sys.host.msix = s.sys.host.msix ++ [(16, 3)] ∧
      ∀ c ∈ s.core.cmds, (flitKey c ∈ outstanding p → { c with out := some [], status := 1, src := [], done := true } ∈ t.core.cmds) ∧
        (flitKey c ∉ outstanding p → c ∈ t.core.cmds)) ∧
    ((p.down = true ∨ p.retries < 64) → NoEffect (.linkDown d) s) ∧
    (p.down = true → Completes (.linkRetrain d) s fun t =>
      ports t { p with down := false, txSeq := 0, rxSeq := 0, replay := [], retries := 0 } ∧
      t.sys.host.msix = s.sys.host.msix ++ [(16, 3)]) ∧
    (p.down = false → NoEffect (.linkRetrain d) s)) ∧
  (∀ (p : Port) (o : Outgoing) (rest : List Outgoing),
    let q := sendSlot p
    let sends : Prop := ∃ g, q.sent = p.sent ++ [g] ∧ q.replay.getLast? = some g ∧ q.replay.length ≤ 1024 ∧ q.txSeq = p.txSeq + 1 ∧
      g.seq = p.txSeq ∧ g.ack = p.rxSeq - 1 ∧ g.payload = o.flit.payload ∧ g.lc = o.flit.lc ∧ g.crc = Config.crc64 (flitBytes g)
    q.slot = (p.slot + 1) % 8 ∧
    (p.slot = 0 → p.realTime = o :: rest → sends ∧ q.realTime = rest ∧ q.bulk = p.bulk ∧ q.management = p.management) ∧
    (p.slot = 0 → p.realTime = [] → p.bulk = o :: rest → sends ∧ q.bulk = rest ∧ q.management = p.management) ∧
    (p.slot ≠ 0 → p.sinceManaged = 63 → p.management = o :: rest →
      sends ∧ q.management = rest ∧ q.bulk = p.bulk ∧ q.realTime = p.realTime ∧ q.sinceManaged = 0) ∧
    (p.slot ≠ 0 → (p.sinceManaged ≠ 63 ∨ p.management = []) → p.bulk = o :: rest →
      sends ∧ q.bulk = rest ∧ q.management = p.management ∧ q.realTime = p.realTime))

/-- R372 to R375, R377: a part enters a power state only while its condition and the tolerance in force allow it, and leaves it with every
state that rests on it; a core in C2 loses its L1 TLB, a die in D1 its last-level TLB; what arrives at a core, and an access of a die's memory,
wakes it. Clocks step by one, and only down while power, flux or heat is not under its limit; a scrub counts uncorrectable words and leaves them; at 105 degrees a die slows down, and at 115 degrees the module stops
for good. -/
def Obligations.PowerFollowsConditions : Prop :=
  ∀ (s : State) (x : Part) (c : CoreId) (d : Fin 16) (k n flux power : Nat) (lpddr : Bool) (found : List Nat) (f : Fin 17) (v : BitVec 32),
    Canonical s → sparseWf 16 s.sys.power.clock = true → sparseWf {} s.sys.tele = true → sparseWf 0xFFFFFFFF s.sys.host.ltol = true →
    let w := s.sys.power
    let old := sparseGet 16 w.clock d.val
    let only (t : State) : Prop := t = s.withSys { s.sys with power := t.sys.power }
    let reads (y : Telemetry) : State := s.withSys { s.sys with tele := sparsePut {} s.sys.tele d.val y }
    let clocked (i : Instr) (y : Telemetry) (j : Nat) : Prop := Completes i s fun t => sparseGet 16 t.sys.power.clock d.val = j ∧
      (∀ e, e ≠ d.val → sparseGet 16 t.sys.power.clock e = sparseGet 16 w.clock e) ∧
      t = (reads y).withSys { (reads y).sys with power := { w with clock := t.sys.power.clock } }
    let slower := if 4 < old then old - 1 else old
    let seen : Telemetry := { sparseGet {} s.sys.tele d.val with flux := BitVec.ofNat 16 flux, power := BitVec.ofNat 32 power }
    let hot : Telemetry := { sparseGet {} s.sys.tele d.val with tmax := BitVec.ofNat 16 n }
    let limited : Prop := 320000 ≤ power ∨ 750 ≤ flux ∨ 1680 ≤ seen.tmax.toNat ∨ s.sys.mail.cap * 1000 ≤ modulePower (reads seen)
    (partMay s x = false → NoEffect (.powerStateEntry x) s) ∧
    (partMay s (.coreC1 c) = true → Completes (.powerStateEntry (.coreC1 c)) s fun t =>
      (∀ i, i ∈ t.sys.power.c1 ↔ i ∈ w.c1 ∨ i = coreNum c) ∧ only t) ∧
    (partMay s (.coreC2 c) = true → Completes (.powerStateEntry (.coreC2 c)) s fun t =>
      (∀ i, i ∈ t.sys.power.c2 ↔ i ∈ w.c2 ∨ i = coreNum c) ∧ (t.coreBy (coreNum c)).tlb = [] ∧
      (∀ i, i ≠ coreNum c → t.coreBy i = s.coreBy i) ∧ t.th = s.th ∧ t.mem = s.mem) ∧
    (partMay s (.die d) = true → Completes (.powerStateEntry (.die d)) s fun t =>
      d.val ∈ t.sys.power.d1 ∧ ∀ e, e ∈ t.sys.tlb ↔ e ∈ s.sys.tlb ∧ e.die ≠ d.val) ∧
    (partMay s (.die d) = true → d.val ∈ w.refresh ∧ s.sys.rel.en = false ∧ ∀ g, g < 16 → 16 * d.val + g ∈ w.g2) ∧
    (∀ i, coreIdle s i = true ↔ ∀ p ∈ s.boundPlaces, coreNum (placeCore p) ≠ i) ∧
    (Completes (.powerStateExit (.coreC2 c)) s fun t => coreNum c ∉ t.sys.power.c2 ∧ coreNum c / 16 ∉ t.sys.power.g2 ∧
      coreNum c / 256 ∉ t.sys.power.d1 ∧ t.sys.power.c1 = w.c1 ∧ only t) ∧
    (Completes (.powerStateExit (.die d)) s fun t => d.val ∉ t.sys.power.d1 ∧ t.sys.power.g2 = w.g2 ∧ only t) ∧
    (∀ i, let t := wakeCore s i
      i ∉ t.sys.power.c1 ∧ i ∉ t.sys.power.c2 ∧ i / 16 ∉ t.sys.power.g2 ∧ i / 256 ∉ t.sys.power.d1 ∧ only t) ∧
    (∀ a, ownModule s a = true → let t := wakeHome s a
      let h := (dieOfPa a).toNat
      h ∉ t.sys.power.d1 ∧ (isCanopy a = false → h ∉ t.sys.power.refresh) ∧ only t) ∧
    (flux < 65536 → power < 2 ^ 32 →
      (limited → clocked (.clockStep d ⟨k, flux, power⟩) seen slower) ∧
      (¬ limited → 4 ≤ k → k ≤ 16 → (k = old + 1 ∨ k + 1 = old) → clocked (.clockStep d ⟨k, flux, power⟩) seen k) ∧
      (¬ limited → (k < 4 ∨ 16 < k ∨ (k ≠ old + 1 ∧ k + 1 ≠ old)) → clocked (.clockStep d ⟨k, flux, power⟩) seen old)) ∧
    (1840 ≤ n → Completes (.thermalTrip ⟨d, n⟩) s fun t => t.sys.power = { w with stopped := true } ∧
      t.sys.host = { s.sys.host with i3c := s.sys.host.i3c + 1 } ∧ t.th = s.th ∧ t.mem = s.mem ∧
      (s.agenda = [] → step t = .fault .thermalStop)) ∧
    (1680 ≤ n → n < 1840 → clocked (.thermalTrip ⟨d, n⟩) hot slower) ∧
    (n < 1680 → clocked (.thermalTrip ⟨d, n⟩) hot old) ∧
    (Completes (.ltolWrite f v) s fun t => sparseGet 0xFFFFFFFF t.sys.host.ltol f.val = v ∧ t.mem = s.mem ∧ t.th = s.th) ∧
    (Completes (.scrubPass d lpddr found) s fun t => d.val ∉ t.sys.power.d1 ∧ (lpddr = true → d.val ∉ t.sys.power.refresh) ∧ (∀ g ∈ s.sys.bad, g ∈ t.sys.bad) ∧
      (∀ g ∈ t.sys.bad, inDieMemory s d.val lpddr g = true → .scrub g ∈ t.sys.host.errlog) ∧
      (sparseGet {} t.sys.tele d.val).scrub = (sparseGet {} s.sys.tele d.val).scrub + 1 ∧
      (sparseGet {} t.sys.tele d.val).ue = (sparseGet {} s.sys.tele d.val).ue +
        BitVec.ofNat 32 (t.sys.bad.filter (inDieMemory s d.val lpddr)).length ∧ t.mem = s.mem ∧ t.th = s.th)

/-! ### Firmware -/

/-- R361 to R364, R378, R379: a module that boots begins as from reset, with its flash and fuses; an image runs if it passes the checks of
header, key, version and signature, in that order, and the module is in recovery with the first cause otherwise. The host pushes an image
through canopy; staging verifies, a commit needs that and takes time, in which a loss of power leaves an image that does not verify, and the
fused minimum only rises, to the running version. An attestation report is followed by its signature and the certificate. The model's choices:
that a boot loses memory and begins with the state after reset (log 2); how the header is read, where the parts of a report stand, and that the
payload goes to the first addresses of the foresters' SRAM, cut to 512 KiB (log 22). -/
def Obligations.ImagesAreVerified : Prop :=
  ∀ (s : State) (host : Bool) (len : Nat) (addr size v n0 n1 n2 n3 : Word), Canonical s → sparseWf {} s.sys.foresters = true →
    (s.sys.foresters.all fun e => sparseWf 0 e.2.sram) = true →
    let b := s.sys.boot
    let verdict (img : List Byte) : Option (BitVec 8) := imageCause img b.fusedMin
    let nonce := [n0, n1, n2, n3]
    let settles (t : State) (img : List Byte) : Prop :=
      match verdict img with
      | none => t.sys.boot.state = 3 ∧ t.sys.boot.image = img ∧ t.sys.boot.cause = 0 ∧
        ∀ d, d < 16 → ∀ k (h : k < (imagePayload img).length), k < 524288 →
          sparseGet 0 (sparseGet {} t.sys.foresters d).sram k = (imagePayload img)[k]
      | some c => t.sys.boot.state = 4 ∧ t.sys.boot.cause = c
    let stagedAs (n : Nat) (img : List Byte) : Prop := img.length = n ∧ ∀ k (h : k < img.length),
      anyBad s (stagingPa s + k) 1 = false → img[k] = physByte s (stagingPa s + k)
    let result (t : State) (r : BitVec 8) : Prop := t.sys.mail.result = r ∧ t.sys.mail.busy = false ∧ t.th = s.th
    (Completes (.boot false) s fun t => settles t (b.flash.getD Config.flashImage)) ∧
    (Completes (.boot true) s fun t => t.sys.boot.state = 1) ∧
    (b.state ≠ 0 → Completes (.boot host) s fun t => t.th = State.reset.th ∧ t.others = State.reset.others ∧ t.mem = State.reset.mem ∧
      t.core = State.reset.core ∧ t.sys.work = State.reset.sys.work ∧ t.sys.tenants = State.reset.sys.tenants ∧
      t.sys.boot.flash = b.flash ∧ t.sys.boot.fusedMin = b.fusedMin) ∧
    (staging s = true → len ≤ 2 ^ 28 → Completes (.recoveryPush len) s fun t => ∃ img, stagedAs len img ∧
      settles t img ∧ t.sys.boot.flash = b.flash ∧ t.mem = s.mem) ∧
    ((staging s = false ∨ 2 ^ 28 < len) → NoEffect (.recoveryPush len) s) ∧
    (∀ k, k < 2 ^ 28 → homeOf s (stagingPa s + k) = .mem (stagingPa s + k) ∧ isCanopy (stagingPa s + k) = true) ∧
    (∀ img : List Byte, verdict img =
      if headerOk img = false then some 1
      else if Config.shake256 ((img.drop 0x040).take 1793) ≠ Config.fusedKeyHash then some 2
      else if imageVersion img < b.fusedMin then some 3
      else if Config.falconVerify ((img.drop 0x040).take 1793) (imageDigest img) ((img.drop 0x782).take (imageField img 0x780 2)) = false
      then some 4 else none) ∧
    (b.state ≠ 3 → NoEffect (.stageImage addr size) s ∧ NoEffect .commitStagedImage s ∧ NoEffect (.raiseFusedMinimum v) s ∧
      NoEffect (.attestationReport nonce addr) s) ∧
    (b.state = 3 → s.sys.mail.busy = false →
      (size.toNat ≤ 2 ^ 28 → Completes (.stageImage addr size) s fun t =>
        let img := busBytes s addr.toNat size.toNat
        MemStored s t {} (stagingPa s) img ∧ t.sys.boot = { b with verified := (verdict img).isNone, stageLen := size.toNat } ∧
        result t (if (verdict img).isNone then 0x00 else 0x03)) ∧
      (2 ^ 28 < size.toNat → Completes (.stageImage addr size) s fun t => result t 0x02 ∧ t.sys.boot = b ∧ t.mem = s.mem) ∧
      (b.verified = false → Completes .commitStagedImage s fun t => result t 0x04 ∧ t.sys.boot = b ∧ t.mem = s.mem) ∧
      (b.verified = true → Completes .commitStagedImage s fun t =>
        ∃ img, stagedAs b.stageLen img ∧ t.sys.mail.busy = true ∧ t.mem = s.mem ∧ (∃ torn, t.sys.boot = { b with flash := some torn } ∧ verdict torn ≠ none) ∧
        result (settleMail t) (if (verdict img).isNone then 0x00 else 0x03) ∧ (settleMail t).sys.boot = { b with flash := some img }) ∧
      (v.toNat = imageVersion b.image → b.fusedMin < v.toNat → Completes (.raiseFusedMinimum v) s fun t =>
        t.sys.boot = { b with fusedMin := v.toNat } ∧ result t 0x00 ∧ t.mem = s.mem) ∧
      ((v.toNat ≠ imageVersion b.image ∨ v.toNat ≤ b.fusedMin) → Completes (.raiseFusedMinimum v) s fun t =>
        t.sys.boot = b ∧ result t 0x04 ∧ t.mem = s.mem) ∧
      (Completes (.attestationReport nonce addr) s fun t => result t 0x00 ∧ t.sys.boot = b ∧ t.mem = s.mem ∧
        let bytes := reportOf s nonce ++ Config.deviceSign (reportOf s nonce) ++ Config.certificate
        t.sys.host.posted = s.sys.host.posted ++ bytes.mapIdx fun i x => ⟨addr.toNat + i, x, {}⟩))

/-- R304, R306, R307, R314, R362, R370, R374, R380: mailbox commands, which the head forester takes once it runs its image. One is refused
while another is in progress; a tenant gets a rectangle of whole groves that overlaps no other's, gives cores up once its launches have left
them, and goes once its launches have ended, those that still wait for their admission among them; without draining, its launches are
cancelled first. A resize or a destroy that waits completes then, and not before. That a tenant already present or absent gives result 0x02, and that a destroy without draining takes effect at once, are the
model's readings (log 39, DEDUCED). -/
def Obligations.MailboxCommandsAct : Prop :=
  ∀ (s : State) (tn rect watts entry img idx : Word) (drop : Bool), Canonical s → CanonicalWork s → sparseWf {} s.sys.tenants = true →
    let m := s.sys.mail
    let n := tn.toNat
    let r := rectOf rect
    let old := tenantNum s n
    let settled (code : BitVec 8) (t : State) : Prop := t.sys.mail.result = code ∧ t.sys.mail.busy = false ∧ t.mem = s.mem ∧ t.th = s.th
    let ends (i : Instr) (code : BitVec 8) (Q : State → Prop) : Prop := Completes i s fun t =>
      t.sys.mail.result = code ∧ t.sys.mail.busy = false ∧ t.mem = s.mem ∧ t.th = s.th ∧ Q t
    let others (t : State) : Prop := ∀ k, k ≠ n → tenantNum t k = tenantNum s k
    let kept (t : State) : Prop := t.sys.tenants = s.sys.tenants ∧ t.core = s.core ∧ t.sys.work = s.sys.work
    let removed (t : State) : Prop := others t ∧ (tenantNum t n).live = false ∧ (tenantNum t n).root = none ∧
      (∀ e ∈ t.sys.tlb, e.tenant.toNat ≠ n) ∧ ∀ c, ∀ e ∈ (t.coreBy c).tlb, e.tenant.toNat ≠ n
    (foresters s = false → ∀ i, (i = .setPowerCap watts ∨ i = .createTenant tn rect ∨ i = .resizeTenant tn rect ∨ i = .destroyTenant tn drop ∨
      i = .setCoreSupervisor tn entry ∨ i = .loadCopyCoreRoutine img idx tn) → NoEffect i s) ∧
    (foresters s = true → m.busy = true →
      ∀ i, (i = .setPowerCap watts ∨ i = .createTenant tn rect ∨ i = .resizeTenant tn rect ∨ i = .destroyTenant tn drop ∨
        i = .setCoreSupervisor tn entry ∨ i = .loadCopyCoreRoutine img idx tn) →
      exec i s = .next (s.withSys { s.sys with mail := { m with result := 0x01 } })) ∧
    (n < 16 → m.waits = some (.destroy n) →
      (tenantBusy s n = true → settleMail s = s) ∧ (tenantBusy s n = false → removed (settleMail s) ∧ settled 0x00 (settleMail s))) ∧
    (n < 16 → m.waits = some (.resize n r.x r.y r.w r.h) →
      (launchOutside s n r = true → settleMail s = s) ∧
      (launchOutside s n r = false → others (settleMail s) ∧ settled 0x00 (settleMail s) ∧
        tenantNum (settleMail s) n = { old with x0 := r.x, y0 := r.y, w := r.w, h := r.h })) ∧
    (foresters s = true → m.busy = false →
      (1000 ≤ watts.toNat → watts.toNat ≤ 5600 → ends (.setPowerCap watts) 0x00 fun t => t.sys.mail.cap = watts.toNat ∧ kept t) ∧
      ((watts.toNat < 1000 ∨ 5600 < watts.toNat) → ends (.setPowerCap watts) 0x02 fun t => t.sys.mail.cap = m.cap ∧ kept t) ∧
      (n < 16 → old.live = false → rectAllowed s n r = true → ends (.createTenant tn rect) 0x00 fun t => others t ∧ t.core = s.core ∧
        ∃ root, tenantNum t n = { old with live := true, x0 := r.x, y0 := r.y, w := r.w, h := r.h, root := some root } ∧
          root % 65536 = 0 ∧ root / 2 ^ 48 = s.sys.host.mid.toNat ∧ root % 2 ^ 48 < 0xC00000000) ∧
      ((16 ≤ n ∨ old.live = true ∨ rectAllowed s n r = false) → ends (.createTenant tn rect) 0x02 kept) ∧
      (n < 16 → old.live = true → rectAllowed s n r = true →
        (launchOutside s n r = false → ends (.resizeTenant tn rect) 0x00 fun t => others t ∧ t.core = s.core ∧
          tenantNum t n = { old with x0 := r.x, y0 := r.y, w := r.w, h := r.h }) ∧
        (launchOutside s n r = true → Completes (.resizeTenant tn rect) s fun t => kept t ∧ t.sys.mail.busy = true)) ∧
      ((16 ≤ n ∨ old.live = false ∨ rectAllowed s n r = false) → ends (.resizeTenant tn rect) 0x02 kept) ∧
      (n < 16 → old.live = true →
        (tenantBusy s n = false → ends (.destroyTenant tn drop) 0x00 removed) ∧
        (tenantBusy s n = true → Completes (.destroyTenant tn false) s fun t => kept t ∧ t.sys.mail.busy = true) ∧
        (tenantBusy s n = true → Completes (.destroyTenant tn true) s fun t => t.sys.mail.busy = true ∧ others t ∧
          tenantNum t n = { old with live := false } ∧
          (∀ lid, hasLaunch s lid = true → (s.launch lid).tenant.toNat = n → (s.launch lid).record.done = false →
            (t.launch lid).cancelling = true) ∧
          ∀ d, ∀ q ∈ deviceQueue t d, (jobTenant q.job).toNat = n → q.cancelled = true)) ∧
      ((16 ≤ n ∨ old.live = false) → ends (.destroyTenant tn drop) 0x02 kept) ∧
      (n < 16 → ends (.setCoreSupervisor tn entry) 0x00 fun t => others t ∧ tenantNum t n = { old with entry := entry ||| 1 } ∧
        ∀ c, inRect old c = true → (t.coreBy c).icache = []) ∧
      (16 ≤ n → ends (.setCoreSupervisor tn entry) 0x02 kept) ∧
      (idx.toNat ≤ 0xEF → n < 16 → old.live = true → (∀ g ∈ rectGroves old, routineInUse s g idx.toNat = false) →
        sparseWf 0 m.routines = true → ends (.loadCopyCoreRoutine img idx tn) 0x00 fun t => kept t ∧
          ∀ g ∈ rectGroves old, sparseGet 0 t.sys.mail.routines (g * 256 + idx.toNat) = BitVec.ofNat 64 (s.fresh + 1)) ∧
      ((0xEF < idx.toNat ∨ 16 ≤ n ∨ old.live = false) → ends (.loadCopyCoreRoutine img idx tn) 0x02 kept))
end

