-- ==== Sys2Proof/Laws/Sparse.lean ====
section
/-! SUPPORT. Sparse data: canonical form is kept by every write, a read after a write, and equality by reads. -/

namespace Sys2Proof.Machine

variable {α : Type} [DecidableEq α] {d : α}

omit [DecidableEq α] in
@[simp] theorem sparseGet_nil (k : Nat) : sparseGet d [] k = d := rfl

@[simp] theorem sparseWf_nil : sparseWf d ([] : Sparse α) = true := rfl

theorem sparseWfFrom_cons {lo i : Nat} {v : α} {t : Sparse α} :
    sparseWfFrom d lo ((i, v) :: t) = true ↔ lo ≤ i ∧ v ≠ d ∧ sparseWfFrom d (i + 1) t = true := by
  simp [sparseWfFrom, and_assoc]

/-- A list canonical from a bound on is canonical from every lower one. -/
theorem sparseWfFrom_mono {lo lo' : Nat} (h : lo' ≤ lo) {m : Sparse α} (w : sparseWfFrom d lo m = true) :
    sparseWfFrom d lo' m = true := by
  cases m with
  | nil => rfl
  | cons x t =>
    obtain ⟨a, b, c⟩ := sparseWfFrom_cons.1 w
    exact sparseWfFrom_cons.2 ⟨Nat.le_trans h a, b, c⟩

/-- Nothing is listed below the bound. -/
theorem sparseGet_below {lo k : Nat} {m : Sparse α} (w : sparseWfFrom d lo m = true) (h : k < lo) : sparseGet d m k = d := by
  cases m with
  | nil => rfl
  | cons x t =>
    obtain ⟨a, -, -⟩ := sparseWfFrom_cons.1 w
    simp only [sparseGet]
    rw [if_pos (Nat.lt_of_lt_of_le h a)]

theorem sparsePut_wfFrom {lo k : Nat} (v : α) (hk : lo ≤ k) {m : Sparse α} (w : sparseWfFrom d lo m = true) :
    sparseWfFrom d lo (sparsePut d m k v) = true := by
  induction m generalizing lo with
  | nil =>
    simp only [sparsePut]
    split
    · rfl
    · next h => exact sparseWfFrom_cons.2 ⟨hk, h, rfl⟩
  | cons x t ih =>
    obtain ⟨a, b, c⟩ := sparseWfFrom_cons.1 w
    simp only [sparsePut]
    split
    · next h =>
      split
      · exact w
      · next hv => exact sparseWfFrom_cons.2 ⟨hk, hv, sparseWfFrom_cons.2 ⟨h, b, c⟩⟩
    · split
      · next h e =>
        split
        · exact sparseWfFrom_mono (by omega) c
        · next hv => exact sparseWfFrom_cons.2 ⟨hk, hv, e ▸ c⟩
      · exact sparseWfFrom_cons.2 ⟨a, b, ih (by omega) c⟩

/-- Every write keeps the canonical form. -/
theorem sparsePut_wf (k : Nat) (v : α) {m : Sparse α} (w : sparseWf d m = true) : sparseWf d (sparsePut d m k v) = true :=
  sparsePut_wfFrom v (Nat.zero_le k) w

theorem sparseGet_put_same_from {lo k : Nat} (v : α) {m : Sparse α} (w : sparseWfFrom d lo m = true) :
    sparseGet d (sparsePut d m k v) k = v := by
  induction m generalizing lo with
  | nil => simp only [sparsePut]; split <;> simp_all [sparseGet]
  | cons x t ih =>
    obtain ⟨a, b, c⟩ := sparseWfFrom_cons.1 w
    simp only [sparsePut]
    split
    · next h => split <;> simp_all [sparseGet]
    · split
      · next h e =>
        split
        · next hv => rw [sparseGet_below c (by omega), hv]
        · simp [sparseGet]
      · next h e => simp only [sparseGet]; rw [if_neg h, if_neg e]; exact ih c

/-- A read after a write to the same place gives the value written. -/
theorem sparseGet_put_same (k : Nat) (v : α) {m : Sparse α} (w : sparseWf d m = true) : sparseGet d (sparsePut d m k v) k = v :=
  sparseGet_put_same_from v w

theorem sparseGet_put_other_from {lo k j : Nat} (v : α) (h : j ≠ k) {m : Sparse α} (w : sparseWfFrom d lo m = true) :
    sparseGet d (sparsePut d m k v) j = sparseGet d m j := by
  induction m generalizing lo with
  | nil =>
    simp only [sparsePut]
    split
    · rfl
    · simp only [sparseGet]; split <;> simp_all
  | cons x t ih =>
    obtain ⟨a, b, c⟩ := sparseWfFrom_cons.1 w
    simp only [sparsePut]
    split
    · next hk =>
      split
      · rfl
      · simp only [sparseGet]
        split
        · next hj => rw [if_pos (Nat.lt_trans hj hk)]
        · rfl
    · split
      · next hk e =>
        split
        · simp only [sparseGet]
          split
          · next hj => exact sparseGet_below c (by omega)
          · rw [if_neg (by omega)]
        · subst e; simp [sparseGet, h]
      · simp only [sparseGet]
        split
        · rfl
        · split
          · rfl
          · exact ih c

/-- A write leaves every other place alone. -/
theorem sparseGet_put_other {k j : Nat} (v : α) (h : j ≠ k) {m : Sparse α} (w : sparseWf d m = true) :
    sparseGet d (sparsePut d m k v) j = sparseGet d m j :=
  sparseGet_put_other_from v h w

theorem sparse_ext_from {lo : Nat} {m n : Sparse α} (hm : sparseWfFrom d lo m = true) (hn : sparseWfFrom d lo n = true)
    (h : ∀ k, sparseGet d m k = sparseGet d n k) : m = n := by
  induction m generalizing lo n with
  | nil =>
    cases n with
    | nil => rfl
    | cons y u =>
      obtain ⟨-, b, -⟩ := sparseWfFrom_cons.1 hn
      have := h y.1
      simp [sparseGet] at this
      exact absurd this.symm b
  | cons x t ih =>
    obtain ⟨-, b, c⟩ := sparseWfFrom_cons.1 hm
    cases n with
    | nil =>
      have := h x.1
      simp [sparseGet] at this
      exact absurd this b
    | cons y u =>
      obtain ⟨-, b', c'⟩ := sparseWfFrom_cons.1 hn
      have hx := h x.1
      have hy := h y.1
      simp only [sparseGet, Nat.lt_irrefl, if_false, if_true] at hx hy
      have e : x.1 = y.1 := by
        rcases Nat.lt_trichotomy x.1 y.1 with l | l | l
        · rw [if_pos l] at hx; exact absurd hx b
        · exact l
        · rw [if_pos l] at hy; exact absurd hy.symm b'
      have v : x.2 = y.2 := by rw [if_neg (by omega), if_pos e] at hx; exact hx
      have ht : t = u := by
        apply ih c (e ▸ c')
        intro k
        by_cases hk : k < x.1 + 1
        · rw [sparseGet_below c hk, sparseGet_below c' (by omega)]
        · have := h k
          simp only [sparseGet] at this
          rwa [if_neg (by omega), if_neg (by omega), if_neg (by omega), if_neg (by omega)] at this
      subst ht
      exact congrArg (· :: t) (Prod.ext e v)

/-- Canonical data that read the same everywhere are the same list. -/
theorem sparse_ext {m n : Sparse α} (hm : sparseWf d m = true) (hn : sparseWf d n = true)
    (h : ∀ k, sparseGet d m k = sparseGet d n k) : m = n :=
  sparse_ext_from hm hn h

theorem sparseMap_wfFrom {lo : Nat} (f : Nat → α → α) {m : Sparse α} (w : sparseWfFrom d lo m = true) :
    sparseWfFrom d lo (sparseMap d f m) = true := by
  induction m generalizing lo with
  | nil => rfl
  | cons x t ih =>
    obtain ⟨a, -, c⟩ := sparseWfFrom_cons.1 w
    simp only [sparseMap]
    split
    · exact sparseWfFrom_mono (by omega) (ih c)
    · next h => exact sparseWfFrom_cons.2 ⟨a, h, ih c⟩

/-- Changing every listed datum keeps the canonical form. -/
theorem sparseMap_wf (f : Nat → α → α) {m : Sparse α} (w : sparseWf d m = true) : sparseWf d (sparseMap d f m) = true :=
  sparseMap_wfFrom f w

/-- Leaving out listed data keeps the canonical form. -/
theorem filter_wfFrom {lo : Nat} (p : Nat × α → Bool) {m : Sparse α} (w : sparseWfFrom d lo m = true) :
    sparseWfFrom d lo (m.filter p) = true := by
  induction m generalizing lo with
  | nil => rfl
  | cons x t ih =>
    obtain ⟨a, b, c⟩ := sparseWfFrom_cons.1 w
    rw [List.filter_cons]
    split
    · exact sparseWfFrom_cons.2 ⟨a, b, ih c⟩
    · exact sparseWfFrom_mono (by omega) (ih c)

/-! ### Bytes -/

theorem putBytes_wf (bs : List Byte) {m : Sparse Byte} (a : Nat) (w : sparseWf 0 m = true) : sparseWf 0 (putBytes m a bs) = true := by
  induction bs generalizing m a with
  | nil => exact w
  | cons b t ih => exact ih (a + 1) (sparsePut_wf a b w)

/-- Bytes outside those stored read as before. -/
theorem sparseGet_putBytes_other (bs : List Byte) {m : Sparse Byte} (a j : Nat) (w : sparseWf 0 m = true)
    (h : j < a ∨ a + bs.length ≤ j) : sparseGet 0 (putBytes m a bs) j = sparseGet 0 m j := by
  induction bs generalizing m a with
  | nil => rfl
  | cons b t ih =>
    simp only [List.length_cons] at h
    rw [putBytes, ih (a + 1) (sparsePut_wf a b w) (by omega), sparseGet_put_other b (by omega) w]

/-- A byte stored reads back. -/
theorem sparseGet_putBytes_same (bs : List Byte) {m : Sparse Byte} (a i : Nat) (w : sparseWf 0 m = true) (h : i < bs.length) :
    sparseGet 0 (putBytes m a bs) (a + i) = bs[i] := by
  induction bs generalizing m a i with
  | nil => simp at h
  | cons b t ih =>
    cases i with
    | zero =>
      show sparseGet 0 (putBytes (sparsePut 0 m a b) (a + 1) t) a = b
      rw [sparseGet_putBytes_other t (a + 1) a (sparsePut_wf a b w) (by omega), sparseGet_put_same a b w]
    | succ i =>
      rw [putBytes, show a + (i + 1) = a + 1 + i by omega, ih (a + 1) i (sparsePut_wf a b w) (by simpa using h)]
      rfl

@[simp] theorem bytesAt_length (m : Sparse Byte) (a n : Nat) : (bytesAt m a n).length = n := by
  induction n generalizing a with
  | zero => rfl
  | succ n ih => simp [bytesAt, ih]

@[simp] theorem toBytes_length (n v : Nat) : (toBytes n v).length = n := by
  induction n generalizing v with
  | zero => rfl
  | succ n ih => simp [toBytes, ih]

@[simp] theorem wordBytes_length (w : Word) : (wordBytes w).length = 8 := toBytes_length 8 w.toNat

/-- The bytes of a number give it back, cut at their count. -/
theorem ofBytes_toBytes (n v : Nat) : ofBytes (toBytes n v) = v % 256 ^ n := by
  induction n generalizing v with
  | zero => simp [toBytes, ofBytes, Nat.mod_one]
  | succ n ih =>
    rw [toBytes, ofBytes, ih, BitVec.toNat_ofNat, show (256 : Nat) ^ (n + 1) = 256 * 256 ^ n by rw [Nat.pow_succ, Nat.mul_comm],
      Nat.mod_mul]

@[simp] theorem wordOf_wordBytes (w : Word) : wordOf (wordBytes w) = w := by
  unfold wordOf wordBytes
  rw [ofBytes_toBytes]
  apply BitVec.eq_of_toNat_eq
  have := w.isLt
  rw [BitVec.toNat_ofNat]
  omega

/-- What was stored reads back as one run. -/
theorem bytesAt_putBytes (bs : List Byte) {m : Sparse Byte} (a : Nat) (w : sparseWf 0 m = true) :
    bytesAt (putBytes m a bs) a bs.length = bs := by
  induction bs generalizing m a with
  | nil => rfl
  | cons b t ih =>
    have hb := sparseGet_putBytes_same (b :: t) a 0 w (by simp)
    simp only [List.length_cons, bytesAt]
    rw [show putBytes m a (b :: t) = putBytes (sparsePut 0 m a b) (a + 1) t from rfl] at hb ⊢
    rw [ih (a + 1) (sparsePut_wf a b w)]
    simpa using hb

end Sys2Proof.Machine
end

