-- ==== Sys2Proof/Laws/State.lean ====
section
/-! SUPPORT. What each setter of the state, of a thread and of a register does to every field. -/

namespace Sys2Proof.Machine

/-! ### Setters of the state -/

@[simp] theorem State.withTh_agenda (s : State) (x : Thread) : (s.withTh x).agenda = s.agenda := rfl
@[simp] theorem State.withTh_here (s : State) (x : Thread) : (s.withTh x).here = s.here := rfl
@[simp] theorem State.withTh_th (s : State) (x : Thread) : (s.withTh x).th = x := rfl
@[simp] theorem State.withTh_core (s : State) (x : Thread) : (s.withTh x).core = s.core := rfl
@[simp] theorem State.withTh_others (s : State) (x : Thread) : (s.withTh x).others = s.others := rfl
@[simp] theorem State.withTh_cores (s : State) (x : Thread) : (s.withTh x).cores = s.cores := rfl
@[simp] theorem State.withTh_mem (s : State) (x : Thread) : (s.withTh x).mem = s.mem := rfl
@[simp] theorem State.withTh_sys (s : State) (x : Thread) : (s.withTh x).sys = s.sys := rfl
@[simp] theorem State.withTh_fresh (s : State) (x : Thread) : (s.withTh x).fresh = s.fresh := rfl

@[simp] theorem State.withCore_agenda (s : State) (x : Core) : (s.withCore x).agenda = s.agenda := rfl
@[simp] theorem State.withCore_here (s : State) (x : Core) : (s.withCore x).here = s.here := rfl
@[simp] theorem State.withCore_th (s : State) (x : Core) : (s.withCore x).th = s.th := rfl
@[simp] theorem State.withCore_core (s : State) (x : Core) : (s.withCore x).core = x := rfl
@[simp] theorem State.withCore_others (s : State) (x : Core) : (s.withCore x).others = s.others := rfl
@[simp] theorem State.withCore_cores (s : State) (x : Core) : (s.withCore x).cores = s.cores := rfl
@[simp] theorem State.withCore_mem (s : State) (x : Core) : (s.withCore x).mem = s.mem := rfl
@[simp] theorem State.withCore_sys (s : State) (x : Core) : (s.withCore x).sys = s.sys := rfl
@[simp] theorem State.withCore_fresh (s : State) (x : Core) : (s.withCore x).fresh = s.fresh := rfl

@[simp] theorem State.withMem_agenda (s : State) (x : List Host.Cell) : (s.withMem x).agenda = s.agenda := rfl
@[simp] theorem State.withMem_here (s : State) (x : List Host.Cell) : (s.withMem x).here = s.here := rfl
@[simp] theorem State.withMem_th (s : State) (x : List Host.Cell) : (s.withMem x).th = s.th := rfl
@[simp] theorem State.withMem_core (s : State) (x : List Host.Cell) : (s.withMem x).core = s.core := rfl
@[simp] theorem State.withMem_others (s : State) (x : List Host.Cell) : (s.withMem x).others = s.others := rfl
@[simp] theorem State.withMem_cores (s : State) (x : List Host.Cell) : (s.withMem x).cores = s.cores := rfl
@[simp] theorem State.withMem_mem (s : State) (x : List Host.Cell) : (s.withMem x).mem = x := rfl
@[simp] theorem State.withMem_sys (s : State) (x : List Host.Cell) : (s.withMem x).sys = s.sys := rfl
@[simp] theorem State.withMem_fresh (s : State) (x : List Host.Cell) : (s.withMem x).fresh = s.fresh := rfl

@[simp] theorem State.withSys_agenda (s : State) (x : Module) : (s.withSys x).agenda = s.agenda := rfl
@[simp] theorem State.withSys_here (s : State) (x : Module) : (s.withSys x).here = s.here := rfl
@[simp] theorem State.withSys_th (s : State) (x : Module) : (s.withSys x).th = s.th := rfl
@[simp] theorem State.withSys_core (s : State) (x : Module) : (s.withSys x).core = s.core := rfl
@[simp] theorem State.withSys_others (s : State) (x : Module) : (s.withSys x).others = s.others := rfl
@[simp] theorem State.withSys_cores (s : State) (x : Module) : (s.withSys x).cores = s.cores := rfl
@[simp] theorem State.withSys_mem (s : State) (x : Module) : (s.withSys x).mem = s.mem := rfl
@[simp] theorem State.withSys_sys (s : State) (x : Module) : (s.withSys x).sys = x := rfl
@[simp] theorem State.withSys_fresh (s : State) (x : Module) : (s.withSys x).fresh = s.fresh := rfl

@[simp] theorem State.withWork_agenda (s : State) (x : Work) : (s.withWork x).agenda = s.agenda := rfl
@[simp] theorem State.withWork_here (s : State) (x : Work) : (s.withWork x).here = s.here := rfl
@[simp] theorem State.withWork_th (s : State) (x : Work) : (s.withWork x).th = s.th := rfl
@[simp] theorem State.withWork_core (s : State) (x : Work) : (s.withWork x).core = s.core := rfl
@[simp] theorem State.withWork_others (s : State) (x : Work) : (s.withWork x).others = s.others := rfl
@[simp] theorem State.withWork_cores (s : State) (x : Work) : (s.withWork x).cores = s.cores := rfl
@[simp] theorem State.withWork_mem (s : State) (x : Work) : (s.withWork x).mem = s.mem := rfl
@[simp] theorem State.withWork_sys (s : State) (x : Work) : (s.withWork x).sys = { s.sys with work := x } := rfl
@[simp] theorem State.withWork_fresh (s : State) (x : Work) : (s.withWork x).fresh = s.fresh := rfl

@[simp] theorem State.withHost_agenda (s : State) (x : HostIf) : (s.withHost x).agenda = s.agenda := rfl
@[simp] theorem State.withHost_here (s : State) (x : HostIf) : (s.withHost x).here = s.here := rfl
@[simp] theorem State.withHost_th (s : State) (x : HostIf) : (s.withHost x).th = s.th := rfl
@[simp] theorem State.withHost_core (s : State) (x : HostIf) : (s.withHost x).core = s.core := rfl
@[simp] theorem State.withHost_others (s : State) (x : HostIf) : (s.withHost x).others = s.others := rfl
@[simp] theorem State.withHost_cores (s : State) (x : HostIf) : (s.withHost x).cores = s.cores := rfl
@[simp] theorem State.withHost_mem (s : State) (x : HostIf) : (s.withHost x).mem = s.mem := rfl
@[simp] theorem State.withHost_sys (s : State) (x : HostIf) : (s.withHost x).sys = { s.sys with host := x } := rfl
@[simp] theorem State.withHost_fresh (s : State) (x : HostIf) : (s.withHost x).fresh = s.fresh := rfl

@[simp] theorem State.withLayers_agenda (s : State) (x : Layers) : (s.withLayers x).agenda = s.agenda := rfl
@[simp] theorem State.withLayers_here (s : State) (x : Layers) : (s.withLayers x).here = s.here := rfl
@[simp] theorem State.withLayers_th (s : State) (x : Layers) : (s.withLayers x).th = s.th := rfl
@[simp] theorem State.withLayers_core (s : State) (x : Layers) : (s.withLayers x).core = s.core := rfl
@[simp] theorem State.withLayers_others (s : State) (x : Layers) : (s.withLayers x).others = s.others := rfl
@[simp] theorem State.withLayers_cores (s : State) (x : Layers) : (s.withLayers x).cores = s.cores := rfl
@[simp] theorem State.withLayers_mem (s : State) (x : Layers) : (s.withLayers x).mem = s.mem := rfl
@[simp] theorem State.withLayers_sys (s : State) (x : Layers) : (s.withLayers x).sys = { s.sys with layers := x } := rfl
@[simp] theorem State.withLayers_fresh (s : State) (x : Layers) : (s.withLayers x).fresh = s.fresh := rfl

@[simp] theorem State.withRel_agenda (s : State) (x : Release) : (s.withRel x).agenda = s.agenda := rfl
@[simp] theorem State.withRel_here (s : State) (x : Release) : (s.withRel x).here = s.here := rfl
@[simp] theorem State.withRel_th (s : State) (x : Release) : (s.withRel x).th = s.th := rfl
@[simp] theorem State.withRel_core (s : State) (x : Release) : (s.withRel x).core = s.core := rfl
@[simp] theorem State.withRel_others (s : State) (x : Release) : (s.withRel x).others = s.others := rfl
@[simp] theorem State.withRel_cores (s : State) (x : Release) : (s.withRel x).cores = s.cores := rfl
@[simp] theorem State.withRel_mem (s : State) (x : Release) : (s.withRel x).mem = s.mem := rfl
@[simp] theorem State.withRel_sys (s : State) (x : Release) : (s.withRel x).sys = { s.sys with rel := x } := rfl
@[simp] theorem State.withRel_fresh (s : State) (x : Release) : (s.withRel x).fresh = s.fresh := rfl

@[simp] theorem State.withRf_agenda (s : State) (x : Regs) : (s.withRf x).agenda = s.agenda := rfl
@[simp] theorem State.withRf_here (s : State) (x : Regs) : (s.withRf x).here = s.here := rfl
@[simp] theorem State.withRf_th (s : State) (x : Regs) : (s.withRf x).th = { s.th with rf := x } := rfl
@[simp] theorem State.withRf_core (s : State) (x : Regs) : (s.withRf x).core = s.core := rfl
@[simp] theorem State.withRf_others (s : State) (x : Regs) : (s.withRf x).others = s.others := rfl
@[simp] theorem State.withRf_cores (s : State) (x : Regs) : (s.withRf x).cores = s.cores := rfl
@[simp] theorem State.withRf_mem (s : State) (x : Regs) : (s.withRf x).mem = s.mem := rfl
@[simp] theorem State.withRf_sys (s : State) (x : Regs) : (s.withRf x).sys = s.sys := rfl
@[simp] theorem State.withRf_fresh (s : State) (x : Regs) : (s.withRf x).fresh = s.fresh := rfl

@[simp] theorem State.withSr_agenda (s : State) (x : Sregs) : (s.withSr x).agenda = s.agenda := rfl
@[simp] theorem State.withSr_here (s : State) (x : Sregs) : (s.withSr x).here = s.here := rfl
@[simp] theorem State.withSr_th (s : State) (x : Sregs) : (s.withSr x).th = { s.th with sr := x } := rfl
@[simp] theorem State.withSr_core (s : State) (x : Sregs) : (s.withSr x).core = s.core := rfl
@[simp] theorem State.withSr_others (s : State) (x : Sregs) : (s.withSr x).others = s.others := rfl
@[simp] theorem State.withSr_cores (s : State) (x : Sregs) : (s.withSr x).cores = s.cores := rfl
@[simp] theorem State.withSr_mem (s : State) (x : Sregs) : (s.withSr x).mem = s.mem := rfl
@[simp] theorem State.withSr_sys (s : State) (x : Sregs) : (s.withSr x).sys = s.sys := rfl
@[simp] theorem State.withSr_fresh (s : State) (x : Sregs) : (s.withSr x).fresh = s.fresh := rfl

@[simp] theorem State.withEng_agenda (s : State) (x : Engines) : (s.withEng x).agenda = s.agenda := rfl
@[simp] theorem State.withEng_here (s : State) (x : Engines) : (s.withEng x).here = s.here := rfl
@[simp] theorem State.withEng_th (s : State) (x : Engines) : (s.withEng x).th = { s.th with eng := x } := rfl
@[simp] theorem State.withEng_core (s : State) (x : Engines) : (s.withEng x).core = s.core := rfl
@[simp] theorem State.withEng_others (s : State) (x : Engines) : (s.withEng x).others = s.others := rfl
@[simp] theorem State.withEng_cores (s : State) (x : Engines) : (s.withEng x).cores = s.cores := rfl
@[simp] theorem State.withEng_mem (s : State) (x : Engines) : (s.withEng x).mem = s.mem := rfl
@[simp] theorem State.withEng_sys (s : State) (x : Engines) : (s.withEng x).sys = s.sys := rfl
@[simp] theorem State.withEng_fresh (s : State) (x : Engines) : (s.withEng x).fresh = s.fresh := rfl

/-! ### Registers of the thread in focus -/

@[simp] theorem State.setReg_agenda (s : State) (d : Reg) (v : Word) : (s.setReg d v).agenda = s.agenda := rfl
@[simp] theorem State.setReg_here (s : State) (d : Reg) (v : Word) : (s.setReg d v).here = s.here := rfl
@[simp] theorem State.setReg_th (s : State) (d : Reg) (v : Word) : (s.setReg d v).th = { s.th with rf := putReg s.th.rf d v } := rfl
@[simp] theorem State.setReg_core (s : State) (d : Reg) (v : Word) : (s.setReg d v).core = s.core := rfl
@[simp] theorem State.setReg_others (s : State) (d : Reg) (v : Word) : (s.setReg d v).others = s.others := rfl
@[simp] theorem State.setReg_cores (s : State) (d : Reg) (v : Word) : (s.setReg d v).cores = s.cores := rfl
@[simp] theorem State.setReg_mem (s : State) (d : Reg) (v : Word) : (s.setReg d v).mem = s.mem := rfl
@[simp] theorem State.setReg_sys (s : State) (d : Reg) (v : Word) : (s.setReg d v).sys = s.sys := rfl
@[simp] theorem State.setReg_fresh (s : State) (d : Reg) (v : Word) : (s.setReg d v).fresh = s.fresh := rfl

@[simp] theorem State.setCond_agenda (s : State) (c : CReg) (v : Bool) : (s.setCond c v).agenda = s.agenda := rfl
@[simp] theorem State.setCond_here (s : State) (c : CReg) (v : Bool) : (s.setCond c v).here = s.here := rfl
@[simp] theorem State.setCond_th (s : State) (c : CReg) (v : Bool) : (s.setCond c v).th = { s.th with rf := { s.th.rf with c := s.th.rf.c.set c.val v } } := rfl
@[simp] theorem State.setCond_core (s : State) (c : CReg) (v : Bool) : (s.setCond c v).core = s.core := rfl
@[simp] theorem State.setCond_others (s : State) (c : CReg) (v : Bool) : (s.setCond c v).others = s.others := rfl
@[simp] theorem State.setCond_cores (s : State) (c : CReg) (v : Bool) : (s.setCond c v).cores = s.cores := rfl
@[simp] theorem State.setCond_mem (s : State) (c : CReg) (v : Bool) : (s.setCond c v).mem = s.mem := rfl
@[simp] theorem State.setCond_sys (s : State) (c : CReg) (v : Bool) : (s.setCond c v).sys = s.sys := rfl
@[simp] theorem State.setCond_fresh (s : State) (c : CReg) (v : Bool) : (s.setCond c v).fresh = s.fresh := rfl

@[simp] theorem State.setPtr_agenda (s : State) (p : PReg) (v : Ptr) : (s.setPtr p v).agenda = s.agenda := rfl
@[simp] theorem State.setPtr_here (s : State) (p : PReg) (v : Ptr) : (s.setPtr p v).here = s.here := rfl
@[simp] theorem State.setPtr_th (s : State) (p : PReg) (v : Ptr) : (s.setPtr p v).th = { s.th with rf := { s.th.rf with p := s.th.rf.p.set p.val v } } := rfl
@[simp] theorem State.setPtr_core (s : State) (p : PReg) (v : Ptr) : (s.setPtr p v).core = s.core := rfl
@[simp] theorem State.setPtr_others (s : State) (p : PReg) (v : Ptr) : (s.setPtr p v).others = s.others := rfl
@[simp] theorem State.setPtr_cores (s : State) (p : PReg) (v : Ptr) : (s.setPtr p v).cores = s.cores := rfl
@[simp] theorem State.setPtr_mem (s : State) (p : PReg) (v : Ptr) : (s.setPtr p v).mem = s.mem := rfl
@[simp] theorem State.setPtr_sys (s : State) (p : PReg) (v : Ptr) : (s.setPtr p v).sys = s.sys := rfl
@[simp] theorem State.setPtr_fresh (s : State) (p : PReg) (v : Ptr) : (s.setPtr p v).fresh = s.fresh := rfl

@[simp] theorem State.setZ_agenda (s : State) (z : ZReg) (v : ZVar) : (s.setZ z v).agenda = s.agenda := rfl
@[simp] theorem State.setZ_here (s : State) (z : ZReg) (v : ZVar) : (s.setZ z v).here = s.here := rfl
@[simp] theorem State.setZ_th (s : State) (z : ZReg) (v : ZVar) : (s.setZ z v).th = { s.th with rf := { s.th.rf with z := s.th.rf.z.set z.val v } } := rfl
@[simp] theorem State.setZ_core (s : State) (z : ZReg) (v : ZVar) : (s.setZ z v).core = s.core := rfl
@[simp] theorem State.setZ_others (s : State) (z : ZReg) (v : ZVar) : (s.setZ z v).others = s.others := rfl
@[simp] theorem State.setZ_cores (s : State) (z : ZReg) (v : ZVar) : (s.setZ z v).cores = s.cores := rfl
@[simp] theorem State.setZ_mem (s : State) (z : ZReg) (v : ZVar) : (s.setZ z v).mem = s.mem := rfl
@[simp] theorem State.setZ_sys (s : State) (z : ZReg) (v : ZVar) : (s.setZ z v).sys = s.sys := rfl
@[simp] theorem State.setZ_fresh (s : State) (z : ZReg) (v : ZVar) : (s.setZ z v).fresh = s.fresh := rfl

@[simp] theorem State.orFlags_agenda (s : State) (f : BitVec 5) : (s.orFlags f).agenda = s.agenda := rfl
@[simp] theorem State.orFlags_here (s : State) (f : BitVec 5) : (s.orFlags f).here = s.here := rfl
@[simp] theorem State.orFlags_th (s : State) (f : BitVec 5) : (s.orFlags f).th = { s.th with sr := { s.th.sr with flags := s.th.sr.flags ||| f } } := rfl
@[simp] theorem State.orFlags_core (s : State) (f : BitVec 5) : (s.orFlags f).core = s.core := rfl
@[simp] theorem State.orFlags_others (s : State) (f : BitVec 5) : (s.orFlags f).others = s.others := rfl
@[simp] theorem State.orFlags_cores (s : State) (f : BitVec 5) : (s.orFlags f).cores = s.cores := rfl
@[simp] theorem State.orFlags_mem (s : State) (f : BitVec 5) : (s.orFlags f).mem = s.mem := rfl
@[simp] theorem State.orFlags_sys (s : State) (f : BitVec 5) : (s.orFlags f).sys = s.sys := rfl
@[simp] theorem State.orFlags_fresh (s : State) (f : BitVec 5) : (s.orFlags f).fresh = s.fresh := rfl

/-! ### A thread after an executed instruction -/

@[simp] theorem retireTh_bound (t : Thread) (r : Rotation) (k : Option Word) (n : Bool) :
    (retireTh t r k n).bound = t.bound := rfl
@[simp] theorem retireTh_rot (t : Thread) (r : Rotation) (k : Option Word) (n : Bool) :
    (retireTh t r k n).rot = r := rfl
@[simp] theorem retireTh_pcq (t : Thread) (r : Rotation) (k : Option Word) (n : Bool) :
    (retireTh t r k n).pcq = stepQueue t.pcq k n := rfl
@[simp] theorem retireTh_rf (t : Thread) (r : Rotation) (k : Option Word) (n : Bool) :
    (retireTh t r k n).rf = t.rf := rfl
@[simp] theorem retireTh_sr (t : Thread) (r : Rotation) (k : Option Word) (n : Bool) :
    (retireTh t r k n).sr = t.sr := rfl
@[simp] theorem retireTh_id (t : Thread) (r : Rotation) (k : Option Word) (n : Bool) :
    (retireTh t r k n).id = { t.id with wdcount := countOne t } := rfl
@[simp] theorem retireTh_ch (t : Thread) (r : Rotation) (k : Option Word) (n : Bool) :
    (retireTh t r k n).ch = { t.ch with waitTurns := 0 } := rfl
@[simp] theorem retireTh_eng (t : Thread) (r : Rotation) (k : Option Word) (n : Bool) :
    (retireTh t r k n).eng = t.eng := rfl
@[simp] theorem retireTh_lat (t : Thread) (r : Rotation) (k : Option Word) (n : Bool) :
    (retireTh t r k n).lat = { t.lat with watchdog := t.lat.watchdog || (!t.sr.se && decide (t.sr.wdlim.toNat ≤ countOne t)) } := rfl
@[simp] theorem retireTh_gang (t : Thread) (r : Rotation) (k : Option Word) (n : Bool) :
    (retireTh t r k n).gang = t.gang := rfl
@[simp] theorem retireTh_held (t : Thread) (r : Rotation) (k : Option Word) (n : Bool) :
    (retireTh t r k n).held = t.held := rfl
@[simp] theorem retireTh_stream (t : Thread) (r : Rotation) (k : Option Word) (n : Bool) :
    (retireTh t r k n).stream = t.stream := rfl

/-! ### The queue's step -/

@[simp] theorem stepQueue_e0 (q : PcQueue) (k : Option Word) (n : Bool) :
    (stepQueue q k n).e0 = { q.e1 with annul := q.e1.annul || n } := rfl
@[simp] theorem stepQueue_e1 (q : PcQueue) (k : Option Word) (n : Bool) :
    (stepQueue q k n).e1 = { q.e2 with annul := q.e2.annul || n } := rfl
@[simp] theorem stepQueue_e2 (q : PcQueue) (k : Option Word) (n : Bool) :
    (stepQueue q k n).e2 = ⟨k.getD (seqNext q), false⟩ := rfl
@[simp] theorem stepQueue_repLeft (q : PcQueue) (k : Option Word) (n : Bool) : (stepQueue q k n).repLeft = 0 := rfl
@[simp] theorem stepQueue_repDone (q : PcQueue) (k : Option Word) (n : Bool) : (stepQueue q k n).repDone = 0 := rfl

/-! ### Threads and cores by place -/

@[simp] theorem State.putThr_agenda (s : State) (p : Place) (t : Thread) : (s.putThr p t).agenda = s.agenda := by
  unfold State.putThr; split <;> rfl
@[simp] theorem State.putThr_here (s : State) (p : Place) (t : Thread) : (s.putThr p t).here = s.here := by
  unfold State.putThr; split <;> rfl
@[simp] theorem State.putThr_core (s : State) (p : Place) (t : Thread) : (s.putThr p t).core = s.core := by
  unfold State.putThr; split <;> rfl
@[simp] theorem State.putThr_cores (s : State) (p : Place) (t : Thread) : (s.putThr p t).cores = s.cores := by
  unfold State.putThr; split <;> rfl
@[simp] theorem State.putThr_mem (s : State) (p : Place) (t : Thread) : (s.putThr p t).mem = s.mem := by
  unfold State.putThr; split <;> rfl
@[simp] theorem State.putThr_sys (s : State) (p : Place) (t : Thread) : (s.putThr p t).sys = s.sys := by
  unfold State.putThr; split <;> rfl
@[simp] theorem State.putThr_fresh (s : State) (p : Place) (t : Thread) : (s.putThr p t).fresh = s.fresh := by
  unfold State.putThr; split <;> rfl
@[simp] theorem State.putCore_agenda (s : State) (c : Nat) (k : Core) : (s.putCore c k).agenda = s.agenda := by
  unfold State.putCore; split <;> rfl
@[simp] theorem State.putCore_here (s : State) (c : Nat) (k : Core) : (s.putCore c k).here = s.here := by
  unfold State.putCore; split <;> rfl
@[simp] theorem State.putCore_th (s : State) (c : Nat) (k : Core) : (s.putCore c k).th = s.th := by
  unfold State.putCore; split <;> rfl
@[simp] theorem State.putCore_others (s : State) (c : Nat) (k : Core) : (s.putCore c k).others = s.others := by
  unfold State.putCore; split <;> rfl
@[simp] theorem State.putCore_mem (s : State) (c : Nat) (k : Core) : (s.putCore c k).mem = s.mem := by
  unfold State.putCore; split <;> rfl
@[simp] theorem State.putCore_sys (s : State) (c : Nat) (k : Core) : (s.putCore c k).sys = s.sys := by
  unfold State.putCore; split <;> rfl
@[simp] theorem State.putCore_fresh (s : State) (c : Nat) (k : Core) : (s.putCore c k).fresh = s.fresh := by
  unfold State.putCore; split <;> rfl

end Sys2Proof.Machine
end

