-- ==== Sys2Proof/Laws/Memory.lean ====
section
/-! SUPPORT. Memory operations: each keeps the canonical form, changes no byte but those it writes, and leaves the rest of the machine
alone. -/

namespace Sys2Proof.Machine

/-! ### Physical bytes -/

/-- Where a byte has its home depends on the apertures, the module's number and the host window only. -/
theorem homeOf_congr {s t : State} (ha : t.sys.apertures = s.sys.apertures) (hm : t.sys.host.mid = s.sys.host.mid)
    (hh : t.sys.host.hapbase = s.sys.host.hapbase) (pa : Nat) : homeOf t pa = homeOf s pa := by
  unfold homeOf ownModule
  rw [ha, hm, hh]

/-- What accesses of physical bytes leave alone: everything but memory, its bad words, the counts of errors met, what is posted to the host and
to other modules and read there, the flits of the ports, and the dies that a reached home wakes. -/
structure PhysKept (s t : State) : Prop where
  agenda : t.agenda = s.agenda
  here : t.here = s.here
  th : t.th = s.th
  core : t.core = s.core
  others : t.others = s.others
  cores : t.cores = s.cores
  fresh : t.fresh = s.fresh
  sys : t.sys = { s.sys with
    bad := t.sys.bad
    tele := t.sys.tele
    ports := t.sys.ports
    power := { s.sys.power with d1 := t.sys.power.d1, refresh := t.sys.power.refresh }
    host := { s.sys.host with posted := t.sys.host.posted, peerWrites := t.sys.host.peerWrites, reads := t.sys.host.reads } }

theorem PhysKept.refl (s : State) : PhysKept s s := ⟨rfl, rfl, rfl, rfl, rfl, rfl, rfl, rfl⟩

theorem PhysKept.trans {s t u : State} (a : PhysKept s t) (b : PhysKept t u) : PhysKept s u :=
  ⟨b.agenda.trans a.agenda, b.here.trans a.here, b.th.trans a.th, b.core.trans a.core, b.others.trans a.others, b.cores.trans a.cores,
    b.fresh.trans a.fresh, by rw [b.sys, a.sys]⟩

/-- A step of a fold that keeps so much, folded. -/
theorem foldl_kept {α : Type} (f : State → α → State) (hf : ∀ s x, PhysKept s (f s x)) (l : List α) (s : State) :
    PhysKept s (l.foldl f s) := by
  induction l generalizing s with
  | nil => exact PhysKept.refl s
  | cons x t ih => exact (hf s x).trans (ih _)

theorem PhysKept.home {s t : State} (h : PhysKept s t) (pa : Nat) : homeOf t pa = homeOf s pa :=
  homeOf_congr (by rw [h.sys]) (by rw [h.sys]) (by rw [h.sys]) pa

theorem putPhysByte_kept (s : State) (w : Requester) (pa : Nat) (b : Byte) : PhysKept s (putPhysByte s w pa b) := by
  unfold putPhysByte
  split <;> exact ⟨rfl, rfl, rfl, rfl, rfl, rfl, rfl, rfl⟩

theorem putPhysByte_wf {s : State} (h : Memory.wf s.mem = true) (w : Requester) (pa : Nat) (b : Byte) :
    Memory.wf (putPhysByte s w pa b).mem = true := by
  unfold putPhysByte
  split
  · exact sparsePut_wf _ b h
  all_goals exact h

/-- A byte that is not the home of the one written is as before. -/
theorem putPhysByte_other {s : State} (h : Memory.wf s.mem = true) (w : Requester) (pa : Nat) (b : Byte) {m : Nat}
    (hm : homeOf s pa ≠ .mem m) : memByte (putPhysByte s w pa b) m = memByte s m := by
  unfold putPhysByte memByte
  split
  · next a ha => exact sparseGet_put_other b (fun e => hm (by rw [e]; exact ha)) h
  all_goals rfl

/-- A byte written to memory reads back at its home. -/
theorem putPhysByte_same {s : State} (h : Memory.wf s.mem = true) (w : Requester) (pa : Nat) (b : Byte) {m : Nat}
    (hm : homeOf s pa = .mem m) : memByte (putPhysByte s w pa b) m = b := by
  unfold putPhysByte memByte
  rw [hm]
  exact sparseGet_put_same m b h

theorem putPhysByte_posted (s : State) (w : Requester) (pa : Nat) (b : Byte) :
    (putPhysByte s w pa b).sys.host.posted = s.sys.host.posted ++ postedBytes s w pa [b] := by
  unfold putPhysByte postedBytes postedBytes
  split <;> simp_all

theorem putPhys_kept (s : State) (w : Requester) (pa : Nat) (bs : List Byte) : PhysKept s (putPhys s w pa bs) := by
  induction bs generalizing s pa with
  | nil => exact PhysKept.refl s
  | cons b t ih => exact (putPhysByte_kept s w pa b).trans (ih _ _)

theorem putPhys_wf {s : State} (h : Memory.wf s.mem = true) (w : Requester) (pa : Nat) (bs : List Byte) :
    Memory.wf (putPhys s w pa bs).mem = true := by
  induction bs generalizing s pa with
  | nil => exact h
  | cons b t ih => exact ih (putPhysByte_wf h w pa b) _

theorem postedBytes_congr {s t : State} (h : PhysKept s t) (w : Requester) (pa : Nat) (bs : List Byte) :
    postedBytes t w pa bs = postedBytes s w pa bs := by
  induction bs generalizing pa with
  | nil => rfl
  | cons b u ih => simp only [postedBytes, h.home, ih]

/-- Storing bytes: no byte of memory but their homes changes, DRAM addresses hold them, and those for the host are posted. -/
theorem putPhys_stored {s : State} (h : Memory.wf s.mem = true) (w : Requester) (pa : Nat) (bs : List Byte) :
    MemStored s (putPhys s w pa bs) w pa bs := by
  induction bs generalizing s pa with
  | nil => exact ⟨fun m _ => rfl, fun _ k hk => absurd hk (Nat.not_lt_zero k), by simp [putPhys, postedBytes]⟩
  | cons b t ih =>
    have hk := putPhysByte_kept s w pa b
    obtain ⟨i1, i2, i3⟩ := ih (putPhysByte_wf h w pa b) (pa + 1)
    refine ⟨fun m hm => ?_, fun hd k hl => ?_, ?_⟩
    · rw [putPhys, i1 m (fun k hl => ?_), putPhysByte_other h w pa b (by simpa using hm 0 (by simp))]
      rw [hk.home, show pa + 1 + k = pa + (k + 1) by omega]
      exact hm (k + 1) (by simpa using hl)
    · cases k with
      | zero =>
        have h0 : homeOf s pa = .mem pa := by unfold homeOf; rw [show paKind pa = .dram by simpa using hd 0 (by simp)]
        show memByte (putPhys (putPhysByte s w pa b) w (pa + 1) t) pa = b
        rw [i1 pa (fun k hl => ?_), putPhysByte_same h w pa b h0]
        · rw [hk.home]
          unfold homeOf
          rw [show pa + 1 + k = pa + (k + 1) by omega, hd (k + 1) (by simpa using hl)]
          intro e
          have := Home.mem.inj e
          omega
      | succ k =>
        have := i2 (fun j hj => by
          have := hd (j + 1) (by simpa using hj)
          rwa [show pa + (j + 1) = pa + 1 + j by omega] at this) k (by simpa using hl)
        rw [putPhys, show pa + (k + 1) = pa + 1 + k by omega, this]
        rfl
    · rw [putPhys, i3, putPhysByte_posted, postedBytes_congr hk]
      simp [postedBytes]

/-! ### What reaches a home (R349, R372) -/

/-- What an access does where its bytes have their homes: ports, requests to the host and sleeping dies at most change; no byte of memory, and
nothing posted. -/
def Reached (s t : State) : Prop :=
  t = s.withSys { s.sys with
    ports := t.sys.ports
    host := { s.sys.host with reads := t.sys.host.reads }
    power := { s.sys.power with d1 := t.sys.power.d1, refresh := t.sys.power.refresh } }

theorem Reached.refl (s : State) : Reached s s := rfl

theorem Reached.trans {s t u : State} (a : Reached s t) (b : Reached t u) : Reached s u := by
  unfold Reached at *
  exact b.trans (by rw [a]; rfl)

theorem Reached.kept {s t : State} (h : Reached s t) : PhysKept s t := by
  rw [h]
  exact ⟨rfl, rfl, rfl, rfl, rfl, rfl, rfl, rfl⟩

theorem Reached.mem {s t : State} (h : Reached s t) : t.mem = s.mem := by rw [h]; rfl
theorem Reached.posted {s t : State} (h : Reached s t) : t.sys.host.posted = s.sys.host.posted := by rw [h]; rfl

theorem foldl_reached {α : Type} (f : State → α → State) (hf : ∀ s x, Reached s (f s x)) (l : List α) (s : State) :
    Reached s (l.foldl f s) := by
  induction l generalizing s with
  | nil => exact Reached.refl s
  | cons x t ih => exact (hf s x).trans (ih _)

theorem queueFlit_reached (s : State) (d : Nat) (o : Outgoing) : Reached s (queueFlit s d o) := rfl

theorem sendMessage_reached (s : State) (e : Envelope) (base : Word) (bs : List Byte) (n : Nat) : Reached s (sendMessage s e base bs n) := by
  induction n generalizing s base bs with
  | zero => exact Reached.refl s
  | succ n ih => exact (queueFlit_reached s _ _).trans (ih _ _ _)

theorem sendAway_reached (s : State) (x : Sender) (pas : List Nat) (bs : List Byte) : Reached s (sendAway s x pas bs) := by
  refine foldl_reached _ (fun s r => ?_) _ s
  split
  · exact sendMessage_reached s _ _ _ _
  · exact Reached.refl s

theorem wakeDie_reached (s : State) (d : Nat) (l : Bool) : Reached s (wakeDie s d l) := by
  unfold wakeDie
  dsimp only
  split <;> exact rfl

theorem wakeHome_reached (s : State) (a : Nat) : Reached s (wakeHome s a) := by
  unfold wakeHome
  split
  · exact wakeDie_reached s _ _
  · exact Reached.refl s

theorem wakeHomes_reached (s : State) (pas : List Nat) : Reached s (wakeHomes s pas) := foldl_reached _ wakeHome_reached _ s

theorem requestHost_reached (s : State) (x : Sender) (pas : List Nat) : Reached s (requestHost s x pas) := rfl

/-- All that an access to listed addresses does there besides its reads and writes. -/
theorem reach_reached (s : State) (x : Sender) (pas : List Nat) (bs : List Byte) : Reached s (reach s x pas bs) :=
  (wakeHomes_reached s pas).trans ((requestHost_reached _ x pas).trans (sendAway_reached _ x pas bs))

theorem reachRead_reached (s : State) (x : Sender) (pas : List Nat) : Reached s (reachRead s x pas) := reach_reached s x pas _

/-- What is said of a store from a reached state holds from the state before. -/
theorem Reached.memStored {s t u : State} (h : Reached s t) {w : Requester} {pa : Nat} {bs : List Byte} (m : MemStored t u w pa bs) :
    MemStored s u w pa bs := by
  obtain ⟨a, b, c⟩ := m
  refine ⟨fun m hm => ?_, b, ?_⟩
  · rw [a m fun k hk => by rw [h.kept.home]; exact hm k hk, memByte, memByte, h.mem]
  · rw [c, h.posted, postedBytes_congr h.kept]

theorem healRun_kept (s : State) (pas : List Nat) : PhysKept s (healRun s pas) := ⟨rfl, rfl, rfl, rfl, rfl, rfl, rfl, rfl⟩

theorem storePhys_kept (s : State) (w : Requester) (pa : Nat) (bs : List Byte) : PhysKept s (storePhys s w pa bs) :=
  (reach_reached s _ _ bs).kept.trans ((healRun_kept _ _).trans (putPhys_kept _ w pa bs))

/-- A store of physical bytes: what `putPhys_stored` says, and new check bits. -/
theorem storePhys_stored {s : State} (h : Memory.wf s.mem = true) (w : Requester) (pa : Nat) (bs : List Byte) :
    MemStored s (storePhys s w pa bs) w pa bs := by
  have hr := reach_reached s (coreSender s true w) (runFrom pa bs.length) bs
  apply hr.memStored
  unfold storePhys
  generalize reach s (coreSender s true w) (runFrom pa bs.length) bs = u at hr ⊢
  have hk := healRun_kept u (runFrom pa bs.length)
  obtain ⟨i1, i2, i3⟩ := putPhys_stored (s := healBad u pa bs.length) (by rw [← hr.mem] at h; exact h) w pa bs
  exact ⟨fun m hm => i1 m fun k hl => by rw [show homeOf (healBad u pa bs.length) (pa + k) = _ from hk.home _]; exact hm k hl, i2,
    i3.trans (by rw [show postedBytes (healBad u pa bs.length) w pa bs = _ from postedBytes_congr hk w pa bs]; rfl)⟩

theorem putRun_kept (s : State) (w : Requester) (pas : List Nat) (bs : List Byte) : PhysKept s (putRun s w pas bs) := by
  induction pas generalizing s bs with
  | nil => exact PhysKept.refl s
  | cons p t ih =>
    cases bs with
    | nil => exact PhysKept.refl s
    | cons b u => exact (putPhysByte_kept s w p b).trans (ih _ _)

theorem putRun_wf {s : State} (h : Memory.wf s.mem = true) (w : Requester) (pas : List Nat) (bs : List Byte) :
    Memory.wf (putRun s w pas bs).mem = true := by
  induction pas generalizing s bs with
  | nil => exact h
  | cons p t ih =>
    cases bs with
    | nil => exact h
    | cons b u => exact ih (putPhysByte_wf h w p b) _

/-- A byte of memory that is the home of no listed address is as before. -/
theorem putRun_other {s : State} (h : Memory.wf s.mem = true) (w : Requester) (pas : List Nat) (bs : List Byte) {m : Nat}
    (hm : ∀ p ∈ pas, homeOf s p ≠ .mem m) : memByte (putRun s w pas bs) m = memByte s m := by
  induction pas generalizing s bs with
  | nil => rfl
  | cons p t ih =>
    cases bs with
    | nil => rfl
    | cons b u =>
      rw [putRun, ih (putPhysByte_wf h w p b) u (fun q hq => by rw [(putPhysByte_kept s w p b).home]; exact hm q (List.mem_cons_of_mem p hq)),
        putPhysByte_other h w p b (hm p (by simp))]

theorem storeRun_kept (s : State) (w : Requester) (pas : List Nat) (bs : List Byte) : PhysKept s (storeRun s w pas bs) :=
  (reach_reached s _ pas bs).kept.trans ((healRun_kept _ pas).trans (putRun_kept _ w pas bs))

theorem storeRun_wf {s : State} (h : Memory.wf s.mem = true) (w : Requester) (pas : List Nat) (bs : List Byte) :
    Memory.wf (storeRun s w pas bs).mem = true :=
  putRun_wf (s := healRun (reach s (coreSender s true w) pas bs) pas) (by rw [← (reach_reached s (coreSender s true w) pas bs).mem] at h; exact h) w pas bs

/-! ### Agents outside the cores -/

theorem metError_kept (s : State) (d : Nat) : PhysKept s (metError s d) := ⟨rfl, rfl, rfl, rfl, rfl, rfl, rfl, rfl⟩

theorem metReading_kept (s : State) (pas : List Nat) : PhysKept s (metReading s pas) := by
  unfold metReading
  split
  · exact metError_kept s _
  · exact PhysKept.refl s

theorem metWriting_kept (s : State) (pas : List Nat) : PhysKept s (metWriting s pas) := by
  unfold metWriting
  split
  · exact metError_kept s _
  · exact PhysKept.refl s

theorem agentReads_kept (s : State) (w : Requester) (pas : List Nat) : PhysKept s (agentReads s w pas) :=
  (reachRead_reached s _ pas).kept.trans (metReading_kept _ pas)

theorem agentWalks_kept (s : State) (tn : BitVec 4) (va : Word) (n : Nat) : PhysKept s (agentWalks s tn va n) := by
  refine foldl_kept _ (fun s a => ?_) _ s
  split
  · exact PhysKept.refl s
  · exact agentReads_kept s _ _

theorem metReading_mem (s : State) (pas : List Nat) : (metReading s pas).mem = s.mem := by
  unfold metReading
  split <;> rfl

theorem metWriting_mem (s : State) (pas : List Nat) : (metWriting s pas).mem = s.mem := by
  unfold metWriting
  split <;> rfl

theorem agentReads_mem (s : State) (w : Requester) (pas : List Nat) : (agentReads s w pas).mem = s.mem :=
  (metReading_mem _ pas).trans (reachRead_reached s _ pas).mem

theorem foldl_mem {α : Type} (f : State → α → State) (hf : ∀ s x, (f s x).mem = s.mem) (l : List α) (s : State) : (l.foldl f s).mem = s.mem := by
  induction l generalizing s with
  | nil => rfl
  | cons x t ih => exact (ih _).trans (hf s x)

theorem agentWalks_mem (s : State) (tn : BitVec 4) (va : Word) (n : Nat) : (agentWalks s tn va n).mem = s.mem := by
  refine foldl_mem _ (fun s a => ?_) _ s
  split
  · rfl
  · exact agentReads_mem s _ _

/-- What such a read does besides its value changes no byte of memory. -/
theorem readTouched_kept (s : State) (tn : BitVec 4) (va : Word) (n : Nat) : PhysKept s (readTouched s tn va n) := by
  unfold readTouched
  split
  · exact (agentWalks_kept s tn va n).trans (agentReads_kept _ _ _)
  · exact agentWalks_kept s tn va n

theorem readTouched_mem (s : State) (tn : BitVec 4) (va : Word) (n : Nat) : (readTouched s tn va n).mem = s.mem := by
  unfold readTouched
  split
  · exact (agentReads_mem _ _ _).trans (agentWalks_mem s tn va n)
  · exact agentWalks_mem s tn va n

theorem storeVirtual_kept (s : State) (tn : BitVec 4) (va : Word) (bs : List Byte) : PhysKept s (storeVirtual s tn va bs) := by
  unfold storeVirtual
  split
  · exact (agentWalks_kept s _ va _).trans ((metWriting_kept _ _).trans (storeRun_kept _ _ _ bs))
  · exact agentWalks_kept s _ va _

theorem storeVirtual_wf {s : State} (h : Memory.wf s.mem = true) (tn : BitVec 4) (va : Word) (bs : List Byte) :
    Memory.wf (storeVirtual s tn va bs).mem = true := by
  unfold storeVirtual
  split
  · exact storeRun_wf (by rw [metWriting_mem, agentWalks_mem]; exact h) _ _ bs
  · rw [agentWalks_mem]; exact h

/-! ### TLBs -/

/-- What a fill of the TLBs leaves alone: everything but them, the counter of free choices, and what a walk's reads change or request at the homes
of the tables. -/
def TlbKept (s t : State) : Prop :=
  t = { s with fresh := t.fresh, core := { s.core with tlb := t.core.tlb }, sys := { s.sys with
    tlb := t.sys.tlb
    ports := t.sys.ports
    host := { s.sys.host with reads := t.sys.host.reads }
    power := { s.sys.power with d1 := t.sys.power.d1, refresh := t.sys.power.refresh } } }

theorem TlbKept.refl (s : State) : TlbKept s s := rfl

theorem fillTlb_kept (s : State) (tn : BitVec 4) (va : Word) : TlbKept s (fillTlb s tn va) := by
  unfold fillTlb
  split
  · exact TlbKept.refl s
  · split
    · exact rfl
    · split
      · next base size e h =>
        rw [show reachRead s (coreSender s false (requesterOf tn 0)) (walkPas s tn va) = _ from reachRead_reached s _ _]
        exact rfl
      · exact TlbKept.refl s

theorem touch_kept (s : State) (va : Word) : TlbKept s (touch s va) := by
  unfold touch
  split
  · exact TlbKept.refl s
  · exact fillTlb_kept s _ va

theorem touch_th (s : State) (va : Word) : (touch s va).th = s.th := by rw [touch_kept s va]

theorem reachLoad_reached (s : State) (n : Nat) (loc : Loc) : Reached s (reachLoad s n loc) := by
  unfold reachLoad
  split
  · exact reachRead_reached s _ _
  · exact Reached.refl s

theorem touchLoad_kept (s : State) (va : Word) (n : Nat) (loc : Loc) : TlbKept s (touchLoad s va n loc) := by
  have r := reachLoad_reached (touch s va) n loc
  have t := touch_kept s va
  unfold touchLoad
  generalize reachLoad (touch s va) n loc = v at r
  generalize touch s va = u at r t
  unfold Reached at r
  unfold TlbKept at *
  rw [r, t]
  rfl

theorem touchLoad_th (s : State) (va : Word) (n : Nat) (loc : Loc) : (touchLoad s va n loc).th = s.th := by rw [touchLoad_kept s va n loc]

/-- Noting a store over register stacks changes nothing else. -/
theorem overlay_kept (n : Nat) (va : Word) (s : State) (u : BitVec 32 × BitVec 16 × Nat × Nat × Nat) :
    overlay n va s u = s.withWork { s.sys.work with overlaid := (overlay n va s u).sys.work.overlaid } := by
  unfold overlay
  split <;> rfl

theorem overlays_kept (n : Nat) (va : Word) (us : List (BitVec 32 × BitVec 16 × Nat × Nat × Nat)) (s : State) :
    us.foldl (overlay n va) s = s.withWork { s.sys.work with overlaid := (us.foldl (overlay n va) s).sys.work.overlaid } := by
  induction us generalizing s with
  | nil => rfl
  | cons u t ih =>
    rw [List.foldl_cons, ih, overlay_kept n va s u]
    rfl

theorem touchStore_th (s : State) (va : Word) (n : Nat) : (touchStore s va n).th = s.th := by
  unfold touchStore markStacks
  split
  · rfl
  · rw [overlays_kept, fillTlb_kept]
    rfl

/-! ### Scratchpad -/

theorem spadStore_wf {c : Core} (h : sparseWf 0 c.spad = true) (a : Nat) (bs : List Byte) : sparseWf 0 (spadStore c a bs).spad = true :=
  putBytes_wf bs a h

theorem spadStore_stored {s : State} (h : sparseWf 0 s.core.spad = true) (a : Nat) (bs : List Byte) :
    SpadStored s (s.withCore (spadStore s.core a bs)) a bs :=
  ⟨fun k hk => sparseGet_putBytes_same bs a k h hk, fun y hy => sparseGet_putBytes_other bs a y h hy⟩

/-- A read of the bytes just stored gives them. -/
theorem bytesAt_spadStore {c : Core} (h : sparseWf 0 c.spad = true) (a : Nat) (bs : List Byte) :
    bytesAt (spadStore c a bs).spad a bs.length = bs :=
  bytesAt_putBytes bs a h

/-! ### Putting threads and cores keeps the state canonical -/

theorem putThr_others_wf {s : State} (h : sparseWf {} s.others = true) (p : Place) (t : Thread) : sparseWf {} (s.putThr p t).others = true := by
  unfold State.putThr
  split
  · exact h
  · exact sparsePut_wf _ t h

/-- A replaced thread reads back, and the threads of every other number are as before. -/
theorem thr_putThr_same {s : State} (h : sparseWf {} s.others = true) (p : Place) (t : Thread) : (s.putThr p t).thr p = t := by
  unfold State.putThr State.thr
  split
  · rfl
  · exact sparseGet_put_same _ t h

theorem thr_putThr_other {s : State} (h : sparseWf {} s.others = true) {p q : Place} (hn : placeNum q ≠ placeNum p) (t : Thread) :
    (s.putThr p t).thr q = s.thr q := by
  have hq : q ≠ p := fun e => hn (by rw [e])
  unfold State.putThr State.thr
  split
  · next e => rw [if_neg (fun k => hq (k.trans e.symm)), if_neg (fun k => hq (k.trans e.symm))]
  · dsimp only
    split
    · rfl
    · exact sparseGet_put_other t hn h

end Sys2Proof.Machine
end

