-- ==== Sys2Proof/Laws/Ops.lean ====
section
/-! SUPPORT. What the shared operations of a thread do: reading and writing registers, taking messages, completing, waiting, and the
shapes of an instruction. -/

namespace Sys2Proof.Machine

/-! ### Registers -/

/-- A write of a register: it reads back, unless it is `g0`, and every other register is as before. -/
theorem putReg_wrote (r : Regs) (d : Reg) (v : Word) : WroteReg r (putReg r d v) d v := by
  refine ⟨?_, ?_, ?_⟩
  · unfold putReg rawReg
    by_cases h : d.val < 8
    · by_cases h0 : d.val = 0
      · have : d = 0 := Fin.ext h0
        simp [this]
      · have : d ≠ 0 := fun e => h0 (congrArg Fin.val e)
        simp [h, h0, this]
    · have : d ≠ 0 := fun e => h (by rw [e]; decide)
      simp [h, this]
  · intro x hx
    have hv : x.val ≠ d.val := fun e => hx (Fin.ext e)
    unfold putReg rawReg
    by_cases h : d.val < 8
    · by_cases h0 : d.val = 0
      · simp [h0]
      · by_cases k : x.val < 8
        · simp [h, h0, k, Vector.getElem_set_ne, Ne.symm hv]
        · simp [h, h0, k]
    · by_cases k : x.val < 8
      · simp [h, k]
      · simp only [h, k, dite_false]
        rw [Vector.getElem_set_ne]
        omega
  · unfold putReg
    split
    · split <;> rfl
    · rfl

/-- A write of a condition register. -/
theorem setCond_wrote (r : Regs) (c : CReg) (v : Bool) : WroteCond r { r with c := r.c.set c.val v } c v := by
  refine ⟨?_, rfl⟩
  intro x
  unfold condReg
  by_cases h : x = 0
  · simp [h]
  · by_cases e : x = c
    · subst e; simp [h]
    · have : x.val ≠ c.val := fun k => e (Fin.ext k)
      simp [h, e, Vector.getElem_set_ne, Ne.symm this]

/-- A write of a pointer register. -/
theorem setPtr_wrote (r : Regs) (p : PReg) (v : Ptr) : WrotePtr r { r with p := r.p.set p.val v } p v := by
  refine ⟨?_, rfl⟩
  intro x
  by_cases e : x = p
  · subst e; simp
  · have : x.val ≠ p.val := fun k => e (Fin.ext k)
    simp [e, Vector.getElem_set_ne, Ne.symm this]

/-- A write of a lazy-uniform register. -/
theorem setZ_wrote (r : Regs) (z : ZReg) (v : ZVar) : WroteZ r { r with z := r.z.set z.val v } z v := by
  refine ⟨?_, rfl⟩
  intro x
  by_cases e : x = z
  · subst e; simp
  · have : x.val ≠ z.val := fun k => e (Fin.ext k)
    simp [e, Vector.getElem_set_ne, Ne.symm this]

/-! ### Bound registers -/

/-- A thread after the messages of some registers have been taken. -/
def messagesGone (t : Thread) (xs : List Reg) : Thread :=
  { t with ch := { t.ch with binds := t.ch.binds.map fun b => if b.reg ∈ xs then { b with full := false } else b } }

@[simp] theorem messagesGone_nil (t : Thread) : messagesGone t [] = t := by
  simp [messagesGone]

/-- Nothing outside differs from itself. -/
theorem OutsideKept.refl (s : State) : OutsideKept s s := ⟨rfl, rfl, rfl, rfl, rfl, rfl, rfl, rfl⟩

theorem OutsideKept.trans {s t u : State} (a : OutsideKept s t) (b : OutsideKept t u) : OutsideKept s u :=
  ⟨b.agenda.trans a.agenda, b.here.trans a.here, b.others.trans a.others, b.mem.trans a.mem, b.sys.trans a.sys, b.fresh.trans a.fresh,
    b.core.trans a.core, b.cores.trans a.cores⟩

/-- What only the thread in focus changes leaves everything outside alone. -/
theorem OutsideKept.withTh (s : State) (t : Thread) : OutsideKept s (s.withTh t) := ⟨rfl, rfl, rfl, rfl, rfl, rfl, rfl, rfl⟩

/-- A replaced core reads back, and every other core is as before. -/
theorem coreBy_putCore {s : State} (h : sparseWf {} s.cores = true) (c j : Nat) (k : Core) :
    (s.putCore c k).coreBy j = if j = c then k else s.coreBy j := by
  unfold State.putCore State.coreBy State.hereCore
  by_cases hc : c = coreNum (placeCore s.here)
  · subst hc; by_cases hj : j = coreNum (placeCore s.here) <;> simp [hj]
  · by_cases hj : j = coreNum (placeCore s.here)
    · simp [hc, hj, Ne.symm hc]
    · by_cases e : j = c
      · subst e; rw [if_neg hc, if_pos rfl, if_neg hj]; exact sparseGet_put_same j k h
      · rw [if_neg hc, if_neg hj, if_neg hj, if_neg e]; exact sparseGet_put_other k e h

/-- Replacing a core keeps the list of cores canonical. -/
theorem putCore_cores_wf {s : State} (h : sparseWf {} s.cores = true) (c : Nat) (k : Core) : sparseWf {} (s.putCore c k).cores = true := by
  unfold State.putCore
  split
  · exact h
  · exact sparsePut_wf c k h

/-- Rewriting words of a tenant's memory is a write of physical bytes. -/
theorem rewriteWords_kept (s : State) (tn : BitVec 4) (area : Word) (f : Word → Word) (k step n : Nat) :
    PhysKept s (rewriteWords s tn area f k step n) := by
  induction n generalizing s k with
  | zero => exact PhysKept.refl s
  | succ n ih =>
    unfold rewriteWords
    dsimp only
    split
    · exact (readTouched_kept s tn _ _).trans ((storeVirtual_kept _ tn _ _).trans (ih _ _))
    · exact ih _ _

theorem rewritePermits_kept (f : Word → Word) (s : State) (u : Saved) : PhysKept s (rewritePermits f s u) := by
  unfold rewritePermits
  split
  · exact (readTouched_kept s _ _ _).trans (rewriteWords_kept _ _ _ f _ _ _)
  · exact PhysKept.refl s

/-- A change of a channel's permit is a change of one core's permits, and then of saved contexts in memory. -/
theorem changePermit_kept (s : State) (p : Place) (b : Binding) (f : Permit → Option Permit) (g : Word → Word) :
    ∃ k : Core, (∃ ps, k = { s.coreBy (coreNum (placeCore b.sender)) with permits := ps }) ∧
      PhysKept (s.putCore (coreNum (placeCore b.sender)) k) (changePermit s p b f g) :=
  ⟨_, ⟨_, rfl⟩, foldl_kept _ (fun s u => rewritePermits_kept _ s u) _ _⟩

/-- No thread changes with a permit. -/
theorem changePermit_th (s : State) (p : Place) (b : Binding) (f : Permit → Option Permit) (g : Word → Word) :
    (changePermit s p b f g).th = s.th := by
  obtain ⟨k, -, h⟩ := changePermit_kept s p b f g
  rw [h.th]
  simp

/-- Taking one message. -/
theorem takeMsg_th {s : State} (x : Reg) (hf : ∀ b, bindingOf s.th x = some b → b.full = true) :
    (takeMsg s x).th = messagesGone s.th [x] := by
  unfold takeMsg
  split
  · next hb =>
    have : ∀ b ∈ s.th.ch.binds, ¬ b.reg = x := by simpa [bindingOf] using hb
    unfold messagesGone
    rw [List.map_congr_left (g := id) (fun b hb => by simp [this b hb])]
    simp
  · next b hb =>
    rw [if_pos (hf b hb), returnCredit, changePermit_th]
    simp [messagesGone]

/-- A register that is not bound has no message to take. -/
theorem takeMsg_unbound {s : State} {x : Reg} (h : isBound s.th x = false) : takeMsg s x = s := by
  unfold takeMsg
  cases hb : bindingOf s.th x with
  | none => rfl
  | some b => simp [isBound, hb] at h

theorem takeMsgs_unbound {s : State} {xs : List Reg} (h : Unbound s xs) : takeMsgs s xs = s := by
  unfold takeMsgs
  induction xs with
  | nil => rfl
  | cons x t ih =>
    rw [List.foldl_cons, takeMsg_unbound (h x (by simp))]
    exact ih fun y hy => h y (List.mem_cons_of_mem x hy)

theorem messagesGone_messagesGone (t : Thread) (xs ys : List Reg) : messagesGone (messagesGone t xs) ys = messagesGone t (xs ++ ys) := by
  unfold messagesGone
  simp only [List.map_map]
  congr 2
  apply List.map_congr_left
  intro b _
  by_cases h : b.reg ∈ xs <;> by_cases k : b.reg ∈ ys <;> simp [h, k]

/-- A register that is bound after messages have been taken was bound before, with the same sender. -/
theorem bindingOf_messagesGone (t : Thread) (xs : List Reg) (x : Reg) :
    bindingOf (messagesGone t xs) x = (bindingOf t x).map fun b => if b.reg ∈ xs then { b with full := false } else b := by
  unfold bindingOf messagesGone
  simp only [List.find?_map]
  congr 2
  funext b
  simp only [Function.comp]
  split <;> rfl

/-- Where no source is empty, the binding of each is full. -/
theorem full_of_emptySource {t : Thread} {xs : List Reg} (h : emptySource t xs = none) {x : Reg} (hx : x ∈ xs) {b : Binding}
    (hb : bindingOf t x = some b) : b.full = true := by
  have := (List.find?_eq_none.1 h) x hx
  simpa [hb] using this

theorem takeMsgs_th_from {th : Thread} {xs : List Reg} (hf : ∀ x ∈ xs, ∀ b, bindingOf th x = some b → b.full = true)
    {u : State} {ys : List Reg} (hu : u.th = messagesGone th ys) : (takeMsgs u xs).th = messagesGone th (ys ++ xs) := by
  induction xs generalizing u ys with
  | nil => simpa [takeMsgs] using hu
  | cons x t ih =>
    have step : (takeMsg u x).th = messagesGone th (ys ++ [x]) := by
      by_cases hx : x ∈ ys
      · have e : messagesGone th (ys ++ [x]) = u.th := by
          rw [hu]
          unfold messagesGone
          congr 2
          dsimp only
          congr 1
          apply List.map_congr_left
          intro b _
          by_cases k : b.reg = x
          · simp [k, hx]
          · simp [k]
        rw [e]
        unfold takeMsg
        split
        · rfl
        · next b hb =>
          rw [hu, bindingOf_messagesGone] at hb
          obtain ⟨c, hc, rfl⟩ := Option.map_eq_some_iff.1 hb
          have : c.reg = x := by simpa [bindingOf] using List.find?_some hc
          simp [this, hx]
      · have := takeMsg_th (s := u) x (fun b hb => by
          rw [hu, bindingOf_messagesGone] at hb
          obtain ⟨c, hc, rfl⟩ := Option.map_eq_some_iff.1 hb
          have hr : c.reg = x := by simpa [bindingOf] using List.find?_some hc
          have := hf x (by simp) c hc
          simp [hr, hx, this])
        rwa [hu, messagesGone_messagesGone] at this
    simpa [takeMsgs] using ih (fun y hy => hf y (List.mem_cons_of_mem x hy)) step

/-- Taking the messages of sources that can be read: of the thread, nothing but their bindings changes. -/
theorem takeMsgs_th {s : State} {xs : List Reg} (h : emptySource s.th xs = none) : (takeMsgs s xs).th = messagesGone s.th xs := by
  simpa using takeMsgs_th_from (ys := []) (fun x hx b hb => full_of_emptySource h hx hb) (messagesGone_nil s.th).symm

/-! ### The shapes of an instruction -/

/-- Where the register rules are met, the instruction goes on. -/
theorem withRegs_ready {s : State} {srcs dsts : List Reg} (h : Ready s srcs dsts) (k : Out) : withRegs srcs dsts s k = k := by
  unfold withRegs
  rw [h.2, h.1]

/-- What an instruction does: a bound destination is an event, an empty bound source a wait; otherwise it goes on. -/
theorem withRegs_cases (s : State) (srcs dsts : List Reg) (k : Out) :
    (∃ d, d ∈ dsts ∧ isBound s.th d = true ∧ withRegs srcs dsts s k = raise evChan (BitVec.ofNat 64 d.val) s)
    ∨ (∃ x, x ∈ srcs ∧ dsts.find? (isBound s.th) = none ∧ withRegs srcs dsts s k = waitOn (.boundReg x) s)
    ∨ (Ready s srcs dsts ∧ withRegs srcs dsts s k = k) := by
  unfold withRegs
  split
  · next d hd => exact .inl ⟨d, List.mem_of_find?_eq_some hd, List.find?_some hd, rfl⟩
  · next hd =>
    split
    · next x hx => exact .inr (.inl ⟨x, List.mem_of_find?_eq_some hx, hd, rfl⟩)
    · next hx => exact .inr (.inr ⟨⟨hx, hd⟩, rfl⟩)

/-- A thread that has executed differs in what running changes. -/
theorem butRunning_retireTh (t : Thread) (rot : Rotation) (k : Option Word) (n : Bool) : butRunning (retireTh t rot k n) = butRunning t := rfl

theorem butRunning_rf (t : Thread) (r : Regs) : butRunning { t with rf := r } = butRunning t := rfl

theorem butRunning_messagesGone (t : Thread) (xs : List Reg) : butRunning (messagesGone t xs) = butRunning t := by
  unfold butRunning messagesGone
  simp only [List.map_map]
  congr 2
  apply List.map_congr_left
  intro b _
  simp only [Function.comp]
  split <;> rfl

/-- An instruction of registers retires: whatever it writes in its own registers. -/
theorem retired_finish {s : State} {srcs : List Reg} (h : emptySource s.th srcs = none) (r : Regs) (rot : Rotation) :
    ∃ t, finish ((takeMsgs s srcs).withRf r) rot = .next t ∧ t.th.rf = r ∧ Retired s t srcs rot := by
  have e := takeMsgs_th h
  have k : OutsideKept (takeMsgs s srcs) (((takeMsgs s srcs).withRf r).withTh (retireTh ((takeMsgs s srcs).withRf r).th rot none false)) :=
    ⟨rfl, rfl, rfl, rfl, rfl, rfl, rfl, rfl⟩
  refine ⟨_, rfl, rfl, ⟨⟨k, ?_, ?_, ?_, rfl⟩, fun hu => ?_⟩⟩
  · simp only [State.withTh_th, State.withRf_th, e]
    rw [butRunning_retireTh, butRunning_rf, butRunning_messagesGone]
  · simp [MessagesTaken, e, messagesGone]
  · simp [Advanced, e, messagesGone]
  · rwa [takeMsgs_unbound hu] at k ⊢

/-- `regOp`: the register is written, and the instruction retires. -/
theorem regOp_yields {s : State} {srcs : List Reg} {d : Reg} (h : Ready s srcs [d]) (v : Word) (rot : Rotation) :
    ∃ t, regOp srcs d v s rot = .next t ∧ WroteReg s.th.rf t.th.rf d v ∧ Retired s t srcs rot := by
  unfold regOp
  rw [withRegs_ready h]
  obtain ⟨t, ht, hr, hk⟩ := retired_finish h.1 (putReg s.th.rf d v) rot
  refine ⟨t, ?_, hr ▸ putReg_wrote s.th.rf d v, hk⟩
  rw [← ht]
  simp [State.setReg, takeMsgs_th h.1, messagesGone]

/-- `condOp`: the condition is written, and the instruction retires. -/
theorem condOp_yields {s : State} {srcs : List Reg} (h : Ready s srcs []) (c : CReg) (v : Bool) :
    ∃ t, condOp srcs c v s = .next t ∧ WroteCond s.th.rf t.th.rf c v ∧ Retired s t srcs .ready := by
  unfold condOp
  rw [withRegs_ready h]
  obtain ⟨t, ht, hr, hk⟩ := retired_finish h.1 { s.th.rf with c := s.th.rf.c.set c.val v } .ready
  refine ⟨t, ?_, hr ▸ setCond_wrote s.th.rf c v, hk⟩
  rw [← ht]
  simp [State.setCond, takeMsgs_th h.1, messagesGone]

end Sys2Proof.Machine
end

