-- ==== Sys2Proof/Laws/Places.lean ====
section
/-! SUPPORT. Where the forester puts what it allocates: a place found is apart from what is in use, and there is one wherever the lowest is free. -/

namespace Sys2Proof.Machine

/-- What is in use in module 0, of what its tenants' tables name and its launches' maps. -/
theorem usedRanges_of {s : State} {tables maps : List (Nat × Nat)}
    (h1 : (s.sys.tenants.flatMap fun e => (e.2.root.toList.map fun r => (r, 65536)) ++ (tenantMapped s e.2).map fun x => (x.pa, x.size)) = tables)
    (h2 : (s.sys.work.launches.map fun e => (e.2.sched.mapPa, mapBytes e.2)) = maps) (h3 : s.sys.host.mid.toNat = 0) :
    usedRanges s = tables ++ (Config.stagingBase % 192 * 0x10000000, stageSize) :: maps := by
  have h4 : stagingPa s = Config.stagingBase % 192 * 0x10000000 := by
    unfold stagingPa
    generalize s.sys.host.mid.toNat = m at h3
    subst h3
    exact (congrArg (· + _) (Nat.zero_mul _)).trans (Nat.zero_add _)
  unfold usedRanges
  exact congr (congrArg _ h1) (congr (congrArg _ (congrArg (·, stageSize) h4)) h2)

/-- A range that is placed lies between its bounds and apart from those in use. -/
theorem placeRange_apart {used : List (Nat × Nat)} {unit base top named n a : Nat} (h : placeRange used unit base top named n = some a) :
    base ≤ a ∧ a + n ≤ top ∧ apart used a n = true := by
  have := List.find?_some h
  simpa [and_assoc] using this

/-- A range fits where it fits at the lowest address, or behind one of those in use. -/
theorem placeRange_isSome {used : List (Nat × Nat)} {unit base top named n a : Nat}
    (ha : a ∈ base :: used.map fun r => roundUp unit (r.1 + r.2)) (h : base ≤ a ∧ a + n ≤ top) (h' : apart used a n = true) :
    (placeRange used unit base top named n).isSome = true := by
  simp only [placeRange, List.find?_isSome]
  exact ⟨a, List.mem_cons_of_mem _ ha, by simp [h, h']⟩

/-- No range fits beside one that leaves nothing of the bounds. -/
theorem placeRange_none {used : List (Nat × Nat)} {unit base top named n : Nat} {r : Nat × Nat} (hr : r ∈ used) (h : r.1 < base + n)
    (h' : top < r.1 + r.2 + n) : placeRange used unit base top named n = none := by
  rw [placeRange, List.find?_eq_none]
  intro a _ ha
  simp only [Bool.and_eq_true, decide_eq_true_eq, apart, List.all_eq_true] at ha
  have := ha.2 r hr
  omega

/-- A place in canopy lies there and is apart from what is in use. -/
theorem placeCanopy_apart {s : State} {unit named n a : Nat} (h : placeCanopy s unit named n = some a) :
    s.sys.host.mid.toNat * 2 ^ 48 ≤ a ∧ a + n ≤ s.sys.host.mid.toNat * 2 ^ 48 + 0xC00000000 ∧ apart (usedRanges s) a n = true :=
  placeRange_apart h

/-- A clearing map has a place once its pages have a virtual one, and they and their tables a physical one. -/
theorem mapPlace_isSome {s : State} {l : Launch} (hv' : 4096 + 4096 * mapPages l ≤ 2 ^ 51)
    (hv : apart ((tenantMapped s (s.tenant l.tenant)).filterMap fun x => if x.leaf then some (x.va, x.size) else none) 4096
      (4096 * mapPages l) = true)
    (hp : ∀ named, (placeCanopy s 4096 named (4 * (4096 * mapPages l))).isSome = true) : (mapPlace s l).isSome = true := by
  obtain ⟨va, h1⟩ := Option.isSome_iff_exists.mp
    (placeRange_isSome (unit := 4096) (named := (Config.mapBase l.lid.toNat).toNat % 2 ^ 51 / 4096 * 4096) (List.mem_cons_self ..)
      ⟨Nat.le_refl _, hv'⟩ hv)
  obtain ⟨pa, h2⟩ := Option.isSome_iff_exists.mp (hp (canopyPage s (Config.mapFrame l.lid.toNat)))
  unfold mapPlace
  dsimp only
  split
  · rfl
  · rename_i h
    exact (h va pa h1 h2).elim

/-- A clearing map has no place while something covers the module's canopy. -/
theorem mapPlace_none {s : State} {l : Launch} {r : Nat × Nat} (hr : r ∈ usedRanges s)
    (h : r.1 < s.sys.host.mid.toNat * 2 ^ 48 + 4 * (4096 * mapPages l))
    (h' : s.sys.host.mid.toNat * 2 ^ 48 + 0xC00000000 < r.1 + r.2 + 4 * (4096 * mapPages l)) : mapPlace s l = none := by
  have h2 : placeCanopy s 4096 (canopyPage s (Config.mapFrame l.lid.toNat)) (4 * (4096 * mapPages l)) = none := placeRange_none hr h h'
  simp only [mapPlace, h2]
  split <;> first | rfl | simp_all

end Sys2Proof.Machine
end

