-- ==== Sys2Proof/Tests/Slice0.lean ====
section
/-! SUPPORT. Tests: what the checks of WellFormed refuse, words of the spec's encodings, one step of the machine on small states, and for each
claim a state that meets its hypotheses. -/

set_option Elab.async false

open Sys2Proof Sys2Proof.Machine

/-! ### Small states -/

/-- The leaf of a page of tenant 0 at its own address: readable, writable, executable, for users, of a kind. -/
def testLeaf (pa kind : Nat) : Word := BitVec.ofNat 64 (pa + kind * 1024 + 0x3F)

/-- A unit of launch 1 at user level in slot 0 of core 0, with a scratchpad window of 64 KiB and two pages of canopy, one of kind RC and
one of kind UN. -/
def unit0 : State :=
  { th := { bound := true, id := { lid := 1 }
            pcq := { e0 := ⟨0x10000, false⟩, e1 := ⟨0x10002, false⟩, e2 := ⟨0x10004, false⟩ } }
    core := { windows := [⟨1, 0, 0x10000, 0, 0x1000⟩] }
    sys := {
      boot := { state := 3 }
      tenants := [(0, { live := true, w := 16, h := 16, entry := 0x40001, root := some 0x100000 })]
      tlb := [⟨0, 0, 0x10000, 4096, testLeaf 0x10000 0⟩, ⟨0, 0, 0x20000, 4096, testLeaf 0x20000 1⟩]
      work := { launches := [(1, { lid := 1, units := 4, mesh := List.range 16 })] } } }

/-- That unit with values in registers. -/
def unitWith (vs : List (Reg × Word)) : State := vs.foldl (fun s v => s.setReg v.1 v.2) unit0

/-- That unit with `g5` bound to slot 1 of the same core, holding a message or none. -/
def boundUnit (full : Bool) : State :=
  unit0.withTh { unit0.th with ch := { binds := [⟨5, ⟨0, 0, 1⟩, full, 7⟩] } }

/-- That unit at supervisor level, in the supervisor's handler. -/
def superUnit : State := unit0.withSr { unit0.th.sr with pl := true, se := true, svec := 0x40000 }

/-- That unit in a user trap handler. -/
def trapUnit : State := unit0.withSr { unit0.th.sr with ue := true }

/-- A state that some thread is in, with another in slot 1. -/
def pair (s : State) (t : Thread) : State := { s with others := [(placeNum ⟨0, 0, 1⟩, t)] }

/-- Local-window addresses. -/
def localVa (x : Nat) : Word := BitVec.ofNat 64 (0xFFFFFFFFFFF00000 + x)

/-! ### Decoding: words written from the formats and tables of R151 to R171 -/

theorem test_decode_compact_alu :
    decodeTableWord 16 0x3560 = some (.mov16 11 (.reg 13)) ∧
    decodeTableWord 16 0x3562 = some (.add16 11 (.reg 13)) ∧
    decodeTableWord 16 0x3564 = some (.sub16 11 (.reg 13)) ∧
    decodeTableWord 16 0x3566 = some (.and16 11 (.reg 13)) ∧
    decodeTableWord 16 0x3568 = some (.or16 11 (.reg 13)) ∧
    decodeTableWord 16 0x356A = some (.xor16 11 (.reg 13)) ∧
    decodeTableWord 16 0x356C = some (.shl16 11 (.reg 13)) ∧
    decodeTableWord 16 0x356E = some (.shr16 11 (.reg 13)) ∧
    decodeTableWord 16 0x3570 = some (.sra16 11 (.reg 13)) ∧
    decodeTableWord 16 0x3572 = some (.mul16 11 (.reg 13)) ∧
    decodeTableWord 16 0x3574 = some (.min16 11 (.reg 13)) ∧
    decodeTableWord 16 0x3576 = some (.max16 11 (.reg 13)) := by decide +kernel

theorem test_decode_compact_alu_imm :
    decodeTableWord 16 0xD560 = some (.mov16 11 (.imm 21)) ∧
    decodeTableWord 16 0xD562 = some (.add16 11 (.imm 21)) ∧
    decodeTableWord 16 0xD564 = some (.sub16 11 (.imm 21)) ∧
    decodeTableWord 16 0xD566 = some (.and16 11 (.imm 21)) ∧
    decodeTableWord 16 0xD568 = some (.or16 11 (.imm 21)) ∧
    decodeTableWord 16 0xD56A = some (.xor16 11 (.imm 21)) ∧
    decodeTableWord 16 0xD56C = some (.shl16 11 (.imm 21)) ∧
    decodeTableWord 16 0xD56E = some (.shr16 11 (.imm 21)) ∧
    decodeTableWord 16 0xD570 = some (.sra16 11 (.imm 21)) ∧
    decodeTableWord 16 0xD572 = some (.mul16 11 (.imm 21)) ∧
    decodeTableWord 16 0xD574 = some (.min16 11 (.imm 21)) ∧
    decodeTableWord 16 0xD576 = some (.max16 11 (.imm 21)) := by decide +kernel

theorem test_decode_compact_memory :
    decodeTableWord 16 0x3578 = some (.ldw16 11 13 false) ∧
    decodeTableWord 16 0xB578 = some (.ldw16 11 13 true) ∧
    decodeTableWord 16 0x357A = some (.stw16 11 13 false) ∧
    decodeTableWord 16 0xB57A = some (.stw16 11 13 true) ∧
    decodeTableWord 16 0x357C = some (.ldd16 11 13 false) ∧
    decodeTableWord 16 0xB57C = some (.ldd16 11 13 true) ∧
    decodeTableWord 16 0x357E = some (.std16 11 13 false) ∧
    decodeTableWord 16 0xB57E = some (.std16 11 13 true) := by decide +kernel

theorem test_decode_integer_arithmetic :
    decodeTableWord 32 0x001AC583 = some (.add .w64 11 12 13) ∧
    decodeTableWord 32 0x405AC583 = some (.sub .w32 11 12 13) ∧
    decodeTableWord 32 0x809AC583 = some (.mul .w16 11 12 13) ∧
    decodeTableWord 32 0xC0DAC583 = some (.mulh .w8 11 12 13) ∧
    decodeTableWord 32 0x011AC583 = some (.mulhu .w64 11 12 13) ∧
    decodeTableWord 32 0x415AC583 = some (.div .w32 11 12 13) ∧
    decodeTableWord 32 0x819AC583 = some (.divu .w16 11 12 13) ∧
    decodeTableWord 32 0xC1DAC583 = some (.rem .w8 11 12 13) ∧
    decodeTableWord 32 0x021AC583 = some (.remu .w64 11 12 13) := by decide +kernel

theorem test_decode_integer_logic :
    decodeTableWord 32 0x041AC583 = some (.and 11 12 13) ∧
    decodeTableWord 32 0x045AC583 = some (.or 11 12 13) ∧
    decodeTableWord 32 0x049AC583 = some (.xor 11 12 13) ∧
    decodeTableWord 32 0x04DAC583 = some (.andn 11 12 13) ∧
    decodeTableWord 32 0x051AC583 = some (.orn 11 12 13) ∧
    decodeTableWord 32 0x081AC583 = some (.min .w64 11 12 13) ∧
    decodeTableWord 32 0x485AC583 = some (.max .w32 11 12 13) ∧
    decodeTableWord 32 0x889AC583 = some (.minu .w16 11 12 13) ∧
    decodeTableWord 32 0xC8DAC583 = some (.maxu .w8 11 12 13) := by decide +kernel

theorem test_decode_integer_shifts :
    decodeTableWord 32 0x061AC583 = some (.shl .w64 11 12 13) ∧
    decodeTableWord 32 0x465AC583 = some (.shr .w32 11 12 13) ∧
    decodeTableWord 32 0x869AC583 = some (.sra .w16 11 12 13) ∧
    decodeTableWord 32 0xC6DAC583 = some (.rol .w8 11 12 13) ∧
    decodeTableWord 32 0x071AC583 = some (.ror .w64 11 12 13) := by decide +kernel

theorem test_decode_integer_bits :
    decodeTableWord 32 0x0A00C583 = some (.clz .w64 11 12) ∧
    decodeTableWord 32 0x4A40C583 = some (.ctz .w32 11 12) ∧
    decodeTableWord 32 0x8A80C583 = some (.popc .w16 11 12) ∧
    decodeTableWord 32 0xCAC0C583 = some (.sext .w8 11 12) ∧
    decodeTableWord 32 0x8B00C583 = some (.zext .w16 11 12) ∧
    decodeTableWord 32 0x4CC0C583 = some (.bswap .w32 11 12) ∧
    decodeTableWord 32 0x0C1AC583 = some (.bfx 11 12 13) ∧
    decodeTableWord 32 0x0C5AC583 = some (.bfxu 11 12 13) ∧
    decodeTableWord 32 0x0C9AC583 = some (.bfi 11 12 13) := by decide +kernel

theorem test_decode_immediates :
    decodeTableWord 32 0xB4B4C585 = some (.addi 11 12 0x5A5A) ∧
    decodeTableWord 32 0xB4B4C587 = some (.andi 11 12 0x5A5A) ∧
    decodeTableWord 32 0xB4B4C589 = some (.ori 11 12 0x5A5A) ∧
    decodeTableWord 32 0xB4B4C58B = some (.xori 11 12 0x5A5A) ∧
    decodeTableWord 32 0x007EC58D = some (.shli .w64 11 12 63) ∧
    decodeTableWord 32 0x02BEC58D = some (.shri .w32 11 12 31) ∧
    decodeTableWord 32 0x050EC58D = some (.srai .w16 11 12 7) ∧
    decodeTableWord 32 0xA5A5A593 = some (.li 11 0xA5A5A) ∧
    decodeTableWord 32 0xA5A5A595 = some (.lui 11 0xA5A5A) ∧
    decodeTableWord 32 0xA5A5A597 = some (.lea 11 0xA5A5A) := by decide +kernel

theorem test_decode_compares :
    decodeTableWord 32 0xFFF6B08F = some (.cmpi .eq 1 11 0x7FFB) ∧
    decodeTableWord 32 0x401AC111 = some (.cmp .eq .w32 2 12 13) ∧
    decodeTableWord 32 0xFFF6B28F = some (.cmpi .ne 1 11 0x7FFB) ∧
    decodeTableWord 32 0x401AC311 = some (.cmp .ne .w32 2 12 13) ∧
    decodeTableWord 32 0xFFF6B48F = some (.cmpi .lt 1 11 0x7FFB) ∧
    decodeTableWord 32 0x401AC511 = some (.cmp .lt .w32 2 12 13) ∧
    decodeTableWord 32 0xFFF6B68F = some (.cmpi .ltu 1 11 0x7FFB) ∧
    decodeTableWord 32 0x401AC711 = some (.cmp .ltu .w32 2 12 13) ∧
    decodeTableWord 32 0xFFF6B88F = some (.cmpi .le 1 11 0x7FFB) ∧
    decodeTableWord 32 0x401AC911 = some (.cmp .le .w32 2 12 13) ∧
    decodeTableWord 32 0xFFF6BA8F = some (.cmpi .leu 1 11 0x7FFB) ∧
    decodeTableWord 32 0x401ACB11 = some (.cmp .leu .w32 2 12 13) := by decide +kernel

theorem test_decode_loads_stores :
    decodeTableWord 32 0x8002B719 = some (.ldb 14 11 0x4001) ∧
    decodeTableWord 32 0x8002B71B = some (.ldbu 14 11 0x4001) ∧
    decodeTableWord 32 0x8002B71D = some (.ldh 14 11 0x4001) ∧
    decodeTableWord 32 0x8002B71F = some (.ldhu 14 11 0x4001) ∧
    decodeTableWord 32 0x8002B721 = some (.ldw 14 11 0x4001) ∧
    decodeTableWord 32 0x8002B723 = some (.ldwu 14 11 0x4001) ∧
    decodeTableWord 32 0x8002B725 = some (.ldd 14 11 0x4001) ∧
    decodeTableWord 32 0x8002B727 = some (.stb 14 11 0x4001) ∧
    decodeTableWord 32 0x8002B729 = some (.sth 14 11 0x4001) ∧
    decodeTableWord 32 0x8002B72B = some (.stw 14 11 0x4001) ∧
    decodeTableWord 32 0x8002B72D = some (.std 14 11 0x4001) ∧
    decodeTableWord 32 0x0000B72F = some (.ldAcq .w64 14 11) ∧
    decodeTableWord 32 0x4040B72F = some (.ldFe .w32 14 11) ∧
    decodeTableWord 32 0x8080B72F = some (.ldFek .w16 14 11) ∧
    decodeTableWord 32 0xC200B72F = some (.stRel .w8 14 11) ∧
    decodeTableWord 32 0x4240B72F = some (.stFill .w32 14 11) := by decide +kernel

theorem test_decode_tag_table :
    decodeTableWord 32 0x0000C5B1 = some (.tlook 11 12) ∧
    decodeTableWord 32 0x005AC4B1 = some (.tinst 12 13 9) ∧
    decodeTableWord 32 0x0080C031 = some (.tdrop 12) := by decide +kernel

theorem test_decode_control :
    decodeTableWord 32 0xFFFFC333 = some (.bt 2 0x1FFFF8) ∧
    decodeTableWord 32 0xFFFFC133 = some (.bf 2 0x1FFFF8) ∧
    decodeTableWord 32 0xFFFFC733 = some (.btN 2 0x1FFFF8) ∧
    decodeTableWord 32 0xFFFFC533 = some (.bfN 2 0x1FFFF8) ∧
    decodeTableWord 32 0xFFFFFEB5 = some (.jmp 0x1FFFFFD) ∧
    decodeTableWord 32 0x091A2B37 = some (.call 0x123456) ∧
    decodeTableWord 32 0x0000C039 = some (.jmpr 12) ∧
    decodeTableWord 32 0x0040C039 = some (.callr 12) ∧
    decodeTableWord 32 0x00800039 = some (.ret) ∧
    decodeTableWord 32 0x023FF039 = some (.rep 1023) ∧
    decodeTableWord 32 0x0240C039 = some (.repr 12) ∧
    decodeTableWord 32 0x04000039 = some (.endUnit) ∧
    decodeTableWord 32 0x04400039 = some (.yield) ∧
    decodeTableWord 32 0x04800039 = some (.nop) ∧
    decodeTableWord 32 0x06400039 = some (.brk) ∧
    decodeTableWord 32 0x060A5039 = some (.trap 0xA5) := by decide +kernel

theorem test_decode_pointers :
    decodeTableWord 32 0x0000C4BB = some (.pset 9 12) ∧
    decodeTableWord 32 0x004095BB = some (.pget 11 9) ∧
    decodeTableWord 32 0x0080C4BB = some (.padd 9 12) ∧
    decodeTableWord 32 0x00C0C4BB = some (.pstr 9 12) := by decide +kernel

theorem test_decode_conditions :
    decodeTableWord 32 0x000430BD = some (.cand 1 3 2) ∧
    decodeTableWord 32 0x004430BD = some (.cor 1 3 2) ∧
    decodeTableWord 32 0x008430BD = some (.cxor 1 3 2) ∧
    decodeTableWord 32 0x0200C0BD = some (.cset 1 12) ∧
    decodeTableWord 32 0x024035BD = some (.cget 11 3) ∧
    decodeTableWord 32 0xC41AC5BD = some (.sel 11 12 13 3) := by decide +kernel

theorem test_decode_vector_integer :
    decodeTableWord 32 0x0016E5C1 = some (.vaddInt false .i16 11 12 13) ∧
    decodeTableWord 32 0x00D6E5C1 = some (.vaddInt true .u32 11 12 13) ∧
    decodeTableWord 32 0x0416E5C1 = some (.vsubInt false .i16 11 12 13) ∧
    decodeTableWord 32 0x04D6E5C1 = some (.vsubInt true .u32 11 12 13) ∧
    decodeTableWord 32 0x0816E5C1 = some (.vmulInt false .i16 11 12 13) ∧
    decodeTableWord 32 0x08D6E5C1 = some (.vmulInt true .u32 11 12 13) ∧
    decodeTableWord 32 0x141065C1 = some (.vabsInt false .i16 11 12) ∧
    decodeTableWord 32 0x14D065C1 = some (.vabsInt true .u32 11 12) ∧
    decodeTableWord 32 0x181065C1 = some (.vnegInt false .i16 11 12) ∧
    decodeTableWord 32 0x18D065C1 = some (.vnegInt true .u32 11 12) ∧
    decodeTableWord 32 0x0C0EE5C1 = some (.vminInt .u8 11 12 13) ∧
    decodeTableWord 32 0x100EE5C1 = some (.vmaxInt .u8 11 12 13) ∧
    decodeTableWord 32 0x200EE5C1 = some (.vand .u8 11 12 13) ∧
    decodeTableWord 32 0x240EE5C1 = some (.vor .u8 11 12 13) ∧
    decodeTableWord 32 0x280EE5C1 = some (.vxor .u8 11 12 13) ∧
    decodeTableWord 32 0x300EE5C1 = some (.vshl .u8 11 12 13) ∧
    decodeTableWord 32 0x340EE5C1 = some (.vshr .u8 11 12 13) ∧
    decodeTableWord 32 0x380EE5C1 = some (.vsra .u8 11 12 13) := by decide +kernel

theorem test_decode_vector_fp :
    decodeTableWord 32 0x012EE5C3 = some (.vaddFp .rdn .f16 11 12 13) ∧
    decodeTableWord 32 0x052EE5C3 = some (.vsubFp .rdn .f16 11 12 13) ∧
    decodeTableWord 32 0x092EE5C3 = some (.vmulFp .rdn .f16 11 12 13) ∧
    decodeTableWord 32 0x1D2EE5C3 = some (.vdiv .rdn .f16 11 12 13) ∧
    decodeTableWord 32 0x0C36E5C3 = some (.vminFp .bf16 11 12 13) ∧
    decodeTableWord 32 0x1036E5C3 = some (.vmaxFp .bf16 11 12 13) ∧
    decodeTableWord 32 0x142065C3 = some (.vabsFp .f32 11 12) ∧
    decodeTableWord 32 0x182065C3 = some (.vnegFp .f32 11 12) ∧
    decodeTableWord 32 0x21A065C3 = some (.vsqrt .rup .f32 11 12) ∧
    decodeTableWord 32 0x00A6E5C5 = some (.vfma .rtz .f32 11 12 13) ∧
    decodeTableWord 32 0x0436E5C5 = some (.vfms .rne .bf16 11 12 13) := by decide +kernel

theorem test_decode_vector_moves :
    decodeTableWord 32 0x0046E5C7 = some (.vcmp .eq .f8e4 11 12 13) ∧
    decodeTableWord 32 0x00C6E5C7 = some (.vcmp .ne .f8e4 11 12 13) ∧
    decodeTableWord 32 0x0146E5C7 = some (.vcmp .lt .f8e4 11 12 13) ∧
    decodeTableWord 32 0x01C6E5C7 = some (.vcmp .le .f8e4 11 12 13) ∧
    decodeTableWord 32 0x0246E5C7 = some (.vcmp .gt .f8e4 11 12 13) ∧
    decodeTableWord 32 0x02C6E5C7 = some (.vcmp .ge .f8e4 11 12 13) ∧
    decodeTableWord 32 0x041EE5C7 = some (.vsel .i32 11 12 13) ∧
    decodeTableWord 32 0x084865C7 = some (.vmov .u16 11 12) ∧
    decodeTableWord 32 0x0C3865C7 = some (.vbcast .f8e5 11 12) := by decide +kernel

theorem test_decode_vector_convert :
    decodeTableWord 32 0x1232E5C9 = some (.vcvt false .f32 .sr .bf16 11 12 5) ∧
    decodeTableWord 32 0x508065C9 = some (.vcvt true .f32 .rtz .i8 11 12 0) ∧
    decodeTableWord 32 0x8242E5C9 = some (.vqnt .sr .f8e4 11 12 5) ∧
    decodeTableWord 32 0x840865C9 = some (.vdeq .rne .u8 11 12) ∧
    decodeTableWord 32 0x88002A49 = some (.vplane false 4 5) ∧
    decodeTableWord 32 0x88802A49 = some (.vplane true 4 5) := by decide +kernel

theorem test_decode_vector_reduce :
    decodeTableWord 32 0x01A865CB = some (.vrsum .rup .f16 11 12) ∧
    decodeTableWord 32 0x040065CB = some (.vrmax .i8 11 12) ∧
    decodeTableWord 32 0x082065CB = some (.vrmin .f32 11 12) ∧
    decodeTableWord 32 0x205005CB = some (.vidx .u32 11) ∧
    decodeTableWord 32 0x2416E5CB = some (.vgath .i16 11 12 13) ∧
    decodeTableWord 32 0x2816E5CB = some (.vscat .i16 11 12 13) ∧
    decodeTableWord 32 0x2C16E5CB = some (.vperm .i16 11 12 13) := by decide +kernel

theorem test_decode_graphics :
    decodeTableWord 32 0x0026E5CD = some (.edge 11 12 13) ∧
    decodeTableWord 32 0x0426E5CD = some (.boxt 11 12 13) ∧
    decodeTableWord 32 0x082EE5CD = some (.txdec .f16 11 12 13) ∧
    decodeTableWord 32 0x0C2065CD = some (.trav 11 12) := by decide +kernel

theorem test_decode_variates :
    decodeTableWord 32 0x001AC2D1 = some (.lznew 5 12 13) ∧
    decodeTableWord 32 0x004062D1 = some (.lzmov 5 6) ∧
    decodeTableWord 32 0x008062D1 = some (.lzcpl 5 6) ∧
    decodeTableWord 32 0x00DA61D1 = some (.lzlt 3 6 13) ∧
    decodeTableWord 32 0x010E61D1 = some (.lzlt2 3 6 7) ∧
    decodeTableWord 32 0x015A61D1 = some (.lzbern 3 6 13) ∧
    decodeTableWord 32 0xFD8065D1 = some (.lzbits 11 6 63) ∧
    decodeTableWord 32 0x01CAC051 = some (.lzst 12 5) ∧
    decodeTableWord 32 0x0200C2D1 = some (.lzld 5 12) := by decide +kernel

theorem test_decode_matrix :
    decodeTableWord 32 0x0575B0D3 = some (.mmaI true 11 2 33 45) ∧
    decodeTableWord 32 0x0975B0D3 = some (.mmaS 11 2 33 45) ∧
    decodeTableWord 32 0x1175B0D3 = some (.gmm 11 2 33 45) ∧
    decodeTableWord 32 0x016010D5 = some (.gath 11 33) ∧
    decodeTableWord 32 0x09700055 = some (.mmz 11 2) ∧
    decodeTableWord 32 0x117010D5 = some (.mmld 11 2 33) ∧
    decodeTableWord 32 0x1D7010D5 = some (.mmst true 11 33 2) := by decide +kernel

theorem test_decode_copy_collective :
    decodeTableWord 32 0x0165B0D7 = some (.cpy 11 33 45) ∧
    decodeTableWord 32 0x0965B0D7 = some (.cpyt 11 33 45) ∧
    decodeTableWord 32 0x1165B0D7 = some (.cpyx 11 33 45) ∧
    decodeTableWord 32 0x1975B0D7 = some (.cpym 11 2 33 45) ∧
    decodeTableWord 32 0x0165B0D9 = some (.collAr 11 33 45) ∧
    decodeTableWord 32 0x0965B0D9 = some (.collRs 11 33 45) ∧
    decodeTableWord 32 0x1165B0D9 = some (.collAg 11 33 45) ∧
    decodeTableWord 32 0x81600059 = some (.cwait 11) := by decide +kernel

theorem test_decode_schedule :
    decodeTableWord 32 0x001A05DB = some (.nextt 11 13) ∧
    decodeTableWord 32 0x0040C05B = some (.tdone 12) ∧
    decodeTableWord 32 0x0080C05B = some (.tgive 12) ∧
    decodeTableWord 32 0x00C0C05B = some (.schw 12) ∧
    decodeTableWord 32 0x0100C05B = some (.schr 12) := by decide +kernel

theorem test_decode_layers :
    decodeTableWord 32 0x000005DD = some (.lyrnew 11) ∧
    decodeTableWord 32 0x0040C05D = some (.lyrfree 12) ∧
    decodeTableWord 32 0xA09AC05D = some (.lyrset 5 12 13) ∧
    decodeTableWord 32 0xC0C0C5DD = some (.lyrget 6 11 12) ∧
    decodeTableWord 32 0x011AC5DD = some (.lyrcommit 11 12 13) ∧
    decodeTableWord 32 0x0140C5DD = some (.lyrsplit 11 12) ∧
    decodeTableWord 32 0x019AC05D = some (.lyrmerge 12 13) ∧
    decodeTableWord 32 0xE1DAC5DD = some (.lyrdep 7 11 12 13) ∧
    decodeTableWord 32 0x021AC5DD = some (.lyrord 11 12 13) ∧
    decodeTableWord 32 0x041AC05D = some (.pose 12 13) ∧
    decodeTableWord 32 0x045AC5DD = some (.rls 11 12 13) := by decide +kernel

theorem test_decode_tensor_table :
    decodeTableWord 32 0xB41AC5DF = some (.tdset 45 11 12 13) ∧
    decodeTableWord 32 0xB44405DF = some (.tdget 45 11 2) ∧
    decodeTableWord 32 0xB480005F = some (.tdinv 45) ∧
    decodeTableWord 32 0x0200C5DF = some (.lnch 11 12) := by decide +kernel

theorem test_decode_channels :
    decodeTableWord 32 0x0000B2E1 = some (.chbind 5 11) ∧
    decodeTableWord 32 0x004002E1 = some (.chfree 5) ∧
    decodeTableWord 32 0x0098B061 = some (.snd 11 12) ∧
    decodeTableWord 32 0x00D8B061 = some (.sndE 11 12) := by decide +kernel

theorem test_decode_atomics :
    decodeTableWord 32 0x001AC063 = some (.amoAdd false 12 13) ∧
    decodeTableWord 32 0x401AC063 = some (.amoAdd true 12 13) ∧
    decodeTableWord 32 0x005AC063 = some (.amoMin false 12 13) ∧
    decodeTableWord 32 0x405AC063 = some (.amoMin true 12 13) ∧
    decodeTableWord 32 0x009AC063 = some (.amoMax false 12 13) ∧
    decodeTableWord 32 0x409AC063 = some (.amoMax true 12 13) ∧
    decodeTableWord 32 0x00DAC063 = some (.amoMinu false 12 13) ∧
    decodeTableWord 32 0x40DAC063 = some (.amoMinu true 12 13) ∧
    decodeTableWord 32 0x011AC063 = some (.amoMaxu false 12 13) ∧
    decodeTableWord 32 0x411AC063 = some (.amoMaxu true 12 13) ∧
    decodeTableWord 32 0x015AC063 = some (.amoAnd false 12 13) ∧
    decodeTableWord 32 0x415AC063 = some (.amoAnd true 12 13) ∧
    decodeTableWord 32 0x019AC063 = some (.amoOr false 12 13) ∧
    decodeTableWord 32 0x419AC063 = some (.amoOr true 12 13) ∧
    decodeTableWord 32 0x01DAC063 = some (.amoXor false 12 13) ∧
    decodeTableWord 32 0x41DAC063 = some (.amoXor true 12 13) := by decide +kernel

theorem test_decode_sync :
    decodeTableWord 32 0x001AC5E5 = some (.logaddF32 11 12 13) ∧
    decodeTableWord 32 0x00400065 = some (.phend) ∧
    decodeTableWord 32 0x04000065 = some (.fenceCore) ∧
    decodeTableWord 32 0x04400065 = some (.fenceGrove) ∧
    decodeTableWord 32 0x04800065 = some (.fenceDie) ∧
    decodeTableWord 32 0x04C00065 = some (.fencePackage) ∧
    decodeTableWord 32 0x05000065 = some (.fenceSystem) ∧
    decodeTableWord 32 0x06000065 = some (.barCore) ∧
    decodeTableWord 32 0x06400065 = some (.barGrove) ∧
    decodeTableWord 32 0x06800065 = some (.barDie) ∧
    decodeTableWord 32 0x06C00065 = some (.barPackage) ∧
    decodeTableWord 32 0x07000065 = some (.barSystem) ∧
    decodeTableWord 32 0x07400065 = some (.barLaunch) := by decide +kernel

theorem test_decode_gangs :
    decodeTableWord 32 0x0000C067 = some (.gang 12) ∧
    decodeTableWord 32 0x00400067 = some (.gjoin) ∧
    decodeTableWord 32 0x00800067 = some (.gquit) ∧
    decodeTableWord 32 0x021AC067 = some (.hvlend 12 13) ∧
    decodeTableWord 32 0x025AC067 = some (.hvreclaim 12 13) := by decide +kernel

theorem test_decode_system :
    decodeTableWord 32 0x00000071 = some (.rfe) ∧
    decodeTableWord 32 0x0040C071 = some (.tlbinvPage 12) ∧
    decodeTableWord 32 0x0080C071 = some (.tlbinvTenant 12) ∧
    decodeTableWord 32 0x00C00071 = some (.tlbinvAll) ∧
    decodeTableWord 32 0x01000071 = some (.icinv) ∧
    decodeTableWord 32 0x0200C071 = some (.ctxsv 12) ∧
    decodeTableWord 32 0x0240C071 = some (.ctxld 12) ∧
    decodeTableWord 32 0x02800071 = some (.wflush) ∧
    decodeTableWord 32 0x041AC071 = some (.sig 12 13) ∧
    decodeTableWord 32 0x04400071 = some (.idle) := by decide +kernel

theorem test_decode_special_registers_1 :
    decodeTableWord 32 0x000005F3 = some (.mfsr 11 .cid) ∧
    decodeTableWord 32 0x000205F3 = some (.mfsr 11 .tid) ∧
    decodeTableWord 32 0x000405F3 = some (.mfsr 11 .gid) ∧
    decodeTableWord 32 0x000605F3 = some (.mfsr 11 .did) ∧
    decodeTableWord 32 0x000805F3 = some (.mfsr 11 .mid) ∧
    decodeTableWord 32 0x000A05F3 = some (.mfsr 11 .lid) ∧
    decodeTableWord 32 0x001005F3 = some (.mfsr 11 .cyc) ∧
    decodeTableWord 32 0x002005F3 = some (.mfsr 11 .vl) ∧
    decodeTableWord 32 0x002205F3 = some (.mfsr 11 .flags) ∧
    decodeTableWord 32 0x002405F3 = some (.mfsr 11 .qtier) ∧
    decodeTableWord 32 0x002605F3 = some (.mfsr 11 .cmdst) ∧
    decodeTableWord 32 0x002805F3 = some (.mfsr 11 .spbase) ∧
    decodeTableWord 32 0x002A05F3 = some (.mfsr 11 .splim) ∧
    decodeTableWord 32 0x002C05F3 = some (.mfsr 11 .scbase) ∧
    decodeTableWord 32 0x002E05F3 = some (.mfsr 11 .sclim) ∧
    decodeTableWord 32 0x003005F3 = some (.mfsr 11 .wsp) ∧
    decodeTableWord 32 0x003205F3 = some (.mfsr 11 .wlim) ∧
    decodeTableWord 32 0x003405F3 = some (.mfsr 11 .mcfg) ∧
    decodeTableWord 32 0x003605F3 = some (.mfsr 11 .xcfg) ∧
    decodeTableWord 32 0x004005F3 = some (.mfsr 11 .status) ∧
    decodeTableWord 32 0x004205F3 = some (.mfsr 11 .evcode) ∧
    decodeTableWord 32 0x004405F3 = some (.mfsr 11 .evaddr) ∧
    decodeTableWord 32 0x004605F3 = some (.mfsr 11 .epc0) ∧
    decodeTableWord 32 0x004805F3 = some (.mfsr 11 .epc1) := by decide +kernel

theorem test_decode_special_registers_2 :
    decodeTableWord 32 0x004A05F3 = some (.mfsr 11 .epc2) ∧
    decodeTableWord 32 0x004C05F3 = some (.mfsr 11 .eann) ∧
    decodeTableWord 32 0x006005F3 = some (.mfsr 11 .uentry) ∧
    decodeTableWord 32 0x006205F3 = some (.mfsr 11 .wdlim) ∧
    decodeTableWord 32 0x020005F3 = some (.mfsr 11 .svec) ∧
    decodeTableWord 32 0x020205F3 = some (.mfsr 11 .sarea) ∧
    decodeTableWord 32 0x020405F3 = some (.mfsr 11 .sscratch) ∧
    decodeTableWord 32 0x2022B073 = some (.mtsr .flags 11) ∧
    decodeTableWord 32 0x2204B073 = some (.mtsr .sscratch 11) := by decide +kernel

/-! ### Well-formedness: for each check a term that it refuses, beside one that it admits -/

theorem test_wf_compact :
    (Instr.mov16 0 (.reg 0)).wf = false ∧ (Instr.mov16 0 (.reg 1)).wf = true ∧ (Instr.ldw16 3 3 true).wf = false ∧
    (Instr.ldw16 3 3 false).wf = true ∧ (Instr.ldd16 3 3 true).wf = false ∧ (Instr.stw16 3 3 true).wf = true := by decide

theorem test_wf_widths :
    (Instr.sext .w64 1 2).wf = false ∧ (Instr.zext .w64 1 2).wf = false ∧ (Instr.bswap .w8 1 2).wf = false ∧ (Instr.sext .w8 1 2).wf = true ∧
    (Instr.shli .w8 1 2 8).wf = false ∧ (Instr.shri .w16 1 2 16).wf = false ∧ (Instr.srai .w32 1 2 32).wf = false ∧
    (Instr.srai .w32 1 2 31).wf = true := by decide

theorem test_wf_conditions :
    (Instr.cmpi .eq 0 1 2).wf = false ∧ (Instr.cmp .eq .w64 0 1 2).wf = false ∧ (Instr.cand 0 1 2).wf = false ∧ (Instr.cor 0 1 2).wf = false ∧
    (Instr.cxor 0 1 2).wf = false ∧ (Instr.cset 0 1).wf = false ∧ (Instr.lzlt 0 1 2).wf = false ∧ (Instr.lzlt2 0 1 2).wf = false ∧
    (Instr.lzbern 0 1 2).wf = false ∧ (Instr.cget 1 0).wf = true := by decide

theorem test_wf_vector_integer :
    (Instr.vaddInt false .f32 1 2 3).wf = false ∧ (Instr.vsubInt false .f16 1 2 3).wf = false ∧ (Instr.vmulInt false .bf16 1 2 3).wf = false ∧
    (Instr.vminInt .f8e4 1 2 3).wf = false ∧ (Instr.vmaxInt .f8e5 1 2 3).wf = false ∧ (Instr.vabsInt false .f32 1 2).wf = false ∧
    (Instr.vnegInt false .f32 1 2).wf = false ∧ (Instr.vand .f32 1 2 3).wf = false ∧ (Instr.vor .f32 1 2 3).wf = false ∧
    (Instr.vxor .f32 1 2 3).wf = false ∧ (Instr.vshl .f32 1 2 3).wf = false ∧ (Instr.vshr .f32 1 2 3).wf = false ∧
    (Instr.vsra .f32 1 2 3).wf = false ∧ (Instr.vsra .u32 1 2 3).wf = true := by decide

theorem test_wf_vector_float :
    (Instr.vaddFp .rne .i8 1 2 3).wf = false ∧ (Instr.vsubFp .sr .f32 1 2 3).wf = false ∧ (Instr.vmulFp .rne .f8e4 1 2 3).wf = false ∧
    (Instr.vminFp .i32 1 2 3).wf = false ∧ (Instr.vmaxFp .f8e5 1 2 3).wf = false ∧ (Instr.vabsFp .u8 1 2).wf = false ∧
    (Instr.vnegFp .u8 1 2).wf = false ∧ (Instr.vdiv .sr .f32 1 2 3).wf = false ∧ (Instr.vsqrt .rne .i16 1 2).wf = false ∧
    (Instr.vfma .sr .f16 1 2 3).wf = false ∧ (Instr.vfms .rne .u16 1 2 3).wf = false ∧ (Instr.vfms .rup .bf16 1 2 3).wf = true := by decide

theorem test_wf_conversions :
    (Instr.vcvt false .f32 .rne .bf16 1 2 5).wf = false ∧ (Instr.vcvt false .f32 .sr .bf16 1 2 5).wf = true ∧
    (Instr.vqnt .rne .i8 1 2 5).wf = false ∧ (Instr.vqnt .rne .i32 1 2 0).wf = false ∧ (Instr.vdeq .sr .i8 1 2).wf = false ∧
    (Instr.vdeq .rne .f32 1 2).wf = false ∧ (Instr.vrsum .sr .f32 1 2).wf = false ∧ (Instr.vrsum .rup .i32 1 2).wf = false ∧
    (Instr.txdec .i16 1 2 3).wf = false ∧ (Instr.txdec .u8 1 2 3).wf = true := by decide

theorem test_wf_others :
    (Instr.nextt 3 3).wf = false ∧ (Instr.nextt 0 0).wf = true ∧ (Instr.tdget 1 2 3).wf = false ∧ (Instr.tdget 1 2 2).wf = true ∧
    (Instr.chbind 0 1).wf = false ∧ (Instr.chbind 7 1).wf = false ∧ (Instr.chbind 6 1).wf = true ∧ (Instr.chfree 0).wf = false ∧
    (Instr.chfree 8).wf = false := by decide

/-! ### Claims have cases: states that meet their hypotheses -/

/-- The conditions of `IssuesNext`, together. -/
theorem issuesNext_of {s : State} (h : (s.sys.power.stopped = false ∧ s.agenda = [] ∧ resumable s = none ∧ s.th.bound = true ∧ s.th.id.parking = false ∧
    s.th.rot = .ready ∧ s.th.held = none ∧ s.th.lat.watchdog = false ∧ s.th.lat.drop = none ∧ s.th.gang.now = none ∧ s.th.gang.buf = [] ∧
    s.th.gang.state ≠ .attached ∧ followerFull s = false) ∧ s.th.pcq.e0.annul = false ∧ eligibleRequest s.here s.th = none) : IssuesNext s := by
  obtain ⟨⟨h1, h2, h0, h3, h4, h5, h5', h6, h7, h8, h9, h10, h11⟩, h12, h13⟩ := h
  exact ⟨⟨h1, h2, h0, ⟨h3, h4⟩, ⟨h5, h5'⟩, ⟨h6, h7⟩, ⟨h8, h9, h10, h11⟩⟩, h12, h13⟩

theorem witness_DecodeEncodeAgree :
    (Instr.add16 19 (.reg 9)).wf = true ∧ encode (.add16 19 (.reg 9)) = some (16, 0x2662) ∧
    (Instr.mfsr 11 .flags).wf = true ∧ encode (.mfsr 11 .flags) = some (32, 0x002205F3) ∧
    decodeWord 16 0x2662 = .ok (.add16 19 (.reg 9)) ∧ decodeWord 32 0x002205F3 = .ok (.mfsr 11 .flags) := by decide +kernel

/-- Placed instructions of both lengths, an ending one and words that are none. -/
def placed (n w : Nat) : State := unit0.withFetchWord n w

theorem witness_StepRunsDecodedInstruction_compact :
    IssuesNext (placed 16 0x2662) ∧ fetchHalf (placed 16 0x2662) (placed 16 0x2662).th false 0x10000 = .ok 0x2662 ∧
    decodeWord 16 0x2662 = .ok (.add16 19 (.reg 9)) ∧
    fetchHalf (placed 16 0x2662) (placed 16 0x2662).th false (placed 16 0x2662).th.pcq.e2.addr = .ok 0 ∧
    (placed 16 0x2662).th.pcq.repLeft = 0 := by
  refine ⟨issuesNext_of ?_, ?_⟩ <;> decide +kernel

theorem witness_StepRunsDecodedInstruction_long :
    IssuesNext (placed 32 0x002205F3) ∧ fetchHalf (placed 32 0x002205F3) (placed 32 0x002205F3).th false 0x10000 = .ok 0x05F3 ∧
    fetchHalf (placed 32 0x002205F3) (placed 32 0x002205F3).th false 0x10002 = .ok 0x0022 ∧
    decodeWord 32 (0x05F3 + 65536 * 0x0022) = .ok (.mfsr 11 .flags) ∧ walksFor (placed 32 0x002205F3) 0 0x10000 = false ∧
    walksFor (placed 32 0x002205F3) 0 0x10002 = false ∧ walksFor (placed 32 0x002205F3) 0 (placed 32 0x002205F3).th.pcq.e2.addr = false := by
  refine ⟨issuesNext_of ?_, ?_⟩ <;> decide +kernel

/-- The unit at an address, with a page at 0x11000 that no TLB holds; the halfword at 0x10FFE is the first of a 32-bit instruction or 16 bits
long. -/
def walkingAt (pc : Word) (h : Byte) : State :=
  let m := putBytes (putBytes [] 0x100000 (wordBytes 0x101001)) 0x101000 (wordBytes 0x102001)
  let m := putBytes (putBytes m 0x102000 (wordBytes 0x103001)) 0x103088 (wordBytes (testLeaf 0x31000 0))
  let s : State := { unit0 with mem := putBytes m 0x10FFE [h, 0x26] }
  s.withTh { s.th with pcq := { e0 := ⟨pc, false⟩, e1 := ⟨pc + 2, false⟩, e2 := ⟨0x11000, false⟩ } }

theorem witness_StepRunsDecodedInstruction_walks :
    IssuesNext (walkingAt 0x11000 0x62) ∧ walksFor (walkingAt 0x11000 0x62) 0 0x11000 = true ∧ IssuesNext (walkingAt 0x10FFE 0x62) ∧
    walksFor (walkingAt 0x10FFE 0x62) 0 0x10FFE = false ∧ fetchHalf (walkingAt 0x10FFE 0x62) (walkingAt 0x10FFE 0x62).th false 0x10FFE = .ok 0x2662 ∧
    decodeWord 16 0x2662 = .ok (.add16 19 (.reg 9)) ∧ IssuesNext (walkingAt 0x10FFE 0x63) ∧
    fetchHalf (walkingAt 0x10FFE 0x63) (walkingAt 0x10FFE 0x63).th false 0x10FFE = .ok 0x2663 ∧
    walksFor (walkingAt 0x10FFE 0x63) 0 (0x10FFE + 2) = true := by
  refine ⟨issuesNext_of ?_, ?_, issuesNext_of ?_, ?_, ?_, ?_, issuesNext_of ?_, ?_, ?_⟩ <;> decide +kernel

/-- An `end` at the end of a page with nothing mapped behind it. -/
def endAtPageEnd : State :=
  { placed 32 0x04000039 with
    th := { (placed 32 0x04000039).th with pcq := { e0 := ⟨0x10FFC, false⟩, e1 := ⟨0x11000, false⟩, e2 := ⟨0x11002, false⟩ } }
    mem := putBytes [] 0x10FFC [0x39, 0, 0, 4] }

theorem witness_StepRunsDecodedInstruction_end :
    IssuesNext endAtPageEnd ∧ fetchHalf endAtPageEnd endAtPageEnd.th false 0x10FFC = .ok 0x39 ∧
    fetchHalf endAtPageEnd endAtPageEnd.th false 0x10FFE = .ok 0x400 ∧ decodeWord 32 (0x39 + 65536 * 0x400) = .ok .endUnit ∧
    endAtPageEnd.th.pcq.repLeft = 0 ∧
    fetchHalf endAtPageEnd endAtPageEnd.th false 0x11002 = .error ⟨0x04, 0x11002⟩ := by
  refine ⟨issuesNext_of ?_, ?_⟩ <;> decide +kernel

theorem witness_StepRunsDecodedInstruction_none :
    IssuesNext (placed 16 0) ∧ fetchHalf (placed 16 0) (placed 16 0).th false 0x10000 = .ok 0 ∧ decodeWord 16 0 = .error .zeroHalfword ∧
    decodeWord 32 0xFFFFFFFF = .error .reservedMajor ∧
    (placed 16 0).th.pcq.e2.addr = 0x10004 ∧
    fetchHalf (placed 16 0) (placed 16 0).th false 0x30000 = .error ⟨0x04, 0x30000⟩ := by
  refine ⟨issuesNext_of ?_, ?_⟩ <;> decide +kernel

/-- A placed instruction under a pending repeat count. -/
def repeated (n w : Nat) : State :=
  (placed n w).withTh { (placed n w).th with pcq := { (placed n w).th.pcq with repLeft := 2 } }

theorem witness_TurnsFollowSlots :
    let s := pair (unit0.withCore { unit0.core with cyc := 9 }) { unit0.th with id := { lid := 1, unit := 1, lastTurn := some 9 } }
    Canonical s ∧ (nextPlace s).isSome = true ∧ (s.coreBy 0).cyc.toNat + 24 < 2 ^ 64 ∧ midStream (nextTurn s) = false ∧
    (nextTurn s).here = ⟨0, 0, 0⟩ ∧ (nextTurn s).core.cyc = 16 ∧ (s.thr ⟨0, 0, 1⟩).bound = true ∧
    rested ((useTurn ⟨0, 0, 1⟩ s).thr ⟨0, 0, 1⟩) 17 = true ∧
    rested ((useTurn ⟨0, 0, 1⟩ s).thr ⟨0, 0, 1⟩) 16 = false := by decide +kernel

/-- A harvest context in a bank, seated in a primary slot or not. -/
def banked (seat : Option (Fin 8)) : State :=
  { here := ⟨0, 0, 8⟩, th := { bound := true, id := { lid := 1, harv := true, seat := seat } } }

theorem witness_TurnsFollowSlots_banked :
    (nextTurn (banked (some 3))).core.cyc = 3 ∧ (nextTurn (banked none)).core.cyc = 1 ∧ (nextTurn (banked none)).here = ⟨0, 0, 8⟩ ∧
    bankTurn (banked none) 1 none = some ⟨0, 0, 8⟩ ∧ (∀ p ∈ slotsFrom (banked none) 1, spillPending p ((banked none).thr p) = false ∧ (pendingFill (banked none) p).2 = false) ∧
    (firstMove pendingSpill (slotsFrom (banked none) 1) (banked none)).2 = false := by decide +kernel

theorem witness_StepKeepsMemories :
    Canonical (placed 32 21651) ∧ CanonicalLists (placed 32 21651) ∧ (match step (placed 32 21651) with | .next _ => true | _ => false) = true := by
  decide +kernel

theorem witness_LevelRisesByEvents :
    (encode .brk).isSome = true ∧ unit0.th.sr.pl = false ∧
    (match exec .brk unit0 with | .next t => t.th.sr.pl && t.th.bound | _ => false) = true := by decide +kernel

theorem witness_CompactFormsYield :
    Canonical unit0 ∧ Ready unit0 [9] [8] ∧ Ready unit0 [] [31] ∧ Ready unit0 [8, 9] [8] ∧ Ready unit0 [0] [0] ∧
    Canonical (boundUnit true) ∧ Ready (boundUnit true) [5] [8] ∧ [(5 : Reg)].find? (isBound (boundUnit true).th) = some 5 ∧
    NotHandling (boundUnit true) ∧ [(8 : Reg)].find? (isBound (boundUnit false).th) = none ∧
    emptySource (boundUnit false).th [9, 5] = some 5 := by decide +kernel

theorem witness_ArithmeticYields : Canonical (unitWith [(9, 5)]) ∧ Ready (unitWith [(9, 5)]) [8, 9] [8] ∧ Ready unit0 [8, 9] [0] := by
  decide +kernel

theorem witness_ShiftsAndImmediatesYield : Canonical unit0 ∧ Ready unit0 [9, 10] [8] ∧ Ready unit0 [9] [8] ∧ Ready unit0 [] [0] := by
  decide +kernel

theorem witness_BitOperationsYield :
    Canonical unit0 ∧ Ready unit0 [9] [8] ∧ Ready unit0 [9, 10] [8] ∧ Ready unit0 [8, 9, 10] [8] := by decide +kernel

theorem witness_ConditionsAndPointersYield :
    Canonical unit0 ∧ Ready unit0 [9, 10] [] ∧ Ready unit0 [9] [] ∧ Ready unit0 [] [8] ∧ Ready unit0 [9, 10] [8] := by decide +kernel

theorem witness_LoadsYield :
    Canonical unit0 ∧ Ready unit0 [9] [8] ∧ gotData unit0 = none ∧
    Accessible unit0 .read (localVa 0xFFFF) 1 (.spad 0xFFFF) ∧ isHostLoc unit0 (.spad 0xFFFF) = none ∧
    Accessible unit0 .read 0x20FF8 8 (.phys 0x20FF8 1) ∧ (8 : Reg) ≠ 9 ∧ Ready unit0 [9] [8, 9] ∧
    Accessible unit0 .read 0x10004 4 (.phys 0x10004 0) ∧
    gotData (unit0.withTh { unit0.th with rot := .waiting (.got 5) }) = some 5 := by decide +kernel

/-- A page of the host aperture. -/
def hostUnit : State :=
  unit0.withSys { unit0.sys with tlb := [⟨0, 0, 0x30000, 4096, testLeaf 0x10000000000 1⟩] }

theorem witness_LoadsYield_host :
    Canonical hostUnit ∧ gotData hostUnit = none ∧ Accessible hostUnit .read 0x30008 8 (.phys 0x10000000008 1) ∧
    isHostLoc hostUnit (.phys 0x10000000008 1) = some 0x10000000008 := by decide +kernel

/-- The unit with a range of its window being cleared. -/
def clearingUnit : State := unit0.withCore { unit0.core with clearing := [(0x200, 0x100)] }

theorem witness_AccessStops :
    locate unit0 .read (localVa 2) 4 = .error ⟨0x03, localVa 2⟩ ∧ locate unit0 .write 0x30000 8 = .error ⟨0x04, 0x30000⟩ ∧
    NotHandling unit0 ∧ locate clearingUnit .read (localVa 0x2F8) 8 = .ok (.spad 0x2F8) ∧
    locStalls clearingUnit 8 false (.spad 0x2F8) = true ∧ locStalls clearingUnit 8 true (.spad 0x200) = true := by decide +kernel

theorem witness_StoresYield :
    Canonical unit0 ∧ Ready unit0 [9, 8] [] ∧ Accessible unit0 .write (localVa 0xFFFC) 4 (.spad 0xFFFC) ∧
    (locReleases (.spad 0xFFFC) && atomicsOutstanding unit0) = false ∧ Accessible unit0 .write 0x20008 8 (.phys 0x20008 1) ∧
    (locReleases (.phys 0x20008 1) && atomicsOutstanding unit0) = false ∧ atomicsOutstanding unit0 = false ∧ Ready unit0 [9, 8] [9] := by
  decide +kernel

theorem witness_AccessChecksInOrder :
    (localVa 2).toNat % 4 ≠ 0 ∧ (localVa 0xFFF8).toNat % 8 = 0 ∧ 0xFFFFFFFFFFF00000 ≤ (localVa 0xFFF8).toNat ∧
    (∀ k, k < 8 → spadAllowed unit0.core unit0.th (0xFFF8 + k) = true) ∧ unit0.core.bad = [] ∧
    spadAllowed unit0.core unit0.th 0x10000 = false ∧
    translate unit0 unit0.th.id.tenant unit0.th.sr.pl .read 0x30000 = .error ⟨0x04, 0x30000⟩ ∧
    translate unit0 unit0.th.id.tenant unit0.th.sr.pl .read 0x10FFC = .ok (0x10FFC, 0) ∧ unit0.sys.bad = [] := by decide +kernel

/-- The unit with granule 4 empty, and another of its threads blocked on it. -/
def emptied : State := unit0.withCore { unit0.core with empties := [4] }
def blocked (fe : Bool) : State := pair emptied { unit0.th with rot := .waiting (.granule 4 fe 64 8) }

theorem witness_FullEmptyAccessesYield :
    Canonical unit0 ∧ Ready unit0 [9] [8] ∧ gotData (unitWith [(9, localVa 64)]) = none ∧
    locate (unitWith [(9, localVa 64)]) .read (localVa 64) 8 true = .ok (.spad 64) ∧ beingCleared unit0.core 4 = false ∧
    4 ∉ unit0.core.empties ∧ 4 ∈ emptied.core.empties ∧ feBlocked emptied 4 = false ∧ Canonical emptied ∧
    locate emptied .write (localVa 64) 8 true = .ok (.spad 64) ∧ spadStalls emptied.core 64 8 true = false ∧
    granuleWaiters emptied 4 = [] ∧ NotHandling unit0 := by decide +kernel

theorem witness_FullEmptyAccessesYield_resumed :
    let s := unit0.withTh { unit0.th with rot := .waiting (.got 5) }
    Canonical s ∧ Ready s [9] [8] ∧ s.th.rot = .waiting (.got 5) := by decide +kernel

theorem witness_FullEmptyAccessesYield_blocked :
    Canonical (blocked true) ∧ ⟨0, 0, 1⟩ ∈ (blocked true).placesOn 0 ∧
    ((blocked true).thr ⟨0, 0, 1⟩).rot = .waiting (.granule 4 true 64 8) ∧ Canonical (blocked false) ∧
    (∀ q ∈ (blocked false).placesOn 0, ((blocked false).thr q).rot = .ready ∨ ((blocked false).thr q).rot = .waiting (.granule 4 false 64 8)) := by
  decide +kernel

/-- The unit with a tag-table entry. -/
def tagged : State := unit0.withCore { unit0.core with tags := [⟨1, 0x20000, 12, 0x1000⟩] }

theorem witness_TagTableYields :
    let s := tagged.setReg 9 0x20FFF
    let t := (tagged.setReg 9 0x21000).setReg 10 0x2000
    Canonical s ∧ Ready s [9] [8] ∧ s.core.tags = [] ++ ⟨1, 0x20000, 12, 0x1000⟩ :: [] ∧
    ((1 : BitVec 32) = s.th.id.lid ∧ (0x20000 : Word).toNat ≤ (s.reg 9).toNat ∧ (s.reg 9).toNat < (0x20000 : Word).toNat + 2 ^ 12) ∧
    (∀ g ∈ t.core.tags, ¬ (g.lid = t.th.id.lid ∧ g.va.toNat ≤ (t.reg 9).toNat ∧ (t.reg 9).toNat < g.va.toNat + 2 ^ g.k)) ∧
    Ready t [9, 10] [] ∧ (t.reg 9).toNat % 2 ^ 12 = 0 ∧ (t.reg 10).toNat % 2 ^ 12 = 0 ∧ tagRangeOk t (t.reg 10).toNat (2 ^ 12) = true ∧
    (∀ g ∈ t.core.tags, ¬ (g.lid = t.th.id.lid ∧ g.va.toNat < (t.reg 9).toNat + 2 ^ 12 ∧ (t.reg 9).toNat < g.va.toNat + 2 ^ g.k)) ∧
    t.core.tags.length < 256 ∧ NotHandling t ∧ Ready s [9] [] := by decide +kernel

theorem witness_TransfersStepQueue :
    let s := unitWith [(9, 0x10010)]
    let odd := unitWith [(9, 0x10011)]
    Canonical s ∧ Ready s [9] [] ∧ (s.reg 9).getLsbD 0 = false ∧ (odd.reg 9).getLsbD 0 = true ∧ Ready odd [9] [] ∧ NotHandling odd ∧
    1 ≤ ((unitWith [(9, 1024)]).reg 9).toNat ∧ ((unitWith [(9, 1024)]).reg 9).toNat ≤ 1024 ∧ Ready (unitWith [(9, 1024)]) [9] [] ∧
    unit0.reg 9 = 0 ∧ 1024 < ((unitWith [(9, 1025)]).reg 9).toNat := by decide +kernel

/-- The unit in a called window, with its caller's resident or spilled. -/
def called (resident : Bool) : State :=
  let s := unitWith [(16, 0x10020)]
  s.withRf { s.th.rf with olds := if resident then [Vector.replicate 16 3] else [], depth := 2 }

theorem witness_CallsSlideWindows :
    Canonical unit0 ∧ unit0.th.rf.olds.length < 3 ∧ Ready unit0 [9] [] ∧ (unit0.reg 9).getLsbD 0 = false ∧
    ((unitWith [(9, 1)]).reg 9).getLsbD 0 = true ∧ NotHandling unit0 ∧ (called true).th.rf.win[8].getLsbD 0 = false ∧
    1 < (called true).th.rf.depth ∧ (called true).th.rf.olds = Vector.replicate 16 3 :: [] ∧
    (unitWith [(16, 1)]).th.rf.win[8].getLsbD 0 = true ∧ unit0.th.rf.win[8].getLsbD 0 = false ∧ unit0.th.rf.depth ≤ 1 := by decide +kernel

theorem witness_YieldsAndTraps :
    NotHandling unit0 ∧ (unit0.withTh { unit0.th with lat := { coop := true } }).th.lat.coop = true ∧ unit0.th.ch.pkt = 0 ∧
    unit0.th.lat.coop = false ∧ unit0.th.sr.hasUentry = false ∧ (128 : BitVec 8).toNat = 128 ∧ (127 : BitVec 8).toNat < 128 ∧
    (unit0.withSr { unit0.th.sr with hasUentry := true, uentry := 0x10100 }).th.sr.hasUentry = true := by decide +kernel

/-- An annulled head. -/
def annulled : State :=
  (placed 16 0x2662).withTh { (placed 16 0x2662).th with pcq := { (placed 16 0x2662).th.pcq with e0 := ⟨0x10000, true⟩ } }

theorem witness_ReturnFromEvent :
    Supervisor superUnit ∧ trapUnit.th.sr.pl = false ∧ trapUnit.th.sr.ue = true ∧ UserLevel unit0 ∧ annulled.th.pcq.e0.annul = true ∧
    annulled.agenda = [] ∧ annulled.th.bound = true ∧ annulled.th.rot = .ready ∧ followerFull annulled = false ∧
    fetchHalf annulled annulled.th annulled.th.sr.pl annulled.th.pcq.e2.addr = .ok 0 := by decide +kernel

theorem witness_StepRunsDecodedInstruction_repeated :
    IssuesNext (repeated 32 21651) ∧ (repeated 32 21651).th.pcq.repLeft ≠ 0 ∧ repeatable (.li 8 5) = false ∧
    repeatable (.vaddInt false .i8 1 2 3) = true := by
  refine ⟨issuesNext_of ?_, ?_⟩ <;> decide +kernel

/-- A unit with `vl` = `n` and pointers that step over three arrays of its window, the last one at its end. -/
def vecUnit (n : Nat) : State :=
  let s := unit0.withSr { unit0.th.sr with vl := BitVec.ofNat 16 n }
  ((((s.setPtr 1 ⟨0x1000, 16⟩).setPtr 2 ⟨0x2000, 16⟩).setPtr 3 ⟨0x10000 - 4 * n, 0⟩).setPtr 4 ⟨0x3000, 0⟩).setPtr 6 ⟨0x4000, 0⟩

/-- The operands of a binary operation on elements of `k` bytes. -/
def binaryOps (n k : Nat) (d a b : PReg) (readsD : Bool) : List VOperand := [⟨d, true, k, n, k, readsD, true⟩, vsrc a k n, vsrc b k n]

theorem witness_VectorIntegersYield :
    Canonical (vecUnit 8) ∧ streamRuns (vecUnit 8) (binaryOps 8 4 1 2 3 false) = true ∧
    streamRuns (vecUnit 33) (binaryOps 33 1 1 1 2 false) = true ∧
    streamRuns (vecUnit 8) [vdst 1 2 8, vsrc 2 2 8] = true ∧ streamRuns (vecUnit 0) (binaryOps 0 1 1 2 3 false) = true := by decide +kernel

theorem witness_VectorFloatsYield :
    Canonical (vecUnit 8) ∧ (fmtOf .f32).isSome = true ∧ (fmtOf .bf16).isSome = true ∧
    streamRuns (vecUnit 8) (binaryOps 8 4 1 2 3 true) = true ∧
    streamRuns (vecUnit 8) [vdst 1 4 8, vsrc 2 4 8] = true ∧ (fp32.value 0x3F800000).isNan = false := by decide +kernel

theorem witness_VectorMovesYield :
    Canonical (vecUnit 8) ∧ streamRuns (vecUnit 8) (binaryOps 8 4 1 2 3 true) = true ∧
    streamRuns (vecUnit 8) [vdst 1 2 8, vsrc 2 4 8] = true ∧
    streamRuns (vecUnit 8) [vdst 1 4 8, ⟨2, false, 4, 1, 4, true, false⟩] = true ∧
    streamRuns (vecUnit 8) [vdst 1 4 8] = true := by decide +kernel

theorem witness_VectorMovesYield_blocks :
    Canonical (vecUnit 128) ∧ NotHandling (vecUnit 128) ∧ (4 : PReg).val % 2 = 0 ∧ (1 : PReg).val % 2 = 1 ∧ (vecUnit 128).th.sr.vl.toNat % 128 = 0 ∧
    streamRuns (vecUnit 128) [vdst 4 1 128, vsrc 2 4 128, vdst (companion 4) 1 (blocks 128)] = true ∧
    streamRuns (vecUnit 128) [vdst 2 4 128, vsrc 4 1 128, vsrc (companion 4) 1 (blocks 128)] = true ∧
    streamRuns (vecUnit 128) [⟨1, true, 1, 128, 16, false, true⟩, ⟨2, true, 1, 128, 16, true, false⟩] = true ∧
    (fmtOf .f16).isSome = true ∧ fmtOf .i16 = none ∧ streamRuns (vecUnit 128) [vdst 1 2 1, vsrc 2 2 128] = true ∧
    streamRuns (vecUnit 128) [vdst 1 4 1, vsrc 2 2 128] = true := by decide +kernel

theorem witness_VectorMovesYield_indexed :
    let g : List VOperand := [vdst 1 2 8, ⟨4, false, 2, 0, 2, true, false⟩, vsrc 2 4 8]
    let c : List VOperand := [⟨4, false, 2, 0, 2, false, true⟩, vsrc 1 2 8, vsrc 2 4 8]
    streamRuns (vecUnit 8) g true (indexedOutside g 4 2 2 wholeIndex) (indexedRanges g 4 2 2 wholeIndex false) = true ∧
    (∀ e, e < 8 → inReach (vecUnit 8) (vecUnit 8).core (addrOf (vecUnit 8) 4 + elemAt (vecUnit 8).core (addrOf (vecUnit 8) 2) 4 e * 2) 2 = true) ∧
    streamRuns (vecUnit 8) c true (indexedOutside c 4 2 2 wholeIndex) (indexedRanges c 4 2 2 wholeIndex true) = true ∧
    streamRuns (vecUnit 8) [vdst 1 2 8, vsrc 4 2 8, vsrc 2 4 8] = true := by decide +kernel

theorem witness_GraphicsAndVariatesYield :
    Canonical (vecUnit 8) ∧
    streamRuns (vecUnit 8) [vdst 1 4 8, ⟨2, false, 48, 1, 16, true, false⟩, vsrc 4 8 8] = true ∧
    streamRuns (vecUnit 8) [vdst 1 4 8, ⟨2, false, 32, 1, 16, true, false⟩, vsrc 4 24 8] = true ∧
    (let ops : List VOperand := [⟨1, true, 8, 8, 2, false, true⟩, ⟨2, false, 16, 0, 16, true, false⟩, vsrc 4 4 8]
     streamRuns (vecUnit 8) ops true (texelOutside ops 2 4) (indexedRanges ops 2 4 16 texelBlock false) = true) ∧
    streamRuns (vecUnit 8) [⟨1, true, 128, 8, 16, true, true⟩, ⟨2, false, 64, 0, 64, true, false⟩] true noIndex
      (fun s r => ((List.range 8).map fun e => travNode s (addrOf s 2) (ptrAt (s.ptr 1) true r + 128 * e)).flatten) = true := by decide +kernel

/-- A stream between its groups, and streams that each of the checks stops. -/
theorem witness_VectorStops :
    let ops (n : Nat) := binaryOps n 4 1 2 3 false
    let between := (vecUnit 65).withTh { (vecUnit 65).th with rot := .waiting (.group 1 0) }
    let odd := (vecUnit 8).setPtr 2 ⟨0x2002, 0⟩
    let far := (vecUnit 8).setPtr 2 ⟨0xFFF0, 0⟩
    let index := (vecUnit 8).withCore { (vecUnit 8).core with spad := [(0x2003, 1)] }
    let g : List VOperand := [vdst 1 2 8, ⟨4, false, 2, 0, 2, true, false⟩, vsrc 2 4 8]
    let bad := (vecUnit 8).withCore { (vecUnit 8).core with bad := [0x200] }
    let held := (vecUnit 8).withCore { (vecUnit 8).core with clearing := [(0x2000, 0x100)] }
    let busy := (vecUnit 8).withCore { (vecUnit 8).core with vnext := 5 }
    midStream between = true ∧ streamRuns between (ops 65) = true ∧ (streamPoint between).1 + 1 < (groupsOf 32 65).length ∧
    (groupsOf 32 8).length ≤ (streamPoint (vecUnit 8)).1 + 1 ∧ midStream odd = false ∧ NotHandling odd ∧ odd.th.pcq.repDone = 0 ∧
    ((ops 8).find? fun o => decide ((odd.ptr o.ptr).addr.toNat % o.align ≠ 0)) = some (vsrc 2 4 8) ∧
    (∀ o ∈ ops 8, (far.ptr o.ptr).addr.toNat % o.align = 0) ∧ (ops 8).findSome? (operandOutside far (ops 8)) = some 0x10000 ∧
    (∀ o ∈ g, (index.ptr o.ptr).addr.toNat % o.align = 0) ∧ (∀ o ∈ g, operandOutside index g o = none) ∧
    (indexedOutside g 4 2 2 wholeIndex index).isSome = true ∧ (∀ o ∈ ops 8, operandOutside bad (ops 8) o = none) ∧
    ((List.range (repsLeft bad)).findSome? fun r => (streamRanges bad (ops 8) noExtra r).findSome? (rangeBad bad.core)) = some 0x2000 ∧
    streamFault (ops 8) true held = none ∧ rangesStall held.core (operandHolds held (ops 8)) = true ∧ toCheck odd = true ∧
    streamFault (ops 8) true bad = none ∧ rangesStall bad.core (operandHolds bad (ops 8)) = false ∧
    streamFault g true index = none ∧ rangesStall index.core (operandHolds index g) = false ∧
    streamReady busy (ops 8) = true ∧ unitBusy busy = true := by
  decide +kernel

theorem witness_GraphicsAndVariatesYield_variates :
    let u : ZVar := ⟨1, 2, false, 0, 0⟩
    Canonical unit0 ∧ Ready unit0 [9, 10] [] ∧ Ready unit0 [] [8] ∧
    (ltFloat u 0x3F000000).1 = false ∧ (ltFloat u 0x7FC00000).1 = true ∧ (lt2 u { u with inv := true }).isSome = true ∧
    lt2 u u = some false ∧ lt2 ⟨0, 1, false, 0, 0⟩ ⟨0x9E3779B1, 0, false, 0, 0⟩ = none ∧ NotHandling unit0 ∧ Accessible unit0 .write (localVa 0xFFF0) 16 (.spad 0xFFF0) ∧ gotData unit0 = none ∧
    (locReleases (.spad 0xFFF0) && atomicsOutstanding unit0) = false ∧ Accessible unit0 .read 0x20000 16 (.phys 0x20000 1) ∧
    isHostLoc unit0 (.phys 0x20000 1) = none := by decide +kernel

/-- A tensor of the scratchpad (1) or scale memory (2): format, rows, columns, base; with the entry of its scales and their direction. -/
def tensor (space fmt rows cols base sid slay : Nat) : TEntry :=
  let size := if fmt = 3 ∨ fmt = 4 then 4 else if fmt = 5 ∨ fmt = 6 then 2 else 1
  { w0 := BitVec.ofNat 64 base, w1 := BitVec.ofNat 64 (cols * size * 2 ^ 32)
    w2 := BitVec.ofNat 64 (rows * 2 ^ 48 + cols * 2 ^ 32 + fmt * 2 ^ 28 + space * 2 ^ 22 + sid * 2 ^ 16 + slay * 2 ^ 14 + 1) }

/-- A unit that owns tile 0 as `m1`, with tensors: INT8 factors 2 and 3, FP32 copies 4 to 6, `gmm`'s companion 8 of B 7, a gather record. -/
def matrixUnit : State :=
  let tens : Sparse TEntry := [(2, tensor 1 0 16 32 0x1000 0 0), (3, tensor 1 0 32 16 0x2000 0 0), (4, tensor 1 4 16 16 0x3000 0 0),
    (5, tensor 1 4 16 16 0x4000 0 0), (6, tensor 1 4 32 16 0x5000 0 0), (7, tensor 1 0 32 16 0x6000 0 0), (8, tensor 1 3 1 1 0x7000 0 0),
    (9, tensor 1 0 32 16 0x7100 0 0)]
  let gather : GatherRec := ⟨2, tensor 1 0 16 32 0x1000 0 0, 8⟩
  let s := unit0.withEng { unit0.th.eng with tens := tens, gather := some gather }
  s.withCore { s.core with owners := s.core.owners.set 0 (some ⟨1, 0, some 1⟩) }

theorem witness_MatrixCommandsIssue :
    Canonical matrixUnit ∧
    IssueReady matrixUnit 8 (productPlan matrixUnit 1 2 3 false (rowsMatch matrixUnit 2 3)) [] ∧
    (productPlan matrixUnit 1 2 3 false (rowsMatch matrixUnit 2 3)).maps = none ∧
    IssueReady matrixUnit 8 (productPlan matrixUnit 1 2 3 true (rowsMatch matrixUnit 2 3)) [] ∧
    IssueReady matrixUnit 8 (gmmPlan matrixUnit 1 2 7) [] ∧ (tensOf (matrixUnit.tens 2)).fmt ≠ fmtE8 ∧
    IssueReady matrixUnit 8 (gathAPlan matrixUnit 2) [] := by decide +kernel

/-- The unit with a tensor of scales in scale memory, 16 rows by one column, and its E8 source in the scratchpad. -/
def scaleUnit : State :=
  unit0.withEng { unit0.th.eng with tens := [(2, tensor 2 10 16 1 0x100 3 0), (3, tensor 1 10 16 1 0x1000 0 0)] }

theorem witness_MatrixCommandsIssue_scales :
    Canonical scaleUnit ∧ (tensOf (scaleUnit.tens 2)).fmt = fmtE8 ∧ IssueReady scaleUnit 8 (gathScalePlan scaleUnit 2) [] := by decide +kernel

/-- The unit with no tile left. -/
def tileless : State := unit0.withCore { unit0.core with owners := Vector.replicate 4 (some ⟨1, 1, some 0⟩) }

theorem witness_MatrixCommandsIssue_tiles :
    IssueReady matrixUnit 8 { cls := .matrix, matrixOnly := true, ops := [], maps := some 1 } [] ∧ matrixUnit.tile 1 = some 0 ∧
    matrixUnit.tile 2 = none ∧ freeTile matrixUnit.core = some 1 ∧ Canonical tileless ∧ tileless.tile 1 = none ∧ freeTile tileless.core = none ∧
    IssueReady tileless 8 { cls := .matrix, matrixOnly := true, ops := [], maps := some 1 } [] ∧
    IssueReady matrixUnit 8 { cls := .matrix, matrixOnly := true, ops := [srcOpnd matrixUnit 4], maps := some 1, own := failIf false 0 4 } [] ∧
    IssueReady matrixUnit 8 { cls := .matrix, matrixOnly := true, ops := [dstOpnd matrixUnit 4], own := failIf false 0 4 ++ failFree false } [] ∧
    (unit0.withTh { unit0.th with id := { unit0.th.id with harv := true } }).th.id.harv = true ∧ NotHandling unit0 ∧
    queueFull unit0.core .matrix false = false := by decide +kernel

/-- Units whose command is refused: with a full queue, in a harvest context, with the ticket register bound, with no entry, and with an entry
that reaches out of the window. -/
theorem witness_MatrixCommandsIssue_refused :
    let p (s : State) := copyPlan s 4 5 copyMismatch
    let c : Cmd := { cls := .copy, seq := 1, place := ⟨0, 0, 1⟩, lid := 1, unit := 1, tenant := 0, op := .cpy 8 4 5, da := {}, db := {}
                     sa := {}, sb := {}, mcfg := 0, xcfg := 0, tile := none, counts := [], gather := none, coll := none, pages := [], src := []
                     dst := [], out := none, delivered := 0, status := 0, flags := 0, done := false }
    let s := matrixUnit
    let harv := s.withTh { s.th with id := { s.th.id with harv := true } }
    let bound := s.withTh { s.th with ch := { binds := [⟨5, ⟨0, 0, 1⟩, true, 7⟩] } }
    let far := s.withEng { s.th.eng with tens := [(4, tensor 1 4 16 16 0xFF00 0 0), (5, tensor 1 4 16 16 0x4000 0 0)] }
    let ops (s : State) := (p s).ops ++ (p s).latched
    queueFull { s.core with cmds := List.replicate 64 c } .copy false = true ∧ queueFull s.core .copy false = false ∧ NotHandling s ∧
    harv.th.id.harv = true ∧ (productPlan harv 1 2 3 true false).matrixOnly = true ∧ (p harv).matrixOnly = false ∧
    (((ops harv).filter fun o => decide (o.t.space = 1)).findSome? fun o => tensOutside (borrowerMay harv) o.t).isSome = true ∧
    isBound bound.th 5 = true ∧ bound.th.id.harv = false ∧ isBound s.th 8 = false ∧
    (firstFailure (allFailures unit0 (ops unit0) (ops unit0) 0 ++ (p unit0).own)).isSome = true ∧
    firstFailure (allFailures far (ops far) (ops far) 0 ++ (p far).own) = none ∧ ops far = [] ++ dstOpnd far 4 :: [srcOpnd far 5] ∧
    (dstOpnd far 4).t.space = 1 ∧ (tensOutside (ownerMay far) (dstOpnd far 4).t).isSome = true := by decide +kernel

/-- The unit with a collective set of two modules, a copy-core routine in its grove, and tensors to reduce, gather and scatter. -/
def copyUnit : State :=
  let s := matrixUnit.withSys { matrixUnit.sys with csets := [(1, ⟨true, 3⟩)] }
  let s := s.putLaunch 1 { s.launch 1 with cset := 1 }
  let s := s.withSys { s.sys with mail := { s.sys.mail with routines := [(5, 9)] } }
  let s := s.withSr { s.th.sr with xcfg := 0x05000000 }
  s.withEng { s.th.eng with tens := s.th.eng.tens ++ [(10, tensor 1 4 8 16 0x8000 0 0), (11, tensor 1 4 16 16 0x9000 0 0)] }

theorem witness_CopiesAndCollectivesIssue :
    Canonical copyUnit ∧ IssueReady copyUnit 8 (copyPlan copyUnit 4 5 copyMismatch) [] ∧
    IssueReady copyUnit 8 (copyPlan copyUnit 4 5 transposeMismatch) [] ∧ IssueReady copyUnit 8 (cpymPlan copyUnit 1 9 3) [] ∧
    IssueReady copyUnit 8
      { cls := .copy, ops := [dstOpnd copyUnit 4, srcOpnd copyUnit 5], own := failFree (!routineLoaded copyUnit (0x05000000 / 2 ^ 24)) } [] := by
  decide +kernel

theorem witness_CopiesAndCollectivesIssue_sets :
    IssueReady copyUnit 8 (collPlan copyUnit 4 5 reduceFmt
      (fun a b => decide (a.fmt ≠ b.fmt ∨ a.rows * a.cols ≠ b.rows * b.cols)) fun _ _ _ => false) [] ∧
    IssueReady copyUnit 8 (collPlan copyUnit 10 11 reduceFmt (fun a b => decide (a.fmt ≠ b.fmt))
      fun g a b => decide (b.rows * b.cols % g ≠ 0 ∨ a.rows * a.cols ≠ b.rows * b.cols / g)) [] ∧
    IssueReady copyUnit 8 (collPlan copyUnit 11 10 (fun t => decide (t.fmt ≠ fmtBpi)) (fun a b => decide (a.fmt ≠ b.fmt))
      fun g a b => decide (a.rows * a.cols ≠ g * (b.rows * b.cols))) [] := by decide +kernel

/-- A unit that has issued two copies, of which `n` have retired, with the record of a failed one. -/
def waitingUnit (n : Nat) : State :=
  let s := (unitWith [(9, 0x10000002), (10, 0x10000001)]).withEng { unit0.th.eng with copy := ⟨2, n, 0⟩ }
  s.withWork { s.sys.work with inbox := [⟨1, 0, .copy, 2, 1, 3, 0⟩] }

theorem witness_TensorTableAndTickets :
    let s := waitingUnit 2
    let q := s.th.eng.seqs .copy
    Canonical s ∧ Ready s [8, 9, 10] [] ∧ sparseWf {} matrixUnit.th.eng.tens = true ∧ Ready s [] [8] ∧ Ready s [9] [] ∧
    ticketClass ((s.reg 9).toNat % 2 ^ 32) = some .copy ∧ seqIssued q 2 = true ∧ seqIssued q 1 = true ∧
    q.issued ≤ q.retired + issuedAfter q 2 ∧ unreported s .copy q 1 = none ∧ unreported s .copy q 2 = some ⟨1, 0, .copy, 2, 1, 3, 0⟩ ∧
    (let q := (waitingUnit 1).th.eng.seqs .copy
     ¬ (q.issued ≤ q.retired + issuedAfter q 2) ∧ seqIssued q 2 = true ∧ q.issued ≤ q.retired + issuedAfter q 1) ∧ NotHandling s := by decide +kernel

/-- A unit whose launch has 8 grains in tiles of two, with states of grains, and a claim of it. -/
def schedUnit (grains : Sparse (BitVec 2)) (mask : Word) (place : Word) : State :=
  let b : Sched := { ext := 0x0001000100010008, geom := { tile := 1, order := 0, place := place }, grains := grains }
  let s := unitWith [(9, 2), (10, 1)]
  let s := s.putLaunch 1 { s.launch 1 with sched := b }
  s.withWork { s.sys.work with claims := [⟨1, 0, 0, b.geom, 0, mask, 0⟩] }

theorem witness_ScheduleInstructionsClaim_next :
    let s := schedUnit [(0, 2), (1, 2), (4, 3)] 0 1
    let l := s.launch 1
    Canonical s ∧ sparseWf {} s.sys.work.launches = true ∧ Ready s [] [8, 9] ∧ heldMask s 1 0 = 0 ∧ atomicsOutstanding s = false ∧
    sparseWf 0 l.sched.grains = true ∧ placeAdmits { l with sched := commitBlock l.sched } s.hereCore = true ∧
    nextTile (commitBlock l.sched) = some 4 ∧
    (let s := schedUnit [(0, 2), (1, 2)] 0 2
     let l := s.launch 1
     Canonical s ∧ placeAdmits { l with sched := commitBlock l.sched } s.hereCore = false ∧ heldMask s 1 0 = 0) ∧
    (let s := schedUnit [(0, 1)] 1 1
     Canonical s ∧ Ready s [] [8, 9] ∧ NotHandling s ∧ heldMask s 1 0 ≠ 0) ∧
    (let s := schedUnit [(0, 2), (1, 2), (2, 1), (3, 1), (4, 2), (5, 2), (6, 2), (7, 1)] 0 1
     let l := s.launch 1
     Canonical s ∧ placeAdmits { l with sched := commitBlock l.sched } s.hereCore = true ∧ nextTile (commitBlock l.sched) = none ∧
     sparseWf 0 l.sched.grains = true) := by decide +kernel

/-- The block of `schedUnit` in the unit's window, with another tile extent. -/
def blockAt (tile : Nat) : State :=
  let s := schedUnit [] 0 1
  let bytes := wordBytes 0x0001000100010008 ++ wordBytes (BitVec.ofNat 64 (tile * 256)) ++ wordBytes 1 ++ wordBytes 0
  s.withCore { s.core with spad := putBytes [] 0x100 bytes }

theorem witness_ScheduleInstructionsClaim_give :
    let s := schedUnit [(0, 1), (1, 1)] 3 1
    Canonical s ∧ atomicsOutstanding s = false ∧ Ready s [9] [] ∧ (claimOf s 1 0).isSome = true ∧ s.reg 9 &&& ~~~3 = 0 ∧
    sparseWf 0 (s.launch 1).sched.grains = true ∧ NotHandling s ∧
    ((schedUnit [] 1 1).reg 9 &&& ~~~(heldMask (schedUnit [] 1 1) 1 0)) ≠ 0 ∧
    Accessible (blockAt 3) .read (localVa 0x100) 32 (.spad 0x100) ∧ Canonical (blockAt 3) ∧
    blockOk ((blockAt 3).launch 1).sched 0x0001000100010008 { tile := 3, order := 0, place := 1 } = true ∧
    blockOk ((blockAt 3).launch 1).sched 0x0001000100010009 { tile := 3, order := 0, place := 1 } = false ∧
    wordOf (((loadBytes (blockAt 3) 32 (.spad 0x100)).drop 8).take 8) = 0x300 ∧
    Accessible (blockAt 3) .write (localVa 0x100) 32 (.spad 0x100) := by decide +kernel

/-- A unit whose tenant has layers 0 and 4095, the second with its depth order behind the first, and a history of poses. -/
def layerUnit : State :=
  let s := unitWith [(9, 0), (10, 4095), (11, 0xFFFF), (12, 5), (13, localVa 0x100), (14, 4096)]
  s.withLayers { s.sys.layers with
    table := [(0, { id := 0, state := 1 }), (4095, { id := 4095, state := 1, okey := 0x40000000 })]
    hist := [(5, {}), (4, {})], last := some 5 }

/-- A layer table from `k` on with `n` layers. -/
def fullFrom : Nat → Nat → Sparse Layer
  | 0, _ => []
  | n + 1, k => (k, { state := 1 }) :: fullFrom n (k + 1)

theorem fullFrom_wf (n : Nat) : ∀ k, sparseWfFrom freeLayer k (fullFrom n k) = true := by
  induction n with
  | zero => intro k; rfl
  | succ n ih => intro k; exact sparseWfFrom_cons.mpr ⟨Nat.le_refl k, by decide, ih (k + 1)⟩

theorem fullFrom_has (n : Nat) : ∀ k j, k ≤ j → j < k + n → ((fullFrom n k).any fun e => decide (e.1 = j)) = true := by
  induction n with
  | zero => intro k j h1 h2; omega
  | succ n ih =>
    intro k j h1 h2
    by_cases h : k = j
    · simp [fullFrom, h]
    · simp only [fullFrom, List.any_cons, ih (k + 1) j (by omega) (by omega), Bool.or_true]

theorem freeId_none (t : Sparse Layer) (n : Nat) :
    ∀ k, (∀ j, k ≤ j → j < k + n → (t.any fun e => decide (e.1 = j)) = true) → freeId t n k = none := by
  induction n with
  | zero => intro k _; rfl
  | succ n ih =>
    intro k h
    simp only [freeId, h k (by omega) (by omega), if_true]
    exact ih (k + 1) fun j h1 h2 => h j (by omega) (by omega)

/-- The unit whose tenant's table is full. -/
def fullUnit : State := unit0.withLayers { unit0.sys.layers with table := fullFrom 4096 0 }

theorem witness_LayerInstructionsChangeTable_full :
    Canonical fullUnit ∧ atomicsOutstanding fullUnit = false ∧ sparseWf freeLayer fullUnit.sys.layers.table = true ∧ Ready fullUnit [] [8] ∧
    freeId fullUnit.sys.layers.table 4096 0 = none ∧ NotHandling fullUnit :=
  ⟨by decide +kernel, by decide +kernel, fullFrom_wf 4096 0, by decide +kernel,
    freeId_none _ 4096 0 fun j h1 h2 => fullFrom_has 4096 0 j h1 (by omega), by decide +kernel⟩

theorem witness_LayerInstructionsChangeTable :
    let s := layerUnit
    Canonical s ∧ atomicsOutstanding s = false ∧ sparseWf freeLayer s.sys.layers.table = true ∧ Ready s [] [8] ∧
    freeId s.sys.layers.table 4096 0 = some 1 ∧ Ready s [9] [8] ∧ NamesLayer s 9 0 ∧ NamesLayer s 10 4095 ∧ NotHandling s ∧
    4096 ≤ (s.reg 14).toNat ∧ Ready s [9, 10] [] ∧ (mergedDeps (s.layer 0) (s.layer 4095) 0 4095).length ≤ 4 ∧
    (writeLayer (s.layer 0) 0 (s.reg 12)).isSome = true ∧ (3 : BitVec 3).toNat < 4 ∧ Ready s [9, 11, 12] [] ∧ s.reg 11 = 0xFFFF := by
  decide +kernel

theorem witness_LayerInstructionsChangeTable_commit :
    let s := layerUnit.withSys { layerUnit.sys with rel := { layerUnit.sys.rel with en := true } }
    Ready s [9, 12, 10] [] ∧ (histPose s.sys.layers (s.reg 12).toNat).isSome = true ∧ (histPose s.sys.layers (s.reg 10).toNat) = none ∧
    Ready s [12, 13] [8] ∧ frameBeyond s 5 = false ∧ evaluated s 5 = true ∧ (s.reg 13).toNat % 8 = 0 ∧
    (orderedLayers s.sys.layers.table s.th.id.tenant).length = 2 ∧
    (match checkList s (s.reg 13) 2 with | .ok l => !(l.any fun x => locStalls s 8 true x.2) | .error _ => false) = true ∧
    evaluated s 6 = false ∧ frameBeyond s 6 = false := by decide +kernel

/-- A unit with frames released, frame 5 the last evaluated and the last past its deadline, frame 7 handed over, a pose in the window at 0x100
and none at 0x200, and frame numbers in `g1` to `g6`. -/
def poseUnit : State :=
  let s := unitWith [(1, 5), (2, 6), (3, 7), (4, 8), (5, 10), (9, localVa 0x100), (10, localVa 0x200), (11, 0x10000)]
  let s := s.withCore { s.core with spad := [(0x10E, 0x80), (0x10F, 0x3F)] }
  let s := s.withLayers { s.sys.layers with last := some 5 }
  s.withRel { s.sys.rel with
    en := true, passed := some 5, format := 0x0010001000000040, handed := [(7, ⟨0x10000, 0, 5⟩)] }

theorem witness_PosesAndReleases :
    let s := poseUnit
    let p := poseOf (loadBytes s 16 (.spad 0x100))
    Canonical s ∧ atomicsOutstanding s = false ∧ sparseWf noPose s.sys.layers.held = true ∧ NotHandling s ∧ Ready s [2, 9] [] ∧
    Accessible s .read (s.reg 9) 16 (.spad 0x100) ∧ poseOk p = true ∧ frameBeyond s 6 = false ∧ evaluated s 6 = false ∧
    evaluated s 5 = true ∧ frameBeyond s 5 = false ∧ frameBeyond s 8 = true ∧
    Accessible s .read (s.reg 10) 16 (.spad 0x200) ∧ poseOk (poseOf (loadBytes s 16 (.spad 0x200))) = false := by decide +kernel

theorem witness_PosesAndReleases_buffers :
    let s := poseUnit
    let r := s.sys.rel
    Ready s [11, 2] [8] ∧ (s.reg 11).toNat % 4096 = 0 ∧ checkPages s (s.reg 11) ((frameBytes r + 4095) / 4096) = none ∧ 0 < frameBytes r ∧
    sparseWf {} r.handed = true ∧ r.en = true ∧ r.passed = some 5 ∧ handedBuffer r 6 = none ∧ (handedBuffer r 7).isSome = true ∧
    (s.withRel { r with en := false }).sys.rel.en = false := by decide +kernel

/-- A unit whose launch asks for launches: a record of one unit in the window at 0x100, and a queue of `n` records on its die. -/
def launchUnit (n : Nat) : State :=
  let s := unitWith [(9, localVa 0x100), (10, localVa 0x200)]
  let s := s.withCore { s.core with spad := putBytes [] 0x100 (
    wordBytes 0x10000 ++ wordBytes 0 ++ wordBytes 0x0000000240000000 ++ wordBytes 1 ++ wordBytes 0 ++ wordBytes 0 ++ wordBytes 0 ++ wordBytes 0) }
  s.withWork { s.sys.work with deviceQ := sparsePut [] [] 0 (List.replicate n ⟨0, 0, 9, 0, [], false⟩) }

theorem witness_LaunchRequestsQueue :
    let s := launchUnit 63
    Canonical s ∧ sparseWf [] s.sys.work.deviceQ = true ∧ Ready s [9] [8] ∧ atomicsOutstanding s = false ∧
    Accessible s .read (s.reg 9) 64 (.spad 0x100) ∧ lnchOk s (wordsOf (loadBytes s 64 (.spad 0x100)) 8) = true ∧
    (deviceQueue s 0).length < 64 ∧ 64 ≤ (deviceQueue (launchUnit 64) 0).length ∧
    Accessible s .read (s.reg 10) 64 (.spad 0x200) ∧ lnchOk s (wordsOf (loadBytes s 64 (.spad 0x200)) 8) = false ∧ NotHandling s := by
  decide +kernel

/-- A unit with descriptors of slot 1 of its core (register 5), of one outside its tenant, and of a wrong form; with a permit toward
register 5 of slot 1, its credit or not. -/
def channelUnit (credit : Bool) : State :=
  let s := unitWith [(9, 0x10), (10, 0x10000), (11, 0xC0), (12, 0x15), (13, 0x17), (14, 0x16)]
  let s := s.withTh { s.th with ch := { binds := [⟨6, ⟨0, 0, 2⟩, true, 7⟩, ⟨5, ⟨0, 0, 3⟩, false, 7⟩] } }
  s.withCore { s.core with permits := [⟨0, ⟨0, 0, 1⟩, 5, credit⟩] }

theorem witness_ChannelsCarryMessages_binds :
    let s := channelUnit true
    Canonical s ∧ emptySource s.th [9] = none ∧ descOk (s.reg 9) 0 0 = true ∧ descInTenant s (s.reg 9) = true ∧ isBound s.th 7 = false ∧
    s.th.ch.binds.length < 4 ∧ portOk s (7 : Reg).val (placeOfDesc (s.reg 9)) = true ∧ (s.coreBy 0).permits.length < 64 ∧
    coreNum (placeCore (placeOfDesc (s.reg 9))) = 0 ∧ isBound s.th 5 = true ∧ portOk s (1 : Reg).val (placeOfDesc (s.reg 9)) = false ∧
    NotHandling s ∧ emptySource s.th [10] = none ∧ descOk (s.reg 10) 0 0 = true ∧ descInTenant s (s.reg 10) = false ∧
    descOk (s.reg 11) 0 0 = false := by decide +kernel

theorem witness_ChannelsCarryMessages_frees :
    let s := channelUnit true
    bindingOf s.th 5 = some ⟨5, ⟨0, 0, 3⟩, false, 7⟩ ∧ messageWaits s (5 : Reg).val = false ∧ bindingOf s.th 6 = some ⟨6, ⟨0, 0, 2⟩, true, 7⟩ ∧
    bindingOf s.th 4 = none ∧ NotHandling s := by decide +kernel

theorem witness_ChannelsCarryMessages_sends :
    let s := channelUnit true
    Canonical s ∧ Ready s [12, 8] [] ∧ Ready s [13, 8] [] ∧ descOk (s.reg 12) 1 6 = true ∧ s.th.ch.pkt < 15 ∧
    permitFor s.core s.here.slot (placeOfDesc (s.reg 12)) (descReg (s.reg 12)) = some ⟨0, ⟨0, 0, 1⟩, 5, true⟩ ∧
    isBound s.th 12 = false ∧ isBound s.th 8 = false ∧ atomicsOutstanding s = false ∧
    permitFor (channelUnit false).core 0 ⟨0, 0, 1⟩ 5 = some ⟨0, ⟨0, 0, 1⟩, 5, false⟩ ∧ descOk (s.reg 13) 1 6 = false ∧
    descOk (s.reg 14) 1 6 = true ∧ permitFor s.core s.here.slot (placeOfDesc (s.reg 14)) (descReg (s.reg 14)) = none ∧ NotHandling s ∧
    ¬ (s.withTh { s.th with ch := { s.th.ch with pkt := 15 } }).th.ch.pkt < 15 ∧ receiverOf s ⟨0, 0, 1⟩ 5 = ⟨0, 0, 1⟩ ∧
    (let t := (s.withCore { s.core with permits := [⟨0, ⟨0, 0, 4⟩, 5, true⟩] }).withWork { s.sys.work with renamed := [⟨s.here, ⟨0, 0, 1⟩, 5, ⟨0, 0, 4⟩⟩] }
     receiverOf t (placeOfDesc (t.reg 12)) 5 = ⟨0, 0, 4⟩ ∧ permitFor t.core t.here.slot ⟨0, 0, 4⟩ 5 = some ⟨0, ⟨0, 0, 4⟩, 5, true⟩) := by decide +kernel

/-- A unit with bank addresses of its core, of core 1 and of a place that is not a multiple of 4, and `n` atomics of its core on their way. -/
def atomicUnit (n : Nat) : State :=
  let s := unitWith [(9, localVa 0x100), (10, 0xFFFFFE0000100100), (11, localVa 0x102), (12, 0xFFFFFFFFFFFFFFFF)]
  let s := s.withCore { s.core with spad := [(0x107, 0x80)] }
  let s := s.putLaunch 1 { s.launch 1 with bases := some (0, 0) }
  s.withWork { s.sys.work with amos := List.replicate n ⟨.add, true, ⟨0, 0, 3⟩, 2, 0, 0, 1, 0x100, 1⟩ }

theorem witness_AtomicsPerformOrLeave :
    let s := atomicUnit 31
    Canonical s ∧ Ready s [9, 12] [] ∧ amoChecks s (s.reg 9) 8 = .ok (0, 0x100) ∧ amoChecks s (s.reg 9) 4 = .ok (0, 0x100) ∧ s.hereCore = 0 ∧
    spadStalls s.core 0x100 8 true = false ∧ Ready s [10, 12] [] ∧ amoChecks s (s.reg 10) 8 = .ok (1, 0x100) ∧
    (s.sys.work.amos.filter fun m => decide (coreNum (placeCore m.src) = s.hereCore)).length < 32 ∧
    32 ≤ ((atomicUnit 32).sys.work.amos.filter fun m => decide (coreNum (placeCore m.src) = s.hereCore)).length ∧
    (s.reg 11).toNat % 4 ≠ 0 ∧ NotHandling s := by decide +kernel

/-- A unit whose launch stands in phase 3 of its job, the current one or not, and whose log area is full or not. -/
def phaseUnit (current : Nat) (full : Bool) : State :=
  let s := unitWith [(9, 0x10004), (10, 0x10002), (11, localVa 0x100)]
  let s := s.putLaunch 1 { s.launch 1 with job := 2, phase := 3 }
  s.putJob 2 { current := current, phases := sparsePut {} [] 3 { logFull := full } }

theorem witness_LogsFencesAndPhaseEnds :
    let s := phaseUnit 3 false
    Canonical s ∧ CanonicalWork s ∧ Ready s [9, 8, 12] [] ∧ logTarget s (s.reg 9) = .ok 0x10004 ∧ ((s.job 2).phase 3).logFull = false ∧
    ((phaseUnit 3 true).job 2).phase 3 = { logFull := true } ∧ Canonical (phaseUnit 3 true) ∧ CanonicalWork (phaseUnit 3 true) ∧
    bornCancelled s (s.launch 1) = false ∧ bornCancelled s { s.launch 1 with cancelling := true } = true ∧
    (s.reg 10).toNat % 4 ≠ 0 ∧ NotHandling s ∧ (s.reg 11).toNat % 4 = 0 ∧ 0xFFFFFFFFFFF00000 ≤ (s.reg 11).toNat := by decide +kernel

theorem witness_LogsFencesAndPhaseEnds_ends :
    let s := phaseUnit 3 false
    atomicsOutstanding s = false ∧ s.th.id.harv = false ∧ (s.launch 1).phase = (s.job 2).current ∧
    ((phaseUnit 4 false).launch 1).phase ≠ ((phaseUnit 4 false).job 2).current ∧
    atomicsOutstanding (s.withWork { s.sys.work with amos := [⟨.add, true, ⟨0, 0, 0⟩, 1, 0, 0, 1, 0x100, 1⟩] }) = true ∧
    (s.withTh { s.th with id := { s.th.id with harv := true } }).th.id.harv = true := by decide +kernel

/-- The unit with episodes of every form of barrier at its instance. -/
def barrierUnit (arrived : List Nat) (released : Option (List Nat)) : State :=
  let e (f : BarForm) : Episode := ⟨1, f, 0, [0, 1], arrived, released⟩
  unit0.withWork { unit0.sys.work with episodes := [e .core, e .grove, e .die, e .package, e .system, e .launch] }

theorem witness_BarriersHoldUnits :
    Canonical (barrierUnit [] none) ∧
    (barrierUnit [0, 1] (some [0, 1])).sys.work.episodes.find? (arrivedAt 1 .die 0) = some ⟨1, .die, 0, [0, 1], [0, 1], some [0, 1]⟩ ∧
    (barrierUnit [0] none).sys.work.episodes.find? (arrivedAt 1 .die 0) = some ⟨1, .die, 0, [0, 1], [0], none⟩ ∧
    (barrierUnit [1] none).sys.work.episodes.find? (arrivedAt 1 .die 0) = none ∧
    (barrierUnit [1] none).sys.work.episodes.find? (fun x => decide (x.lid = 1 ∧ x.form = .die ∧ x.inst = instanceOf .die 0) && x.released.isNone)
      = some ⟨1, .die, 0, [0, 1], [1], none⟩ ∧
    unit0.sys.work.episodes.find? (arrivedAt 1 .die 0) = none ∧ (∀ x ∈ unit0.sys.work.episodes, False) ∧
    (barrierUnit [0, 1] none).sys.work.episodes.find? (fun x => decide (x.lid = 1 ∧ x.form = .launch ∧ x.inst = 0) && x.released.isNone)
      = some ⟨1, .launch, 0, [0, 1], [0, 1], none⟩ ∧
    (∀ p ∈ [0, 1], p ∈ [0, 1] ∨ p ∈ (unit0.launch 1).gone) ∧ (∀ m ∈ unit0.sys.work.amos, m.lid = 1 → m.unit.toNat ∉ [0, 1]) ∧
    (∃ p ∈ [0, 1], p ∉ (unit0.launch 1).gone) ∧ (∃ p ∈ [0, 1], p ∉ [0] ∧ p ∉ (unit0.launch 1).gone) := by decide +kernel

/-- A unit in core 0 with one in core 1 on the same slot and of the same launch, both of a gang of two cores, or about to be. -/
def gangUnit (mine : GangState) (other : GangState) (rot : Rotation) : State :=
  let s := (unitWith [(9, 4), (10, 0x1F)]).withTh { (unitWith [(9, 4), (10, 0x1F)]).th with gang := { state := mine, rect := 4 } }
  { s with others := [(placeNum ⟨0, 1, 0⟩, { bound := true, id := { lid := 1, unit := 1 }, rot := rot, gang := { state := other, rect := 4 } })] }

theorem witness_GangsFormAndPart :
    let s := gangUnit .none .none (.waiting (.gang 4 9))
    Canonical s ∧ Ready s [9] [] ∧ gangOk s (s.reg 9) = true ∧ s.th.id.harv = false ∧ (gangPlaces 4 s.here).length = 2 ∧
    (∀ p ∈ gangPlaces 4 s.here, p = s.here ∨ waitsGang s s.th.id.lid 4 p = true) ∧ (∃ p ∈ gangPlaces 4 s.here, p ≠ s.here) ∧
    (∃ p ∈ gangPlaces 4 s.here, p ≠ s.here ∧ waitsGang (gangUnit .none .none .ready) s.th.id.lid 4 p = false) ∧
    Ready s [10] [] ∧ gangOk s (s.reg 10) = false ∧ NotHandling s := by decide +kernel

theorem witness_GangsFormAndPart_joins :
    let s := gangUnit .leader .detached (.waiting .gjoin)
    Canonical s ∧ s.th.gang.state = .leader ∧ (∀ u ∈ s.sys.work.saved, savedMember s u = false) ∧ gangMates s s.here ≠ [] ∧
    (∀ p ∈ (gangMates s s.here).filter fun p => decide ((s.thr p).gang.state = .detached), (s.thr p).rot = .waiting .gjoin) ∧
    (∃ p ∈ (gangMates (gangUnit .leader .detached .ready) s.here).filter fun p =>
      decide (((gangUnit .leader .detached .ready).thr p).gang.state = .detached), ((gangUnit .leader .detached .ready).thr p).rot ≠ .waiting .gjoin) ∧
    (gangUnit .detached .leader .ready).th.gang.state = .detached ∧ (gangUnit .attached .leader .ready).th.gang.state = .attached := by
  decide +kernel

/-- A unit that can lend 0x100 bytes at 0x400 to harvest launch 2, with the range at 0x800 lent already, a tag entry into it and a copy-free
core; a range of 0x200 bytes at 0x1000 is being cleared. -/
def lendUnit : State :=
  let s := unitWith [(9, 0x0000000200000400), (10, 0x100), (11, 0x0000000200000800), (12, 0x200)]
  let s := s.putLaunch 2 { lid := 2, cls := 3, units := 4, mesh := List.range 16 }
  s.withCore { s.core with lents := [⟨1, 2, 0x800, 0x100⟩], tags := [⟨2, 0x30000, 6, 0x840⟩], clearing := [(0x1000, 0x200)] }

theorem witness_RangesAreLentAndReclaimed :
    let s := lendUnit
    Canonical s ∧ Ready s [9, 10] [] ∧ lendChecks s (s.reg 9) (s.reg 10) = .ok ⟨1, 2, 0x400, 0x100⟩ ∧
    (∀ x ∈ s.core.cmds, x.lid = s.th.id.lid → ∀ y ∈ commandRanges x, rangeMeets 0x400 0x100 y = false) ∧ Ready s [11, 10] [] ∧
    (s.reg 11).toNat / 2 ^ 20 % 2 ^ 12 = 0 ∧
    (⟨s.th.id.lid, (s.reg 11 >>> 32).setWidth 32, (s.reg 11).toNat % 2 ^ 20, (s.reg 10).toNat⟩ : Lent) ∈ s.core.lents ∧
    (⟨s.th.id.lid, (s.reg 11 >>> 32).setWidth 32, (s.reg 11).toNat % 2 ^ 20, (s.reg 12).toNat⟩ : Lent) ∉ s.core.lents ∧
    NotHandling s ∧ (s.coreBy (coreNum ⟨0, 0⟩)).clearing = (0x1000, 0x200) :: [] ∧ (s.coreBy (coreNum ⟨0, 1⟩)).clearing = [] := by decide +kernel

theorem witness_SpecialRegistersMove :
    Canonical unit0 ∧ Ready unit0 [] [8] ∧ UserLevel unit0 ∧ Supervisor superUnit ∧ Canonical superUnit ∧ Ready superUnit [] [8] ∧
    Ready (unitWith [(9, 0x10001)]) [9] [] ∧ ((unitWith [(9, 0x10001)]).reg 9).toNat % 65536 ≠ 0 ∧ Ready (unitWith [(9, 0x10000)]) [9] [] ∧
    ((unitWith [(9, 0x10000)]).reg 9).toNat % 65536 = 0 ∧ NotHandling (unitWith [(9, 0x10000)]) ∧ Ready superUnit [9] [] ∧
    NotHandling unit0 ∧ (let s := superUnit.withSr { superUnit.th.sr with se := false }
     Canonical s ∧ Supervisor s ∧ NotHandling s) := by decide +kernel

/-- A supervisor with a context area at the start of its page and an extension at 0x10800, and older windows or none. -/
def contextUnit (olds : List (Vector Word 16)) : State :=
  let s := superUnit.withSr { superUnit.th.sr with sarea := 0x10000, wsp := 0x10C00, wlim := 0x10D00 }
  let s := s.withTh { s.th with rf := { s.th.rf with olds := olds, depth := olds.length + 1 } }
  let s := s.setReg 9 0x10200
  { s with mem := putBytes [] 0x10010 (wordBytes 0x10800) }

/-- A window whose registers hold their numbers. -/
def numberedWindow : Vector Word 16 := Vector.ofFn fun i => BitVec.ofNat 64 (i.val + 1)

/-- An atomic of unit 0 of launch 1 that has not been performed. -/
def ownAmo : Amo := ⟨.add, true, ⟨0, 0, 0⟩, 1, 0, 0, 1, 0x100, 1⟩

theorem witness_ContextsMove :
    let s := contextUnit []
    Canonical s ∧ Supervisor s ∧ Ready s [0] [] ∧ s.th.rf.olds = [] ∧ atomicsOutstanding s = false ∧
    wordOf (physBytes s (0x10000 + 16) 8) &&& 0xFFFFFFFFFFFFF800 = 0x10800 ∧ areaAddr s .write s.th.sr.sarea 1024 = .ok 0x10000 ∧
    areaAddr s .read s.th.sr.sarea 1024 = .ok 0x10000 ∧ areaAddr s .write 0x10800 2048 = .ok 0x10800 ∧
    areaAddr s .read 0x10800 2048 = .ok 0x10800 ∧ anyBad s (0x10000 + 16) 8 = false ∧
    (let t := s.withSys { s.sys with bad := [0x10010] }
     areaAddr t .write t.th.sr.sarea 1024 = .ok 0x10000 ∧ anyBad t (0x10000 + 16) 8 = true ∧ NotHandling (t.withSr { t.th.sr with se := false })) ∧ Ready s [9] [] ∧ (s.reg 9).toNat % 1024 ≠ 0 ∧
    NotHandling (superUnit.withSr { superUnit.th.sr with se := false }) := by decide +kernel

theorem witness_ContextsMove_windows :
    let s := contextUnit [numberedWindow]
    Canonical s ∧ Supervisor s ∧ s.th.rf.olds = [] ++ [numberedWindow] ∧ s.th.sr.wsp.toNat + 128 ≤ s.th.sr.wlim.toNat ∧
    physRun s s.th.id.tenant true .write s.th.sr.wsp none 128 = .ok ((List.range 128).map (0x10C00 + ·)) ∧
    runPartlyBad s ((List.range 128).map (0x10C00 + ·)) = false ∧
    (contextUnit [numberedWindow, numberedWindow]).th.rf.olds = [numberedWindow] ++ [numberedWindow] ∧
    (let t := s.withSr { s.th.sr with wsp := 0x10C81, se := false }
     t.th.rf.olds ≠ [] ∧ t.th.sr.wlim.toNat < t.th.sr.wsp.toNat + 128 ∧ NotHandling t) ∧
    s.th.ch.binds = [] ∧ s.th.rf.depth < 2 ^ 32 ∧ s.th.ch.pkt < 64 ∧ s.th.id.wdcount < 2 ^ 32 ∧ spillHeld s s.here = false ∧
    (let t := (s.withSr { s.th.sr with wsp := 0x20000, wlim := 0x20100 }).withWork { s.sys.work with amos := [ownAmo] }
     Canonical t ∧ Supervisor t ∧ t.th.rf.olds = [] ++ [numberedWindow] ∧ t.th.sr.wsp.toNat + 128 ≤ t.th.sr.wlim.toNat ∧
     physRun t t.th.id.tenant true .write t.th.sr.wsp none 128 = .ok ((List.range 128).map (0x20000 + ·)) ∧
     runPartlyBad t ((List.range 128).map (0x20000 + ·)) = false ∧ spillHeld t t.here = true) ∧
    (let fresh (l : Latch) : Bool := l.pending && !l.kept
     fresh {} = false ∧ fresh { pending := true, kept := true } = false ∧ fresh { pending := true } = true) := by decide +kernel

/-- A supervisor outside its handler, with a descriptor of slot 1, of a place outside its tenant, and of a wrong form, tenant and page names,
and a command of its tenant that holds its page or none. -/
def privUnit (held : Bool) (t : Thread) : State :=
  let s := pair (unitWith [(9, 0x10), (10, 0x10000), (11, 0xC0), (12, 15), (13, 16), (14, 0x20)]) t
  let s := s.withSr { s.th.sr with pl := true }
  let c : Cmd := { cls := .copy, seq := 1, place := s.here, lid := 1, unit := 0, tenant := 0, op := .cpy 8 4 5, da := {}, db := {}, sa := {}
                   sb := {}, mcfg := 0, xcfg := 0, tile := none, counts := [], gather := none, coll := none
                   pages := [(0, ⟨0x10000, 0, 0x10000, 4096⟩)], src := [], dst := [], out := none, delivered := 0, status := 0, flags := 0
                   done := false }
  s.withCore { s.core with cmds := if held then [c] else [] }

theorem witness_PrivilegedInstructionsCheckLevel :
    let s := privUnit false { bound := true }
    Canonical s ∧ UserLevel unit0 ∧ Supervisor s ∧ (∀ a ks, s.th.rot ≠ .waiting (.tlb a ks)) ∧ allCommands s = [] ∧ Ready s [12] [] ∧
    (s.reg 12).toNat < 16 ∧ Ready s [10] [] ∧ Ready s [13] [] ∧ 16 ≤ (s.reg 13).toNat ∧ NotHandling s ∧
    (∃ c ∈ allCommands (privUnit true {}), c.pages ≠ []) ∧ Canonical (privUnit true { bound := true }) ∧
    (∀ c ∈ allCommands (privUnit true {}), c.tenant.toNat = ((privUnit true {}).reg 12).toNat → c.pages = []) := by
  refine ⟨?_, ?_, ?_, fun a ks h => ?_, ?_⟩
  case refine_4 => cases h
  all_goals decide +kernel

theorem witness_PrivilegedInstructionsCheckLevel_waits :
    let s (held acked : Bool) : State :=
      (privUnit held { bound := true }).withTh { (privUnit held { bound := true }).th with rot := .waiting (.tlb acked [(1, 0, .copy, 1)]) }
    Canonical (s false true) ∧ Supervisor (s false true) ∧ (s false true).th.rot = .waiting (.tlb true [(1, 0, .copy, 1)]) ∧
    (∀ c ∈ allCommands (s false true), cmdKey c ∉ [((1 : BitVec 32), (0 : BitVec 16), EngClass.copy, 1)]) ∧
    (∃ c ∈ allCommands (s true true), cmdKey c ∈ [((1 : BitVec 32), (0 : BitVec 16), EngClass.copy, 1)]) ∧
    (s true false).th.rot = .waiting (.tlb false [(1, 0, .copy, 1)]) := by decide +kernel

theorem witness_PrivilegedInstructionsCheckLevel_signals :
    let s := privUnit false { bound := true }
    Ready s [9, 12] [] ∧ descOk (s.reg 9) 0 0 = true ∧ descInTenant s (s.reg 9) = true ∧ (s.thr (placeOfDesc (s.reg 9))).bound = true ∧
    (s.thr (placeOfDesc (s.reg 9))).lat.signal.pending = false ∧
    (s.slot (placeOfDesc (s.reg 9))).state ≠ 1 ∧ ((putSlot s ⟨0, 0, 1⟩ fun e => { e with state := 1 }).slot (placeOfDesc (s.reg 9))).state = 1 ∧
    ((privUnit false { bound := true, lat := { signal := { pending := true } } }).thr (placeOfDesc (s.reg 9))).lat.signal.pending = true ∧
    Ready s [11, 12] [] ∧ descOk (s.reg 11) 0 0 = false ∧ Ready s [10, 12] [] ∧ descOk (s.reg 10) 0 0 = true ∧
    descInTenant s (s.reg 10) = false ∧ descOk (s.reg 14) 0 0 = true ∧ descInTenant s (s.reg 14) = true ∧
    (s.thr (placeOfDesc (s.reg 14))).bound = false ∧
    (s.th.sr.se && s.th.lat.stopping && s.th.lat.saved) = false ∧ s.th.lat.coop = false ∧ anyEligible s.th.lat = false ∧
    (let t := s.withTh { s.th with lat := { s.th.lat with signal := { pending := true, eligible := true } } }
     anyEligible t.th.lat = true ∧ Supervisor t ∧ (t.th.sr.se && t.th.lat.stopping && t.th.lat.saved) = false) ∧
    (let t := superUnit.withTh { superUnit.th with lat := { superUnit.th.lat with stopping := true, saved := true } }
     (t.th.sr.se && t.th.lat.stopping && t.th.lat.saved) = true ∧ t.th.lat.discard = false ∧ atomicsOutstanding t = false ∧
     atomicsOutstanding (t.withWork { t.sys.work with amos := [ownAmo] }) = true ∧ t.th.lat.signal.pending = false ∧
     t.th.lat.mcheck.pending = false ∧ t.th.lat.dbg.pending = false ∧ sparseWf {} t.sys.work.slots = true ∧
     (t.withTh { t.th with lat := { t.th.lat with discard := true } }).th.lat.discard = true ∧ Canonical t ∧ Supervisor t) ∧
    pathInside s s.th.id.tenant s.hereCore (coreNum (placeCore (placeOfDesc (s.reg 9)))) = true ∧
    (let t := ({ s with others := [(placeNum ⟨0, 16, 1⟩, { bound := true })] } : State).withSys { s.sys with tenants := [(0, { live := true, x0 := 4, w := 12, h := 16, root := some 0x100000 })] }
     let u := t.setReg 9 0x1010
     descOk (u.reg 9) 0 0 = true ∧ descInTenant u (u.reg 9) = true ∧ (u.thr (placeOfDesc (u.reg 9))).bound = true ∧
     pathInside u u.th.id.tenant u.hereCore (coreNum (placeCore (placeOfDesc (u.reg 9)))) = false) := by
  decide +kernel

theorem witness_UnitsEndAndThreadsReturn :
    let s := unit0
    Canonical s ∧ CanonicalWork s ∧ claimHeld s = false ∧ s.th.ch.pkt = 0 ∧ commandsOutstanding s.th.eng = false ∧
    commandsOutstanding (waitingUnit 1).th.eng = true ∧ claimHeld (waitingUnit 1) = false ∧ (waitingUnit 1).th.ch.pkt = 0 ∧
    claimHeld (schedUnit [(0, 1)] 1 1) = true ∧ NotHandling (schedUnit [(0, 1)] 1 1) ∧
    (s.withTh { s.th with ch := { s.th.ch with pkt := 1 } }).th.ch.pkt ≠ 0 := by decide +kernel

theorem witness_UnitsEndAndThreadsReturn_returns :
    let s (r : Rotation) := pair unit0 { bound := true, rot := r }
    Canonical (s (.inFlight .memory)) ∧ ((s (.inFlight .memory)).thr ⟨0, 0, 1⟩).rot = .inFlight .memory ∧
    Canonical (s (.inFlight (.hostLoad 0x1000 0x20000 8))) ∧
    ((s (.inFlight (.hostLoad 0x1000 0x20000 8))).thr ⟨0, 0, 1⟩).rot = .inFlight (.hostLoad 0x1000 0x20000 8) ∧
    ((s (.inFlight (.hostLoad 0x1000 0x20000 8))).thr ⟨0, 0, 1⟩).sr.se = false ∧
    ((s (.inFlight (.hostLoad 0x1000 0x20000 8))).thr ⟨0, 0, 1⟩).sr.ue = false ∧ ((s .ready).thr ⟨0, 0, 1⟩).rot = .ready ∧
    ((s (.waiting (.tlb false []))).thr ⟨0, 0, 1⟩).rot = .waiting (.tlb false []) ∧
    ((s (.inFlight .walk)).thr ⟨0, 0, 1⟩).rot = .inFlight .walk ∧
    (let u := (pair unit0 { bound := true, rot := .waiting (.group 1 0), held := some (.vaddInt false .i32 1 2 3) }).thr ⟨0, 0, 1⟩
     u.rot = .waiting (.group 1 0) ∧ u.held = some (.vaddInt false .i32 1 2 3)) := by decide +kernel

/-- Slot 0 holds the unit in focus; a harvest context of the core stands in bank 0, parking or not. -/
def bankUnit (parking : Bool) : State :=
  { unit0 with others := [(placeNum ⟨0, 0, 8⟩, { bound := true, id := { lid := 2, harv := true, parking := parking } })] }

theorem witness_UnitsEndAndThreadsReturn_seats :
    let f : Forward := ⟨.nop, { e0 := ⟨0x100, false⟩ }, none⟩
    Canonical (bankUnit false) ∧
    (List.finRange 8).find? (fun j => slotFree (bankUnit false) (coreNum ⟨0, 0⟩) j.val) = some 1 ∧
    longestBanked (bankUnit false) (coreNum ⟨0, 0⟩) = some ⟨0, 0, 8⟩ ∧
    (let s : State := { unit0 with others := (List.range 7).map fun k => (k + 1, { bound := true }) }
     Canonical s ∧ ∀ j : Fin 8, slotFree s (coreNum ⟨0, 0⟩) j.val = false) ∧
    ((bankUnit true).thr ⟨0, 0, 8⟩).id.parking = true ∧ amosOutstanding (bankUnit true) 2 0 = false ∧
    amosOutstanding ((bankUnit true).withWork { (bankUnit true).sys.work with amos := [⟨.add, true, ⟨0, 0, 8⟩, 2, 0, 0, 1, 0, 1⟩] }) 2 0 = true ∧
    (let s := pair unit0 { bound := true, gang := { state := .attached, buf := [f] } }
     Canonical s ∧ (s.thr ⟨0, 0, 1⟩).gang.now = none ∧ (s.thr ⟨0, 0, 1⟩).gang.buf = f :: [] ∧ (s.thr ⟨0, 0, 1⟩).gang.state = .attached ∧
     skipsForward (s.thr ⟨0, 0, 1⟩) f = false ∧ skipsForward { s.thr ⟨0, 0, 1⟩ with pcq := { e0 := ⟨0x100, true⟩ } } f = true) := by
  decide +kernel

/-- A unit with older windows and a register stack of its launch at the end of its page; its last window is on its way back, or not. -/
def stackUnit (olds : List (Vector Word 16)) (depth : Nat) (rot : Rotation) : State :=
  let s := unit0.withSr { unit0.th.sr with wsp := 0x10080, wlim := 0x10100 }
  s.withTh { s.th with rf := { s.th.rf with olds := olds, depth := depth }, rot := rot }

/-- The same with its register stack on an SO page and an atomic of its own on its way. -/
def orderedStack : State :=
  let s := stackUnit [numberedWindow, numberedWindow, numberedWindow] 4 .ready
  (s.withSr { s.th.sr with wsp := 0x20000, wlim := 0x20100 }).withWork { s.sys.work with amos := [ownAmo] }

/-- Whether a window has been spilled. -/
def spills : WindowMove → Bool
  | .moved _ => true
  | _ => false

theorem witness_CallsSlideWindows_held :
    let s := orderedStack
    Canonical s ∧ spills (spillOldest s s.here true) = true ∧ 3 ≤ s.th.rf.olds.length ∧ spillHeld s s.here = true := by decide +kernel

theorem witness_TurnsFollowSlots_free :
    let s := stackUnit [numberedWindow, numberedWindow, numberedWindow] 4 .ready
    let t := stackUnit [] 2 (.waiting .window)
    Canonical s ∧ slotsFrom s 5 = [] ++ s.here :: [] ∧ (pendingSpill s s.here).2 = true ∧ Canonical t ∧
    slotsFrom t 5 = [] ++ t.here :: [] ∧ (∀ p ∈ slotsFrom t 5, spillPending p (t.thr p) = false) ∧
    (firstMove pendingSpill (slotsFrom t 5) t).2 = false ∧ (firstMove pendingSpill (slotsFrom t 5) t).1 = t ∧
    (pendingFill t t.here).2 = true := by decide +kernel

theorem witness_WindowsSpillAndFill :
    let s := stackUnit [numberedWindow, numberedWindow, numberedWindow] 4 .ready
    Canonical s ∧ s.th.rf.olds = [numberedWindow, numberedWindow] ++ [numberedWindow] ∧ 2 ≤ [numberedWindow, numberedWindow].length ∧
    s.th.sr.wsp.toNat + 128 ≤ s.th.sr.wlim.toNat ∧ s.th.id.parking = false ∧
    physRun s s.th.id.tenant s.th.sr.pl .write s.th.sr.wsp none 128 = .ok ((List.range 128).map (0x10080 + ·)) ∧
    runPartlyBad s ((List.range 128).map (0x10080 + ·)) = false ∧ unit0.th.rf.olds.length < 3 ∧ s.th.rf.spillFails = false ∧
    spillHeld s s.here = false ∧ (s.withRf { s.th.rf with spillFails := true }).th.rf.spillFails = true ∧
    (let t := s.withSr { s.th.sr with wsp := 0x10081 }
     3 ≤ t.th.rf.olds.length ∧ t.th.id.parking = false ∧ t.th.sr.wlim.toNat < t.th.sr.wsp.toNat + 128) ∧
    (let t := orderedStack
     Canonical t ∧ t.th.rf.olds = [numberedWindow, numberedWindow] ++ [numberedWindow] ∧ t.th.sr.wsp.toNat + 128 ≤ t.th.sr.wlim.toNat ∧
     physRun t t.th.id.tenant t.th.sr.pl .write t.th.sr.wsp none 128 = .ok ((List.range 128).map (0x20000 + ·)) ∧
     runPartlyBad t ((List.range 128).map (0x20000 + ·)) = false ∧ spillHeld t t.here = true) ∧
    (let t := stackUnit [] 2 (.waiting .window)
     Canonical t ∧ t.th.rot = .waiting .window ∧ t.th.rf.olds = [] ∧ 1 < t.th.rf.depth ∧
     physRun t t.th.id.tenant t.th.sr.pl .read (t.th.sr.wsp - 128) none 128 = .ok ((List.range 128).map (0x10000 + ·)) ∧
     t.th.lat.mcheck.pending = false ∧ runBad t ((List.range 128).map (0x10000 + ·)) = false ∧
     runBad (t.withSys { t.sys with bad := [0x10000] }) ((List.range 128).map (0x10000 + ·)) = true ∧
     sparseGet 0 t.sys.work.overlaid (unitKey 1 0) < spilledWindows t.th ∧
     spilledWindows t.th ≤ sparseGet 0 (t.withWork { t.sys.work with overlaid := [(unitKey 1 0, 1)] }).sys.work.overlaid (unitKey 1 0) ∧
     (t.withTh { t.th with lat := { mcheck := { pending := true } } }).th.lat.mcheck.pending = true) := by decide +kernel

theorem witness_RequestsAreTaken :
    let on : Latch := { pending := true, eligible := true }
    let s := pair unit0 { bound := true, lat := { preempt := on, revoke := on, signal := on, dbg := on, mcheck := on } }
    let t := s.thr ⟨0, 0, 1⟩
    Canonical s ∧ asyncAllowed t = true ∧ t.lat.discard = false ∧ sparseWf {} s.sys.work.slots = true ∧
    ((pair unit0 { bound := true, lat := { preempt := on, revoke := on, discard := true } }).thr ⟨0, 0, 1⟩).lat.discard = true ∧
    t.lat.preempt.eligible = true ∧ t.lat.revoke.eligible = true ∧ t.lat.signal.eligible = true ∧
    t.lat.dbg.eligible = true ∧ t.lat.mcheck.eligible = true ∧ t.ch.pkt = 0 ∧ t.bound = true ∧ t.lat.watchdog = false ∧
    t.sr.se = false ∧ t.sr.ue = false ∧ asyncAllowed superUnit.th = false ∧ superUnit.th.sr.se = true ∧ trapUnit.th.sr.ue = true ∧
    ((pair unit0 { bound := true, ch := { pkt := 1 } }).thr ⟨0, 0, 1⟩).ch.pkt ≠ 0 ∧
    ((pair unit0 { bound := true, lat := { watchdog := true } }).thr ⟨0, 0, 1⟩).lat.watchdog = true := by decide +kernel

/-- Two threads that wait for each other: the unit in focus for a message from slot 1, slot 1 as given. -/
def cycleUnit (turns : Nat) (rot : Rotation) : State :=
  let s := unit0.withTh { unit0.th with ch := { binds := [⟨5, ⟨0, 0, 1⟩, false, 0⟩], waitTurns := turns }, rot := .waiting (.boundReg 5) }
  pair s { bound := true, rot := rot, ch := { binds := [⟨6, ⟨0, 0, 0⟩, false, 0⟩] } }

theorem witness_ProbesDoubleEventsAndWalks :
    let s := cycleUnit 65536 (.waiting (.boundReg 6))
    Canonical s ∧ (⟨0, 0, 0⟩ : Place) ≠ ⟨0, 0, 1⟩ ∧ (s.thr ⟨0, 0, 0⟩).rot = .waiting (.boundReg 5) ∧
    bindingOf (s.thr ⟨0, 0, 0⟩) 5 = some ⟨5, ⟨0, 0, 1⟩, false, 0⟩ ∧ (s.thr ⟨0, 0, 0⟩).bound = true ∧ (s.thr ⟨0, 0, 0⟩).sr.se = false ∧
    (s.thr ⟨0, 0, 0⟩).sr.ue = false ∧ 65536 ≤ (s.thr ⟨0, 0, 0⟩).ch.waitTurns ∧ (s.thr ⟨0, 0, 1⟩).rot = .waiting (.boundReg 6) ∧
    bindingOf (s.thr ⟨0, 0, 1⟩) 6 = some ⟨6, ⟨0, 0, 0⟩, false, 0⟩ ∧ (s.thr ⟨0, 0, 1⟩).bound = true ∧ (s.thr ⟨0, 0, 1⟩).sr.se = false ∧
    (s.thr ⟨0, 0, 1⟩).sr.ue = false ∧
    ((cycleUnit 65536 (.waiting (.credit ⟨0, 0, 0⟩ (5 : Reg).val))).thr ⟨0, 0, 1⟩).rot = .waiting (.credit ⟨0, 0, 0⟩ (5 : Reg).val) ∧
    waitEdge ((cycleUnit 65536 .ready).thr ⟨0, 0, 1⟩) = none ∧
    ((cycleUnit 65535 .ready).thr ⟨0, 0, 0⟩).ch.waitTurns < 65536 ∧ Canonical superUnit ∧ CanonicalWork superUnit ∧
    (superUnit.thr superUnit.here).sr.se = true ∧ (trapUnit.thr trapUnit.here).sr.ue = true ∧ (superUnit.launch 1).stops = [] ∧
    placeOfUnit superUnit 1 0 = some superUnit.here ∧
    (∀ q ∈ superUnit.boundPlaces, q = superUnit.here) ∧ allCommands superUnit = [] := by decide +kernel

/-- A tenant's tables at 0x100000: a leaf of 4 KiB at the address 0x3000, its tables at 0x101000 to 0x103000. -/
def walkUnit : State :=
  let m := putBytes [] 0x100000 (wordBytes 0x101001)
  let m := putBytes m 0x101000 (wordBytes 0x102001)
  let m := putBytes m 0x102000 (wordBytes 0x103001)
  { unit0 with mem := putBytes m 0x103018 (wordBytes (testLeaf 0x30000 0)) }

/-- Three threads of one core that wait in a ring: slot 0 for a message of slot 1, slot 1 for one of slot 2, slot 2 for its credit at slot 0. -/
def ringOfThree : State :=
  let s := cycleUnit 65536 (.waiting (.boundReg 6))
  { s with others := [(1, { bound := true, rot := .waiting (.boundReg 6), ch := { binds := [⟨6, ⟨0, 0, 2⟩, false, 0⟩] } }),
    (2, { bound := true, rot := .waiting (.credit ⟨0, 0, 0⟩ 5) })] }

theorem witness_ProbesDoubleEventsAndWalks_longer :
    let s := ringOfThree
    let ps : List Place := [⟨0, 0, 0⟩, ⟨0, 0, 1⟩, ⟨0, 0, 2⟩]
    let calm (x : Place) : Prop := (s.thr x).bound = true ∧ (s.thr x).sr.se = false ∧ (s.thr x).sr.ue = false
    Canonical s ∧ ps.Nodup ∧ ps.head? = some ⟨0, 0, 0⟩ ∧ (∀ p ∈ ps, calm p) ∧
    (s.thr ⟨0, 0, 0⟩).rot = .waiting (.boundReg 5) ∧ bindingOf (s.thr ⟨0, 0, 0⟩) 5 = some ⟨5, ⟨0, 0, 1⟩, false, 0⟩ ∧
    (s.thr ⟨0, 0, 1⟩).rot = .waiting (.boundReg 6) ∧ bindingOf (s.thr ⟨0, 0, 1⟩) 6 = some ⟨6, ⟨0, 0, 2⟩, false, 0⟩ ∧
    (s.thr ⟨0, 0, 2⟩).rot = .waiting (.credit ⟨0, 0, 0⟩ 5) ∧ 65536 ≤ (s.thr ⟨0, 0, 0⟩).ch.waitTurns := by decide +kernel

theorem witness_ProbesDoubleEventsAndWalks_walks :
    canonical 0x3008 = true ∧ walkRoot walkUnit 0 0x3008 = .leaf 0x3000 4096 (testLeaf 0x30000 0) ∧
    (0x3008 : Word).toNat < 0xFFFFFFFFFFF00000 ∧ walkUnit.here.did.val ∉ walkUnit.sys.power.d1 ∧
    (∀ y ∈ walkUnit.sys.tlb, y.die = walkUnit.here.did.val → y.covers 0 0x3008 = false) ∧ (∀ y ∈ walkUnit.core.tlb, y.covers 0 0x3008 = false) ∧
    (∀ y ∈ walkUnit.sys.tlb, y.die = walkUnit.here.did.val → y.covers 0 0x4000 = false) ∧
    walkRoot walkUnit 0 0x4000 = .fail ∧ canonical 0x4000 = true ∧ canonical 0x0008000000000000 = false ∧
    0xFFFFFFFFFFF00000 ≤ (0xFFFFFFFFFFF00008 : Word).toNat ∧
    walkRoot (walkUnit.withSys { walkUnit.sys with bad := [0x103018] }) 0 0x3000 = .bad := by decide +kernel

/-- A copy in flight, or `cpym`. -/
def flightCmd (op : Instr) (cls : EngClass) (out : Option (List Piece)) (status : BitVec 8) : Cmd :=
  { cls := cls, seq := 1, place := ⟨0, 0, 0⟩, lid := 1, unit := 0, tenant := 0, op := op, da := tensor 1 0 16 16 0x4000 0 0
    db := tensor 1 0 16 16 0x5000 0 0, sa := {}, sb := {}, mcfg := 0, xcfg := 0, tile := some 0, counts := []
    gather := some ⟨9, tensor 1 8 16 16 0x1000 0 0, 0⟩, coll := none, pages := [], src := [], dst := [0x400], out := out, delivered := 0
    status := status, flags := 0, done := false }

/-- The core of a unit with commands in its queue. -/
def flightUnit (cmds : List Cmd) : State := unit0.withCore { unit0.core with cmds := cmds }

theorem witness_EngineCommandsAdvance :
    let bytes : List Byte := List.replicate 16 5
    let x (out : Option (List Piece)) (st : BitVec 8) := flightCmd (.cpy 8 4 5) .copy out st
    let m := flightCmd (.gmm 8 1 4 5) .matrix none 0
    Canonical (flightUnit [m, x none 0]) ∧
    splitCmds .copy (flightUnit [m, x none 0]).core.cmds = some ([m], x none 0, []) ∧
    atomicsBefore (flightUnit [m, x none 0]) (x none 0) = false ∧ (x none 0).cls ≠ .coll ∧
    (x (some [⟨.spad 0x4000, bytes⟩]) 0).out = some (⟨.spad 0x4000, bytes⟩ :: []) ∧ heldEarlier [] (0x4000 / 16) = false ∧
    heldEarlier [m] (0x4000 / 16) = true ∧
    outOfReach unit0 (readPas (x none 0)) = false ∧
    (∀ q ∈ (flightUnit [x none 0]).placesOn 0, ((flightUnit [x none 0]).thr q).rot = .ready) ∧
    cmdDone unit0 (x (some []) 0) = true ∧ (x (some []) 0).status = 0 ∧ placeOfUnit (flightUnit [x (some []) 0]) 1 0 = some ⟨0, 0, 0⟩ ∧
    ((flightUnit [x (some []) 0]).launch 1).stops = [] ∧ ((flightUnit [x (some []) 0]).launch 1).cancelling = false ∧
    cmdDone unit0 (x (some []) 3) = true ∧ (x (some []) 3).status ≠ 0 ∧ cmdDone unit0 (x none 0) = false ∧
    (let c := { unit0.core with clearing := [(0x4000, 0x100), (0x5000, 0x100)] }
     beingCleared unit0.core (0x4000 / 16) = false ∧ beingCleared c (0x4000 / 16) = true ∧ clearingMeets unit0.core [(0x5000, 64)] = false ∧
     clearingMeets c [(0x5000, 64)] = true) := by decide +kernel

theorem witness_EngineCommandsAdvance_product :
    let x (st : BitVec 8) := flightCmd (.cpym 8 1 4 5) .matrix (some []) st
    Canonical (flightUnit [x 0]) ∧ splitCmds .matrix (flightUnit [x 0]).core.cmds = some ([], x 0, []) ∧ (x 0).op = .cpym 8 1 4 5 ∧
    (x 0).out = some [] ∧ (x 0).gather = some ⟨9, tensor 1 8 16 16 0x1000 0 0, 0⟩ ∧ (x 0).done = false ∧ (x 0).status = 0 ∧
    (x 4).status ≠ 0 ∧ clearingMeets (flightUnit [x 0]).core ((x 0).src ++ rangesOf (tensOf (x 0).da)) = false := by decide +kernel

/-- Messages from slot 1 to register 5 of the unit in focus, in its tenant or out of it, and an atomic for core 0 of launch 1 or of another. -/
def trafficUnit (full : Bool) (tn : BitVec 4) (lid : BitVec 32) : State :=
  let s := pair (boundUnit full) { bound := true, id := { lid := 1, unit := 1 } }
  s.withWork { s.sys.work with
    msgs := [⟨⟨0, 0, 1⟩, 1, 1, tn, ⟨0, 0, 0⟩, 5, 9⟩], amos := [⟨.add, true, ⟨0, 0, 1⟩, lid, 1, 0, 0, 0x100, 1⟩] }

theorem witness_TrafficArrives :
    let s := trafficUnit false 0 1
    let m : Msg := ⟨⟨0, 0, 1⟩, 1, 1, 0, ⟨0, 0, 0⟩, 5, 9⟩
    Canonical s ∧ takeNth s.sys.work.msgs 0 = some (m, []) ∧ messagePasses s m = true ∧ messageFits s m = true ∧
    messageFits (trafficUnit true 0 1) m = false ∧ messagePasses s { m with tenant := 1 } = false ∧
    takeNth (trafficUnit false 1 1).sys.work.msgs 0 = some ({ m with tenant := 1 }, []) ∧ placeOfUnit s m.lid m.unit = some m.src ∧
    placeOfUnit s 1 9 = none ∧ takeNth s.sys.work.msgs 1 = none := by decide +kernel

theorem witness_TrafficArrives_atomics :
    let s := trafficUnit false 0 1
    let a : Amo := ⟨.add, true, ⟨0, 0, 1⟩, 1, 1, 0, 0, 0x100, 1⟩
    takeNth s.sys.work.amos 0 = some (a, []) ∧ pathInside s a.tenant (coreNum (placeCore a.src)) a.core = true ∧ launchLive s 1 = true ∧
    launchLive s 2 = false ∧ windowGranted (s.coreBy 0) 1 = true ∧ windowGranted (s.coreBy 1) 1 = false ∧
    spadStalls (s.coreBy 0) 0x100 (amoBytes true) true = false ∧ spadBad (s.coreBy 0) 0x100 (amoBytes true) = false ∧
    (s.thr a.src).bound = true ∧ (s.thr a.src).id.lid = a.lid ∧ (s.thr a.src).id.unit = a.unit := by decide +kernel

/-- The unit with slot-table entries in the states 1 to 4 for slots 1 to 4, state 3 for bank 0 (slot 8), and in slot 5 and slot 6 one of
state 0 each: of unit 1 of launch 1 for slot 5, and of unit 1 for slot 7. Slot 3 holds a unit of class 2 and slot 2 one that runs. -/
def slotUnit0 : State :=
  let e (n : Nat) (st : BitVec 4) : Slot :=
    { w0 := 0x20000, w1 := 77, w2 := 0x10000, w3 := BitVec.ofNat 64 (0x100010000 + n), state := st }
  let s := unit0.withWork { unit0.sys.work with
    slots := [(1, e 1 1), (2, e 2 2), (3, e 3 2), (4, e 4 4), (5, e 5 0), (6, e 7 0), (8, e 8 3)] }
  let s := s.putLaunch 7 { lid := 7, cls := 1, units := 2, mesh := List.range 16 }
  { s with others := [(2, { bound := true, id := { lid := 5 } }), (3, { bound := true, id := { lid := 6, cls := 2 } })] }

theorem witness_SlotCommandsObeyStates :
    let s := slotUnit0
    Canonical s ∧ CanonicalWork s ∧ (s.slot ⟨0, 0, 0⟩).state = 0 ∧ (s.slot ⟨0, 0, 1⟩).state = 1 ∧ (s.slot ⟨0, 0, 2⟩).state = 2 ∧
    (s.slot ⟨0, 0, 8⟩).state = 3 ∧ (s.slot ⟨0, 0, 4⟩).state = 4 ∧
    (waitingUrgent s (coreNum (placeCore ⟨0, 0, 4⟩))).map (·.lid) = some 1 ∧
    (waitingUrgent s (coreNum (placeCore ⟨0, 0, 4⟩))).bind (fun l => victim s l.mesh) = some ⟨0, 0, 3⟩ ∧
    launchLive s 1 = true ∧ launchLive s 9 = false := by decide +kernel

theorem witness_BindsStartUnits :
    let s := slotUnit0
    let p : Place := ⟨0, 0, 5⟩
    let e := s.slot p
    Canonical s ∧ CanonicalWork s ∧ e.state = 0 ∧ bindRefused s p e = false ∧ foresterBinds s p e = true ∧
    savedOf s (slotLid e) (slotUnit e) = none ∧ ensureWindow s (s.launch (slotLid e)) (coreNum (placeCore p)) = some s ∧
    (s.slot ⟨0, 0, 1⟩).state ≠ 0 ∧ (s.slot ⟨0, 0, 6⟩).state = 0 ∧ bindRefused s ⟨0, 0, 6⟩ (s.slot ⟨0, 0, 6⟩) = true := by decide +kernel

/-- A launch record of one unit with a block at 0x10000, of a tenant. -/
def testRecord (tenant : Nat) : LaunchRec := [0x20000, 7, 0x240000000, 1, 0x10000, 0, 0, BitVec.ofNat 64 (tenant * 2 ^ 19)]

/-- A module with ring 2 of VF 0 on and two entries in it, or one, and a device launch on die 0; graph 4 of that ring's job may still hold its
record's place. -/
def ringUnit (held : Bool) : State :=
  let s : State := { unit0 with mem := putBytes [] 0x10000 (wordBytes 0x0001000100010008 ++ wordBytes 0x24900 ++ wordBytes 1) }
  let s := s.withWork { s.sys.work with
    rings := [(2, { en := true, tail := 2, lsize := 6, gbase := 32 })], deviceQ := [(0, [⟨0, 0, 8, 7, testRecord 0, true⟩])] }
  s.putJob 2 { current := 1, graphs := sparsePut {} [] 4 { phase := 0, closed := held, record := { expect := 1, done := !held } } }

theorem witness_EntriesAreAdmitted :
    let s := ringUnit true
    let j : JobId := ⟨0, 2⟩
    let ready (w : LaunchRec) := (launchData s w).isSome && decide (((launchData s w).map fun d => grainCount d.1) = some 8)
    let tagged : LaunchRec := [0x20000, 7, 0x240000000, 1, 0x10000, 0, 0, 0x0004000000000000]
    Canonical s ∧ CanonicalWork s ∧ ringReady (s.ring (jobNum j)) = true ∧ recWord (testRecord 0) 0 ≠ 0 ∧
    placeHeld (s.job (jobNum j)) (recTag (testRecord 0)) = false ∧ recordOk (testRecord 0) = true ∧
    recTenant (testRecord 0) = (jobTenant (jobNum j)).toNat ∧ setOk s (jobNum j / 16) (recSet (testRecord 0)) = true ∧
    ready (testRecord 0) = true ∧ tenantServed s (BitVec.ofNat 4 (recTenant (testRecord 0))) = true ∧
    recordOk (testRecord 0 |>.set 0 0x20001) = false ∧ recTenant (testRecord 1) ≠ (jobTenant (jobNum j)).toNat ∧
    recWord tagged 0 ≠ 0 ∧ placeHeld (s.job (jobNum j)) (recTag tagged) = true ∧ ringReady (s.ring 3) = false ∧
    tenantServed s 1 = false ∧
    foresters s = true ∧ deviceQueue s 0 = ⟨0, 0, 8, 7, testRecord 0, true⟩ :: [] ∧
    launchData s (testRecord 0 |>.set 4 0x50000) = none ∧ bitsOf (recWord [0, 3] 1) 7 0 = 3 ∧ deviceQueue s 1 = [] ∧
    placeHeld (s.job (jobNum j)) 0 = false ∧
    (let u := s.putJob 2 { current := 65, phases := sparsePut {} [] 2 { closed := true, known := true } }
     Canonical u ∧ CanonicalWork u ∧ ringReady (u.ring (jobNum j)) = true ∧ placeHeld (u.job (jobNum j)) 0 = true) ∧
    recWord [0, 1] 0 = 0 ∧ bitsOf (recWord [0, 1] 1) 7 0 = 1 ∧ bitsOf (recWord [0, 2] 1) 7 0 = 2 := by decide +kernel

/-- The block and the initialisers of the record that `ringUnit` admits. -/
def ringData (held : Bool) : Sched × List TEntry := (launchData (ringUnit held) (testRecord 0)).getD ({}, [])

theorem ringUnit_used : usedRanges (ringUnit true) = [(0x100000, 65536)] ++ (Config.stagingBase % 192 * 0x10000000, stageSize) :: [(0, 0)] :=
  usedRanges_of (by decide +kernel) (by decide +kernel) (by decide +kernel)

/-- There is room in canopy for the record's clearing map, wherever the staging region lies. -/
theorem ringUnit_room (named : Nat) : (placeCanopy (ringUnit true) 4096 named 16384).isSome = true := by
  have h3 : (ringUnit true).sys.host.mid.toNat = 0 := by decide +kernel
  rw [placeCanopy, ringUnit_used, h3]
  generalize Config.stagingBase % 192 = k
  by_cases h : k = 0
  · subst h
    exact placeRange_isSome (a := 0x10000000) (by decide +kernel) (by decide +kernel) (by decide +kernel)
  · refine placeRange_isSome (a := 0 * 2 ^ 48) (List.mem_cons_self ..) (by decide +kernel) ?_
    rw [apart, List.all_eq_true]
    intro r hr
    rw [decide_eq_true_iff]
    rcases List.mem_cons.mp hr with rfl | hr
    · decide +kernel
    rcases List.mem_cons.mp hr with rfl | hr
    · exact Or.inr (by omega)
    · rw [List.mem_singleton.mp hr]
      decide +kernel

theorem witness_EntriesAreAdmitted_room :
    (mapPlace (ringUnit true) (launchOf (ringUnit true) (testRecord 0) (BitVec.ofNat 32 (ringUnit true).sys.work.nextLid) 2 1
      (entryTier (ringUnit true) ((ringUnit true).ring 2)) (some (entryRecordAt ((ringUnit true).ring 2))) (ringData true).1
      (ringData true).2)).isSome = true ∧
    (mapPlace (ringUnit true) (launchOf (ringUnit true) (testRecord 0) 8 0 0 7 none (ringData true).1 (ringData true).2)).isSome = true :=
  ⟨mapPlace_isSome (by decide +kernel) (by decide +kernel) ringUnit_room, mapPlace_isSome (by decide +kernel) (by decide +kernel) ringUnit_room⟩

/-- There is none beside the map of a launch that takes the canopy. -/
theorem witness_EntriesAreAdmitted_full :
    let s := (ringUnit true).putLaunch 5 { sched := { ext := 0xFFFFFFFFFFFFFFFF } }
    ringReady (s.ring 2) = true ∧
    mapPlace s (launchOf s (testRecord 0) (BitVec.ofNat 32 s.sys.work.nextLid) 2 1 (entryTier s (s.ring 2)) (some (entryRecordAt (s.ring 2)))
      (ringData true).1 (ringData true).2) = none := by
  refine ⟨by decide +kernel, mapPlace_none (r := (0, mapBytes { sched := { ext := 0xFFFFFFFFFFFFFFFF } })) ?_ ?_ ?_⟩
  · exact List.mem_append_right _ (List.mem_cons_of_mem _ (by decide +kernel))
  all_goals decide +kernel

/-- A log of three entries on two words. -/
def testLog : List LogEntry := [⟨0x10004, 5, 0x3F800000, 1, 0, none, 0, false, false⟩,
  ⟨0x10000, 1, 0x40000000, 1, 0, none, 0, false, false⟩, ⟨0x10004, 2, 0xBF800000, 1, 0, some (0, 4), 1, false, false⟩]

theorem witness_WorkCompletes :
    Canonical unit0 ∧ (∀ k, k < 4 → paKind (0x10004 + k) = .dram) ∧ anyBad unit0 0x10004 4 = false ∧
    anyBad (unit0.withSys { unit0.sys with bad := [0x10000] }) 0x10004 4 = true := by decide +kernel

/-- A module whose launch 1, of graph or phase 3 of job 2, has nothing left and no unit bound; phase 3 is closed, and phase 2 merged. -/
def quietUnit (graph : Nat) (cancel : Bool) : State :=
  let s := (unit0.withTh {}).putLaunch 1 { unit0.launch 1 with
    job := 2, phase := 3, graph := graph, record := { expect := 4, ended := 3, cancelled := 1, cancel := cancel } }
  s.putJob 2 {
    current := 4, boundary := 3, phases := [(2, { known := true, merged := true }), (3, { closed := true, known := true })]
    graphs := [(5, { phase := 3, closed := true, record := { expect := 2, ended := 2 } })], retired := true }

theorem witness_WorkCompletes_launches :
    let s := quietUnit 0 false
    Canonical s ∧ CanonicalWork s ∧ hasLaunch s 1 = true ∧ (s.launch 1).lid = 1 ∧ launchQuiet s (s.launch 1) = true ∧ (s.launch 1).graph = 0 ∧
    (s.launch 1).record.cancel = false ∧ ((quietUnit 0 true).launch 1).record.cancel = true ∧ ((quietUnit 5 false).launch 1).graph ≠ 0 ∧
    launchQuiet (quietUnit 0 true) ((quietUnit 0 true).launch 1) = true ∧ launchQuiet (quietUnit 5 false) ((quietUnit 5 false).launch 1) = true ∧
    hasLaunch s 2 = false ∧ launchQuiet unit0 (unit0.launch 1) = false ∧ phaseQuiet s 2 3 = false ∧
    phaseQuiet (s.withWork { s.sys.work with launches := [] }) 2 3 = true ∧ jobNum ⟨0, 2⟩ = 2 ∧ (s.job 2).boundary = 3 ∧
    ((s.job 2).graph 5).closed = true ∧ ((s.job 2).graph 5).record.full = true ∧ ((s.job 2).graph 5).record.done = false ∧
    graphPending s 2 5 = false ∧ graphPending (s.withWork { s.sys.work with
      deviceQ := [(0, [⟨2, 3, 7, 0, [0x10000, 0, 0, 0, 0, 0, 0, 0x0005000000000000], false⟩])] }) 2 5 = true ∧
    ((s.job 2).graph 5).record.expect ≠ 0 ∧ ((s.job 2).phase 2).merged = true ∧ ((s.job 2).phase 2).record.done = false ∧
    (s.job 2).retired = true ∧ (s.job 2).record.done = false ∧
    (∀ x ∈ (s.putJob 2 { phases := [(2, { known := true, record := { done := true } })], retired := true } |>.job 2).phases,
      x.2.known = true → x.2.record.done = true) := by decide +kernel

theorem witness_CancellingCounts :
    let s := unit0.putLaunch 1 { unit0.launch 1 with gone := [0], record := { expect := 4, ended := 1 } }
    let idle := s.withTh {}
    let slot : Slot := { w3 := 0x0000000100010001, state := 2 }
    let running := (s.putThr ⟨0, 0, 0⟩ { s.th with id := { lid := 1, unit := 1 } }).withWork { s.sys.work with slots := [(0, slot)] }
    Canonical s ∧ CanonicalWork s ∧ hasLaunch s 1 = true ∧ (s.launch 1).record.done = false ∧ (s.launch 1).cancelling = false ∧
    (s.launch 1).seen = [] ∧ (s.launch 1).stops = [] ∧ (∀ c ∈ allCommands idle, c.lid ≠ 1) ∧ idle.boundPlaces = [] ∧
    s.sys.work.deviceQ = [] ∧ (∀ e ∈ s.sys.work.launches, e.2.job ≠ 2) ∧ 1 ∉ (running.launch 1).gone ∧
    placeOfUnit running 1 1 = some ⟨0, 0, 0⟩ ∧ (running.slot ⟨0, 0, 0⟩).state = 2 ∧ (running.launch 1).stops = [] ∧
    hasLaunch s 2 = false ∧ 3 < (s.launch 1).units ∧ 3 ∉ (s.launch 1).gone ∧ 0 < (s.launch 1).units ∧ 0 ∈ (s.launch 1).gone ∧
    ((s.job 2).phase 3).record.done = false ∧ (s.job 2).record.done = false ∧
    (s.putLaunch 3 { record := { done := true } } |>.launch 3).record.done = true ∧ ((s.job 2).graph 5).record.expect = 0 ∧
    graphPending (s.withWork { s.sys.work with
      deviceQ := [(0, [⟨2, 3, 7, 0, [0x10000, 0, 0, 0, 0, 0, 0, 0x0005000000000000], false⟩])] }) 2 5 = true := by decide +kernel

/-- A release unit on at 60 Hz with frame 5 the last past its deadline, a buffer for frame 6, or none, and two frames due. -/
def frameUnit (last : Int) (handed : Sparse FrameBuf) : State :=
  let s := unit0.withLayers { unit0.sys.layers with
    last := some last, held := [(6, {})], table := [(0, { id := 0, state := 1, price := 0 }), (9, { id := 9, state := 2, fresh := true })]
    hist := [(5, {})], requests := [⟨9, 1, 7, 0, 5⟩] }
  s.withRel { s.sys.rel with
    en := true, passed := some 5, period := 0x0000003C00000001, handed := handed, due := [⟨4, ⟨0x10000, 0, 1⟩, false⟩, ⟨5, ⟨0x10000, 0, 1⟩, true⟩]
    ports := 1, format := 0x0010001000000040, lastBuf := some ⟨0x10000, 0, 1⟩ }

theorem witness_ReleasesFollowDeadlines :
    let s := frameUnit 7 [(6, ⟨0x20000, 0, 7⟩)]
    let r := s.sys.rel
    Canonical s ∧ r.en = true ∧ r.passed = some 5 ∧ s.sys.layers.last ≠ some ((6 : Int) - 1) ∧ sparseWf {} r.handed = true ∧
    handedBuffer r 6 = some ⟨0x20000, 0, 7⟩ ∧ handedBuffer (frameUnit 7 []).sys.rel 6 = none ∧ (frameUnit 5 []).sys.layers.last = some ((6 : Int) - 1) ∧
    unit0.sys.rel.en = false ∧ r.due = ⟨4, ⟨0x10000, 0, 1⟩, false⟩ :: [⟨5, ⟨0x10000, 0, 1⟩, true⟩] ∧ unit0.sys.rel.due = [] ∧
    enableRefused { r with en := false } = false ∧ enableRefused unit0.sys.rel = true ∧ (1 : Word).getLsbD 0 = true ∧
    (2 : Word).getLsbD 0 = false ∧ (unit0.sys.rel.en = false ∧ (2 : Word).getLsbD 0 = false) := by decide +kernel

theorem witness_FramesAndQuality_lists : CanonicalLists (frameUnit 5 []) ∧ CanonicalLists (frameUnit 6 []) := by decide +kernel

theorem witness_FramesAndQuality :
    let s := frameUnit 5 []
    Canonical s ∧ s.sys.rel.en = true ∧ s.sys.layers.last = some 5 ∧
    heldPose s.sys.layers 6 = some {} ∧ heldPose (frameUnit 6 []).sys.layers 7 = none ∧
    deadline (frameUnit 6 []).sys.rel 7 ≤ 200000000 ∧ priorPose s.sys.layers = {} ∧
    ((frameUnit 6 []).sys.rel.now : Int) < deadline (frameUnit 6 []).sys.rel 7 ∧ s.sys.layers.pinned = false ∧
    (unit0.withLayers { unit0.sys.layers with missed := true, stepsDue := 2 }).sys.layers.stepsDue = 1 + 1 ∧
    s.sys.layers.stepsDue = 0 ∧ deadline s.sys.rel 6 - s.sys.rel.now < 200000000 ∧ ¬ deadline s.sys.rel 6 - s.sys.rel.now < 5 ∧
    (sparseGet {} s.sys.layers.graphs 0).records = [] ∧ s.sys.layers.missed = false ∧
    s.sys.layers.good < s.sys.layers.spareCount ∧
    (unit0.withLayers { unit0.sys.layers with good := 32, quality := 15 }).sys.layers.spareCount ≤ 32 ∧
    (unit0.withLayers { unit0.sys.layers with pinned := true }).sys.layers.pinned = true ∧ unit0.sys.layers.requests = [] ∧
    s.sys.layers.requests = ⟨9, 1, 7, 0, 5⟩ :: [] := by decide +kernel

theorem witness_HostAccessesServed :
    let s := unit0
    Canonical s ∧ sparseWf 0 s.sys.host.b2drop = true ∧ 0x10FFE + 4096 ≤ bar2Size s 0 ∧ 0x10FFE + 4096 ≤ bar2Size s 16 ∧
    0xFF000 + 4096 ≤ bar0Size 0 ∧ bar0Size 0 < 0xFF001 + 4096 ∧ bar2Size s 0 < 2 ^ 36 + 1 ∧
    staging (s.withBoot { s.sys.boot with state := 4 }) = true ∧ inboundRun s 0 .read 0x10FFE 2 = some [0x10FFE, 0x10FFF] ∧
    inboundRun s 16 .read 0x10FFE 2 = some [0x10FFE, 0x10FFF] ∧ (∀ pa ∈ [0x10FFE, 0x10FFF], anyBad s pa 1 = false) ∧
    inboundRun s 0 .read 0x30000 2 = none ∧ inboundRun s 0 .write 0x10FFE 2 = some [0x10FFE, 0x10FFF] ∧
    inboundRun s 0 .write 0x30000 2 = none ∧ (translate s 0 false .read (b2Address s 0 0x30000)).toOption = none := by decide +kernel

/-- A module with ring 2 on or off, a set 1 of two modules in use by launch 1, and an aperture with its fields, on or off. -/
def ringHost (on : Bool) (used : BitVec 4) : State :=
  let s := unit0.putLaunch 1 { unit0.launch 1 with cset := 1, tenant := used }
  let s := s.withWork { s.sys.work with rings := [(2, { en := on, head := 0xFFFFFFFF, tail := 2, lsize := 6, gbase := 32 })] }
  s.withSys { s.sys with csets := [(1, ⟨true, 3⟩)], apertures := [(0, ⟨0x100000, on, 1, 64, 1, 1⟩)] }

theorem witness_HostAccessesServed_registers :
    let s := ringHost false 0
    let r := s.ring (jobNum ⟨0, 2⟩)
    Canonical s ∧ CanonicalWork s ∧ sparseWf 0 s.sys.host.b2va = true ∧ sparseWf {} s.sys.csets = true ∧ sparseWf {} s.sys.apertures = true ∧
    (0x40000000 : Word).toNat % 2 ^ 30 = 0 ∧ (0x40000001 : Word).toNat % 2 ^ 30 ≠ 0 ∧ (0x10000000000 : Word).toNat % 2 ^ 40 = 0 ∧
    ((63 : BitVec 32) - r.head).toNat ≤ 2 ^ r.lsize.toNat ∧ 2 ^ r.lsize.toNat < ((64 : BitVec 32) - r.head).toNat ∧ r.en = false ∧
    6 ≤ r.lsize.toNat ∧ r.lsize.toNat ≤ 16 ∧ r.gbase ≠ 0 ∧ (s.ring 3).lsize.toNat < 6 ∧ (s.ring 3).gbase = 0 ∧
    ((ringHost true 0).ring 2).en = true ∧ setInUse s 0 1 = true ∧ setInUse (ringHost true 1) 0 1 = false ∧
    (63 : BitVec 32) ≠ r.tail ∧ sparseWf 6 s.sys.host.bar2 = true ∧ sparseWf {} s.sys.tele = true ∧
    (0x800000000000007F : Word).getLsbD 63 = true ∧ (0x800000000000007F : Word).toNat % 65536 ∉
      [0x01, 0x10, 0x11, 0x12, 0x20, 0x21, 0x22, 0x30, 0x40, 0x41] ∧ (0x8000000000000012 : Word).toNat % 65536 = 0x12 ∧
    s.sys.mail.busy = false ∧ foresters s = true ∧
    (match exec (.destroyTenant s.sys.mail.args[0] (s.sys.mail.args[1].getLsbD 0)) s with | .next _ => true | _ => false) = true ∧
    (s.aperture 0).en = false ∧ ((ringHost true 0).aperture 0).en = true ∧ apertureRefused (s.aperture 0) = false ∧
    apertureRefused (s.aperture 1) = true := by decide +kernel

/-- A port toward module 1 that has sent two flits, up or down. -/
def portUnit (down : Bool) (retries : Nat) : State :=
  let f (n : BitVec 12) : Flit := ⟨0, n, 0, false, 0, 1, 0, fullPayload [], 0⟩
  unit0.withSys { unit0.sys with
    ports := [(1, { txSeq := 1, rxSeq := 4095, replay := [f 4095, f 0], sent := [f 4095, f 0], retries := retries, down := down })] }

theorem witness_PortsDeliverOnce :
    let s := portUnit false 63
    let f (n : BitVec 12) (nak : Bool) (kind : Byte) : Flit := ⟨0, n, 4095, nak, 0, 1, 0, fullPayload (kind :: List.replicate 9 1), 0⟩
    Canonical s ∧ sparseWf {} s.sys.ports = true ∧ sparseWf {} s.sys.tele = true ∧ (s.port 1).down = false ∧ portUsed s 1 = true ∧
    portUsed s 0 = false ∧ (f 0 false 1).seq ≠ (s.port 1).rxSeq ∧ (f 4095 true 1).seq = (s.port 1).rxSeq ∧
    (f 4095 false 1).payload.length = 240 ∧ ofBytes ((f 4095 false 1).payload.take 1) = 1 ∧ ofBytes ((f 4095 false 2).payload.take 1) = 2 ∧
    ofBytes ((f 4095 false 3).payload.take 1) = 3 ∧
    (runFrom 0x10000 9).all (ownModule s) = true ∧ (∀ a ∈ runFrom 0x10000 9, ownModule s a = true → remoteAddr s a = none) ∧
    (∀ a ∈ runFrom 0x10000 9, anyBad s a 1 = false) ∧ remoteAddr s (2 ^ 48 + 0x10000) = some (2 ^ 48 + 0x10000) ∧
    servesDie (s.tenant 0) 0 = true ∧ servesDie (s.tenant 1) 0 = false ∧ ownModule s 0x10000 = true ∧ paKind 0x10000 = .dram ∧ 64 ≤ (s.port 1).retries + 1 ∧ ((portUnit true 0).port 1).down = true ∧
    64 ≤ ((portUnit false 64).port 1).retries ∧ (s.port 1).retries < 64 := by decide +kernel

theorem witness_PortsDeliverOnce_whole (f : Flit) (h : f.payload.length = 240) :
    (sealFlit f).payload.length = 240 ∧ (sealFlit f).crc = Config.crc64 (flitBytes (sealFlit f)) ∧ (sealFlit f).seq = f.seq ∧
    (sealFlit f).nak = f.nak := ⟨h, rfl, rfl, rfl⟩

theorem witness_PortsDeliverOnce_slots :
    let f : Flit := ⟨0, 0, 0, false, 0, 1, 0, fullPayload [], 0⟩
    let o : Outgoing := ⟨f, none⟩
    let p : Port := { realTime := [o], bulk := [o], management := [o] }
    p.slot = 0 ∧ p.realTime = o :: [] ∧ ({ p with realTime := [] } : Port).bulk = o :: [] ∧ ({ p with slot := 3 } : Port).slot ≠ 0 ∧
    p.sinceManaged = 63 ∧ ({ p with sinceManaged := 5 } : Port).sinceManaged ≠ 63 := by decide +kernel

theorem witness_PowerFollowsConditions :
    let s := unit0
    Canonical s ∧ sparseWf 16 s.sys.power.clock = true ∧ sparseWf {} s.sys.tele = true ∧ sparseWf 0xFFFFFFFF s.sys.host.ltol = true ∧
    ownModule s 0x1800000000 = true ∧ isCanopy 0x1800000000 = false ∧ partMay s (.coreC1 ⟨0, 0⟩) = false ∧ partMay s (.coreC1 ⟨0, 1⟩) = true ∧ partMay s (.coreC2 ⟨0, 1⟩) = true ∧
    partMay (s.withPower { s.sys.power with g2 := (List.range 16).map (· + 16), refresh := [1] }) (.die 1) = true ∧
    sparseGet 16 s.sys.power.clock 1 = 16 ∧ (15 : Nat) + 1 = 16 ∧ s.sys.mail.cap * 1000 = 5600000 ∧
    modulePower (s.putTele 1 { s.tele 1 with power := 320000 }) = 320000 ∧ (s.tele 1).tmax.toNat < 1680 ∧
    (let t := s.withPower { s.sys.power with clock := [(1, 4)] }
     sparseGet 16 t.sys.power.clock 1 = 4 ∧ sparseWf 16 t.sys.power.clock = true) := by decide +kernel

/-- A module in a state of boot. -/
def bootUnit (state : BitVec 4) (verified : Bool) : State :=
  unit0.withBoot { unit0.sys.boot with
    state := state, verified := verified, image := List.replicate 16 0 ++ [5] ++ List.replicate 15 0, fusedMin := 4 }

theorem witness_ImagesAreVerified :
    Canonical (bootUnit 0 false) ∧ sparseWf {} (bootUnit 0 false).sys.foresters = true ∧ (bootUnit 0 false).sys.foresters.all (fun e => sparseWf 0 e.2.sram) = true ∧ (bootUnit 3 false).sys.boot.state = 3 ∧
    (bootUnit 3 false).sys.boot.verified = false ∧ (bootUnit 0 false).sys.boot.state = 0 ∧ (bootUnit 1 false).sys.boot.state ≠ 0 ∧
    staging (bootUnit 4 false) = true ∧ staging (bootUnit 3 false) = false ∧ (bootUnit 3 false).sys.mail.busy = false ∧
    (bootUnit 3 true).sys.boot.verified = true ∧ (5 : Word).toNat = imageVersion (bootUnit 3 true).sys.boot.image ∧
    (bootUnit 3 true).sys.boot.fusedMin < (5 : Word).toNat ∧ (4 : Word).toNat ≤ (bootUnit 3 true).sys.boot.fusedMin := by decide +kernel

theorem witness_MailboxCommandsAct :
    let s := unit0
    let quiet := s.withWork { s.sys.work with launches := [] }
    Canonical s ∧ CanonicalWork s ∧ sparseWf {} s.sys.tenants = true ∧ s.sys.mail.busy = false ∧ foresters s = true ∧
    foresters (bootUnit 4 false) = false ∧ hasLaunch s 1 = true ∧ (s.launch 1).tenant.toNat = 0 ∧ (s.launch 1).record.done = false ∧
    (let u := s.withMail { s.sys.mail with busy := true, waits := some (.destroy 0) }
     let v := quiet.withMail { s.sys.mail with busy := true, waits := some (.destroy 0) }
     let r := rectOf 0x08080000
     let x := s.withMail { s.sys.mail with busy := true, waits := some (.resize 0 r.x r.y r.w r.h) }
     let k := rectOf 0x04040004
     let y := s.withMail { s.sys.mail with busy := true, waits := some (.resize 0 k.x k.y k.w k.h) }
     u.sys.mail.waits = some (.destroy 0) ∧ tenantBusy u 0 = true ∧ v.sys.mail.waits = some (.destroy 0) ∧ tenantBusy v 0 = false ∧
     x.sys.mail.waits = some (.resize 0 r.x r.y r.w r.h) ∧ launchOutside x 0 r = false ∧
     y.sys.mail.waits = some (.resize 0 k.x k.y k.w k.h) ∧ launchOutside y 0 k = true) ∧
    (s.withSys { s.sys with mail := { s.sys.mail with busy := true } }).sys.mail.busy = true ∧ (tenantNum s 1).live = false ∧
    rectAllowed s 1 (rectOf 0x04040010) = true ∧ (tenantNum s 0).live = true ∧ rectAllowed s 1 (rectOf 0x0404000C) = false ∧
    rectAllowed s 0 (rectOf 0x08080000) = true ∧ launchOutside s 0 (rectOf 0x08080000) = false ∧
    rectAllowed s 0 (rectOf 0x04040004) = true ∧ launchOutside s 0 (rectOf 0x04040004) = true ∧ tenantBusy s 0 = true ∧
    tenantBusy quiet 0 = false ∧ (∀ g ∈ rectGroves (tenantNum s 0), routineInUse s g 0xEF = false) ∧ sparseWf 0 s.sys.mail.routines = true := by
  decide +kernel

/-! ### One step on small states; the expected values are the spec's worked examples, or calculated by hand from the rule named -/

theorem test_WordsDecode : Obligations.WordsDecode := by unfold Obligations.WordsDecode; decide +kernel

theorem test_reset_canonical : Canonical State.reset ∧ CanonicalLists State.reset := by decide +kernel

/-- A register after an instruction. -/
def regAfter (i : Instr) (s : State) (r : Reg) : Option Word :=
  match exec i s with
  | .next t => some (t.reg r)
  | _ => none

/-- Bytes of the scratchpad after an instruction, as a number. -/
def spadAfter (i : Instr) (s : State) (a n : Nat) : Option Nat :=
  match exec i s with
  | .next t => some (ofBytes (bytesAt t.core.spad a n))
  | _ => none

/-- `li s1, 5` placed where the machine fetches after reset. -/
theorem test_placed_runs :
    (match step (State.reset.withFetchWord 32 0x00005493) with | .next t => decide (t.reg 9 = 5) | _ => false) = true := by decide +kernel

/-- The example of `bfxu`: position 8, length 12. -/
theorem test_bfxu : regAfter (.bfxu 11 12 13) (unitWith [(12, 0x12345678), (13, 0x2C8)]) 11 = some 0x456 := by decide +kernel

/-- R82: −7 by 2 is −3 with remainder −1. -/
theorem test_div :
    regAfter (.div .w64 11 12 13) (unitWith [(12, -7), (13, 2)]) 11 = some (-3) ∧
    regAfter (.rem .w64 11 12 13) (unitWith [(12, -7), (13, 2)]) 11 = some (-1) := by decide +kernel

/-- The example of `pset`: the first byte of bank 1, stride 8. -/
theorem test_pset :
    (match exec (.pset 2 12) (unitWith [(12, 0x00804000)]) with | .next t => decide (t.ptr 2 = ⟨0x04000, 8⟩) | _ => false) = true := by decide +kernel

/-- R257: a 4-byte atomic wraps and leaves its neighbours alone. -/
theorem test_amo_wraps :
    let s := unitWith [(9, localVa 0x104), (10, 1)]
    spadAfter (.amoAdd true 9 10) (s.withCore { s.core with spad := putBytes [] 0x104 [255, 255, 255, 255, 7] }) 0x100 9 = some (7 * 2 ^ 64) := by
  decide +kernel

/-- The unit with a vector length, pointers and bytes at 0x1000. -/
def vectorUnit (vl : Nat) (bytes : List Byte) : State :=
  let s := unit0.withSr { unit0.th.sr with vl := BitVec.ofNat 16 vl }
  let s := s.withTh { s.th with rf := { s.th.rf with
    p := ((s.th.rf.p.set 2 ⟨0x2000, 0⟩).set 3 ⟨0x3000, 0⟩).set 4 ⟨0x1000, 0⟩ } }
  s.withCore { s.core with spad := putBytes [] 0x1000 bytes }

/-- R80, R205: the second group of 33 elements of 4 bytes is element 32, outside the thread's turn. -/
theorem test_vectorGroup :
    let u := (vecUnit 33).withCore { (vecUnit 33).core with spad := [(0x2000, 7), (0x2080, 5)] }
    let s := u.withTh { u.th with rot := .waiting (.group 1 0), held := some (.vaddInt false .i32 1 2 3) }
    (match exec (.vectorGroup s.here) s with
      | .next t => decide (elemAt t.core 0x1000 4 32 = 5 ∧ elemAt t.core 0x1000 4 0 = 0 ∧ t.th.rot = .inFlight .vector ∧ t.th.held = none)
      | _ => false) = true := by decide +kernel

/-- R13, R269, R323: a `tlbinv` that has its acknowledgements goes on without a fetch, though no TLB holds its page any more. -/
theorem test_tlbinv_goes_on :
    let u := walkingAt 0x11000 0x62
    let s := u.withTh { u.th with rot := .waiting (.tlb true []), held := some .tlbinvAll, sr := { u.th.sr with pl := true } }
    (match step s with
      | .next t => decide (t.th.rot = .ready ∧ t.th.held = none ∧ t.th.pcq.e0 = s.th.pcq.e1)
      | _ => false) = true := by decide +kernel

/-- Bytes of the scratchpad after the two groups of a vector instruction, as a number. -/
def spadAfterTwo (i : Instr) (s : State) (a n : Nat) : Option Nat :=
  match exec i s with
  | .next t => spadAfter (.vectorGroup t.here) (t.withTh { t.th with held := some i }) a n
  | _ => none

/-- The example of `vrsum.f32`: 34 elements of 1.0, element 32 being 2^24, sum to 16,777,248. -/
theorem test_vrsum :
    spadAfterTwo (.vrsum .rne .f32 2 4)
      (vectorUnit 34 ((List.replicate 32 (toBytes 4 0x3F800000)).flatten ++ toBytes 4 0x4B800000 ++ toBytes 4 0x3F800000)) 0x2000 4
      = some 0x4B800010 := by decide +kernel

/-- The example of `vqnt.i8`: elements 96, −44, 10 and 42 under code 122. -/
theorem test_vqnt :
    let s := vectorUnit 32 (toBytes 4 0x40400000 ++ toBytes 4 0xBFB00000 ++ toBytes 4 0x3EA00000 ++ toBytes 4 0x3FA60000)
    spadAfter (.vqnt .rne .i8 2 4 0) s 0x2000 4 = some 0x2A0AD460 ∧ spadAfter (.vqnt .rne .i8 2 4 0) s 0x3000 1 = some 122 := by decide +kernel

/-- The example of the merge: keys 1, 2 and 3 in this order give 2^24. -/
theorem test_merge :
    let log : List LogEntry := [⟨0x10000, 3, 0x3F800000, 1, 0, none, 0, false, false⟩,
      ⟨0x10000, 1, 0x4B800000, 1, 1, none, 0, false, false⟩, ⟨0x10000, 2, 0x3F800000, 1, 2, none, 0, false, false⟩]
    ofBytes (physBytes (mergeWord log (unit0, {}) 0x10000).1 0x10000 4) = 0x4B800000 := by decide +kernel

/-- The example of T(n) at 59.94 Hz. -/
theorem test_releaseTime : releaseTime { period := 0x0000EA60000003E9 } 3 = 50050000 := by decide +kernel

/-- The example of R138: layer B, with a caster drawn again between frames 9 and 10, at frames 10 and 13. -/
theorem test_light :
    let layer (age lit : BitVec 16) : Layer :=
      { id := 1, state := 1, price := 16, vres := 2, age := age, lit := lit, zmin := 0x44800000, zmax := 0x45000000 }
    let after (n : Nat) (l : Layer) : Layer :=
      let s := unit0.withLayers { unit0.sys.layers with table := [(1, l)] }
      (evaluateFrame s n {}).layer 1
    (after 10 (layer 1 8)).err = 0x000C ∧ (after 12 (layer 3 8)).err = 0x0010 ∧ (after 12 (layer 3 8)).state = 1 ∧
    (after 13 (layer 4 8)).err = 0x0012 ∧ (after 13 (layer 4 8)).state = 2 := by decide +kernel

/-- The example of alias apertures: byte 0x8006 is row 3, column 128. -/
theorem test_alias : Aperture.source { src := 0x100000, en := true, nbc := 16, pitch := 4096, nbr := 1, esize := 2 } 0x8006 = 0x103100 := by
  decide +kernel

/-- The example of translation: tenant 3's leaf of 2 MiB serves it and not tenant 4, and a leaf without w takes no store. -/
theorem test_translate :
    let s (leaf : Word) : State := unit0.withSys { unit0.sys with
      tlb := [⟨0, 3, 0x80C0A00000, 0x200000, leaf⟩, ⟨0, 4, 0x80C0A00000, 0x200000, leaf⟩] }
    translate (s 0x003000100040002F) 3 false .read 0x80C0A079AB = .ok (0x10004079AB, 0) ∧
    translate (s 0x003000100040002F) 4 false .read 0x80C0A079AB = .error ⟨0x05, 0x80C0A079AB⟩ ∧
    translate (s 0x0030001000400027) 3 false .write 0x80C0A079AB = .error ⟨0x05, 0x80C0A079AB⟩ := by decide +kernel

/-- The example of gangs: 0x45 is two columns from column 1 and two rows from row 0. -/
theorem test_gang_places : (gangPlaces 0x45 ⟨0, 1, 2⟩).map (·.cid.val) = [1, 2, 5, 6] ∧ isLeaderPlace 0x45 ⟨0, 1, 2⟩ = true := by decide +kernel

/-- The example of place descriptors. -/
theorem test_descriptor : descriptor 0 ⟨5, 0x96, 3⟩ 5 = 0x00059635 ∧ placeOfDesc 0x00059630 = ⟨5, 0x96, 3⟩ := by decide +kernel
end

section
/-! Taking events and stepping the queue (R192, R316): what `raise` and a retiring transfer leave, and with them the control transfers,
`yield`, `trap` and `brk`. -/

namespace Sys2Proof.Machine

/-! ### States that differ in threads alone -/

/-- Nothing but threads may differ. -/
structure ThreadsOnly (s t : State) : Prop where
  agenda : t.agenda = s.agenda
  here : t.here = s.here
  core : t.core = s.core
  cores : t.cores = s.cores
  mem : t.mem = s.mem
  sys : t.sys = s.sys
  fresh : t.fresh = s.fresh

theorem ThreadsOnly.refl (s : State) : ThreadsOnly s s := ⟨rfl, rfl, rfl, rfl, rfl, rfl, rfl⟩

theorem ThreadsOnly.trans {s t u : State} (a : ThreadsOnly s t) (b : ThreadsOnly t u) : ThreadsOnly s u :=
  ⟨b.agenda.trans a.agenda, b.here.trans a.here, b.core.trans a.core, b.cores.trans a.cores, b.mem.trans a.mem, b.sys.trans a.sys,
    b.fresh.trans a.fresh⟩

theorem putThr_threadsOnly (s : State) (p : Place) (t : Thread) : ThreadsOnly s (s.putThr p t) := by
  constructor <;> simp

theorem foldl_threadsOnly {α : Type} {f : State → α → State} (hf : ∀ s x, ThreadsOnly s (f s x)) (l : List α) (s : State) :
    ThreadsOnly s (l.foldl f s) := by
  induction l generalizing s with
  | nil => exact .refl s
  | cons x l ih => exact (hf s x).trans (ih (f s x))

theorem detachFollowers_threadsOnly (s : State) (p : Place) : ThreadsOnly s (detachFollowers s p) := by
  unfold detachFollowers
  split
  · exact foldl_threadsOnly (fun s q => putThr_threadsOnly s q _) _ s
  · exact .refl s

/-! ### The thread in focus by its place -/

@[simp] theorem thr_here (s : State) : s.thr s.here = s.th := if_pos rfl

@[simp] theorem focus_here (s : State) : s.focus s.here = s := if_pos rfl

theorem putThr_th_of_here {s : State} {p : Place} (h : p = s.here) (t : Thread) : (s.putThr p t).th = t := by
  rw [State.putThr, if_pos h]

/-! ### Entering a handler (R313, R316) -/

/-- An event other than SWTRAP goes to the supervisor (R313). -/
theorem toSupervisor_of_ne {code : BitVec 8} (h : code ≠ evSwtrap) (t : Thread) (addr : Word) : toSupervisor t code addr = true := by
  simp [toSupervisor, h]

/-- SWTRAP goes to the supervisor for codes from 128 on, and where the launch has no user trap entry (R313). -/
theorem toSupervisor_swtrap {t : Thread} {addr : Word} (h : 128 ≤ addr.toNat ∨ t.sr.hasUentry = false) :
    toSupervisor t evSwtrap addr = true := by
  rcases h with h | h
  · simp [toSupervisor, Nat.not_lt.2 h]
  · simp [toSupervisor, h]

/-- SWTRAP with a code below 128 goes to the launch's user trap entry (R313). -/
theorem not_toSupervisor_swtrap {t : Thread} {addr : Word} (h : addr.toNat < 128) (hu : t.sr.hasUentry = true) :
    toSupervisor t evSwtrap addr = false := by
  simp [toSupervisor, h, hu]

/-- The annul bits saved in `eann` are those of the queue's entries. -/
theorem getLsbD_eann (a b c : Bool) :
    (BitVec.ofNat 3 (bitNat a + 2 * bitNat b + 4 * bitNat c)).getLsbD 0 = a ∧
    (BitVec.ofNat 3 (bitNat a + 2 * bitNat b + 4 * bitNat c)).getLsbD 1 = b ∧
    (BitVec.ofNat 3 (bitNat a + 2 * bitNat b + 4 * bitNat c)).getLsbD 2 = c := by
  revert a b c
  decide

theorem enterHandler_eann (s : State) (t : Thread) (code : BitVec 8) (addr : Word) :
    (enterHandler s t code addr).sr.eann = BitVec.ofNat 3 (bitNat t.pcq.e0.annul + 2 * bitNat t.pcq.e1.annul + 4 * bitNat t.pcq.e2.annul) := by
  unfold enterHandler entrySregs
  dsimp only
  split <;> rfl

/-- An event for the supervisor enters its handler (R316). -/
theorem enterHandler_inSupervisor {t : Thread} {code : BitVec 8} {addr : Word} (h : toSupervisor t code addr = true) (s : State) :
    InSupervisor t (enterHandler s t code addr) code addr := by
  constructor
  case eann0 | eann1 | eann2 => simp only [enterHandler_eann, getLsbD_eann]
  all_goals simp [enterHandler, entrySregs, handlerQueue, h]

/-- An event for the user trap entry enters the launch's handler (R313, R316). -/
theorem enterHandler_inUserTrap {t : Thread} {code : BitVec 8} {addr : Word} (h : toSupervisor t code addr = false) (s : State) :
    InUserTrap t (enterHandler s t code addr) code addr := by
  constructor <;> simp [enterHandler, entrySregs, handlerQueue, h]

/-- Outside a handler, an event raised by an instruction puts its thread in the handler and changes nothing but threads. -/
theorem raise_enters {s : State} (h : NotHandling s) (code : BitVec 8) (addr : Word) :
    ∃ t, raise code addr s = .next t ∧ t.th = enterHandler s s.th code addr ∧ ThreadsOnly s t := by
  have hd := detachFollowers_threadsOnly s s.here
  refine ⟨(detachFollowers s s.here).putThr s.here (enterHandler s s.th code addr), ?_, putThr_th_of_here hd.here.symm _,
    hd.trans (putThr_threadsOnly _ _ _)⟩
  simp [raise, takeEvent, h.1, h.2]

/-- An instruction whose outcome is an event of its own, other than SWTRAP and MCHECK, raises it to the supervisor. -/
theorem raisesSuper_of_raise {i : Instr} {s : State} {code : BitVec 8} {addr : Word} (h : exec i s = raise code addr s)
    (hn : NotHandling s) (hs : code ≠ evSwtrap) (hm : code ≠ 0x10) : RaisesSuper i s code addr := by
  obtain ⟨t, ht, hth, hk⟩ := raise_enters hn code addr
  exact ⟨t, h.trans ht, hth ▸ enterHandler_inSupervisor (toSupervisor_of_ne hs _ _) s, hk.mem, hk.core, by rw [if_neg hm, hk.sys], hk.here⟩

/-! ### Stepping the queue (R192) -/

/-- Taking messages leaves the register file alone: a held message stands with its binding (R72). -/
theorem takeMsgs_rf {s : State} {srcs : List Reg} (h : emptySource s.th srcs = none) : (takeMsgs s srcs).th.rf = s.th.rf := by
  rw [takeMsgs_th h]
  rfl

/-- Where only the thread in focus and what taking messages changes differ, and the queue has stepped, the instruction has transferred. -/
theorem transferred_withTh {s : State} {srcs : List Reg} {x : Thread} {target : Option Word} {annul : Bool}
    (thread : butRunning x = butRunning s.th) (taken : x.ch.binds = (messagesGone s.th srcs).ch.binds) (rotation : x.rot = .ready)
    (queue : x.pcq = stepQueue s.th.pcq target annul) : Transferred s ((takeMsgs s srcs).withTh x) srcs target annul where
  jumped :=
    { outside := .withTh _ x, thread := thread, taken := taken, rotation := rotation
      e0 := by simp [queue], e1 := by simp [queue], e2 := by simp [queue, seqNext, e2Len], repetitions := by simp [queue] }
  unbound h := by
    rw [takeMsgs_unbound h]
    exact .withTh s x

/-- An instruction that reads `srcs` and retires with a step of the queue has transferred. -/
theorem transferred_retireTh {s : State} {srcs : List Reg} (h : emptySource s.th srcs = none) (target : Option Word) (annul : Bool) :
    Transferred s ((takeMsgs s srcs).withTh (retireTh (takeMsgs s srcs).th .ready target annul)) srcs target annul := by
  rw [takeMsgs_th h]
  exact transferred_withTh (by rw [butRunning_retireTh, butRunning_messagesGone]) rfl rfl rfl

/-- An instruction that reads `srcs` and transfers control keeps the registers and steps the queue. -/
theorem completes_of_finishJump {i : Instr} {s : State} {srcs : List Reg} {target : Option Word} {annul : Bool}
    (h : emptySource s.th srcs = none) (he : exec i s = finishJump (takeMsgs s srcs) target annul) :
    Completes i s fun t => t.th.rf = s.th.rf ∧ Transferred s t srcs target annul :=
  ⟨_, he, takeMsgs_rf h, transferred_retireTh h target annul⟩

/-- A displacement is one in halfwords (R157). -/
theorem relTarget_eq_branchTarget {n : Nat} (s : State) (i : BitVec n) : relTarget s i = branchTarget s i := by
  rw [relTarget, branchTarget, immSigned, add_assoc, mul_two]

/-- A branch on a condition steps the queue to its target where the condition has the sense asked for, and otherwise in sequence (R194). -/
theorem branch_transfers {i : Instr} {s : State} {sense annul : Bool} {c : CReg} {k : BitVec 21}
    (he : exec i s = branch sense annul c k s) :
    Completes i s fun t => t.th.rf = s.th.rf ∧ Transferred s t []
      (if condReg s.th.rf c = sense then some (branchTarget s k) else none) (if condReg s.th.rf c = sense then false else annul) := by
  refine completes_of_finishJump rfl (he.trans ?_)
  rw [branch, relTarget_eq_branchTarget]
  split <;> rfl

/-! ### `rep` and `repr` (R198, R199) -/

/-- A repeat that reads `srcs` steps the queue in sequence and leaves `n` repetitions pending. -/
theorem completes_of_finishPrefix {i : Instr} {s : State} {srcs : List Reg} {n : Nat} (h : emptySource s.th srcs = none)
    (he : exec i s = finishPrefix (takeMsgs s srcs) n) :
    Completes i s fun t => t.th.rf = s.th.rf ∧ t.th.pcq.repLeft = n ∧ t.th.pcq.repDone = 0 ∧
      Transferred s (t.withTh { t.th with pcq := { t.th.pcq with repLeft := 0 } }) srcs none false :=
  ⟨_, he, takeMsgs_rf h, rfl, rfl, transferred_retireTh h none false⟩

/-- A thread whose next entry is annulled. -/
def annulNext (t : Thread) : Thread := { t with pcq := { t.pcq with e0 := { t.pcq.e0 with annul := true } } }

/-- What `repr` does once its register can be read: more than 1,024 is OPERAND, 0 annuls the next entry, any other count repeats (R199). -/
theorem exec_repr {s : State} {a : Reg} (h : Ready s [a] []) : exec (.repr a) s =
    if 1024 < (s.reg a).toNat then raise evOperand 0 s
    else if (s.reg a).toNat = 0 then .next ((takeMsgs s [a]).withTh (annulNext (retireTh (takeMsgs s [a]).th .ready none false)))
    else finishPrefix (takeMsgs s [a]) (s.reg a).toNat :=
  withRegs_ready h _

/-- What `jmpr` does once its register can be read: an odd target is ALIGN (R195). -/
theorem exec_jmpr {s : State} {a : Reg} (h : Ready s [a] []) : exec (.jmpr a) s =
    if (s.reg a).getLsbD 0 then raise evAlign (s.reg a) s else finishJump (takeMsgs s [a]) (some (s.reg a)) false :=
  withRegs_ready h _

/-- `repr` of 0 skips the next entry as though annulled (R199). -/
theorem repr_zero_annuls {s : State} {a : Reg} (h : Ready s [a] []) (hz : s.reg a = 0) :
    Completes (.repr a) s fun t => t.th.rf = s.th.rf ∧ t.th.pcq.e0 = ⟨s.th.pcq.e1.addr, true⟩ ∧ t.th.pcq.repLeft = 0 ∧
      OutsideKept (takeMsgs s [a]) t ∧ butRunning t.th = butRunning s.th := by
  refine ⟨(takeMsgs s [a]).withTh (annulNext (retireTh (takeMsgs s [a]).th .ready none false)), ?_, takeMsgs_rf h.1, ?_, rfl,
    .withTh _ _, ?_⟩
  · rw [exec_repr h, hz]
    rfl
  · rw [takeMsgs_th h.1]
    rfl
  · rw [takeMsgs_th h.1]
    exact butRunning_messagesGone s.th [a]

/-! ### `yield` (R38, R39, R203) -/

/-- Of a thread, a cooperative request that is taken changes the latches of the two requests alone. -/
theorem takeCooperative_restored (t : Thread) :
    { takeCooperative t with lat := { (takeCooperative t).lat with coop := t.lat.coop, preempt := t.lat.preempt } } = t := by
  unfold takeCooperative
  split <;> rfl

theorem takeCooperative_of_requested {t : Thread} (hc : t.lat.coop = true) (hs : t.sr.se = false) (hu : t.sr.ue = false)
    (hp : t.ch.pkt = 0) :
    takeCooperative t = { t with lat := { t.lat with coop := false, preempt := { pending := true, eligible := true } } } := by
  simp [takeCooperative, hc, hs, hu, hp]

theorem takeCooperative_of_not_requested {t : Thread} (h : t.lat.coop = false) : takeCooperative t = t := by
  simp [takeCooperative, h]

/-- A thread after `yield`, before a cooperative request is taken: it has stepped, its watchdog count is 0, and `yield` itself is not
counted (R39). -/
def yielded (t : Thread) : Thread :=
  let u := retireTh t .ready none false
  { u with id := { u.id with wdcount := 0 }, lat := t.lat }

/-- `yield` steps the queue, and but for the latches of the two requests it leaves what `yielded` says. -/
theorem yield_restored (s : State) :
    let t := s.withTh (takeCooperative (yielded s.th))
    t.withTh { t.th with lat := { t.th.lat with coop := s.th.lat.coop, preempt := s.th.lat.preempt } } = s.withTh (yielded s.th) :=
  congrArg s.withTh (takeCooperative_restored (yielded s.th))

theorem takeCooperative_rf (t : Thread) : (takeCooperative t).rf = t.rf := by
  unfold takeCooperative
  split <;> rfl

theorem takeCooperative_id (t : Thread) : (takeCooperative t).id = t.id := by
  unfold takeCooperative
  split <;> rfl

theorem yielded_transferred (s : State) : Transferred s (s.withTh (yielded s.th)) [] none false :=
  transferred_withTh (srcs := []) rfl (by rw [messagesGone_nil]; rfl) rfl rfl

/-! ### `trap` (R202) -/

/-- `trap` executes and then enters the handler: what is saved is the queue after its own step, and nothing but threads changes. -/
theorem trap_enters {s : State} (h : NotHandling s) (code : BitVec 8) :
    ∃ t, exec (.trap code) s = .next t ∧ ThreadsOnly s t ∧
      t.th = enterHandler (s.withTh (retireTh s.th .ready none false)) (retireTh s.th .ready none false) evSwtrap (zx code) := by
  obtain ⟨t, ht, hth, hk⟩ := raise_enters (s := s.withTh (retireTh s.th .ready none false)) h evSwtrap (zx code)
  exact ⟨t, ht, ⟨hk.agenda, hk.here, hk.core, hk.cores, hk.mem, hk.sys, hk.fresh⟩, hth⟩

/-- The address of SWTRAP is the code itself (R202). -/
theorem toNat_zx_code (code : BitVec 8) : (zx code : Word).toNat = code.toNat :=
  BitVec.toNat_setWidth_of_le (by decide)

/-! ### The obligations -/

/-- Settles O19: each transfer is a step of the queue by `finishJump`, `rep` and `repr` are one by `finishPrefix`; a refused operand is an event. -/
theorem transfersStepQueue : Obligations.TransfersStepQueue := by
  intro s c i j n a _
  refine ⟨?bt, ?bf, ?btN, ?bfN, completes_of_finishJump rfl ?jmp, completes_of_finishJump rfl rfl, ?jmpr, ?odd,
    completes_of_finishPrefix (srcs := []) rfl rfl, ?repr, fun h hz => repr_zero_annuls h hz, ?many⟩
  case bt => simpa using branch_transfers (i := .bt c i) (sense := true) rfl
  case bf => cases hv : condReg s.th.rf c <;> simpa [hv] using branch_transfers (s := s) (i := .bf c i) (sense := false) rfl
  case btN => simpa using branch_transfers (i := .btN c i) (sense := true) rfl
  case bfN => cases hv : condReg s.th.rf c <;> simpa [hv] using branch_transfers (s := s) (i := .bfN c i) (sense := false) rfl
  case jmp => exact congrArg (fun w => finishJump s (some w) false) (relTarget_eq_branchTarget s j)
  case jmpr => exact fun h he => completes_of_finishJump h.1 (by rw [exec_jmpr h, he]; rfl)
  case odd => exact fun h ho hn => raisesSuper_of_raise (by rw [exec_jmpr h, ho]; rfl) hn (by decide) (by decide)
  case repr =>
    intro h h1 h2
    exact completes_of_finishPrefix h.1 (by rw [exec_repr h, if_neg (by omega), if_neg (by omega)])
  case many => exact fun h h2 hn => raisesSuper_of_raise (by rw [exec_repr h, if_pos h2]; rfl) hn (by decide) (by decide)

/-- Settles O21: `yield` retires its thread and takes a cooperative request; `trap` enters a handler from the stepped queue, `brk` from
its own. -/
theorem yieldsAndTraps : Obligations.YieldsAndTraps := by
  intro s code
  refine ⟨?yield, ?super, ?user, fun hn => raisesSuper_of_raise rfl hn (by decide) (by decide)⟩
  case yield =>
    refine ⟨s.withTh (takeCooperative (yielded s.th)), rfl, takeCooperative_rf _, congrArg Ident.wdcount (takeCooperative_id _), ?_, ?_, ?_⟩
    · rw [yield_restored]
      exact yielded_transferred s
    · intro hc hn hp
      rw [State.withTh_th, takeCooperative_of_requested (t := yielded s.th) hc hn.1 hn.2 hp]
      exact ⟨rfl, rfl⟩
    · intro hc
      rw [State.withTh_th, takeCooperative_of_not_requested (t := yielded s.th) hc]
      exact ⟨rfl, hc⟩
  case super =>
    intro hn h
    obtain ⟨t, ht, hk, hth⟩ := trap_enters hn code
    exact ⟨t, ht, hth ▸ enterHandler_inSupervisor (toSupervisor_swtrap (by rwa [toNat_zx_code])) _, hk.mem, hk.core, hk.sys⟩
  case user =>
    intro hn h hu
    obtain ⟨t, ht, hk, hth⟩ := trap_enters hn code
    exact ⟨t, ht, hth ▸ enterHandler_inUserTrap (not_toSupervisor_swtrap (t := retireTh s.th .ready none false) (by rwa [toNat_zx_code]) hu) _, hk.mem, hk.core, hk.sys⟩

end Sys2Proof.Machine
end

section
/-! Returning from an event (R317), and the skip of an annulled entry at the head of the queue (R193). -/

namespace Sys2Proof.Machine

/-! ### What a return restores -/

/-- The queue that handler entry saved in the special registers, with a repetition that was pending (R316, R317). -/
def savedQueue (r : Sregs) : PcQueue :=
  { e0 := ⟨r.epc0, r.eann.getLsbD 0⟩, e1 := ⟨r.epc1, r.eann.getLsbD 1⟩, e2 := ⟨r.epc2, r.eann.getLsbD 2⟩
    repLeft := r.repc.toNat, repDone := if r.repc = 0 then 0 else r.rept.toNat }

/-- A thread that has returned from an event, with special registers `r` but for the repetition, which the queue now carries (R317). -/
def returnedTh (t : Thread) (r : Sregs) : Thread :=
  let u := retireTh t .ready none false
  { u with
    lat := { u.lat with saved := false, late := 0, stopping := false }
    sr := { r with repc := 0, rept := 0 }
    pcq := savedQueue t.sr }

/-- In `t`, the thread in focus of `s` has its saved queue back; its registers, memory, its core and the other threads are as before. -/
def QueueRestored (s t : State) : Prop :=
  t.th.pcq.e0 = ⟨s.th.sr.epc0, s.th.sr.eann.getLsbD 0⟩ ∧ t.th.pcq.e1 = ⟨s.th.sr.epc1, s.th.sr.eann.getLsbD 1⟩ ∧
  t.th.pcq.e2 = ⟨s.th.sr.epc2, s.th.sr.eann.getLsbD 2⟩ ∧ t.th.pcq.repLeft = s.th.sr.repc.toNat ∧
  t.th.pcq.repDone = (if s.th.sr.repc = 0 then 0 else s.th.sr.rept.toNat) ∧ t.th.rf = s.th.rf ∧ t.mem = s.mem ∧ t.core = s.core ∧
  t.others = s.others ∧ t.th.rot = .ready

theorem returnedTh_queueRestored (s : State) (r : Sregs) : QueueRestored s (s.withTh (returnedTh s.th r)) :=
  ⟨rfl, rfl, rfl, rfl, rfl, rfl, rfl, rfl, rfl, rfl⟩

/-- What a return restores depends neither on latches nor on the module. -/
theorem QueueRestored.of_lat_sys {s t : State} {l : Latches} {m : Module}
    (h : QueueRestored ((s.withSys m).withTh { s.th with lat := l }) t) : QueueRestored s t := h

/-! ### `rfe` (R268, R317) -/

/-- A supervisor's return goes to the level that was saved (R317). -/
theorem returnFromEvent_of_supervisor {s : State} (h : Supervisor s) :
    returnFromEvent s = .next (s.withTh (returnedTh s.th { s.th.sr with pl := s.th.sr.ppl, se := false })) := by
  simp [returnFromEvent, returnedTh, savedQueue, h]

/-- A user trap handler's return leaves the level alone (R317). -/
theorem returnFromEvent_of_userTrap {s : State} (h : s.th.sr.pl = false) (hu : s.th.sr.ue = true) :
    returnFromEvent s = .next (s.withTh (returnedTh s.th { s.th.sr with ue := false })) := by
  simp [returnFromEvent, returnedTh, savedQueue, h, hu]

/-- At user level outside a handler there is nothing to return from (R317). -/
theorem returnFromEvent_of_userLevel {s : State} (h : UserLevel s) : returnFromEvent s = raise evPriv s.th.pcq.e0.addr s := by
  obtain ⟨hl, -, hu⟩ := h
  simp [returnFromEvent, hl, hu]

/-- Leaving its unit running, a return changes latches of its thread and the module alone. -/
theorem staysRunning_eq_withTh_lat (s : State) : ∃ l m, staysRunning s = (s.withSys m).withTh { s.th with lat := l } := by
  unfold staysRunning
  split
  · exact ⟨_, _, rfl⟩
  · exact ⟨s.th.lat, s.sys, rfl⟩

/-- Only a supervisor's handler leaves a unit running that was to stop (R322). -/
theorem staysRunning_of_user {s : State} (h : s.th.sr.pl = false) : staysRunning s = s := by
  simp [staysRunning, h]

theorem exec_rfe_of_user {s : State} (h : s.th.sr.pl = false) : exec .rfe s = returnFromEvent s :=
  congrArg returnFromEvent (staysRunning_of_user h)

theorem rfe_of_supervisor {s : State} (h : Supervisor s) : Completes .rfe s fun t =>
    QueueRestored s t ∧ t.th.sr = { s.th.sr with pl := s.th.sr.ppl, se := false, repc := 0, rept := 0 } := by
  obtain ⟨l, m, hk⟩ := staysRunning_eq_withTh_lat s
  have hs : exec .rfe s = returnFromEvent ((s.withSys m).withTh { s.th with lat := l }) := congrArg returnFromEvent hk
  exact ⟨_, hs.trans (returnFromEvent_of_supervisor h), (returnedTh_queueRestored _ _).of_lat_sys, rfl⟩

theorem rfe_of_userTrap {s : State} (h : s.th.sr.pl = false) (hu : s.th.sr.ue = true) : Completes .rfe s fun t =>
    QueueRestored s t ∧ t.th.sr = { s.th.sr with ue := false, repc := 0, rept := 0 } ∧ t.sys = s.sys :=
  ⟨_, (exec_rfe_of_user h).trans (returnFromEvent_of_userTrap h hu), returnedTh_queueRestored s _, rfl, rfl⟩

theorem rfe_of_userLevel {s : State} (h : UserLevel s) : RaisesSuper .rfe s evPriv s.th.pcq.e0.addr :=
  raisesSuper_of_raise ((exec_rfe_of_user h.1).trans (returnFromEvent_of_userLevel h)) h.2 (by decide) (by decide)

/-! ### Skipping an annulled entry (R193) -/

/-- A fetch changes no thread (R2, R336). -/
theorem fetched_th (s : State) (va : Word) : (fetched s va).th = s.th := by
  unfold fetched
  split
  · rfl
  · split
    · rfl
    · rw [reachRead_reached, fillTlb_kept]
      rfl

/-- Where nothing comes before the head of the queue, a step is the turn of the thread in focus. -/
theorem AtHead.step_eq_act {s : State} (h : AtHead s) : step s = act s afterIssue afterTurn afterFree := by
  simp [step, h.running, h.resumes, h.due]

/-- An annulled head is skipped before any request is looked at (R193, R320). -/
theorem AtHead.chooseAction_of_annul {s : State} (h : AtHead s) (ha : s.th.pcq.e0.annul = true) : chooseAction s = skipAnnulled s := by
  obtain ⟨hb, hp⟩ := h.bound
  obtain ⟨hw, hd⟩ := h.deferred
  obtain ⟨hn, hbuf, hg, -⟩ := h.gang
  simp [chooseAction, completing, unacknowledged, hb, hp, h.ready.1, hw, hd, hn, hbuf, hg, ha]

/-- The thread after the skip of its head: the queue has stepped past an entry at `e2` whose first halfword is `h` (R192, R193). -/
def skippedTh (t : Thread) (h : Nat) : Thread :=
  { t with pcq := stepQueue { t.pcq with e2long := decide (h % 2 = 1) } none false }

theorem skippedTh_e0 (t : Thread) (h : Nat) : (skippedTh t h).pcq.e0 = t.pcq.e1 := by simp [skippedTh]

theorem skippedTh_e1 (t : Thread) (h : Nat) : (skippedTh t h).pcq.e1 = t.pcq.e2 := by simp [skippedTh]

theorem skippedTh_e2 (t : Thread) (h : Nat) : (skippedTh t h).pcq.e2 = ⟨t.pcq.e2.addr + (if h % 2 = 1 then 4 else 2), false⟩ := by
  simp [skippedTh, seqNext, e2Len]

/-- Once the halfword at `e2` can be fetched without a walk, the skip steps the queue. -/
theorem skipAnnulled_of_fetched {s : State} {h : Nat} (hw : walksFor s s.th.id.tenant s.th.pcq.e2.addr = false)
    (hf : fetchHalf s s.th s.th.sr.pl s.th.pcq.e2.addr = .ok h) :
    skipAnnulled s = .skip ((fetched s s.th.pcq.e2.addr).withTh (skippedTh s.th h)) := by
  rw [skipAnnulled, walkFirst, hw, hf]
  change Action.skip ((fetched s s.th.pcq.e2.addr).withTh (skippedTh (fetched s s.th.pcq.e2.addr).th h)) = _
  rw [fetched_th]

/-- A step that skips an annulled head does nothing but the fetch at `e2` and the step of the queue. -/
theorem AtHead.step_skips {s : State} {h : Nat} (hs : AtHead s) (ha : s.th.pcq.e0.annul = true)
    (hw : walksFor s s.th.id.tenant s.th.pcq.e2.addr = false) (hf : fetchHalf s s.th s.th.sr.pl s.th.pcq.e2.addr = .ok h) :
    step s = .next ((fetched s s.th.pcq.e2.addr).withTh (skippedTh s.th h)) := by
  rw [hs.step_eq_act, act, hs.chooseAction_of_annul ha, skipAnnulled_of_fetched hw hf]

/-! ### The obligation -/

/-- Settles O22: `rfe` from each level is one case of `returnFromEvent`; an annulled head is what the turn comes to before any request. -/
theorem rfeReturnsFromEvent : Obligations.ReturnFromEvent := by
  intro s
  exact ⟨rfe_of_supervisor, rfe_of_userTrap, rfe_of_userLevel, fun h hs ha hw hf =>
    ⟨_, hs.step_skips ha hw hf, skippedTh_e0 _ _, skippedTh_e1 _ _, skippedTh_e2 _ _, rfl⟩⟩

end Sys2Proof.Machine
end
